-- ==== Sys2Proof/Word.lean ====
section
/-! DEFINITION. The words of the machine and their plainest reading (spec 00_scope R11: bit 0 is the least
significant bit, every value is unsigned). -/

namespace Sys2Proof

/-- One byte of a buffer, of the flash, of a frame. -/
abbrev Byte := BitVec 8

/-- One 32-bit register or command word (spec 10_state R42, 30_encoding R110). -/
abbrev Word := BitVec 32

end Sys2Proof
end

