-- ==== Sys2Proof/Config.lean ====
section
/-! DEFINITION. What does not change while the machine runs: the constants the spec fixes (00_scope R9), the
record of parameters it leaves to the implementation (00_scope R10), and the free values, which have no body. -/

namespace Sys2Proof

/-- The nine JTAG instruction values the scripts send (spec 30_encoding R122, decision D34: OPEN). -/
structure JtagOps where
  readIdcode : Byte
  preload : Byte
  iscEnable : Byte
  lscReadStatus : Byte
  iscErase : Byte
  bypass : Byte
  lscProgSpi : Byte
  iscDisable : Byte
  lscRefresh : Byte
deriving DecidableEq, Repr, Inhabited

/-- The six flash command values (spec 30_encoding R126, decision D35: OPEN). -/
structure FlashOps where
  wren : Byte
  wrdi : Byte
  rdsr : Byte
  erase : Byte
  pageProgram : Byte
  fastRead : Byte
deriving DecidableEq, Repr, Inhabited

/-- A pair (cycles, duration in ticks), as CFG_WAIT and REFRESH_WAIT (spec 00_scope R10). -/
structure IdleWait where
  cycles : Nat
  ticks : Nat
deriving DecidableEq, Repr, Inhabited

/-- A pair (attempts, delay in ticks), as ERASE_POLL and WRITE_POLL (spec 00_scope R10). -/
structure PollBudget where
  attempts : Nat
  delay : Nat
deriving DecidableEq, Repr, Inhabited

/-- The choice of the predicate ERASE_SAFE (spec 44 R254, decision D25: OPEN). `implementation` is the
uninterpreted predicate `Config.eraseSafe`; S0, S1, S2 are the three candidate readings the spec tabulates. -/
inductive EraseSafe where
  | implementation
  | s0
  | s1
  | s2
deriving DecidableEq, Repr, Inhabited

/-- STATUS_BITS, the length of the status scan of OPENCFG: R10 allows one value (spec 00_scope R10, decision D28). -/
inductive StatusBits where
  | bits32
deriving DecidableEq, Repr, Inhabited

/-- The number of bits. -/
def StatusBits.count : StatusBits → Nat
  | .bits32 => 32

/-- SR_BITS, the length of the flash's status: R10 allows one value (spec 00_scope R10, decision D19). -/
inductive SrBits where
  | bits8
deriving DecidableEq, Repr, Inhabited

/-- The number of bits. -/
def SrBits.count : SrBits → Nat
  | .bits8 => 8

/-- The configuration record (spec 00_scope R10), fixed at construction (70 R322). -/
structure Params where
  /-- ERASE_BLOCK, bytes. -/
  eraseBlock : Nat
  /-- WRITE_BLOCK, bytes. -/
  writeBlock : Nat
  /-- USE_BURST: the backend has the SPI peripheral. -/
  useBurst : Bool
  /-- BUF_BYTES. -/
  bufBytes : Nat
  /-- STATUS_BITS. -/
  statusBits : StatusBits
  /-- SR_BITS. -/
  srBits : SrBits
  /-- FLASH_READ_DUMMY_BYTES. -/
  dummyBytes : Nat
  /-- OP_*. -/
  op : JtagOps
  /-- FC_*. -/
  fc : FlashOps
  /-- SR_WIP, a mask in the flash status register. -/
  srWip : Byte
  /-- SR_WEL, a mask in the flash status register. -/
  srWel : Byte
  /-- PROG_SPI_WORD, read as a number, bit 0 sent first. -/
  progSpiWord : Nat
  /-- PROG_SPI_BITS. -/
  progSpiBits : Nat
  /-- CFG_WAIT. -/
  cfgWait : IdleWait
  /-- REFRESH_WAIT. -/
  refreshWait : IdleWait
  /-- ERASE_POLL. -/
  erasePoll : PollBudget
  /-- WRITE_POLL. -/
  writePoll : PollBudget
  /-- ERASE_SAFE. -/
  eraseSafe : EraseSafe
deriving DecidableEq, Repr, Inhabited

namespace Config

/-! ### Parameters the source fixes (spec 00_scope R9) -/

/-- N_TAP_STATES: TAP states tracked. -/
def nTapStates : Nat := 16
/-- RESET_CLOCKS: TCK pulses with TMS=1 in RESET. -/
def resetClocks : Nat := 6
/-- IR_BITS: length of every JTAG instruction of a script. -/
def irBits : Nat := 8
/-- IDCODE_BITS: length of IDENTIFY's data scan. -/
def idcodeBits : Nat := 32
/-- IDENT_IDLE_CYCLES: idle cycles after the reset of a script. -/
def identIdleCycles : Nat := 1
/-- PRELOAD_BITS: all-ones bits shifted after PRELOAD. -/
def preloadBits : Nat := 64
/-- LONG_IDLE_CYCLES: the long idles of OPENFLASH and CLOSE. -/
def longIdleCycles : Nat := 32
/-- FLASH_ADDR_BITS: width of a flash address. -/
def flashAddrBits : Nat := 24
/-- ERASED_BYTE: every flash byte after an erase. -/
def erasedByte : Byte := 0xFF#8
/-- RETRY_MAX: program attempts a chunk of UPLOAD gets. -/
def retryMax : Nat := 3
/-- MASK_STATUS_A: the mask of OPENCFG's first status check. -/
def maskStatusA : Word := 0x24040#32
/-- MASK_STATUS_B: the mask of OPENCFG's second status check. -/
def maskStatusB : Word := 0xB000#32
/-- MASK_STATUS_C: listed by the source; no operation of the spec uses it (30_encoding R124). -/
def maskStatusC : Word := 0xC100#32
/-- SPI_CPOL: the peripheral's clock polarity (00_scope R9). -/
def spiCpol : Bool := true
/-- SPI_CPHA: the peripheral's clock phase (00_scope R9). -/
def spiCpha : Bool := true

/-- The number of flash addresses, 2^24 (spec 20_memory R74). -/
def flashBytes : Nat := 2 ^ flashAddrBits

/-! ### Free values: nothing in Lean can evaluate them (log entries 4 to 9, 18) -/

/-- The TDO sample of the n-th pulse whose sample the state does not list (93 U4). -/
opaque tdoSample : Nat → Bool

/-- How far the wall clock moves, beyond one tick, before the n-th answer the state does not list (93 U5). -/
opaque clockAdvance : Nat → Nat

/-- How many bytes the upload source offers at its n-th unlisted answer (93 U6). -/
opaque sourceOffer : Nat → Nat

/-- The n-th byte that an endless upload source gives and the state does not list (20_memory R78, 70 R337). -/
opaque sourceByte : Nat → Byte

/-- What the n-th host read of an unspecified value returns (93 U2, U9). -/
opaque hostReadValue : Nat → Word

/-- The byte at address a of BUF after the n-th hardware reset (93 U1). -/
opaque bufAtReset : Nat → Nat → Byte

/-- ERASE_SAFE as an uninterpreted predicate on (flash bytes, image bytes) (44 R254, 93 U13). -/
opaque eraseSafe : List Byte → List Byte → Bool

/-- The configuration record this block was constructed with (00_scope R10, 93 U14). -/
opaque implementation : Params

/-- The test configuration TC0 of 95_test_vectors 0.2; also what stands in `ofImplementation` for a record no
block can be constructed from. -/
def tc0 : Params where
  eraseBlock := 4096
  writeBlock := 256
  useBurst := true
  bufBytes := 8192
  statusBits := .bits32
  srBits := .bits8
  dummyBytes := 0
  op := { readIdcode := 0xE0#8, preload := 0x1C#8, iscEnable := 0xC6#8, lscReadStatus := 0x3C#8,
          iscErase := 0x0E#8, bypass := 0xFF#8, lscProgSpi := 0x3A#8, iscDisable := 0x26#8,
          lscRefresh := 0x79#8 }
  fc := { wren := 0x06#8, wrdi := 0x04#8, rdsr := 0x05#8, erase := 0x20#8, pageProgram := 0x02#8,
          fastRead := 0x0B#8 }
  srWip := 0x01#8
  srWel := 0x02#8
  progSpiWord := 0xFE68
  progSpiBits := 16
  cfgWait := { cycles := 2, ticks := 0 }
  refreshWait := { cycles := 2, ticks := 0 }
  erasePoll := { attempts := 4, delay := 5 }
  writePoll := { attempts := 4, delay := 1 }
  eraseSafe := .s0

/-- The small geometry TC1 of 95_test_vectors 0.2. -/
def tc1 : Params := { tc0 with eraseBlock := 16, writeBlock := 4 }

end Config

end Sys2Proof
end

