-- ==== Sys2Proof/Syntax.lean ====
section
/-! DEFINITION. The commands of the block: one constructor per row of spec/opcode_table.json
(spec 30_encoding R113). The operands that stand in the command word are fields; all others are read from the
operand registers (R110, R116). -/

namespace Sys2Proof

/-- A command of spec 30_encoding R113. -/
inductive Instr where
  /-- ACQUIRE, 60 R291. -/
  | acquire
  /-- RELEASE, 60 R292. -/
  | release
  /-- SHIFTBIT, 40 R152, with the levels F_TDI and F_TMS. -/
  | shiftbit (tdi tms : Bool)
  /-- SETTMS, 40 R153, with the level F_TMS. -/
  | settms (tms : Bool)
  /-- REV8, 40 R161. -/
  | rev8
  /-- RESET, 41 R172: reset of the target's TAP, not of the block. -/
  | reset
  /-- IDLE, 41 R174. -/
  | idle
  /-- SIR, 41 R178, with the option F_IDLE. -/
  | sir (idleTail : Bool)
  /-- SDR, 41 R180, with the options F_CAPTURE, F_IDLE, F_PAUSE. -/
  | sdr (capture idleTail pause : Bool)
  /-- CHECK, 41 R184. -/
  | check
  /-- BURSTWR, 42 R207. -/
  | burstwr
  /-- BURSTRD, 42 R209. -/
  | burstrd
  /-- IDENTIFY, 43 R222. -/
  | identify
  /-- OPENCFG, 43 R224. -/
  | opencfg
  /-- OPENFLASH, 43 R226. -/
  | openflash
  /-- CLOSE, 43 R228. -/
  | close
  /-- POLL, 44 R243. -/
  | poll
  /-- ERASE, 44 R245. -/
  | erase
  /-- WRITE, 44 R248. -/
  | write
  /-- READ, 44 R250. -/
  | read
  /-- UPLOAD, 44 R255. -/
  | upload
deriving DecidableEq, Repr

end Sys2Proof
end

