-- ==== Sys2Proof/WellFormed.lean ====
section
/-! DEFINITION. What is well formed: a command word (spec 30_encoding R111, R113, R114) and a configuration
record (spec 00_scope R10, 93 U8). A term of `Instr` carries only the bits its command uses, so every term is a
command; what can be ill formed is the word it is read from. -/

namespace Sys2Proof

/-- The field OP of a command word: bits 7:0 (spec 30_encoding R111). -/
def CommandWord.op (w : Word) : Nat := (w.extractLsb' 0 8).toNat

/-- The listed operation codes (spec 30_encoding R113). -/
def CommandWord.listedOps : List Nat :=
  [0x01, 0x02, 0x03, 0x04, 0x05, 0x10, 0x11, 0x12, 0x13, 0x14, 0x20, 0x21, 0x30, 0x31, 0x32, 0x33,
   0x40, 0x41, 0x42, 0x43, 0x44]

/-- Check 1: OP is one of the listed codes (spec 30_encoding R114). -/
def CommandWord.opListed (w : Word) : Bool := CommandWord.listedOps.contains (CommandWord.op w)

/-- Check 2: the reserved bits 31:13 are 0 (spec 30_encoding R111). -/
def CommandWord.reservedClear (w : Word) : Bool := w.extractLsb' 13 19 == 0#19

/-- The option flags a command uses, as a mask over bits 12:8 of the word (spec 30_encoding R113, column
"flags used"): F_CAPTURE is bit 0, F_IDLE 1, F_PAUSE 2, F_TMS 3, F_TDI 4. -/
def CommandWord.usedFlags (op : Nat) : BitVec 5 :=
  if op = 0x03 then 0b11000#5
  else if op = 0x04 then 0b01000#5
  else if op = 0x12 then 0b00010#5
  else if op = 0x13 then 0b00111#5
  else 0#5

/-- Check 3: a flag the command does not use is 0 (spec 30_encoding R111). -/
def CommandWord.unusedFlagsClear (w : Word) : Bool :=
  (w.extractLsb' 8 5 &&& ~~~ CommandWord.usedFlags (CommandWord.op w)) == 0#5

/-- A command word spells a command iff all three checks hold (spec 30_encoding R111, R113, R114). -/
def CommandWord.wellFormed (w : Word) : Bool :=
  CommandWord.opListed w && CommandWord.reservedClear w && CommandWord.unusedFlagsClear w

/-- The nine JTAG instruction values are all distinct (spec 00_scope R10). -/
def JtagOps.distinct (o : JtagOps) : Bool :=
  decide ([o.readIdcode, o.preload, o.iscEnable, o.lscReadStatus, o.iscErase, o.bypass, o.lscProgSpi,
    o.iscDisable, o.lscRefresh].Nodup)

/-- The six flash command values are all distinct (spec 00_scope R10). -/
def FlashOps.distinct (o : FlashOps) : Bool :=
  decide ([o.wren, o.wrdi, o.rdsr, o.erase, o.pageProgram, o.fastRead].Nodup)

/-- The mask has exactly one bit set (spec 00_scope R10, SR_WIP and SR_WEL). -/
def Byte.oneBit (b : Byte) : Bool := (List.range 8).any fun i => b == 1#8 <<< i

/-- The block sizes: ERASE_BLOCK divides 2^24 (so it is a power of two), WRITE_BLOCK divides ERASE_BLOCK
(spec 00_scope R10, decision D22). -/
def Params.blocksFit (p : Params) : Bool :=
  decide (0 < p.eraseBlock) && decide (Config.flashBytes % p.eraseBlock = 0) &&
  decide (0 < p.writeBlock) && decide (p.eraseBlock % p.writeBlock = 0)

/-- A record a block can be constructed from (spec 00_scope R10, 93 U8). The bounds below 2^32 are the widths of
the counters CYCCNT, ATTEMPT and DRLEN (spec 10_state R34, R48, R51). -/
def Params.valid (p : Params) : Bool :=
  p.blocksFit && decide (8 ≤ p.bufBytes) && p.op.distinct && p.fc.distinct &&
  Byte.oneBit p.srWip && Byte.oneBit p.srWel && (p.srWip &&& p.srWel == 0#8) &&
  decide (1 ≤ p.progSpiBits) && decide (p.progSpiBits < 2 ^ 32) &&
  decide (p.cfgWait.cycles < 2 ^ 32) && decide (p.refreshWait.cycles < 2 ^ 32) &&
  decide (1 ≤ p.erasePoll.attempts) && decide (p.erasePoll.attempts < 2 ^ 32) &&
  decide (1 ≤ p.writePoll.attempts) && decide (p.writePoll.attempts < 2 ^ 32)

/-- The record of the constructed block: the uninterpreted one where it is legal (spec 93 U8: no block is
constructed from any other, so the other branch stands for no block; log entry 7). -/
def Config.ofImplementation : Params :=
  if Config.implementation.valid then Config.implementation else Config.tc0

end Sys2Proof
end

