-- ==== Sys2Proof/Machine/State.lean ====
section
/-! DEFINITION. The state of the block, as plain data: every register of spec 10_state, the buffer of spec
20_memory R72, the ghost trace of 10_state R58, the parameters of the step relation of 10_state R53 (configuration
and environment), and the host port, which is the model's own. Reset is spec 10_state R59. -/

namespace Sys2Proof.Machine

/-! ### Names -/

/-- The sixteen TAP states, in the order of their encoding (spec 10_state R27). -/
inductive TapState where
  | reset | idle | selectDRScan | selectIRScan | captureDR | captureIR | shiftDR | shiftIR
  | exit1DR | exit1IR | pauseDR | pauseIR | exit2DR | exit2IR | updateDR | updateIR
deriving DecidableEq, Repr

/-- PATH (spec 10_state R23). Its value 3 never occurs, so it has no constructor. -/
inductive Path where
  | released
  | bitBang
  | burst
deriving DecidableEq, Repr

/-- DEVMODE (spec 10_state R32). Its value 3 never occurs, so it has no constructor. -/
inductive DevMode where
  | idle
  | configuredForSRAM
  | configuredForFlash
deriving DecidableEq, Repr

/-- What ERR.CODE can hold (spec 60 R281). Code 1, ProtocolMismatch, is never a code, and 11 to 15 are never
produced, so they have no constructor. -/
inductive ErrorKind where
  | ok
  | alignmentError
  | statusTimeout
  | programFailure
  | unerasableImage
  | illegalCommand
  | tapSequenceError
  | sessionError
  | operandError
  | addressRangeError
deriving DecidableEq, Repr

/-- CLASS, the four outcomes of a comparison (spec 44 R253, codes of 10_state R48). -/
inductive Classification where
  | noOp
  | writeOnly
  | eraseThenWrite
  | unerasable
deriving DecidableEq, Repr

/-- Which driver made a pulse (spec 00_scope R8). -/
inductive Driver where
  | bb
  | spi
deriving DecidableEq, Repr

/-! ### Registers, grouped by the component that owns them (spec 10_state R20) -/

/-- PATH and the level registers (spec 10_state R22, R23). -/
structure Pins where
  path : Path
  tck : Bool
  tms : Bool
  tdi : Bool
deriving DecidableEq, Repr

/-- The TAP state tracker (spec 10_state R27, R28). -/
structure Tracker where
  state : TapState
  known : Bool
  ones : BitVec 3
deriving DecidableEq, Repr

/-- The shift banks and the bit counter (spec 10_state R33, R34, R37). -/
structure Banks where
  irsr : Word
  drbits : List Bool
  drcap : List Bool
  drlen : Nat
  bitcnt : Nat
deriving DecidableEq, Repr

/-- The eleven operand registers R_ADDR to R_DLY (spec 10_state R24). -/
structure OperandRegs where
  addr : Word
  len : Word
  buf : Word
  val : Word
  exp : Word
  mask : Word
  cyc : Word
  dur : Word
  pause : Word
  att : Word
  dly : Word
deriving DecidableEq, Repr

/-- BUSY, SEQ and the two fields of ERR (spec 10_state R39, R40, R45). `seq` is the command being run. -/
structure Control where
  busy : Bool
  seq : Option Instr
  err : ErrorKind
  info : BitVec 24
deriving DecidableEq, Repr

/-- FLAGS; its bits 31:2 are reserved and read 0 (spec 10_state R46). -/
structure Flags where
  mismatch : Bool
  timeout : Bool
deriving DecidableEq, Repr

/-- The UploadStats counters ST_* (spec 10_state R49). -/
structure Stats where
  bytes : Word
  blocks : Word
  erased : Word
  written : Word
  skipped : Word
  elapsed : Word
deriving DecidableEq, Repr

/-- UPLOAD's working registers and its two buffers (spec 10_state R48, R50). `chunk` and `scratch` list the bytes
written since reset, from offset 0 on; the bytes after them have never been written (log entry 10). -/
structure Work where
  faddr : Nat
  chunklen : Nat
  retry : Nat
  cls : Classification
  didErase : Bool
  didWrite : Bool
  tStart : Nat
  chunk : List Byte
  scratch : List Byte
deriving DecidableEq, Repr

/-- DEADLINE, CYCCNT and ATTEMPT (spec 10_state R48, R51). -/
structure Counters where
  deadline : Nat
  cyccnt : Nat
  attempt : Nat
deriving DecidableEq, Repr

/-- BUF as (address, byte) pairs, addresses strictly rising; an unlisted address has not been written since reset
and has no value a command may read (spec 20_memory R73, 93 U1, log entry 9). -/
abbrev Memory := List Host.Cell

/-! ### The trace (spec 10_state R58) -/

/-- An event of the trace. -/
inductive Event where
  /-- `Pulse(path, tms, tdi, tdo)`: one TCK pulse. -/
  | pulse (driver : Driver) (tms tdi tdo : Bool)
  /-- `Path(p)`: PATH became p; no TCK edge. -/
  | path (p : Path)
  /-- `Wait(d)`: no pulse for at least d ticks. -/
  | wait (ticks : Nat)
  /-- `Log(Mismatch, response, expected, mask)`. -/
  | mismatch (response expected mask : Word)
  /-- `Src(n, answer)`: the source was asked for n bytes; `none` is EOS. -/
  | src (asked : Nat) (answer : Option (List Byte))
  /-- `Progress(stats)`. -/
  | progress (stats : Stats)
  /-- `Done(code, info)`. -/
  | done (code : BitVec 4) (info : BitVec 24)
deriving DecidableEq, Repr

/-! ### The environment (spec 10_state R53) -/

/-- The flash of the reference target (spec 20_memory R94). `mem` lists the bytes that differ from 0xFF.
`refBusy` is REF_BUSY, `none` for infinite (R95). `dropWren` and `dropPrograms` are the two faulty flashes of
95_test_vectors 2.6.2 and 2.6.6 U8: one that ignores write-enable, one that drops that many program frames. -/
structure RefFlash where
  mem : Memory
  wel : Bool
  wip : Bool
  busyReads : Nat
  refBusy : Option Nat
  dropWren : Bool
  dropPrograms : Nat
deriving DecidableEq, Repr

/-- The reference target (spec 20_memory R91 to R93). `dsr` has its bit 0 first, `frame` the newest bit first. -/
structure RefTarget where
  ts : TapState
  ir : Byte
  isr : Byte
  dsr : List Bool
  preload : List Bool
  progSpi : List Bool
  through : Bool
  frame : List Bool
  flash : RefFlash
  refId : Word
  refStatus : Word
deriving DecidableEq, Repr

/-- The target as the block meets it: a TDO oracle (spec 40 R155). -/
inductive Target where
  /-- Any answers at all: those listed first, then free values (`drawn` counts them). -/
  | samples (coming : List Bool) (drawn : Nat)
  /-- The reference target of spec 20_memory R90. -/
  | reference (t : RefTarget)
deriving DecidableEq, Repr

/-- The wall clock (spec 60 R296). -/
inductive Clock where
  /-- Any monotone clock that passes every bound: the coming answers lie `ahead` of the ones before them, and
  after those each answer is later by one tick and a free value (`asked` counts them). -/
  | free (time : Nat) (ahead : List Nat) (asked : Nat)
  /-- The test clock of 95_test_vectors 0.3: one tick a pulse. -/
  | test (time : Nat)
deriving DecidableEq, Repr

/-- The bytes an upload source has still to give (spec 20_memory R78, 70 R337): the listed ones, and, if it is endless,
after them one free value after another (`drawn` counts them). -/
structure ByteStream where
  content : List Byte
  endless : Bool
  drawn : Nat
deriving DecidableEq, Repr

/-- The upload source (spec 20_memory R78): the bytes still to come and how it will split them. -/
structure Source where
  stream : ByteStream
  offers : List Nat
  asked : Nat
deriving DecidableEq, Repr

/-- The environment: target, wall clock, upload source (spec 00_scope R7 c, d). -/
structure Env where
  target : Target
  clock : Clock
  source : Source
deriving DecidableEq, Repr

/-! ### The host port (the model's own, log entries 1 to 3) -/

/-- One access of the host: `width` bits at byte offset `off` (spec 10_state R42), or the reset input (70 R320). -/
inductive Access where
  | read (width off : Nat)
  | write (width off : Nat) (value : Word)
  | reset
deriving DecidableEq, Repr

/-- One thing that reaches the block between commands. -/
inductive Input where
  | access (a : Access)
  /-- An upload source is attached to the source port (spec 20_memory R78: a parameter of UPLOAD). -/
  | attachSource (content : List Byte) (endless : Bool) (offers : List Nat)
deriving DecidableEq, Repr

/-- A hardware reset that arrived while a command ran: the environment as it was then, and the accesses still to
come (spec 70 R323, log entry 3). -/
structure Cut where
  env : Env
  during : List (Nat × Access)
deriving DecidableEq, Repr

/-- What the outside does. `during` holds accesses that arrive while a command runs, each with the number of
events that pass before it; `reads` the answers to host reads, newest first; `draws` counts the free values handed
to host reads; `resets` the hardware resets so far. -/
structure HostPort where
  inputs : List Input
  during : List (Nat × Access)
  reads : List (Nat × Word)
  draws : Nat
  resets : Nat
  cut : Option Cut
deriving DecidableEq, Repr

/-! ### State and reset -/

/-- The whole state. `trace` has the newest event first. -/
structure State where
  cfg : Params
  pins : Pins
  tap : Tracker
  devmode : DevMode
  banks : Banks
  regs : OperandRegs
  res : Word
  ctl : Control
  flags : Flags
  fsr : Byte
  stats : Stats
  work : Work
  counters : Counters
  buf : Memory
  trace : List Event
  env : Env
  port : HostPort
deriving DecidableEq, Repr

/-- Why the machine stops. -/
inductive Fault where
  /-- A command reads a byte of BUF that nothing has written since reset (spec 20_memory R73, 70 R325 item 2,
  93 U1: "treats the read as a fault of the run"). Raised by REV8, SDR, BURSTWR and WRITE. Safe: the block itself
  would go on with an unspecified byte. -/
  | bufNeverWritten
deriving DecidableEq, Repr

/-- Why an instruction has no meaning here. -/
inductive Refusal where
  /-- The instruction is not modelled. No arm of `exec` answers with it: every command has its meaning. Safe. -/
  | notModelled (mnemonic : String)
deriving DecidableEq, Repr

/-- All six statistics at 0 (spec 10_state R49, R59). -/
def Stats.zero : Stats :=
  { bytes := 0#32, blocks := 0#32, erased := 0#32, written := 0#32, skipped := 0#32, elapsed := 0#32 }

/-- The state right after hardware reset (spec 10_state R59), for a block constructed with `p`, before an
environment and a host port. -/
def State.resetWith (p : Params) (env : Env) (port : HostPort) : State where
  cfg := p
  pins := { path := .released, tck := true, tms := true, tdi := false }
  tap := { state := .reset, known := false, ones := 0#3 }
  devmode := .idle
  banks := { irsr := 0#32, drbits := [], drcap := [], drlen := 0, bitcnt := 0 }
  regs := { addr := 0#32, len := 0#32, buf := 0#32, val := 0#32, exp := 0#32, mask := 0#32, cyc := 0#32,
            dur := 0#32, pause := 0#32, att := 0#32, dly := 0#32 }
  res := 0#32
  ctl := { busy := false, seq := none, err := .ok, info := 0#24 }
  flags := { mismatch := false, timeout := false }
  fsr := 0#8
  stats := Stats.zero
  work := { faddr := 0, chunklen := 0, retry := 0, cls := .noOp, didErase := false, didWrite := false,
            tStart := 0, chunk := [], scratch := [] }
  counters := { deadline := 0, cyccnt := 0, attempt := 0 }
  buf := []
  trace := []
  env := env
  port := port

/-- An environment of which nothing is listed: every TDO sample and every advance of the clock is a free value, the
source is at its end (log entries 4 to 6). -/
def Env.unlisted : Env where
  target := .samples [] 0
  clock := .free 0 [] 0
  source := { stream := { content := [], endless := false, drawn := 0 }, offers := [], asked := 0 }

/-- A host port with nothing to do. -/
def HostPort.quiet : HostPort where
  inputs := []
  during := []
  reads := []
  draws := 0
  resets := 0
  cut := none

/-- The machine right after reset (spec 10_state R59, 70 R320 to R322). -/
def State.reset : State := State.resetWith Config.ofImplementation Env.unlisted HostPort.quiet

end Sys2Proof.Machine
end

