-- ==== Sys2Proof/Machine/Bits.lean ====
section
/-! DEFINITION. Bit sequences, bytes and words (spec 00_scope R12 to R14, 40 R160). -/

namespace Sys2Proof.Machine

/-- The bits of a byte in bit-transport order, bit 0 first (spec 00_scope R12). -/
def byteBits (b : Byte) : List Bool := (List.range 8).map b.getLsbD

/-- `bitsOf(B, n)`: the first n bits of a byte list in bit-transport order (spec 00_scope R12). -/
def bitsOf (bytes : List Byte) (n : Nat) : List Bool := (bytes.flatMap byteBits).take n

/-- The n bits of a number, bit 0 first (spec 20_memory R80). -/
def numberBits (n v : Nat) : List Bool := (List.range n).map v.testBit

/-- `wordOf`: the first bit is bit 0 (spec 00_scope R14). -/
def wordOf : List Bool → Nat
  | [] => 0
  | b :: bs => b.toNat + 2 * wordOf bs

/-- The byte whose bit i is the i-th bit of the list (spec 00_scope R12). -/
def byteOf (bits : List Bool) : Byte := BitVec.ofNat 8 (wordOf bits)

/-- The first n bytes stored in a bit sequence, bit i in byte i div 8 at position i mod 8 (spec 00_scope R12). -/
def packBytes : Nat → List Bool → List Byte
  | 0, _ => []
  | n + 1, bits => byteOf (bits.take 8) :: packBytes n (bits.drop 8)

/-- `rev8(b)`: bit i is bit 7-i of b (spec 00_scope R13). -/
def rev8 (b : Byte) : Byte := byteOf (byteBits b).reverse

/-- `capturedWord`: the first sample is bit 0 (spec 41 R185). -/
def capturedWord (cap : List Bool) : Word := BitVec.ofNat 32 (wordOf cap)

/-- The bytes that hold n bits, `ceil(n / 8)` (spec 44 R267 d). -/
def bytesForBits (n : Nat) : Nat := (n + 7) / 8

end Sys2Proof.Machine
end

