-- ==== Sys2Proof/Machine/Memory.lean ====
section
/-! DEFINITION. Byte memories as lists of cells in one canonical form: BUF (spec 20_memory R72, R73), CHUNK and
SCRATCH as the bytes written so far (10_state R50), and the reference flash (20_memory R94). -/

namespace Sys2Proof.Machine

/-- The canonical form: addresses strictly rising (so no address twice). An unlisted address of BUF has no value,
so no entry can equal what an unlisted address reads as. -/
def Memory.wf (m : Memory) : Bool := decide ((m.map Prod.fst).Pairwise (· < ·))

/-- The byte at an address; `none` where nothing has written it (spec 20_memory R73). -/
def Memory.read : Memory → Nat → Option Byte
  | [], _ => none
  | (k, b) :: m, a => if k = a then some b else Memory.read m a

/-- Write one byte, keeping the canonical form. -/
def Memory.write : Memory → Nat → Byte → Memory
  | [], a, b => [(a, b)]
  | (k, c) :: m, a, b =>
    if a < k then (a, b) :: (k, c) :: m
    else if a = k then (a, b) :: m
    else (k, c) :: Memory.write m a b

/-- The n bytes from `base` on; `none` if nothing has written one of them (spec 93 U1). -/
def Memory.readRange (m : Memory) (base : Nat) : Nat → Option (List Byte)
  | 0 => some []
  | n + 1 =>
    match Memory.read m base, Memory.readRange m (base + 1) n with
    | some b, some bs => some (b :: bs)
    | _, _ => none

/-- Write bytes from `base` on (spec 20_memory R72: ranges never wrap). -/
def Memory.writeRange (m : Memory) (base : Nat) : List Byte → Memory
  | [] => m
  | b :: bs => Memory.writeRange (Memory.write m base b) (base + 1) bs

/-- Forget the bytes of `[base, base + n)`. -/
def Memory.forget (m : Memory) (base n : Nat) : Memory :=
  m.filter fun c => !(decide (base ≤ c.1) && decide (c.1 < base + n))

/-- Overwrite an internal buffer from `off` on (spec 44 R256 `CHUNK[CHUNKLEN ..] <- ans`, R257). -/
def splice (off : Nat) (bytes buffer : List Byte) : List Byte :=
  buffer.take off ++ bytes ++ buffer.drop (off + bytes.length)

/-- The reference flash lists only bytes that differ from 0xFF (spec 20_memory R94: initially 0xFF in the tests). -/
def flashRead (m : Memory) (a : Nat) : Byte := (Memory.read m a).getD Config.erasedByte

/-- Store a byte in the reference flash, keeping its canonical form: an erased byte is unlisted. -/
def flashStore (m : Memory) (a : Nat) (b : Byte) : Memory :=
  if b = Config.erasedByte then Memory.forget m a 1 else Memory.write m a b

/-- The canonical form of the reference flash. -/
def flashWf (m : Memory) : Bool := Memory.wf m && m.all fun c => c.2 != Config.erasedByte

end Sys2Proof.Machine
end

