-- ==== Sys2Proof/Machine/Tap.lean ====
section
/-! DEFINITION. The TAP transition table and the tracker (spec 10_state R27 to R30). -/

namespace Sys2Proof.Machine

/-- The TAP states the block tracks, N_TAP_STATES of them, in the order of their codes (spec 10_state R27,
00_scope R9). -/
def TapState.all : List TapState :=
  [.reset, .idle, .selectDRScan, .selectIRScan, .captureDR, .captureIR, .shiftDR, .shiftIR,
   .exit1DR, .exit1IR, .pauseDR, .pauseIR, .exit2DR, .exit2IR, .updateDR, .updateIR]

/-- TAPSTATE's encoding (spec 10_state R27). -/
def TapState.code : TapState → BitVec 4
  | .reset => 0#4
  | .idle => 1#4
  | .selectDRScan => 2#4
  | .selectIRScan => 3#4
  | .captureDR => 4#4
  | .captureIR => 5#4
  | .shiftDR => 6#4
  | .shiftIR => 7#4
  | .exit1DR => 8#4
  | .exit1IR => 9#4
  | .pauseDR => 10#4
  | .pauseIR => 11#4
  | .exit2DR => 12#4
  | .exit2IR => 13#4
  | .updateDR => 14#4
  | .updateIR => 15#4

/-- `delta(state, tms)` (spec 10_state R29). -/
def delta : TapState → Bool → TapState
  | .reset, false => .idle
  | .reset, true => .reset
  | .idle, false => .idle
  | .idle, true => .selectDRScan
  | .selectDRScan, false => .captureDR
  | .selectDRScan, true => .selectIRScan
  | .selectIRScan, false => .captureIR
  | .selectIRScan, true => .reset
  | .captureDR, false => .shiftDR
  | .captureDR, true => .exit1DR
  | .captureIR, false => .shiftIR
  | .captureIR, true => .exit1IR
  | .shiftDR, false => .shiftDR
  | .shiftDR, true => .exit1DR
  | .shiftIR, false => .shiftIR
  | .shiftIR, true => .exit1IR
  | .exit1DR, false => .pauseDR
  | .exit1DR, true => .updateDR
  | .exit1IR, false => .pauseIR
  | .exit1IR, true => .updateIR
  | .pauseDR, false => .pauseDR
  | .pauseDR, true => .exit2DR
  | .pauseIR, false => .pauseIR
  | .pauseIR, true => .exit2IR
  | .exit2DR, false => .shiftDR
  | .exit2DR, true => .updateDR
  | .exit2IR, false => .shiftIR
  | .exit2IR, true => .updateIR
  | .updateDR, false => .idle
  | .updateDR, true => .selectDRScan
  | .updateIR, false => .idle
  | .updateIR, true => .selectDRScan

/-- ONES after a pulse: consecutive pulses with TMS=1, saturating at 5 (spec 10_state R28, R30). -/
def onesAfter (ones : BitVec 3) (tms : Bool) : BitVec 3 :=
  if tms then (if ones < 5#3 then ones + 1#3 else 5#3) else 0#3

/-- `onPulse(tms)` (spec 10_state R30). -/
def Tracker.onPulse (t : Tracker) (tms : Bool) : Tracker :=
  if onesAfter t.ones tms = 5#3 then { state := .reset, known := true, ones := 5#3 }
  else { state := if t.known then delta t.state tms else t.state, known := t.known,
         ones := onesAfter t.ones tms }

end Sys2Proof.Machine
end

