-- ==== Sys2Proof/Machine/RefTarget.lean ====
section
/-! DEFINITION. The reference target of spec 20_memory R90 to R97: a TAP and a flash that answer TDO. It is no part
of the block and claims nothing about a real target; the tests run against it. -/

namespace Sys2Proof.Machine

/-! ### The flash (spec 20_memory R94, R95) -/

/-- The byte whose bit 7 is the first of eight bits (spec 20_memory R93). -/
def msbByte (bits : List Bool) : Byte := byteOf bits.reverse

/-- The status byte (spec 20_memory R94). -/
def RefFlash.status (p : Params) (f : RefFlash) : Byte :=
  (if f.wip then p.srWip else 0#8) ||| (if f.wel then p.srWel else 0#8)

/-- The 24-bit big-endian address of a frame (spec 20_memory R94). -/
def frameAddr (bits : List Bool) : Nat := wordOf (((bits.drop 8).take 24).reverse)

/-- The command byte of a frame that has one. -/
def frameCommand (bits : List Bool) : Byte := msbByte (bits.take 8)

/-- The flash's output bit for the next clock of a frame, `bits` being those clocked in so far, first bit first
(spec 20_memory R94). -/
def RefFlash.output (p : Params) (f : RefFlash) (bits : List Bool) : Bool :=
  let i := bits.length
  if i < 8 then false
  else if frameCommand bits = p.fc.rdsr then (f.status p).getLsbD (7 - (i - 8) % 8)
  else if frameCommand bits = p.fc.fastRead ∧ f.wip = false ∧ 32 + 8 * p.dummyBytes ≤ i then
    let j := i - (32 + 8 * p.dummyBytes)
    (flashRead f.mem ((frameAddr bits + j / 8) % Config.flashBytes)).getLsbD (7 - j % 8)
  else false

/-- The flash becomes busy with an accepted erase or write (spec 20_memory R94, R95). -/
def RefFlash.becomeBusy (f : RefFlash) : RefFlash :=
  match f.refBusy with
  | none => { f with wip := true }
  | some 0 => { f with wel := false }
  | some (n + 1) => { f with wip := true, busyReads := n + 1 }

/-- A status read while busy has ended (spec 20_memory R94, R95). -/
def RefFlash.statusRead (f : RefFlash) : RefFlash :=
  match f.refBusy with
  | none => f
  | some _ =>
    if f.busyReads ≤ 1 then { f with busyReads := 0, wip := false, wel := false }
    else { f with busyReads := f.busyReads - 1 }

/-- `mem[p(j)] <- mem[p(j)] and data_j`, p(j) wrapping inside the write block of `a` (spec 20_memory R94). -/
def programBytes (wb a : Nat) : Nat → List Byte → Memory → Memory
  | _, [], m => m
  | j, d :: ds, m =>
    let addr := a - a % wb + (a % wb + j) % wb
    programBytes wb a (j + 1) ds (flashStore m addr (flashRead m addr &&& d))

/-- The effect of a frame when chip select ends (spec 20_memory R94). -/
def RefFlash.endFrame (p : Params) (f : RefFlash) (bits : List Bool) : RefFlash :=
  let n := bits.length
  let k := (n - 32) / 8
  if n < 8 then f
  else if frameCommand bits = p.fc.wren then
    if n = 8 ∧ f.dropWren = false then { f with wel := true } else f
  else if frameCommand bits = p.fc.wrdi then
    if n = 8 then { f with wel := false } else f
  else if frameCommand bits = p.fc.rdsr then
    if f.wip then f.statusRead else f
  else if frameCommand bits = p.fc.erase then
    if n = 32 ∧ f.wel = true ∧ f.wip = false then
      let a := frameAddr bits
      RefFlash.becomeBusy
        { f with mem := Memory.forget f.mem (a - a % p.eraseBlock) p.eraseBlock }
    else f
  else if frameCommand bits = p.fc.pageProgram then
    if n = 32 + 8 * k ∧ 1 ≤ k ∧ k ≤ p.writeBlock ∧ f.wel = true ∧ f.wip = false then
      if f.dropPrograms = 0 then
        RefFlash.becomeBusy
          { f with mem := programBytes p.writeBlock (frameAddr bits) 0
                            ((packBytes k (bits.drop 32)).map rev8) f.mem }
      else { f with dropPrograms := f.dropPrograms - 1, wel := false }
    else f
  else f

/-! ### The TAP (spec 20_memory R91 to R93, R96) -/

/-- A data scan is a flash transaction (spec 20_memory R93). -/
def RefTarget.passing (p : Params) (t : RefTarget) : Bool := t.through && (t.ir == p.op.lscProgSpi)

/-- The capture value of the register `ir` selects, bit 0 first (spec 20_memory R92). -/
def RefTarget.capture (p : Params) (t : RefTarget) : List Bool :=
  if t.ir = p.op.readIdcode then numberBits 32 t.refId.toNat
  else if t.ir = p.op.lscReadStatus then numberBits 32 t.refStatus.toNat
  else if t.ir = p.op.preload then List.replicate Config.preloadBits false
  else if t.ir = p.op.lscProgSpi then List.replicate p.progSpiBits false
  else [false]

/-- The TDO answer to a pulse that arrives now (spec 20_memory R96). -/
def RefTarget.answer (p : Params) (t : RefTarget) : Bool :=
  match t.ts with
  | .shiftDR => if t.passing p then t.flash.output p t.frame.reverse else t.dsr.headD false
  | .shiftIR => t.isr.getLsbD 0
  | _ => false

/-- What the target does on a pulse in the state it is in (spec 20_memory R91 to R93). DESIGN CHOICE, where R93 is
silent: a scan in passthrough that goes from PauseDR back to ShiftDR goes on with the same frame, and chip select ends,
with the frame's effect, at the pulse made in UpdateDR (log entry 16). -/
def RefTarget.act (p : Params) (t : RefTarget) (tdi : Bool) : RefTarget :=
  match t.ts with
  | .captureIR => { t with isr := 0x01#8 }
  | .shiftIR => { t with isr := (t.isr >>> 1) ||| (if tdi then 0x80#8 else 0#8) }
  | .updateIR => { t with ir := t.isr, through := t.through && (t.isr == t.ir) }
  | .captureDR => { t with frame := [], dsr := t.capture p }
  | .shiftDR =>
    if t.passing p then { t with frame := tdi :: t.frame } else { t with dsr := t.dsr.tail ++ [tdi] }
  | .updateDR =>
    if t.passing p then { t with flash := t.flash.endFrame p t.frame.reverse, frame := [] }
    else if t.ir = p.op.preload then { t with preload := t.dsr }
    else if t.ir = p.op.lscProgSpi then { t with progSpi := t.dsr, through := true }
    else t
  | _ => t

/-- Move to the next TAP state; in Reset the id register is selected and the passthrough off
(spec 20_memory R91). -/
def RefTarget.move (p : Params) (t : RefTarget) (tms : Bool) : RefTarget :=
  if delta t.ts tms = .reset then { t with ts := .reset, ir := p.op.readIdcode, through := false }
  else { t with ts := delta t.ts tms }

/-- One pulse: answer, act, move (spec 20_memory R91). -/
def RefTarget.pulse (p : Params) (t : RefTarget) (tms tdi : Bool) : Bool × RefTarget :=
  (t.answer p, (t.act p tdi).move p tms)

end Sys2Proof.Machine
end

