-- ==== Sys2Proof/Machine/Environment.lean ====
section
/-! DEFINITION. The environment services as plain data: the TDO oracle (spec 40 R155, 93 U4), the wall clock
(60 R296, R297, 93 U5) and the upload source (20_memory R78, 93 U6). -/

namespace Sys2Proof.Machine

/-! ### The target -/

/-- The target's answer to one pulse, and the target after it (spec 40 R155; log entry 4). -/
def Target.pulse (p : Params) (tms tdi : Bool) : Target → Bool × Target
  | .samples (b :: coming) n => (b, .samples coming n)
  | .samples [] n => (Config.tdoSample n, .samples [] (n + 1))
  | .reference t => ((t.pulse p tms tdi).1, .reference (t.pulse p tms tdi).2)

/-! ### The wall clock -/

/-- The time of the latest answer. -/
def Clock.time : Clock → Nat
  | .free t _ _ => t
  | .test t => t

/-- `Now()`: an answer, never earlier than the one before (spec 60 R296; log entry 5). -/
def Clock.now : Clock → Nat × Clock
  | .free t (d :: ahead) n => (t + d, .free (t + d) ahead n)
  | .free t [] n => (Config.clockAdvance n + t + 1, .free (Config.clockAdvance n + t + 1) [] (n + 1))
  | .test t => (t, .test t)

/-- What a TCK pulse does to the clock: only the test clock counts pulses (95_test_vectors 0.3). -/
def Clock.onPulse : Clock → Clock
  | .free t ahead n => .free t ahead n
  | .test t => .test (t + 1)

/-- A bound on how often `Now()` can answer a time before `deadline` (spec 60 R296: the clock passes every bound;
for the test clock, how many pulses that takes). -/
def Clock.answersBefore (deadline : Nat) : Clock → Nat
  | .free t ahead _ => ahead.length + (deadline - t)
  | .test t => deadline - t

/-- `while Now() < t: (nothing)`, at most n answers. -/
def Clock.askUntil (t : Nat) : Nat → Clock → Clock
  | 0, c => c
  | n + 1, c => if c.now.1 < t then Clock.askUntil t n c.now.2 else c.now.2

/-- `WaitUntil(t)` (spec 60 R297; the test clock of 95_test_vectors 0.3 jumps). -/
def Clock.waitUntil (t : Nat) : Clock → Clock
  | .test now => .test (max now t)
  | .free now ahead n => Clock.askUntil t (Clock.answersBefore t (.free now ahead n) + 1) (.free now ahead n)

/-! ### The upload source -/

/-- The next n bytes of the stream, or what is left of it (spec 20_memory R78). -/
def ByteStream.peek (n : Nat) (b : ByteStream) : List Byte :=
  b.content.take n ++
    if b.endless then (List.range (n - b.content.length)).map fun j => Config.sourceByte (b.drawn + j) else []

/-- The stream after its next n bytes. -/
def ByteStream.skip (n : Nat) (b : ByteStream) : ByteStream where
  content := b.content.drop n
  endless := b.endless
  drawn := if b.endless then b.drawn + (n - b.content.length) else b.drawn

/-- The stream is at its end. -/
def ByteStream.ended (b : ByteStream) : Bool := b.content.isEmpty && !b.endless

/-- How many bytes the source offers next, if it has that many. -/
def Source.offer (src : Source) : Nat :=
  match src.offers with
  | k :: _ => k
  | [] => Config.sourceOffer src.asked

/-- `SrcNext(n)`: `none` is EOS; else a non-empty list of at most n bytes (spec 20_memory R78; log entry 6). -/
def Source.next (n : Nat) (src : Source) : Option (List Byte) × Source :=
  if src.stream.ended then (none, src)
  else
    let k := min n (max 1 src.offer)
    (some (src.stream.peek k), { stream := src.stream.skip k, offers := src.offers.tail, asked := src.asked + 1 })

end Sys2Proof.Machine
end

