-- ==== Sys2Proof/Machine/Flags.lean ====
section
/-! DEFINITION. Status words, codes, and every flag computation (spec 10_state R23, R32, R44 to R48, 41 R184,
60 R281). -/

namespace Sys2Proof.Machine

/-! ### Codes -/

/-- PATH's encoding (spec 10_state R23). -/
def Path.code : Path → BitVec 2
  | .released => 0#2
  | .bitBang => 1#2
  | .burst => 2#2

/-- DEVMODE's encoding (spec 10_state R32). -/
def DevMode.code : DevMode → BitVec 2
  | .idle => 0#2
  | .configuredForSRAM => 1#2
  | .configuredForFlash => 2#2

/-- The error codes (spec 60 R281). -/
def ErrorKind.code : ErrorKind → BitVec 4
  | .ok => 0#4
  | .alignmentError => 2#4
  | .statusTimeout => 3#4
  | .programFailure => 4#4
  | .unerasableImage => 5#4
  | .illegalCommand => 6#4
  | .tapSequenceError => 7#4
  | .sessionError => 8#4
  | .operandError => 9#4
  | .addressRangeError => 10#4

/-- CLASS's encoding (spec 10_state R48). -/
def Classification.code : Classification → BitVec 2
  | .noOp => 0#2
  | .writeOnly => 1#2
  | .eraseThenWrite => 2#2
  | .unerasable => 3#2

/-! ### Status words -/

/-- STAT (spec 10_state R44): BUSY 0, TAPSTATE 4:1, TAPKNOWN 5, DEVMODE 7:6, PATH 9:8, the rest 0. -/
def State.statWord (s : State) : Word :=
  0#22 ++ s.pins.path.code ++ s.devmode.code ++ BitVec.ofBool s.tap.known ++ s.tap.state.code ++
    BitVec.ofBool s.ctl.busy

/-- ERR (spec 10_state R45): CODE 3:0, INFO 31:8, bits 7:4 0. -/
def Control.errWord (c : Control) : Word := c.info ++ 0#4 ++ c.err.code

/-- FLAGS (spec 10_state R46): MISMATCH 0, TIMEOUT 1, the rest 0. -/
def Flags.toWord (f : Flags) : Word := 0#30 ++ BitVec.ofBool f.timeout ++ BitVec.ofBool f.mismatch

/-- Write 1 to clear; reserved bits ignore writes (spec 10_state R46). -/
def Flags.clear (f : Flags) (v : Word) : Flags :=
  { mismatch := f.mismatch && !v.getLsbD 0, timeout := f.timeout && !v.getLsbD 1 }

/-! ### Flag computations -/

/-- The masked comparison of CHECK (spec 41 R184, 44 R267 c): true is a mismatch. -/
def maskedMismatch (response expected mask : Word) : Bool := ((response ^^^ expected) &&& mask) != 0#32

/-- MISMATCH after a masked comparison: set by a failing one, kept by any other (spec 10_state R46). -/
def Flags.afterCheck (f : Flags) (mismatch : Bool) : Flags := { f with mismatch := f.mismatch || mismatch }

/-- TIMEOUT after a POLL that exhausted its attempts (spec 10_state R46). -/
def Flags.setTimeout (f : Flags) : Flags := { f with timeout := true }

/-- The flash status register shows neither busy nor write-enabled (spec 44 R242, R243). -/
def pollDone (p : Params) (sr : Byte) : Bool := (sr &&& (p.srWip ||| p.srWel)) == 0#8

/-- A 0/1 result in R_RES (spec 10_state R25). -/
def boolWord (b : Bool) : Word := if b then 1#32 else 0#32

end Sys2Proof.Machine
end

