-- ==== Sys2Proof/Machine/Operands.lean ====
section
/-! DEFINITION. How operands are read from the operand registers (spec 30_encoding R116, 20_memory R72, R83 to
R85). Address arithmetic is on natural numbers (20_memory R84). -/

namespace Sys2Proof.Machine

/-- R_ADDR as a number. -/
def State.addrOperand (s : State) : Nat := s.regs.addr.toNat
/-- R_LEN as a number: bits for SIR and SDR, bytes for the others. -/
def State.lenOperand (s : State) : Nat := s.regs.len.toNat
/-- R_BUF as a number. -/
def State.bufOperand (s : State) : Nat := s.regs.buf.toNat

/-- The idle operands R_CYC, R_DUR. -/
def State.idleOperand (s : State) : IdleWait := { cycles := s.regs.cyc.toNat, ticks := s.regs.dur.toNat }

/-- The idle tail of SIR and SDR: present iff F_IDLE is set. -/
def State.idleTail (s : State) (flag : Bool) : Option IdleWait := if flag then some s.idleOperand else none

/-- The pause of SDR: present iff F_PAUSE is set. -/
def State.pauseOperand (s : State) (flag : Bool) : Option Nat := if flag then some s.regs.pause.toNat else none

/-- The instruction bits of SIR, `R_VAL[n-1:0]`, bit 0 first. -/
def State.instructionBits (s : State) : List Bool := numberBits s.lenOperand s.regs.val.toNat

/-- The prefix word of BURSTWR and BURSTRD as four bytes, the high byte first. -/
def prefixBytes (w : Word) : List Byte :=
  [w.extractLsb' 24 8, w.extractLsb' 16 8, w.extractLsb' 8 8, w.extractLsb' 0 8]

/-- A 24-bit flash address, big-endian (spec 20_memory R81). -/
def addressBytes (a : Nat) : List Byte :=
  [BitVec.ofNat 8 (a / 65536), BitVec.ofNat 8 (a / 256), BitVec.ofNat 8 a]

/-- The range `[R_BUF, R_BUF + k)` leaves BUF (spec 20_memory R72). -/
def State.leavesBuf (s : State) (k : Nat) : Bool := decide (s.cfg.bufBytes < s.bufOperand + k)

/-- An address has a bit above bit 23 set (spec 20_memory R84). -/
def beyondFlash (a : Nat) : Bool := decide (Config.flashBytes ≤ a)

/-- `a + len > 2^24` (spec 20_memory R84). -/
def runsPastFlash (a len : Nat) : Bool := decide (Config.flashBytes < a + len)

/-- `a mod b != 0` (spec 20_memory R83). -/
def misaligned (a b : Nat) : Bool := a % b != 0

end Sys2Proof.Machine
end

