-- ==== Sys2Proof/Machine/Ops.lean ====
section
/-! DEFINITION. The shared operations every command is built from: the trace and what the host does meanwhile, the
end of a command (the one way errors and successes are reported, spec 60 R283, R284, R287), entry checks, the wall
clock, the TCK pulse and the masked comparison. -/

namespace Sys2Proof.Machine

/-! ### The host while a command runs (spec 10_state R39, R60, 93 U2, U3; log entry 2) -/

/-- A host access that arrives while BUSY = 1: a write is ignored, a read of STAT answers the live value, any other
read an unspecified one (spec 10_state R39, R60). -/
def busyAccess (a : Access) (s : State) : State :=
  match a with
  | .read width off =>
    if width = 32 ∧ off = 0x04 then { s with port.reads := (off, s.statWord) :: s.port.reads }
    else { s with port.reads := (off, Config.hostReadValue s.port.draws) :: s.port.reads
                  port.draws := s.port.draws + 1 }
  | .write _ _ _ => s
  | .reset => s

/-- Serve the accesses that are due; a reset is noted with the environment as it is now, and takes effect when the
command's doomed rest has been run out (spec 70 R323; log entry 3). -/
def dueAccesses : List (Nat × Access) → State → State
  | [], s => { s with port.during := [] }
  | (n + 1, a) :: rest, s => { s with port.during := (n + 1, a) :: rest }
  | (0, .reset) :: rest, s =>
    { s with port.cut := some { env := s.env, during := rest }, port.during := [] }
  | (0, .read width off) :: rest, s => dueAccesses rest (busyAccess (.read width off) s)
  | (0, .write width off v) :: rest, s => dueAccesses rest (busyAccess (.write width off v) s)

/-- One event has passed. -/
def passEvent : List (Nat × Access) → List (Nat × Access)
  | (n + 1, a) :: rest => (n, a) :: rest
  | l => l

/-- The host accesses that come after the event just logged. -/
def serveDuring (s : State) : State := dueAccesses (passEvent s.port.during) s

/-! ### The trace (spec 10_state R58) -/

/-- Append an event to the trace. -/
def log (e : Event) (s : State) : State := { s with trace := e :: s.trace }

/-- `Emit(e)` (spec 00_scope R15). -/
def emit (e : Event) (s : State) : State := serveDuring (log e s)

/-! ### Start and end of a command -/

/-- The hardware reset (spec 10_state R59, 70 R320, R321): every register at its reset value, no event, no access to
the environment; the configuration stays (70 R322), the target is not reset. -/
def hardwareReset (s : State) : State :=
  State.resetWith s.cfg s.env { s.port with resets := s.port.resets + 1, cut := none }

/-- The hardware reset that arrived during the command, if one did (spec 70 R323). -/
def applyCut (s : State) : State :=
  match s.port.cut with
  | none => s
  | some c => hardwareReset { s with env := c.env, port := { s.port with during := c.during } }

/-- The write of CMD starts a command: BUSY is 1 from here on (spec 10_state R39, R43). -/
def beginCommand (i : Instr) (s : State) : State :=
  dueAccesses s.port.during { s with ctl.busy := true, ctl.seq := some i }

/-- The end of a command, good or bad: ERR is written, `Done` emitted, BUSY cleared. This one operation is
`refuse E(info)` and `raise E(info)` of spec 60 R283, R284 and, with `ok` and 0, the end without error (R284,
R287). Nothing done before is undone. -/
def endCommand (e : ErrorKind) (info : Nat) (s : State) : State :=
  let s1 := emit (.done e.code (BitVec.ofNat 24 info)) { s with ctl.err := e, ctl.info := BitVec.ofNat 24 info }
  applyCut { s1 with ctl.busy := false, ctl.seq := none }

/-- The command ends without error (spec 60 R284). -/
def complete (s : State) : Host.Outcome State Fault Refusal := .next (endCommand .ok 0 s)

/-- The command ends with an error (spec 60 R284). -/
def raise (e : ErrorKind) (info : Nat) (s : State) : Host.Outcome State Fault Refusal :=
  .next (endCommand e info s)

/-- The command ends with StatusTimeout(info) if its poll timed out, and without error if not (spec 60 R289). -/
def endPolled (timedOut : Bool) (info : Nat) (s : State) : Host.Outcome State Fault Refusal :=
  .next (if timedOut then endCommand .statusTimeout info s else endCommand .ok 0 s)

/-- An entry check: does it refuse, with which error, and which ERR.INFO. -/
abbrev EntryCheck := Bool × ErrorKind × Nat

/-- The first check that fails is the one reported (spec 60 R285). -/
def firstRefusal : List EntryCheck → Option (ErrorKind × Nat)
  | [] => none
  | (bad, e, info) :: rest => if bad then some (e, info) else firstRefusal rest

/-- A command: the checks that can refuse stand at its head (spec 60 R283), then its effect. -/
def command (i : Instr) (checks : State → List EntryCheck)
    (run : State → Host.Outcome State Fault Refusal) (s : State) : Host.Outcome State Fault Refusal :=
  match firstRefusal (checks (beginCommand i s)) with
  | some (e, info) => raise e info (beginCommand i s)
  | none => run (beginCommand i s)

/-- A word that spells no command: IllegalCommand, and nothing else changes (spec 30_encoding R114). -/
def illegalCommand (s : State) : State :=
  endCommand .illegalCommand 0 (dueAccesses s.port.during { s with ctl.busy := true })

/-! ### Entry checks (spec 60 R285, R288, R293, R294) -/

/-- `if PATH != BitBang then refuse SessionError`. -/
def requireLines (s : State) : List EntryCheck := [(s.pins.path != .bitBang, .sessionError, 0)]

/-- `requireTap(S)` (spec 41 R170). -/
def requireTap (entry : List TapState) (s : State) : List EntryCheck :=
  requireLines s ++ [(!s.tap.known || !entry.contains s.tap.state, .tapSequenceError, 0)]

/-- `if TAPKNOWN = 0 then refuse TapSequenceError` after the session check (spec 40 R152, R153). -/
def requireKnown (s : State) : List EntryCheck :=
  requireLines s ++ [(!s.tap.known, .tapSequenceError, 0)]

/-- `requireFlash()` (spec 44 R240). -/
def requireFlash (s : State) : List EntryCheck :=
  (s.devmode != .configuredForFlash, .sessionError, 0) :: requireTap [.selectDRScan] s

/-- The length and range check of a byte range of BUF (spec 20_memory R72, 30_encoding R116). -/
def requireBuf (s : State) (bytes : Nat) : List EntryCheck :=
  [(s.lenOperand == 0 || s.leavesBuf bytes, .operandError, 0)]

/-- Read a range of BUF for a command; a byte never written stops the run (spec 93 U1), but for a command that a
hardware reset has stopped before it reads (70 R323; log entry 3). -/
def withBuf (base n : Nat) (s : State) (run : List Byte → Host.Outcome State Fault Refusal) :
    Host.Outcome State Fault Refusal :=
  match s.buf.readRange base n with
  | some bytes => run bytes
  | none => if s.port.cut.isSome then complete s else .fault .bufNeverWritten

/-! ### The wall clock (spec 60 R296, R297) -/

/-- `Now()`. -/
def now (s : State) : Nat × State := (s.env.clock.now.1, { s with env.clock := s.env.clock.now.2 })

/-- `t <- Now() + d; WaitUntil(t); Emit(Wait(d))`: the unclocked wait of SDR and POLL (spec 41 R180, 44 R243);
DEADLINE holds `t` (10_state R51). -/
def pauseFor (d : Nat) (s : State) : State :=
  let t := (now s).1 + d
  let s1 := { (now s).2 with counters.deadline := t }
  emit (.wait d) { s1 with env.clock := s1.env.clock.waitUntil t }

/-! ### The TCK pulse (spec 00_scope R8, 40 R151, 42 R204) -/

/-- One clock at the target, whichever driver makes it: the target answers, the event is logged, then the tracker
follows (spec 10_state R30). -/
def tckPulse (d : Driver) (tms tdi : Bool) (s : State) : Bool × State :=
  let answer := s.env.target.pulse s.cfg tms tdi
  let s1 := log (.pulse d tms tdi answer.1)
    { s with env := { s.env with target := answer.2, clock := s.env.clock.onPulse } }
  (answer.1, serveDuring { s1 with tap := s1.tap.onPulse tms })

/-- `Pulse(tms, tdi) -> tdo`, the bit-banged pulse (spec 40 R151). TCK_L is 0 only inside the pulse and 1 after
it (10_state R22). -/
def pulse (tms tdi : Bool) (s : State) : Bool × State :=
  tckPulse .bb tms tdi { s with pins := { s.pins with tck := true, tms := tms, tdi := tdi } }

/-- `SpiPulse(tdi) -> tdo`, the peripheral's pulse, TMS held 0; the level registers keep their values
(spec 42 R204, 10_state R22). -/
def spiPulse (tdi : Bool) (s : State) : Bool × State := tckPulse .spi false tdi s

/-- `setTms(tms)`: a pulse with TDI kept at its level and the sample dropped (spec 40 R153). -/
def setTms (tms : Bool) (s : State) : State := (pulse tms s.pins.tdi s).2

/-- A fixed TMS sequence, one `setTms` each (spec 30_encoding R120). -/
def walk : List Bool → State → State
  | [], s => s
  | tms :: rest, s => walk rest (setTms tms s)

/-! ### The serializer and deserializer (spec 40 R156 to R158, 10_state R33 to R37) -/

/-- One bit of a scan: a pulse; IRSR shifts if the pulse is made in ShiftIR (spec 10_state R33, R36); BITCNT counts
(R37). -/
def shiftOne (tms bit : Bool) (s : State) : Bool × State :=
  let r := pulse tms bit s
  (r.1, { r.2 with
    banks.irsr := if s.tap.state = .shiftIR then r.2.banks.irsr >>> 1 else r.2.banks.irsr
    banks.bitcnt := r.2.banks.bitcnt + 1 })

/-- The loop of `shiftBits` and `shiftByte`: every bit with TMS=0 but the last, which carries TMS=`exit`
(spec 40 R156, R158). The samples come back in order. -/
def shiftLoop (exit : Bool) : List Bool → State → List Bool × State
  | [], s => ([], s)
  | b :: bs, s =>
    let r := shiftOne (exit && bs.isEmpty) b s
    let rest := shiftLoop exit bs r.2
    (r.1 :: rest.1, rest.2)

/-- `shiftBits(bits, n)` (spec 40 R156); BITCNT starts at 0. -/
def shiftBits (bits : List Bool) (s : State) : List Bool × State :=
  shiftLoop true bits { s with banks.bitcnt := 0 }

/-- `shiftByte(b, exit) -> c` (spec 40 R158). -/
def shiftByte (b : Byte) (exit : Bool) (s : State) : Byte × State :=
  let r := shiftLoop exit (byteBits b) { s with banks.bitcnt := 0 }
  (byteOf r.1, r.2)

/-! ### The masked comparison (spec 41 R184) -/

/-- `check(response, expected, mask) -> mismatch`: flagged and logged, never raised. -/
def check (response expected mask : Word) (s : State) : Bool × State :=
  let bad := maskedMismatch response expected mask
  let s1 := { s with flags := s.flags.afterCheck bad }
  (bad, if bad then emit (.mismatch response expected mask) s1 else s1)

end Sys2Proof.Machine
end

