-- ==== Sys2Proof/Machine/BitTransport.lean ====
section
/-! DEFINITION. BitTransport's commands: SHIFTBIT, SETTMS, REV8 (spec 40 R152, R153, R161). -/

namespace Sys2Proof.Machine

/-- SHIFTBIT (spec 40 R152). -/
def execShiftbit (tdi tms : Bool) (s : State) : Host.Outcome State Fault Refusal :=
  command (.shiftbit tdi tms) requireKnown
    (fun s => complete { (pulse tms tdi s).2 with res := boolWord (pulse tms tdi s).1 }) s

/-- SETTMS (spec 40 R153). -/
def execSettms (tms : Bool) (s : State) : Host.Outcome State Fault Refusal :=
  command (.settms tms) requireKnown (fun s => complete (setTms tms s)) s

/-- The entry check of REV8 (spec 40 R161). -/
def rev8Checks (s : State) : List EntryCheck := requireBuf s s.lenOperand

/-- REV8 (spec 40 R161). -/
def execRev8 (s : State) : Host.Outcome State Fault Refusal :=
  command .rev8 rev8Checks
    (fun s => withBuf s.bufOperand s.lenOperand s fun bytes =>
      complete { s with buf := s.buf.writeRange s.bufOperand (bytes.map rev8) }) s

end Sys2Proof.Machine
end

