-- ==== Sys2Proof/Machine/BurstTransport.lean ====
section
/-! DEFINITION. BurstTransport: the glitch-free path switch, the peripheral's transfers with their bit-banged
fallback, and the commands BURSTWR, BURSTRD (spec 42). -/

namespace Sys2Proof.Machine

/-! ### The path switch -/

/-- `toBurst()` (spec 42 R201); nothing without the peripheral (R206). -/
def toBurst (s : State) : State :=
  if s.cfg.useBurst then emit (.path .burst) { s with pins := { s.pins with tms := false, path := .burst } }
  else s

/-- `toBitBang()` (spec 42 R205); nothing without the peripheral (R206). -/
def toBitBang (s : State) : State :=
  if s.cfg.useBurst then emit (.path .bitBang) { s with pins := { s.pins with path := .bitBang } } else s

/-! ### The peripheral's transfers (spec 42 R204) and the fallback (R206) -/

/-- Bits through the peripheral, the samples in order. -/
def spiBits : List Bool → State → List Bool × State
  | [], s => ([], s)
  | b :: bs, s =>
    let r := spiPulse b s
    let rest := spiBits bs r.2
    (r.1 :: rest.1, rest.2)

/-- One byte out and one byte in, most significant bit first on the wire: through the peripheral, or bit-banged as
`rev8` of both (spec 42 R204, R206). -/
def bulkByte (b : Byte) (s : State) : Byte × State :=
  if s.cfg.useBurst then
    let r := spiBits (byteBits b).reverse s
    (byteOf r.1.reverse, r.2)
  else
    let r := shiftByte (rev8 b) false s
    (rev8 r.1, r.2)

/-- `spiWrite(bytes)`: the samples are dropped (spec 42 R204). -/
def spiWrite : List Byte → State → State
  | [], s => s
  | b :: bs, s => spiWrite bs (bulkByte b s).2

/-- `spiRead(n) -> bytes`: 0 on the data output while reading (spec 42 R204). -/
def spiRead : Nat → State → List Byte × State
  | 0, s => ([], s)
  | n + 1, s =>
    let r := bulkByte 0#8 s
    let rest := spiRead n r.2
    (r.1 :: rest.1, rest.2)

/-- `burstWrite(prefix, bulk, finalByte)`, from ShiftDR to Exit1DR; the final byte is already bit-reversed
(spec 42 R200, R207). -/
def burstWrite (lead bulk : List Byte) (finalByte : Byte) (s : State) : State :=
  (shiftByte finalByte true (toBitBang (spiWrite (lead ++ bulk) (toBurst s)))).2

/-- `burstRead(prefix, n) -> data`, from ShiftDR to Exit1DR (spec 42 R209). -/
def burstRead (lead : List Byte) (n : Nat) (s : State) : List Byte × State :=
  let r := spiRead n (spiWrite (lead ++ List.replicate s.cfg.dummyBytes 0#8) (toBurst s))
  (r.1, (shiftByte 0#8 true (toBitBang r.2)).2)

/-! ### Commands -/

/-- The entry checks of BURSTWR and BURSTRD (spec 42 R207, R209). -/
def burstChecks (s : State) : List EntryCheck := requireTap [.shiftDR] s ++ requireBuf s s.lenOperand

/-- BURSTWR (spec 42 R207). -/
def execBurstwr (s : State) : Host.Outcome State Fault Refusal :=
  command .burstwr burstChecks
    (fun s => withBuf s.bufOperand s.lenOperand s fun bytes =>
      complete (burstWrite (prefixBytes s.regs.val) bytes.dropLast (bytes.getLastD 0#8) s)) s

/-- BURSTRD (spec 42 R209). -/
def execBurstrd (s : State) : Host.Outcome State Fault Refusal :=
  command .burstrd burstChecks
    (fun s =>
      let r := burstRead (prefixBytes s.regs.val) s.lenOperand s
      complete { r.2 with buf := r.2.buf.writeRange s.bufOperand r.1 }) s

end Sys2Proof.Machine
end

