-- ==== Sys2Proof/Machine/Session.lean ====
section
/-! DEFINITION. The session: ACQUIRE and RELEASE (spec 60 R291, R292). -/

namespace Sys2Proof.Machine

/-- `acquire()` (spec 60 R291). -/
def acquire (s : State) : State :=
  emit (.path .bitBang) { s with pins := { s.pins with path := .bitBang, tck := true } }

/-- `if PATH = Released then acquire()` (spec 43 R221). -/
def acquireIfReleased (s : State) : State := if s.pins.path = .released then acquire s else s

/-- `release()` (spec 60 R292). -/
def release (s : State) : State :=
  emit (.path .released)
    { s with pins := { s.pins with path := .released }, tap := { s.tap with known := false, ones := 0#3 } }

/-- The entry check of ACQUIRE (spec 60 R291). -/
def acquireChecks (s : State) : List EntryCheck := [(s.pins.path != .released, .sessionError, 0)]

/-- ACQUIRE (spec 60 R291). -/
def execAcquire (s : State) : Host.Outcome State Fault Refusal :=
  command .acquire acquireChecks (fun s => complete (acquire s)) s

/-- The entry checks of RELEASE (spec 60 R292). -/
def releaseChecks (s : State) : List EntryCheck :=
  requireLines s ++ [(s.devmode != .idle, .sessionError, 0)]

/-- RELEASE (spec 60 R292). -/
def execRelease (s : State) : Host.Outcome State Fault Refusal :=
  command .release releaseChecks (fun s => complete (release s)) s

end Sys2Proof.Machine
end

