-- ==== Sys2Proof/Machine/TapController.lean ====
section
/-! DEFINITION. TapController: reset, the idle wait, the two scans, and the commands RESET, IDLE, SIR, SDR, CHECK
(spec 41). -/

namespace Sys2Proof.Machine

/-! ### Internal operations -/

/-- `reset()`: RESET_CLOCKS pulses with TMS=1 (spec 41 R172). -/
def tapReset (s : State) : State := walk (List.replicate Config.resetClocks true) s

/-- Phase 1 of the idle wait: exactly the owed pulses, the clock not consulted (spec 41 R176). -/
def idleCycles : Nat → State → State
  | 0, s => s
  | n + 1, s => let s1 := setTms false s; idleCycles n { s1 with counters.cyccnt := n }

/-- Phase 2 of the idle wait: pulses while `Now() < DEADLINE` (spec 41 R176). The first argument bounds how often
the clock can still answer a time before the deadline; it never runs out (log entry 5). -/
def idleUntilDeadline : Nat → State → State
  | 0, s => s
  | n + 1, s =>
    if (now s).1 < s.counters.deadline then idleUntilDeadline n (setTms false (now s).2) else (now s).2

/-- `idle(cycles, minDuration)` (spec 41 R175, R176): the deadline is fixed on entry. -/
def idle (w : IdleWait) (s : State) : State :=
  let s1 := (now s).2
  let s2 := idleCycles w.cycles { s1 with counters.deadline := (now s).1 + w.ticks, counters.cyccnt := w.cycles }
  setTms true (idleUntilDeadline (s2.env.clock.answersBefore s2.counters.deadline + 1) s2)

/-- The tail of a scan, from Update: the idle sequence, or one TMS=1 pulse (spec 41 R178, R180). -/
def scanTail (idleAfter : Option IdleWait) (s : State) : State :=
  match idleAfter with
  | some w => idle w s
  | none => setTms true s

/-- `sir(bits, n, idleAfter)` (spec 41 R178). -/
def sir (bits : List Bool) (idleAfter : Option IdleWait) (s : State) : State :=
  let s1 := walk [true, false, false] { s with banks.irsr := BitVec.ofNat 32 (wordOf bits) }
  let s2 := (shiftBits bits s1).2
  scanTail idleAfter (walk [false, true, true] s2)

/-- The optional pause of a data scan in PauseDR (spec 41 R180, R181). -/
def pauseDr (pause : Option Nat) (s : State) : State :=
  match pause with
  | some p => pauseFor p s
  | none => s

/-- `sdr(bits, n, pause, idleAfter) -> cap` (spec 41 R180). -/
def sdr (bits : List Bool) (pause : Option Nat) (idleAfter : Option IdleWait) (s : State) : List Bool × State :=
  let s1 := walk [false, false] { s with banks.drbits := bits, banks.drlen := bits.length }
  let r := shiftBits bits s1
  let s2 := { r.2 with banks.drcap := r.1 }
  (r.1, scanTail idleAfter (walk [true, true] (pauseDr pause (walk [false] s2))))

/-- The bytes of BUF after a capture in place: the captured bits over the old ones, the upper bits of a partial
last byte kept (spec 10_state R35). -/
def captureBytes (old : List Byte) (cap : List Bool) : List Byte :=
  packBytes old.length (cap ++ (old.flatMap byteBits).drop cap.length)

/-! ### Commands -/

/-- RESET (spec 41 R172). -/
def execReset (s : State) : Host.Outcome State Fault Refusal :=
  command .reset requireLines (fun s => complete (tapReset s)) s

/-- The entry set of IDLE (spec 10_state R31). -/
def idleEntry : List TapState := [.reset, .idle, .updateDR, .updateIR]

/-- The entry checks of IDLE (spec 41 R174). -/
def idleChecks (s : State) : List EntryCheck :=
  requireTap idleEntry s ++ [(s.tap.state == .reset && s.idleOperand.cycles == 0, .tapSequenceError, 0)]

/-- IDLE (spec 41 R174). -/
def execIdle (s : State) : Host.Outcome State Fault Refusal :=
  command .idle idleChecks (fun s => complete (idle s.idleOperand s)) s

/-- The entry checks of SIR (spec 41 R178). -/
def sirChecks (s : State) : List EntryCheck :=
  requireTap [.selectDRScan] s ++ [(s.lenOperand == 0 || decide (32 < s.lenOperand), .operandError, 0)]

/-- SIR (spec 41 R178). -/
def execSir (idleTail : Bool) (s : State) : Host.Outcome State Fault Refusal :=
  command (.sir idleTail) sirChecks
    (fun s => complete (sir s.instructionBits (s.idleTail idleTail) s)) s

/-- The entry checks of SDR (spec 41 R180). -/
def sdrChecks (s : State) : List EntryCheck :=
  requireTap [.selectDRScan] s ++ requireBuf s (bytesForBits s.lenOperand)

/-- SDR (spec 41 R180): the sent bits are the buffer's old content, also when capture is on. -/
def execSdr (capture idleTail pause : Bool) (s : State) : Host.Outcome State Fault Refusal :=
  command (.sdr capture idleTail pause) sdrChecks
    (fun s => withBuf s.bufOperand (bytesForBits s.lenOperand) s fun old =>
      let r := sdr (bitsOf old s.lenOperand) (s.pauseOperand pause) (s.idleTail idleTail) s
      complete (if capture then { r.2 with buf := r.2.buf.writeRange s.bufOperand (captureBytes old r.1) }
                else r.2)) s

/-- CHECK (spec 41 R184): no pulse, no session, no error. -/
def execCheck (s : State) : Host.Outcome State Fault Refusal :=
  command .check (fun _ => [])
    (fun s =>
      let r := check s.regs.val s.regs.exp s.regs.mask s
      complete { r.2 with res := boolWord r.1 }) s

end Sys2Proof.Machine
end

