-- ==== Sys2Proof/Machine/DeviceProtocol.lean ====
section
/-! DEFINITION. DeviceProtocol: the ECP5 scripts IDENTIFY, OPENCFG, OPENFLASH, CLOSE (spec 43). -/

namespace Sys2Proof.Machine

/-! ### Internal operations -/

/-- `sir(<opcode>, IR_BITS, idleAfter)` (spec 30_encoding R122). -/
def sirOp (op : Byte) (idleAfter : Option IdleWait) (s : State) : State :=
  sir (bitsOf [op] Config.irBits) idleAfter s

/-- The idle after the reset of a script: IDENT_IDLE_CYCLES cycles, no duration (spec 43 R222, R224, R226). -/
def scriptStart (s : State) : State := idle { cycles := Config.identIdleCycles, ticks := 0 } (tapReset s)

/-- The long idle (spec 43 R226, R228). -/
def longIdle : IdleWait := { cycles := Config.longIdleCycles, ticks := 0 }

/-- `readStatus()` (spec 43 R225). -/
def readStatus (s : State) : Word × State :=
  let r := sdr (List.replicate s.cfg.statusBits.count false) none none (sirOp s.cfg.op.lscReadStatus none s)
  (capturedWord r.1, r.2)

/-- A status check of `openForConfiguration`: read, then compare with 0 under the mask (spec 43 R224). -/
def checkStatus (mask : Word) (s : State) : Bool × State :=
  let r := readStatus s
  check r.1 0#32 mask r.2

/-- `openForConfiguration() -> ok` (spec 43 R224): a mismatch never stops it. -/
def openForConfiguration (s : State) : Bool × State :=
  let s1 := sirOp s.cfg.op.preload none (scriptStart s)
  let s2 := (sdr (List.replicate Config.preloadBits true) none none s1).2
  let r1 := checkStatus Config.maskStatusA (sirOp s.cfg.op.iscEnable (some s.cfg.cfgWait) s2)
  let r2 := checkStatus Config.maskStatusB (sirOp s.cfg.op.iscErase (some s.cfg.cfgWait) r1.2)
  (!r1.1 && !r2.1, { r2.2 with devmode := .configuredForSRAM })

/-- `openForFlash() -> ok` (spec 43 R226). -/
def openForFlash (s : State) : Bool × State :=
  let r := openForConfiguration s
  let s1 := sirOp s.cfg.op.bypass (some longIdle) (scriptStart r.2)
  let s2 := sirOp s.cfg.op.lscProgSpi none s1
  let s3 := (sdr (numberBits s.cfg.progSpiBits s.cfg.progSpiWord) none (some longIdle) s2).2
  (r.1, { s3 with devmode := .configuredForFlash })

/-- The scans of IDENTIFY, from the reset to the captured word (spec 43 R222). -/
def identifyScan (s : State) : Word × State :=
  let r := sdr (List.replicate Config.idcodeBits false) none none
    (sirOp s.cfg.op.readIdcode none (scriptStart s))
  (capturedWord r.1, r.2)

/-- The scans of CLOSE, up to and with the final reset (spec 43 R228). -/
def closeScans (s : State) : State :=
  let s1 := (sdr (bitsOf [rev8 s.cfg.fc.wrdi] 8) none none s).2
  let s2 := sirOp s.cfg.op.bypass (some longIdle) s1
  let s3 := sirOp s.cfg.op.iscDisable (some longIdle) s2
  let s4 := sirOp s.cfg.op.bypass none s3
  tapReset (sirOp s.cfg.op.lscRefresh (some s.cfg.refreshWait) s4)

/-! ### Commands -/

/-- IDENTIFY (spec 43 R222): the lines are released at the end only if it acquired them. -/
def execIdentify (s : State) : Host.Outcome State Fault Refusal :=
  command .identify (fun _ => [])
    (fun s =>
      let r := identifyScan (acquireIfReleased s)
      let s1 := { r.2 with res := r.1 }
      complete (if s.pins.path = .released then release s1 else s1)) s

/-- OPENCFG (spec 43 R224). -/
def execOpencfg (s : State) : Host.Outcome State Fault Refusal :=
  command .opencfg (fun _ => [])
    (fun s =>
      let r := openForConfiguration (acquireIfReleased s)
      complete { r.2 with res := boolWord r.1 }) s

/-- OPENFLASH (spec 43 R226). -/
def execOpenflash (s : State) : Host.Outcome State Fault Refusal :=
  command .openflash (fun _ => [])
    (fun s =>
      let r := openForFlash (acquireIfReleased s)
      complete { r.2 with res := boolWord r.1 }) s

/-- The entry checks of CLOSE (spec 43 R228). -/
def closeChecks (s : State) : List EntryCheck :=
  (s.devmode == .idle, .sessionError, 0) :: requireTap [.selectDRScan] s

/-- CLOSE (spec 43 R228): refused from mode Idle. -/
def execClose (s : State) : Host.Outcome State Fault Refusal :=
  command .close closeChecks
    (fun s =>
      let s1 := closeScans s
      complete (release { s1 with devmode := .idle })) s

end Sys2Proof.Machine
end

