-- ==== Sys2Proof/Machine/FlashEngine.lean ====
section
/-! DEFINITION. FlashEngine: status poll, erase, write, read, and the streaming upload; the commands POLL, ERASE,
WRITE, READ, UPLOAD (spec 44). -/

namespace Sys2Proof.Machine

/-! ### Frames and status (spec 44 R240 to R243) -/

/-- `frameBB(f_0 .. f_(q-1)) -> r_0 .. r_(q-1)`: a bit-banged frame (spec 44 R240, 30_encoding R134). -/
def frameBB (frame : List Byte) (s : State) : List Byte × State :=
  let r := sdr (bitsOf (frame.map rev8) (8 * frame.length)) none none s
  ((packBytes frame.length r.1).map rev8, r.2)

/-- The status-read frame: the command, then as many zero bytes as the status has, SR_BITS / 8 (spec 44 R241,
00_scope R10, 20_memory R85). -/
def statusFrame (p : Params) : List Byte := p.fc.rdsr :: List.replicate (p.srBits.count / 8) 0#8

/-- `readFlashStatus() -> sr`: response byte 1 of the status-read frame, kept in FSR (spec 44 R241). -/
def readFlashStatus (s : State) : Byte × State :=
  let r := frameBB (statusFrame s.cfg) s
  let sr := r.1.getD 1 0#8
  (sr, { r.2 with fsr := sr })

/-- The loop of `pollStatus`, `ATTEMPT` counting down (spec 44 R243). -/
def pollLoop (delay : Nat) : Nat → Byte → State → (Byte × Bool) × State
  | 0, sr, s => ((sr, true), { s with flags := s.flags.setTimeout })
  | n + 1, _, s =>
    let r := readFlashStatus s
    if pollDone s.cfg r.1 then ((r.1, false), r.2)
    else
      let s1 := pauseFor delay { r.2 with counters.attempt := n }
      pollLoop delay n r.1 s1

/-- `pollStatus(attempts, delay) -> (sr, timedOut)` (spec 44 R243): no read with no attempts. -/
def pollStatus (attempts delay : Nat) (s : State) : (Byte × Bool) × State :=
  pollLoop delay attempts s.fsr { s with counters.attempt := attempts }

/-! ### Erase, write, read (spec 44 R245 to R251) -/

/-- `eraseBlock(a)`; the result says whether StatusTimeout(a) is raised (spec 44 R245). A write-enable latch that is
not set is flagged and stops nothing. -/
def eraseBlock (a : Nat) (s : State) : Bool × State :=
  let s1 := (frameBB [s.cfg.fc.wren] s).2
  let r := readFlashStatus s1
  let s2 := (check (r.1.setWidth 32) (s.cfg.srWel.setWidth 32) (s.cfg.srWel.setWidth 32) r.2).2
  let s3 := (frameBB (s.cfg.fc.erase :: addressBytes a) s2).2
  let p := pollStatus s.cfg.erasePoll.attempts s.cfg.erasePoll.delay s3
  (p.1.2, p.2)

/-- `writeBlock(d_0 .. d_(n-1), a)`; the result says whether StatusTimeout(a) is raised (spec 44 R248). -/
def writeBlock (data : List Byte) (a : Nat) (s : State) : Bool × State :=
  let s1 := walk [false, false] (frameBB [s.cfg.fc.wren] s).2
  let s2 := burstWrite (s.cfg.fc.pageProgram :: addressBytes a) data.dropLast (rev8 (data.getLastD 0#8)) s1
  let s3 := walk [false, true, true, true] s2
  let p := pollStatus s.cfg.writePoll.attempts s.cfg.writePoll.delay s3
  (p.1.2, p.2)

/-- `readBlock(a, n) -> data` (spec 44 R250). -/
def readBlock (a n : Nat) (s : State) : List Byte × State :=
  let r := burstRead (s.cfg.fc.fastRead :: addressBytes a) n (walk [false, false] s)
  (r.1, walk [false, true, true, true] r.2)

/-! ### Classification (spec 44 R253, R254) -/

/-- Some image bit is 1 where the flash bit is 0. -/
def mustErase (flash image : List Byte) : Bool := (flash.zip image).any fun c => (c.1 &&& c.2) != c.2

/-- Some byte differs. -/
def differs (flash image : List Byte) : Bool := (flash.zip image).any fun c => c.1 != c.2

/-- ERASE_SAFE: the uninterpreted predicate or one of the spec's candidates (spec 44 R254). -/
def EraseSafe.holds (e : EraseSafe) (flash image : List Byte) : Bool :=
  match e with
  | .implementation => Config.eraseSafe flash image
  | .s0 => true
  | .s1 => (flash.zip image).all fun c => (c.1 &&& c.2) == c.2 || c.2 == Config.erasedByte
  | .s2 => image.all fun b => b == Config.erasedByte

/-- `classify(F, I, len)` on the two lists of `len` bytes (spec 44 R253). -/
def classify (e : EraseSafe) (flash image : List Byte) : Classification :=
  if mustErase flash image then (if EraseSafe.holds e flash image then .eraseThenWrite else .unerasable)
  else if differs flash image then .writeOnly
  else .noOp

/-! ### The upload (spec 44 R255 to R260) -/

/-- `SrcNext(n)`: each call emits `Src(n, answer)` (spec 20_memory R78). -/
def srcNext (n : Nat) (s : State) : Option (List Byte) × State :=
  let r := s.env.source.next n
  (r.1, emit (.src n r.1) { s with env.source := r.2 })

/-- Fill CHUNK to ERASE_BLOCK bytes or to the end of the stream, which is the result (spec 44 R256, 20_memory R79).
The first argument bounds the number of rounds: every answer but EOS adds a byte to the chunk. -/
def fillChunk : Nat → State → Bool × State
  | 0, s => (false, s)
  | n + 1, s =>
    if s.work.chunklen < s.cfg.eraseBlock then
      let r := srcNext (s.cfg.eraseBlock - s.work.chunklen) s
      match r.1 with
      | none => (true, r.2)
      | some bytes =>
        fillChunk n { r.2 with
          work.chunk := splice r.2.work.chunklen bytes r.2.work.chunk
          work.chunklen := r.2.work.chunklen + bytes.length }
    else (false, s)

/-- The image bytes of the current chunk. -/
def State.chunkBytes (s : State) : List Byte := s.work.chunk.take s.work.chunklen

/-- Write CHUNK in pieces of WRITE_BLOCK bytes from `off` on, until one times out (spec 44 R258). The first
argument bounds the number of pieces. -/
def writePieces : Nat → Nat → State → State
  | 0, _, s => s
  | n + 1, off, s =>
    if off < s.work.chunklen then
      let len := min s.cfg.writeBlock (s.work.chunklen - off)
      let r := writeBlock ((s.chunkBytes.drop off).take len) (s.work.faddr + off) s
      if r.1 then r.2 else writePieces n (off + s.cfg.writeBlock) r.2
    else s

/-- The write half of an attempt (spec 44 R258). -/
def writeChunk (s : State) : State :=
  writePieces (s.work.chunklen + 1) 0 { s with work.didWrite := true }

/-- `programAttempt()`: a StatusTimeout ends the attempt and is not propagated (spec 44 R258, 60 R289). -/
def programAttempt (s : State) : State :=
  if s.work.cls = .eraseThenWrite then
    let r := eraseBlock s.work.faddr { s with work.didErase := true }
    if r.1 then r.2 else writeChunk r.2
  else writeChunk s

/-- Steps 1 and 2 of the retry loop: read back into SCRATCH and classify (spec 44 R257). -/
def compareChunk (s : State) : State :=
  let r := readBlock s.work.faddr s.work.chunklen s
  let cls := classify s.cfg.eraseSafe r.1 s.chunkBytes
  { r.2 with work.scratch := splice 0 r.1 r.2.work.scratch, work.cls := cls }

/-- `retryLoop()`, with the attempts left; `none` is the return on NoOp (spec 44 R257). -/
def retryLoop : Nat → State → Option ErrorKind × State
  | left, s =>
    let s1 := compareChunk s
    match s1.work.cls with
    | .noOp => (none, s1)
    | .unerasable => (some .unerasableImage, s1)
    | .writeOnly | .eraseThenWrite =>
      match left with
      | 0 => (some .programFailure, s1)
      | n + 1 => retryLoop n (programAttempt { s1 with work.retry := s1.work.retry + 1 })

/-- ST_ELAPSED's value: saturating, never below 0 (spec 44 R267 e). -/
def elapsedWord (t start : Nat) : Word := BitVec.ofNat 32 (min (t - start) (2 ^ 32 - 1))

/-- `ST_ELAPSED <- Now() - T_START`. -/
def stampElapsed (s : State) : State :=
  let s1 := (now s).2
  { s1 with stats.elapsed := elapsedWord (now s).1 s.work.tStart }

/-- The statistics after a finished chunk (spec 44 R256). -/
def Stats.afterChunk (st : Stats) (len : Nat) (erased written : Bool) : Stats :=
  { st with
    bytes := st.bytes + BitVec.ofNat 32 len
    blocks := st.blocks + 1#32
    erased := st.erased + boolWord erased
    written := st.written + boolWord written
    skipped := st.skipped + boolWord (!erased && !written) }

/-- Count a finished chunk and call the progress sink (spec 44 R256, R262). -/
def finishChunk (s : State) : State :=
  let s1 := stampElapsed
    { s with stats := s.stats.afterChunk s.work.chunklen s.work.didErase s.work.didWrite }
  emit (.progress s1.stats) s1

/-- One round of `chunkLoop()` over a filled chunk: `none` is success so far (spec 44 R256). -/
def runChunk (s : State) : Option ErrorKind × State :=
  if runsPastFlash s.work.faddr s.work.chunklen then (some .addressRangeError, s)
  else
    let r := retryLoop Config.retryMax
      { s with work.retry := 0, work.didErase := false, work.didWrite := false }
    match r.1 with
    | some e => (some e, r.2)
    | none => (none, finishChunk r.2)

/-- A bound on the rounds of the chunk loop, whatever the source gives (spec 70 R337): every round but the last is over
a whole erase block that lies in the flash. -/
def chunkRounds (p : Params) : Nat := Config.flashBytes / p.eraseBlock + 1

/-- `chunkLoop()`; `none` is the return (spec 44 R256). The first argument bounds the number of rounds; with `chunkRounds`
it never runs out (spec 70 R337). -/
def chunkLoop : Nat → State → Option ErrorKind × State
  | 0, s => (none, s)
  | n + 1, s =>
    let f := fillChunk s.cfg.eraseBlock { s with work.chunklen := 0 }
    if f.2.work.chunklen = 0 then (none, f.2)
    else
      let r := runChunk f.2
      match r.1 with
      | some e => (some e, r.2)
      | none =>
        if f.1 then (none, r.2)
        else chunkLoop n { r.2 with work.faddr := r.2.work.faddr + r.2.cfg.eraseBlock }

/-- UPLOAD up to the chunk loop (spec 44 R255). -/
def startUpload (base : Nat) (s : State) : State :=
  let s1 := { s with stats := Stats.zero }
  let s2 := { (now s1).2 with work.tStart := (now s1).1 }
  let s3 := (openForFlash (acquireIfReleased s2)).2
  { s3 with work.faddr := base }

/-! ### Commands -/

/-- POLL (spec 44 R243). -/
def execPoll (s : State) : Host.Outcome State Fault Refusal :=
  command .poll requireFlash
    (fun s =>
      let p := pollStatus s.regs.att.toNat s.regs.dly.toNat s
      let s1 := if s.regs.att = 0#32 then p.2 else { p.2 with res := p.1.1.setWidth 32 }
      endPolled p.1.2 0 s1) s

/-- The address checks of UPLOAD: the range of its chunks is checked as it gets to them (spec 20_memory R84,
44 R255). -/
def requireEraseAddress (s : State) : List EntryCheck :=
  [(beyondFlash s.addrOperand, .addressRangeError, s.addrOperand),
   (misaligned s.addrOperand s.cfg.eraseBlock, .alignmentError, s.addrOperand)]

/-- The address checks of ERASE: the block it covers lies in the flash, then the alignment (spec 20_memory R83, R84,
44 R245; log entry 24). -/
def requireEraseBlock (s : State) : List EntryCheck :=
  [(beyondFlash s.addrOperand || runsPastFlash s.addrOperand s.cfg.eraseBlock, .addressRangeError, s.addrOperand),
   (misaligned s.addrOperand s.cfg.eraseBlock, .alignmentError, s.addrOperand)]

/-- The entry checks of ERASE (spec 44 R245). -/
def eraseChecks (s : State) : List EntryCheck := requireEraseBlock s ++ requireFlash s

/-- ERASE (spec 44 R245). -/
def execErase (s : State) : Host.Outcome State Fault Refusal :=
  command .erase eraseChecks
    (fun s =>
      let r := eraseBlock s.addrOperand s
      endPolled r.1 s.addrOperand r.2) s

/-- The range check of WRITE and READ (spec 44 R248, R250). -/
def requireRange (s : State) : List EntryCheck :=
  [(beyondFlash s.addrOperand || runsPastFlash s.addrOperand s.lenOperand, .addressRangeError, s.addrOperand)]

/-- The length check of WRITE and READ (spec 44 R248, R250). -/
def requireLength (s : State) (most : Nat) : List EntryCheck :=
  [(s.lenOperand == 0 || decide (most < s.lenOperand) || s.leavesBuf s.lenOperand, .operandError, 0)]

/-- The entry checks of WRITE (spec 44 R248). -/
def writeChecks (s : State) : List EntryCheck :=
  requireRange s ++ [(misaligned s.addrOperand s.cfg.writeBlock, .alignmentError, s.addrOperand)] ++
    requireLength s s.cfg.writeBlock ++ requireFlash s

/-- WRITE (spec 44 R248). -/
def execWrite (s : State) : Host.Outcome State Fault Refusal :=
  command .write writeChecks
    (fun s => withBuf s.bufOperand s.lenOperand s fun data =>
      let r := writeBlock data s.addrOperand s
      endPolled r.1 s.addrOperand r.2) s

/-- The entry checks of READ (spec 44 R250): no alignment requirement. -/
def readChecks (s : State) : List EntryCheck :=
  requireRange s ++ requireLength s s.cfg.eraseBlock ++ requireFlash s

/-- READ (spec 44 R250). -/
def execRead (s : State) : Host.Outcome State Fault Refusal :=
  command .read readChecks
    (fun s =>
      let r := readBlock s.addrOperand s.lenOperand s
      complete { r.2 with buf := r.2.buf.writeRange s.bufOperand r.1 }) s

/-- The end of UPLOAD: a failure reports FADDR and keeps the partial statistics, the last ST_ELAPSED among them
(spec 44 R255, R260). -/
def endUpload (failure : Option ErrorKind) (s : State) : State :=
  match failure with
  | some e => endCommand e s.work.faddr s
  | none => endCommand .ok 0 (stampElapsed s)

/-- UPLOAD (spec 44 R255, R260). -/
def execUpload (s : State) : Host.Outcome State Fault Refusal :=
  command .upload requireEraseAddress
    (fun s =>
      let s1 := startUpload s.addrOperand s
      let r := chunkLoop (chunkRounds s1.cfg) s1
      .next (endUpload r.1 r.2)) s

end Sys2Proof.Machine
end

