-- ==== Sys2Proof/Machine/Dispatch.lean ====
section
/-! DEFINITION. The dispatch: one arm per command of spec 30_encoding R113, each a direct call of its meaning. -/

namespace Sys2Proof.Machine

def exec (i : Instr) (s : State) : Host.Outcome State Fault Refusal :=
  match i with
  | .acquire => Sys2Proof.Machine.execAcquire s
  | .release => Sys2Proof.Machine.execRelease s
  | .shiftbit tdi tms => Sys2Proof.Machine.execShiftbit tdi tms s
  | .settms tms => Sys2Proof.Machine.execSettms tms s
  | .rev8 => Sys2Proof.Machine.execRev8 s
  | .reset => Sys2Proof.Machine.execReset s
  | .idle => Sys2Proof.Machine.execIdle s
  | .sir idleTail => Sys2Proof.Machine.execSir idleTail s
  | .sdr capture idleTail pause => Sys2Proof.Machine.execSdr capture idleTail pause s
  | .check => Sys2Proof.Machine.execCheck s
  | .burstwr => Sys2Proof.Machine.execBurstwr s
  | .burstrd => Sys2Proof.Machine.execBurstrd s
  | .identify => Sys2Proof.Machine.execIdentify s
  | .opencfg => Sys2Proof.Machine.execOpencfg s
  | .openflash => Sys2Proof.Machine.execOpenflash s
  | .close => Sys2Proof.Machine.execClose s
  | .poll => Sys2Proof.Machine.execPoll s
  | .erase => Sys2Proof.Machine.execErase s
  | .write => Sys2Proof.Machine.execWrite s
  | .read => Sys2Proof.Machine.execRead s
  | .upload => Sys2Proof.Machine.execUpload s

end Sys2Proof.Machine
end

