-- ==== Sys2Proof/Decode.lean ====
section
/-! DEFINITION. The decoder of the command word (spec 30_encoding R110 to R114): total on every word, refusing by
name; then the encoder, written from the same table. -/

namespace Sys2Proof

/-- Why a word spells no command (spec 30_encoding R114). The block reports all three as IllegalCommand. -/
inductive Illegal where
  /-- OP is not one of the listed codes. -/
  | unlistedOp (op : Nat)
  /-- One of the bits 31:13 is set. -/
  | reservedBit
  /-- A flag is set that the command does not use. -/
  | unusedFlag (op : Nat)
deriving DecidableEq, Repr

/-- F_CAPTURE, bit 8. -/
def flagCapture (w : Word) : Bool := w.getLsbD 8
/-- F_IDLE, bit 9. -/
def flagIdle (w : Word) : Bool := w.getLsbD 9
/-- F_PAUSE, bit 10. -/
def flagPause (w : Word) : Bool := w.getLsbD 10
/-- F_TMS, bit 11. -/
def flagTms (w : Word) : Bool := w.getLsbD 11
/-- F_TDI, bit 12. -/
def flagTdi (w : Word) : Bool := w.getLsbD 12

/-- The command of an operation code, its flags read from the word (spec 30_encoding R113). -/
def commandOf (w : Word) : Option Instr :=
  match CommandWord.op w with
  | 0x01 => some .acquire
  | 0x02 => some .release
  | 0x03 => some (.shiftbit (flagTdi w) (flagTms w))
  | 0x04 => some (.settms (flagTms w))
  | 0x05 => some .rev8
  | 0x10 => some .reset
  | 0x11 => some .idle
  | 0x12 => some (.sir (flagIdle w))
  | 0x13 => some (.sdr (flagCapture w) (flagIdle w) (flagPause w))
  | 0x14 => some .check
  | 0x20 => some .burstwr
  | 0x21 => some .burstrd
  | 0x30 => some .identify
  | 0x31 => some .opencfg
  | 0x32 => some .openflash
  | 0x33 => some .close
  | 0x40 => some .poll
  | 0x41 => some .erase
  | 0x42 => some .write
  | 0x43 => some .read
  | 0x44 => some .upload
  | _ => none

/-- The decoder: a command for every well-formed word, a named reason for every other (spec 30_encoding R113,
R114). -/
def decode (w : Word) : Except Illegal Instr :=
  match commandOf w with
  | none => .error (.unlistedOp (CommandWord.op w))
  | some i =>
    if !CommandWord.reservedClear w then .error .reservedBit
    else if !CommandWord.unusedFlagsClear w then .error (.unusedFlag (CommandWord.op w))
    else .ok i

/-- The operation code of a command (spec 30_encoding R113). -/
def opOf : Instr → Word
  | .acquire => 0x01#32
  | .release => 0x02#32
  | .shiftbit _ _ => 0x03#32
  | .settms _ => 0x04#32
  | .rev8 => 0x05#32
  | .reset => 0x10#32
  | .idle => 0x11#32
  | .sir _ => 0x12#32
  | .sdr _ _ _ => 0x13#32
  | .check => 0x14#32
  | .burstwr => 0x20#32
  | .burstrd => 0x21#32
  | .identify => 0x30#32
  | .opencfg => 0x31#32
  | .openflash => 0x32#32
  | .close => 0x33#32
  | .poll => 0x40#32
  | .erase => 0x41#32
  | .write => 0x42#32
  | .read => 0x43#32
  | .upload => 0x44#32

/-- A word with the single bit `n` set where `b` holds. -/
def flagBit (b : Bool) (n : Nat) : Word := if b then 1#32 <<< n else 0#32

/-- The option flags of a command, in their places (spec 30_encoding R111). -/
def flagsOf : Instr → Word
  | .shiftbit tdi tms => flagBit tms 11 ||| flagBit tdi 12
  | .settms tms => flagBit tms 11
  | .sir idleTail => flagBit idleTail 9
  | .sdr capture idleTail pause => flagBit capture 8 ||| flagBit idleTail 9 ||| flagBit pause 10
  | .acquire | .release | .rev8 | .reset | .idle | .check | .burstwr | .burstrd | .identify | .opencfg
  | .openflash | .close | .poll | .erase | .write | .read | .upload => 0#32

/-- The encoder: the one word that spells a command (spec 30_encoding R111, R113). -/
def encode (i : Instr) : Word := opOf i ||| flagsOf i

/-- The command a row's word of `nbits` bits spells, every bit above them 0 (the table's own numbering: bit 0 is
the least significant bit of the one word a command has). -/
def decodeTableWord (nbits w : Nat) : Option Instr :=
  match decode (BitVec.ofNat 32 (w % 2 ^ nbits)) with
  | .ok i => some i
  | .error _ => none

end Sys2Proof
end

