-- ==== Sys2Proof/Machine/HostBus.lean ====
section
/-! DEFINITION. The register space as the host sees it between commands (spec 10_state R42 to R49, 20_memory R72,
93 U2, U3, U9), and how the next command reaches the sequencer. -/

namespace Sys2Proof.Machine

/-! ### Reads -/

/-- The registers of spec 10_state R42 below the BUF window; `none` where no register is listed. CMD reads 0. -/
def readRegister (off : Nat) (s : State) : Option Word :=
  match off with
  | 0x00 => some 0#32
  | 0x04 => some s.statWord
  | 0x08 => some s.ctl.errWord
  | 0x0C => some s.flags.toWord
  | 0x10 => some s.res
  | 0x14 => some (s.fsr.setWidth 32)
  | 0x20 => some s.regs.addr
  | 0x24 => some s.regs.len
  | 0x28 => some s.regs.buf
  | 0x2C => some s.regs.val
  | 0x30 => some s.regs.exp
  | 0x34 => some s.regs.mask
  | 0x38 => some s.regs.cyc
  | 0x3C => some s.regs.dur
  | 0x40 => some s.regs.pause
  | 0x44 => some s.regs.att
  | 0x48 => some s.regs.dly
  | 0x50 => some s.stats.bytes
  | 0x54 => some s.stats.blocks
  | 0x58 => some s.stats.erased
  | 0x5C => some s.stats.written
  | 0x60 => some s.stats.skipped
  | 0x64 => some s.stats.elapsed
  | _ => none

/-- The offset of the BUF window (spec 10_state R42). -/
def bufWindow : Nat := 0x1000

/-- The offset is that of a word of the BUF window (spec 10_state R42): aligned, and its first byte inside BUF. -/
def inBufWindow (off : Nat) (s : State) : Bool :=
  decide (bufWindow ≤ off) && off % 4 == 0 && decide (off - bufWindow < s.cfg.bufBytes)

/-- A byte of BUF as the host reads it: one never written holds an unspecified value, the same until it is written
(spec 20_memory R73; log entry 9). -/
def hostByte (a : Nat) (s : State) : Byte :=
  (Memory.read s.buf a).getD (Config.bufAtReset s.port.resets a)

/-- The word at byte `a` of BUF, the lowest address in the lowest bits (spec 10_state R42). -/
def bufWord (a : Nat) (s : State) : Word :=
  hostByte (a + 3) s ++ hostByte (a + 2) s ++ hostByte (a + 1) s ++ hostByte a s

/-- What a defined 32-bit read returns; `none` for an access outside the register map (spec 93 U9). -/
def definedRead (width off : Nat) (s : State) : Option Word :=
  if width ≠ 32 then none
  else
    match readRegister off s with
    | some v => some v
    | none => if inBufWindow off s then some (bufWord (off - bufWindow) s) else none

/-- A host read while BUSY = 0; outside the map it returns an unspecified value (spec 93 U9; log entry 8). -/
def hostRead (width off : Nat) (s : State) : State :=
  match definedRead width off s with
  | some v => { s with port.reads := (off, v) :: s.port.reads }
  | none => { s with port.reads := (off, Config.hostReadValue s.port.draws) :: s.port.reads
                     port.draws := s.port.draws + 1 }

/-! ### Writes -/

/-- Write the bytes of a word that lie inside BUF (spec 10_state R42; log entry 11). -/
def writeBufWord (a : Nat) (v : Word) (s : State) : State :=
  let bytes := [v.extractLsb' 0 8, v.extractLsb' 8 8, v.extractLsb' 16 8, v.extractLsb' 24 8]
  { s with buf := s.buf.writeRange a (bytes.take (s.cfg.bufBytes - a)) }

/-- A host write while BUSY = 0 to a register other than CMD: the operand registers and the BUF window take the
value, FLAGS clears by ones, every other write is ignored (spec 10_state R42, R46, 93 U3, U9). -/
def writeRegister (off : Nat) (v : Word) (s : State) : State :=
  match off with
  | 0x0C => { s with flags := s.flags.clear v }
  | 0x20 => { s with regs.addr := v }
  | 0x24 => { s with regs.len := v }
  | 0x28 => { s with regs.buf := v }
  | 0x2C => { s with regs.val := v }
  | 0x30 => { s with regs.exp := v }
  | 0x34 => { s with regs.mask := v }
  | 0x38 => { s with regs.cyc := v }
  | 0x3C => { s with regs.dur := v }
  | 0x40 => { s with regs.pause := v }
  | 0x44 => { s with regs.att := v }
  | 0x48 => { s with regs.dly := v }
  | _ => if inBufWindow off s then writeBufWord (off - bufWindow) v s else s

/-- A write of another width is ignored (spec 93 U9). -/
def hostWrite (width off : Nat) (v : Word) (s : State) : State :=
  if width = 32 then writeRegister off v s else s

/-! ### The next input -/

/-- What the next input turns out to be: the write of a command word, or something served at once. -/
inductive Fetched where
  | command (w : Word) (s : State)
  | served (s : State)
deriving DecidableEq, Repr

/-- An access while BUSY = 0 (spec 10_state R42, R43). -/
def idleAccess (a : Access) (s : State) : Fetched :=
  match a with
  | .reset => .served (hardwareReset s)
  | .read width off => .served (hostRead width off s)
  | .write width off v =>
    if width = 32 ∧ off = 0x00 then .command v s else .served (hostWrite width off v s)

/-- An access, whatever BUSY is (spec 10_state R39). -/
def serveAccess (a : Access) (s : State) : Fetched :=
  if s.ctl.busy then
    match a with
    | .reset => .served (hardwareReset s)
    | _ => .served (busyAccess a s)
  else idleAccess a s

/-- Attach an upload source, finite or endless (spec 20_memory R78, 70 R337). -/
def attachSource (content : List Byte) (endless : Bool) (offers : List Nat) (s : State) : State :=
  { s with env.source.stream.content := content, env.source.stream.endless := endless, env.source.offers := offers }

/-- Take the next input; with none the block waits for CMD and nothing changes (spec 70 R321, R322, R351). -/
def fetch (s : State) : Fetched :=
  match s.port.inputs with
  | [] => .served s
  | .attachSource content endless offers :: rest =>
    .served (attachSource content endless offers { s with port.inputs := rest })
  | .access a :: rest => serveAccess a { s with port.inputs := rest }

/-- Place the write of a command word as the next input, with the block ready for it. -/
def placeCommand (w : Word) (s : State) : State :=
  { s with ctl.busy := false, port.inputs := .access (.write 32 0x00 w) :: s.port.inputs }

end Sys2Proof.Machine
end

