-- ==== Sys2Proof/Machine/Step.lean ====
section
/-! DEFINITION. One step: the next input is served; a write of CMD runs the command its word spells, to its end
(spec 00_scope R7, 10_state R39, R40, R43; log entry 1). -/

namespace Sys2Proof.Machine

/-- One step of the machine. -/
def step (s : State) : Host.Outcome State Fault Refusal :=
  match fetch s with
  | .served s1 => .next s1
  | .command w s1 =>
    match decode w with
    | .ok i => exec i s1
    | .error _ => .next (illegalCommand s1)

/-- The state in which the next thing the host does is to write the word `w` of `nbits` bits to CMD (log entry 1). -/
def State.withFetchWord (s : State) (nbits w : Nat) : State := placeCommand (BitVec.ofNat 32 (w % 2 ^ nbits)) s

end Sys2Proof.Machine
end

