-- ==== Sys2Proof/Machine/Platform.lean ====
section
/-! DEFINITION. The platform boundary, as views of the state and of the trace: the pin roles PATH names
(spec 10_state R21), and the calls on the pin and SPI capabilities that each event stands for (60 R300, R301). -/

namespace Sys2Proof.Machine

/-- The four pins (spec 10_state R21). -/
inductive Pin where
  | tck | tms | tdi | tdo
deriving DecidableEq, Repr

/-- A pin's role (spec 10_state R21). -/
inductive PinRole where
  | hiZ | out | sampled | periph
deriving DecidableEq, Repr

/-- The role vector PATH names (spec 10_state R21): TMS is never a peripheral line. -/
def pinRole (p : Path) (x : Pin) : PinRole :=
  match p, x with
  | .released, _ => .hiZ
  | .bitBang, .tdo => .sampled
  | .bitBang, _ => .out
  | .burst, .tms => .out
  | .burst, _ => .periph

/-- The level the block drives on a pin; `none` where the bit-banged path does not drive it
(spec 10_state R21, R22). -/
def drivenLevel (s : State) (x : Pin) : Option Bool :=
  match pinRole s.pins.path x, x with
  | .out, .tck => some s.pins.tck
  | .out, .tms => some s.pins.tms
  | .out, .tdi => some s.pins.tdi
  | _, _ => none

/-- A call on the platform: the three of the pin capability (spec 60 R300), and of the SPI capability (60 R301) the
exclusive acquisition, the configuration, one clock of a transfer (42 R204: `SpiPulse` is its whole model), the
release. -/
inductive PlatformCall where
  | setDirection (x : Pin) (role : PinRole)
  | setOutput (x : Pin) (level : Bool)
  | readInput (x : Pin)
  | spiAcquire
  | spiConfigure (polarity phase : Bool)
  | spiClock (tdi : Bool)
  | spiRelease
deriving DecidableEq, Repr

/-- The calls an event stands for, `s` being the state in which it was emitted and `before` the PATH before it
(spec 60 R300, R301, 40 R151, 42 R201, R204, R205, 60 R291, R292). -/
def callsOf (before : Path) (s : State) : Event → List PlatformCall
  | .pulse .bb tms tdi _ =>
    [.setOutput .tms tms, .setOutput .tdi tdi, .setOutput .tck false, .setOutput .tck true, .readInput .tdo]
  | .pulse .spi _ tdi _ => [.spiClock tdi]
  | .path .bitBang =>
    if before = .burst then
      [.setDirection .tck .out, .setDirection .tdi .out, .setDirection .tdo .sampled, .spiRelease]
    else
      [.setOutput .tck s.pins.tck, .setOutput .tms s.pins.tms, .setOutput .tdi s.pins.tdi,
       .setDirection .tck .out, .setDirection .tms .out, .setDirection .tdi .out, .setDirection .tdo .sampled]
  | .path .burst =>
    [.setOutput .tms false, .spiAcquire, .spiConfigure Config.spiCpol Config.spiCpha,
     .setDirection .tck .periph, .setDirection .tdi .periph, .setDirection .tdo .periph]
  | .path .released =>
    [.setDirection .tck .hiZ, .setDirection .tms .hiZ, .setDirection .tdi .hiZ, .setDirection .tdo .hiZ]
  | .wait _ | .mismatch _ _ _ | .src _ _ | .progress _ | .done _ _ => []

/-- The SPI peripheral is held exactly while PATH is Burst (spec 42 R206, 60 R293). -/
def spiHeld (s : State) : Bool := s.pins.path == .burst

end Sys2Proof.Machine
end

