-- ==== Sys2Proof/Safety.lean ====
section
/-! DEFINITION. The terms in which claims are made: what a command emitted, what its pulses look like on the wires,
what it left alone, and what holds between commands. -/

namespace Sys2Proof.Machine

/-! ### What the outside leaves alone -/

/-- No hardware reset arrives while the next command runs. (Reads and writes of the host may.) -/
def State.undisturbed (s : State) : Prop :=
  s.port.cut = none ∧ ∀ x ∈ s.port.during, x.2 ≠ .reset

/-! ### The events of a command -/

/-- From s to t the events `evs`, in time order, were appended to the trace. -/
def newEvents (s t : State) (evs : List Event) : Prop := t.trace = evs.reverse ++ s.trace

/-- The event is a TCK pulse. -/
def Event.isPulse : Event → Bool
  | .pulse _ _ _ _ => true
  | _ => false

/-- The event is a logged mismatch. -/
def Event.isMismatch : Event → Bool
  | .mismatch _ _ _ => true
  | _ => false

/-- The event is the end of a command. -/
def Event.isDone : Event → Bool
  | .done _ _ => true
  | _ => false

/-- An event without its TDO sample, which is the target's, not the block's (spec 40 R155). -/
def Event.blind : Event → Event
  | .pulse d tms tdi _ => .pulse d tms tdi false
  | .path p => .path p
  | .wait n => .wait n
  | .mismatch r e m => .mismatch r e m
  | .src n a => .src n a
  | .progress st => .progress st
  | .done c i => .done c i

/-- The TDO sample of a pulse. -/
def Event.sample : Event → Option Bool
  | .pulse _ _ _ tdo => some tdo
  | _ => none

/-- The TDO samples of a list of events, in time order. -/
def samplesOf (evs : List Event) : List Bool := evs.filterMap Event.sample

/-- The bytes of samples in flash order: in each group of eight the first sample is the most significant bit
(spec 20_memory R81). -/
def flashBytesOf (n : Nat) (samples : List Bool) : List Byte := (packBytes n samples).map rev8

/-- How many TCK pulses the target sees (spec 40 R154). -/
def pulseCount (evs : List Event) : Nat := evs.countP Event.isPulse

/-- What an event does to the tracker: a pulse moves it (spec 10_state R30), a release forgets the state
(60 R292), nothing else touches it. -/
def trackEvent (t : Tracker) : Event → Tracker
  | .pulse _ tms _ _ => t.onPulse tms
  | .path .released => { t with known := false, ones := 0#3 }
  | _ => t

/-- The tracker after a list of events. -/
def trackEvents (t : Tracker) (evs : List Event) : Tracker := evs.foldl trackEvent t

/-- PATH after a list of events (spec 10_state R58: `Path(p)` says PATH became p). -/
def pathAfter (p : Path) (evs : List Event) : Path :=
  evs.foldl (fun q e => match e with | .path r => r | _ => q) p

/-- TMS_L and TDI_L after a list of events: those of the last bit-banged pulse, and TMS low from a handover to the
peripheral on (spec 10_state R22, 42 R201, R203). -/
def levelsAfter (levels : Bool × Bool) (evs : List Event) : Bool × Bool :=
  evs.foldl (fun l e => match e with
    | .pulse .bb tms tdi _ => (tms, tdi)
    | .path .burst => (false, l.2)
    | _ => l) levels

/-- The target meets the pulses of the events in their order, each with the levels it carries, answers each with the
sample it carries, and is left in the last state (spec 40 R155, R157). -/
def answeredBy (p : Params) : Target → List Event → Target → Prop
  | before, [], after => after = before
  | before, .pulse _ tms tdi tdo :: evs, after =>
    tdo = (before.pulse p tms tdi).1 ∧ answeredBy p (before.pulse p tms tdi).2 evs after
  | before, _ :: evs, after => answeredBy p before evs after

/-! ### What the host does while a command runs (spec 10_state R39, R60, 93 U2; log entries 2, 8) -/

/-- The accesses of the list that no event has to precede. -/
def dueNow : List (Nat × Access) → List Access
  | (0, a) :: rest => a :: dueNow rest
  | _ => []

/-- The accesses after them. -/
def dueLater : List (Nat × Access) → List (Nat × Access)
  | (0, _) :: rest => dueLater rest
  | l => l

/-- What the reads among the accesses answer, in order, while BUSY = 1: STAT its value, every other read the next free
value. Writes answer nothing. -/
def busyAnswers (stat : Word) : Nat → List Access → List (Nat × Word)
  | draws, .read width off :: rest =>
    if (width, off) = (32, 0x04) then (off, stat) :: busyAnswers stat draws rest
    else (off, Config.hostReadValue draws) :: busyAnswers stat (draws + 1) rest
  | draws, _ :: rest => busyAnswers stat draws rest
  | _, [] => []

/-- How many free values the reads among the accesses take. -/
def freeReads : List Access → Nat
  | .read width off :: rest => if (width, off) = (32, 0x04) then freeReads rest else freeReads rest + 1
  | _ :: rest => freeReads rest
  | [] => 0

/-- t is s after those of the accesses `l` that are due have been served in order, each read answered and each write
without effect; the others are still to come. -/
def servedTo (s : State) (l : List (Nat × Access)) (t : State) : Prop :=
  t = { s with port := { s.port with
    during := dueLater l
    reads := (busyAnswers s.statWord s.port.draws (dueNow l)).reverse ++ s.port.reads
    draws := s.port.draws + freeReads (dueNow l) } }

/-- The answers to accesses served one after the other while BUSY = 1, the free values counted from one number to the
other: a read of STAT shows BUSY = 1, every other read answers the next free value, a write answers nothing. -/
def busyAnswered : List Access → Nat → List (Nat × Word) → Nat → Prop
  | .read width off :: rest, draws, answers, after =>
    ∃ v more, answers = (off, v) :: more ∧
      if (width, off) = (32, 0x04) then v.getLsbD 0 = true ∧ busyAnswered rest draws more after
      else v = Config.hostReadValue draws ∧ busyAnswered rest (draws + 1) more after
  | _ :: rest, draws, answers, after => busyAnswered rest draws answers after
  | [], draws, answers, after => answers = [] ∧ after = draws

/-- How many events pass before the first reset among the accesses that come while a command runs. -/
def cutPoint : List (Nat × Access) → Option Nat
  | (n, .reset) :: _ => some n
  | (n, _) :: rest => (cutPoint rest).map (n + ·)
  | [] => none

/-- The bytes the upload source has given. -/
def bytesTaken (evs : List Event) : List Byte :=
  evs.flatMap fun e => match e with | .src _ (some bytes) => bytes | _ => []

/-- The ticks of the waits among the events. -/
def waited (evs : List Event) : Nat := (evs.map fun e => match e with | .wait d => d | _ => 0).sum

/-- The statistics the progress sink was given (spec 44 R262). -/
def reportsOf (evs : List Event) : List Stats :=
  evs.filterMap fun e => match e with | .progress st => some st | _ => none

/-- The stream has given these bytes, its next ones, and is after them as said (spec 20_memory R78). -/
def ByteStream.gave (b : ByteStream) (bytes : List Byte) (after : ByteStream) : Prop :=
  b.peek bytes.length = bytes ∧ after = b.skip bytes.length

/-- The environment after the events: the target has met their pulses, the source has given their bytes, and the clock
has passed their waits. -/
structure ReachedEnv (p : Params) (before : Env) (evs : List Event) (after : Env) : Prop where
  target : answeredBy p before.target evs after.target
  clock : before.clock.time + waited evs ≤ after.clock.time
  source : before.source.stream.gave (bytesTaken evs) after.source.stream

/-! ### Waves: what a sequence of operations puts on the wires (spec 30_encoding R120, R121) -/

/-- Events without their samples, and the level at which TDI rests after them. -/
structure Wave where
  events : List Event
  tdi : Bool
deriving DecidableEq, Repr

/-- Nothing yet; TDI rests at a level. -/
def Wave.start (tdi : Bool) : Wave := { events := [], tdi := tdi }

/-- Single bit-banged pulses with the given TMS levels; TDI rests. -/
def Wave.tms (levels : List Bool) (w : Wave) : Wave :=
  { w with events := w.events ++ levels.map fun b => .pulse .bb b w.tdi false }

/-- Bits shifted bit-banged, every one with TMS=0 but the last, which carries `exit`: `S(n)` for `exit = true`. -/
def shiftEvents (exit : Bool) : List Bool → List Event
  | [] => []
  | b :: bs => .pulse .bb (exit && bs.isEmpty) b false :: shiftEvents exit bs

/-- `S(n)` (spec 30_encoding R120), or the same loop with TMS=0 throughout. -/
def Wave.shift (exit : Bool) (bits : List Bool) (w : Wave) : Wave :=
  { events := w.events ++ shiftEvents exit bits, tdi := bits.getLastD w.tdi }

/-- An event that is no pulse. -/
def Wave.mark (e : Event) (w : Wave) : Wave := { w with events := w.events ++ [e] }

/-- `I(c, d)` with `n = c + k` pulses of TMS=0 (spec 30_encoding R120). -/
def Wave.idle (n : Nat) (w : Wave) : Wave := w.tms (List.replicate n false ++ [true])

/-- The tail of a scan: `I` with so many pulses, or one pulse with TMS=1. -/
def Wave.tail (idlePulses : Option Nat) (w : Wave) : Wave :=
  match idlePulses with
  | some n => w.idle n
  | none => w.tms [true]

/-- The template of RESET (spec 30_encoding R121). -/
def Wave.reset (w : Wave) : Wave := w.tms (List.replicate Config.resetClocks true)

/-- The template of SIR (spec 30_encoding R121). -/
def Wave.sir (bits : List Bool) (idlePulses : Option Nat) (w : Wave) : Wave :=
  (((w.tms [true, false, false]).shift true bits).tms [false, true, true]).tail idlePulses

/-- The template of SDR (spec 30_encoding R121), with its optional wait in PauseDR. -/
def Wave.sdr (bits : List Bool) (pause : Option Nat) (idlePulses : Option Nat) (w : Wave) : Wave :=
  let w1 := ((w.tms [false, false]).shift true bits).tms [false]
  let w2 := match pause with
    | some p => w1.mark (.wait p)
    | none => w1
  (w2.tms [true, true]).tail idlePulses

/-- One byte of a bulk transfer, most significant bit first on TDI, TMS=0: by the peripheral, or bit-banged
(spec 42 R204, R206). -/
def Wave.bulkByte (useBurst : Bool) (b : Byte) (w : Wave) : Wave :=
  if useBurst then
    { w with events := w.events ++ (byteBits b).reverse.map fun x => .pulse .spi false x false }
  else w.shift false (byteBits (rev8 b))

/-- Bulk bytes, `B(m)`. -/
def Wave.bulk (useBurst : Bool) : List Byte → Wave → Wave
  | [], w => w
  | b :: bs, w => Wave.bulk useBurst bs (w.bulkByte useBurst b)

/-- A burst from ShiftDR to Exit1DR: bulk bytes, then a byte bit-banged whose last bit carries TMS=1
(spec 42 R200, R206). -/
def Wave.burst (useBurst : Bool) (bytes : List Byte) (finalByte : Byte) (w : Wave) : Wave :=
  let w1 := if useBurst then w.mark (.path .burst) else w
  let w2 := Wave.bulk useBurst bytes w1
  let w3 := if useBurst then w2.mark (.path .bitBang) else w2
  w3.shift true (byteBits finalByte)

/-- The wave of a segment: from one resting level of TDI to another. -/
def segment (before : Bool) (evs : List Event) (f : Wave → Wave) (after : Bool) : Prop :=
  f (Wave.start before) = { events := evs.map Event.blind, tdi := after }

/-- The event of a masked comparison, if it fails (spec 41 R184). -/
def checkEvents (r e m : Word) : List Event := if maskedMismatch r e m then [.mismatch r e m] else []

/-- The events of `if PATH = Released then acquire()` (spec 43 R221). -/
def acquireEvents (p : Path) : List Event := if p = .released then [.path .bitBang] else []

/-- An instruction scan of a script: the IR_BITS bits of the instruction value (spec 30_encoding R122). -/
def Wave.sirOp (op : Byte) (idlePulses : Option Nat) (w : Wave) : Wave := w.sir (bitsOf [op] Config.irBits) idlePulses

/-- The start of a script: the reset, then IDENT_IDLE_CYCLES idle cycles with no duration, so exactly that many
(spec 43 R222, R224, R226). -/
def Wave.scriptStart (w : Wave) : Wave := w.reset.idle Config.identIdleCycles

/-- What OPENFLASH does after the configuration entry: `k1` and `k2` idle pulses in its two long idles
(spec 43 R226). -/
def Wave.flashEntry (p : Params) (k1 k2 : Nat) (w : Wave) : Wave :=
  ((w.scriptStart.sirOp p.op.bypass (some k1)).sirOp p.op.lscProgSpi none).sdr
    (numberBits p.progSpiBits p.progSpiWord) none (some k2)

/-- The scans of CLOSE with the reset at their end, `k` idle pulses after the refresh instruction
(spec 43 R228). -/
def Wave.close (p : Params) (k : Nat) (w : Wave) : Wave :=
  (((((w.sdr (bitsOf [rev8 p.fc.wrdi] 8) none none).sirOp p.op.bypass (some Config.longIdleCycles)).sirOp
    p.op.iscDisable (some Config.longIdleCycles)).sirOp p.op.bypass none).sirOp p.op.lscRefresh (some k)).reset

/-- A bit-banged flash frame: a data scan of the frame's bytes, each most significant bit first (spec 44 R240). -/
def Wave.frame (bytes : List Byte) (w : Wave) : Wave :=
  w.sdr (bitsOf (bytes.map rev8) (8 * bytes.length)) none none

/-- A burst frame: into ShiftDR, the burst, and out to SelectDRScan (spec 44 R248, R250). -/
def Wave.burstFrame (useBurst : Bool) (bytes : List Byte) (finalByte : Byte) (w : Wave) : Wave :=
  ((w.tms [false, false]).burst useBurst bytes finalByte).tms [false, true, true, true]

/-- The word a data scan captured, from its events: the samples after the two pulses that enter ShiftDR
(spec 41 R180, R185). -/
def scannedWord (n : Nat) (scan : List Event) : Word := capturedWord (((samplesOf scan).drop 2).take n)

/-- The status byte a status frame read: its second response byte (spec 44 R241). -/
def statusOf (scan : List Event) : Byte := (flashBytesOf 2 (((samplesOf scan).drop 2).take 16)).getD 1 0#8

/-- The events of a poll with so many attempts, from a resting level of TDI and a status byte read before: one status
frame an attempt, a wait after each that shows busy or write-enabled, an end at the first that shows neither
(spec 44 R243). The last two arguments are the status byte it ends with and whether the attempts ran out. -/
def PollTrace (p : Params) (delay : Nat) : Nat → Bool → Byte → List Event → Byte → Bool → Prop
  | 0, _, before, evs, sr, timedOut => evs = [] ∧ sr = before ∧ timedOut = true
  | n + 1, tdi, _, evs, sr, timedOut =>
    ∃ scan, segment tdi scan (Wave.frame [p.fc.rdsr, 0#8]) false ∧
      if statusOf scan &&& (p.srWip ||| p.srWel) = 0#8 then evs = scan ∧ sr = statusOf scan ∧ timedOut = false
      else ∃ rest, evs = scan ++ .wait delay :: rest ∧ PollTrace p delay n false (statusOf scan) rest sr timedOut

/-- The events of `eraseBlock(a)` (spec 44 R245): write-enable, status read, the latch checked, the erase frame,
the poll. -/
def EraseTrace (p : Params) (a : Nat) (tdi : Bool) (evs : List Event) (sr : Byte) (timedOut : Bool) : Prop :=
  ∃ e1 scan e2 e3 x1 x2,
    evs = e1 ++ scan ++
      checkEvents ((statusOf scan).setWidth 32) (p.srWel.setWidth 32) (p.srWel.setWidth 32) ++ e2 ++ e3 ∧
    segment tdi e1 (Wave.frame [p.fc.wren]) x1 ∧
    segment x1 scan (Wave.frame [p.fc.rdsr, 0#8]) false ∧
    segment false e2 (Wave.frame (p.fc.erase :: addressBytes a)) x2 ∧
    PollTrace p p.erasePoll.delay p.erasePoll.attempts x2 (statusOf scan) e3 sr timedOut

/-- The events of `writeBlock(data, a)`, FSR being `before` (spec 44 R248): write-enable, the program burst, the
poll. -/
def WriteTrace (p : Params) (data : List Byte) (a : Nat) (tdi : Bool) (before : Byte) (evs : List Event) (sr : Byte)
    (timedOut : Bool) : Prop :=
  ∃ e1 e2 x,
    evs = e1 ++ e2 ∧
    segment tdi e1 (fun w => (w.frame [p.fc.wren]).burstFrame p.useBurst
      (p.fc.pageProgram :: addressBytes a ++ data.dropLast) (rev8 (data.getLastD 0#8))) x ∧
    PollTrace p p.writePoll.delay p.writePoll.attempts x before e2 sr timedOut

/-- The wave of `readBlock(a, n)` (spec 44 R250, 42 R209). -/
def Wave.readBlock (p : Params) (a n : Nat) (w : Wave) : Wave :=
  w.burstFrame p.useBurst
    (p.fc.fastRead :: addressBytes a ++ List.replicate p.dummyBytes 0#8 ++ List.replicate n 0#8) 0#8

/-- The bytes `readBlock` read, from its events: the samples after the two pulses that enter ShiftDR, the command and
address bytes and the dummy bytes (spec 44 R250, 42 R209). -/
def blockRead (p : Params) (n : Nat) (evs : List Event) : List Byte :=
  flashBytesOf n ((samplesOf evs).drop (2 + 8 * (4 + p.dummyBytes)))

/-- The events and the resting level of a command are those of the wave, samples apart. -/
def plays (s t : State) (evs : List Event) (f : Wave → Wave) : Prop :=
  f (Wave.start s.pins.tdi) = { events := evs.map Event.blind, tdi := t.pins.tdi }

/-- The idle pulses with TMS=0 that a wait `w` owes: at least its cycles, and no more when its duration is 0
(spec 41 R176). -/
def idlePulsesOf (w : IdleWait) (n : Nat) : Prop := w.cycles ≤ n ∧ (w.ticks = 0 → n = w.cycles)

/-- The clock after so many pulses (only the test clock counts them, 95_test_vectors 0.3). -/
def Clock.pulsed : Nat → Clock → Clock
  | 0, c => c
  | n + 1, c => Clock.pulsed n c.onPulse

/-- The second phase of an idle wait (spec 41 R176): k answers of the clock lie before the deadline, each followed by a
pulse; the next one does not, and leaves the clock as it is after. -/
def Clock.idledTo (deadline : Nat) : Nat → Clock → Clock → Prop
  | 0, c, after => deadline ≤ c.now.1 ∧ after = c.now.2
  | k + 1, c, after => c.now.1 < deadline ∧ Clock.idledTo deadline k c.now.2.onPulse after

/-- The idle wait `w` started at clock c makes k pulses beyond its cycles and ends, after its last pulse, at the clock
`after`: the deadline is w's duration after the first answer, and the cycles pass before the clock is asked again
(spec 41 R176). -/
def idleTakes (w : IdleWait) (k : Nat) (c after : Clock) : Prop :=
  ∃ last, Clock.idledTo (c.now.1 + w.ticks) k (Clock.pulsed w.cycles c.now.2) last ∧ after = last.onPulse

/-- `idlePulsesOf` for an optional idle tail. -/
def tailPulsesOf : Option IdleWait → Option Nat → Prop
  | none, none => True
  | some w, some n => idlePulsesOf w n
  | _, _ => False

/-- An optional idle tail started at clock c makes the given pulses with TMS=0, exactly those of `idleTakes`, and leaves
the clock as it is after. -/
def tailTakes (c after : Clock) : Option IdleWait → Option Nat → Prop
  | none, none => True
  | some w, some n => w.cycles ≤ n ∧ idleTakes w (n - w.cycles) c after
  | _, _ => False

/-- The clock after an optional wait without pulses (spec 41 R180, R181). -/
def Clock.paused : Option Nat → Clock → Clock
  | some d, c => c.now.2.waitUntil (c.now.1 + d)
  | none, c => c

/-- The events of `openForFlash()` from one resting level of TDI to another (spec 43 R224 to R226): the configuration
script with its two status scans, each compared with 0 under its mask, and the flash entry after it; both waits of CFG_WAIT
with the idle pulses it owes. -/
def OpenFlashTrace (p : Params) (tdi : Bool) (evs : List Event) (after : Bool) : Prop :=
  ∃ e1 scan1 e2 scan2 e3 k1 k2 x1 x2 x3,
    evs = e1 ++ scan1 ++ checkEvents (scannedWord 32 scan1) 0#32 Config.maskStatusA ++
      e2 ++ scan2 ++ checkEvents (scannedWord 32 scan2) 0#32 Config.maskStatusB ++ e3 ∧
    segment tdi e1 (fun w => (((w.scriptStart.sirOp p.op.preload none).sdr
      (List.replicate Config.preloadBits true) none none).sirOp p.op.iscEnable (some k1)).sirOp
      p.op.lscReadStatus none) x1 ∧
    segment x1 scan1 (Wave.sdr (List.replicate 32 false) none none) false ∧
    segment false e2 (fun w => (w.sirOp p.op.iscErase (some k2)).sirOp p.op.lscReadStatus none) x2 ∧
    segment x2 scan2 (Wave.sdr (List.replicate 32 false) none none) x3 ∧
    segment x3 e3 (Wave.flashEntry p Config.longIdleCycles Config.longIdleCycles) after ∧
    idlePulsesOf p.cfgWait k1 ∧ idlePulsesOf p.cfgWait k2

/-! ### Entry checks -/

/-- The checks that stand at the head of each command (spec 60 R283, R285). -/
def entryChecks (i : Instr) (s : State) : List EntryCheck :=
  match i with
  | .acquire => acquireChecks s
  | .release => releaseChecks s
  | .shiftbit _ _ => requireKnown s
  | .settms _ => requireKnown s
  | .rev8 => rev8Checks s
  | .reset => requireLines s
  | .idle => idleChecks s
  | .sir _ => sirChecks s
  | .sdr _ _ _ => sdrChecks s
  | .check => []
  | .burstwr => burstChecks s
  | .burstrd => burstChecks s
  | .identify => []
  | .opencfg => []
  | .openflash => []
  | .close => closeChecks s
  | .poll => requireFlash s
  | .erase => eraseChecks s
  | .write => writeChecks s
  | .read => readChecks s
  | .upload => requireEraseAddress s

/-! ### Encoding and reset -/

/-- The operation code of the command, and the word that spells it (spec 30_encoding R111, R113). -/
def HasOp (i : Instr) (op : Byte) : Prop := (encode i).extractLsb' 0 8 = op ∧ decode (encode i) = .ok i

/-- Every register has its value of the table of spec 10_state R59 (BUF, CHUNK and SCRATCH have none). -/
def ResetValues (t : State) : Prop :=
  t.pins.path = .released ∧ (∀ x, pinRole t.pins.path x = .hiZ) ∧
  t.pins.tck = true ∧ t.pins.tms = true ∧ t.pins.tdi = false ∧
  t.tap.state = .reset ∧ t.tap.known = false ∧ t.tap.ones = 0#3 ∧ t.devmode = .idle ∧
  t.banks.irsr = 0#32 ∧ t.banks.drbits = [] ∧ t.banks.drcap = [] ∧ t.banks.drlen = 0 ∧ t.banks.bitcnt = 0 ∧
  t.ctl.busy = false ∧ t.ctl.seq = none ∧
  t.ctl.errWord = 0#32 ∧ t.flags.toWord = 0#32 ∧ t.res = 0#32 ∧ t.fsr = 0#8 ∧
  t.regs.addr = 0#32 ∧ t.regs.len = 0#32 ∧ t.regs.buf = 0#32 ∧ t.regs.val = 0#32 ∧ t.regs.exp = 0#32 ∧
  t.regs.mask = 0#32 ∧ t.regs.cyc = 0#32 ∧ t.regs.dur = 0#32 ∧ t.regs.pause = 0#32 ∧ t.regs.att = 0#32 ∧
  t.regs.dly = 0#32 ∧
  t.stats.bytes = 0#32 ∧ t.stats.blocks = 0#32 ∧ t.stats.erased = 0#32 ∧ t.stats.written = 0#32 ∧
  t.stats.skipped = 0#32 ∧ t.stats.elapsed = 0#32 ∧
  t.work.faddr = 0 ∧ t.work.chunklen = 0 ∧ t.work.retry = 0 ∧ t.work.cls.code = 0#2 ∧ t.work.didErase = false ∧
  t.work.didWrite = false ∧ t.counters.attempt = 0 ∧ t.work.tStart = 0 ∧ t.counters.deadline = 0 ∧
  t.counters.cyccnt = 0 ∧ t.trace = []

/-! ### How a command ends, and what it leaves alone -/

/-- The command has ended with this code and information: `Done` is its last event, BUSY is 0, the host's coming
inputs, the configuration and the operand registers are as they were (spec 60 R284, R287, 10_state R24, 70 R322). -/
structure EndsWith (s t : State) (e : ErrorKind) (info : Nat) (evs : List Event) : Prop where
  events : newEvents s t (evs ++ [.done e.code (BitVec.ofNat 24 info)])
  err : t.ctl.err = e
  info : t.ctl.info = BitVec.ofNat 24 info
  notBusy : t.ctl.busy = false
  noSeq : t.ctl.seq = none
  inputs : t.port.inputs = s.port.inputs
  resets : t.port.resets = s.port.resets
  cfg : t.cfg = s.cfg
  regs : t.regs = s.regs

/-- t is s but for the lines, the tracker, the shift banks, the counters, the control registers, the trace, the target,
the clock and the host port: every other field, the upload source among them, is as in s. (BUF, R_RES, FSR, FLAGS,
DEVMODE, the statistics, UPLOAD's registers, the operand registers and the configuration are other fields.) -/
def onlyLines (s t : State) : Prop :=
  t = { s with pins := t.pins, tap := t.tap, banks := t.banks, counters := t.counters, ctl := t.ctl,
               trace := t.trace, port := t.port, env := { t.env with source := s.env.source } }

/-- t is s but for the control registers, the trace and the host port. -/
def onlyEnd (s t : State) : Prop := t = { s with ctl := t.ctl, trace := t.trace, port := t.port }

/-- Every byte of BUF reads as before. -/
def sameBuf (s t : State) : Prop := ∀ a, Memory.read t.buf a = Memory.read s.buf a

/-- Every byte of BUF outside `[base, base + n)` reads as before. -/
def sameBufOutside (s t : State) (base n : Nat) : Prop :=
  ∀ a, (a < base ∨ base + n ≤ a) → Memory.read t.buf a = Memory.read s.buf a

/-- The n bytes of BUF from `base` on read as the list. -/
def bufHolds (t : State) (base : Nat) (bytes : List Byte) : Prop :=
  ∀ j (h : j < bytes.length), Memory.read t.buf (base + j) = some bytes[j]

/-- The TAP state after k pulses with TMS=1 (spec 10_state R29). -/
def afterOnes : Nat → TapState → TapState
  | 0, st => st
  | k + 1, st => afterOnes k (delta st true)

/-- The tracker's state fits its count: as many further pulses with TMS=1 as ONES lacks of 5 reach Reset
(spec 10_state R28, R30). It holds in every state a run reaches; it rules out, for example, Idle with ONES = 4. -/
def Tracker.consistent (t : Tracker) : Prop := t.known = true → afterOnes (5 - t.ones.toNat) t.state = .reset

/-- The tracker knows the target's state and it is this one. -/
def State.tapAt (s : State) (st : TapState) : Prop :=
  s.tap.known = true ∧ s.tap.state = st ∧ s.tap.consistent

/-- The lines are acquired, the tracker knows the target's state and it is this one. -/
def State.inTap (s : State) (st : TapState) : Prop := s.pins.path = .bitBang ∧ s.tapAt st

/-- The command is refused with this code and information: it emits no event but `Done`, and changes nothing but ERR
(spec 60 R283). -/
def Refuses (i : Instr) (s : State) (e : ErrorKind) (info : Nat) : Prop :=
  ∃ t, exec i s = .next t ∧ EndsWith s t e info [] ∧ onlyEnd s t

/-- The command runs to its end: its next state is t, with this code, information and list of events. -/
def Runs (i : Instr) (s t : State) (e : ErrorKind) (info : Nat) (evs : List Event) : Prop :=
  exec i s = .next t ∧ EndsWith s t e info evs

/-- The conditions are checked in this order, and the first that holds refuses the command with its code and
information (spec 60 R285). -/
def RefusesInOrder (i : Instr) (s : State) : List (Prop × ErrorKind × Nat) → Prop
  | [] => True
  | (bad, e, info) :: rest => (bad → Refuses i s e info) ∧ (¬bad → RefusesInOrder i s rest)

/-- The tracker does not know the target's state to be one of these (spec 41 R170). -/
def State.notIn (s : State) (entry : List TapState) : Prop := s.tap.known = false ∨ s.tap.state ∉ entry

/-- The range `[R_BUF, R_BUF + k)` lies in BUF (spec 20_memory R72). -/
def State.inBuf (s : State) (k : Nat) : Prop := s.regs.buf.toNat + k ≤ s.cfg.bufBytes

/-- After a capture in place of `cap` over the old bytes from `base` on: bit `i mod 8` of byte `i div 8` is `cap[i]`,
the bits of the last byte after them are the old ones (spec 10_state R35). -/
def capturedInto (t : State) (base : Nat) (old : List Byte) (cap : List Bool) : Prop :=
  ∀ j < old.length, ∃ b, Memory.read t.buf (base + j) = some b ∧
    ∀ k < 8, b.getLsbD k = cap.getD (8 * j + k) ((old.getD j 0#8).getLsbD k)

/-- The levels of TMS and TDI at each pulse, in time order. -/
def wires (evs : List Event) : List (Bool × Bool) :=
  evs.filterMap fun e => match e with | .pulse _ tms tdi _ => some (tms, tdi) | _ => none

/-- The events that are no pulses. -/
def nonPulses (evs : List Event) : List Event := evs.filter fun e => !e.isPulse

/-- The waits among the events. -/
def waitCount (evs : List Event) : Nat := evs.countP fun e => match e with | .wait _ => true | _ => false

/-- The command ends without error, or with StatusTimeout(info) if its poll timed out (spec 60 R289). -/
def EndsPolled (s t : State) (timedOut : Bool) (info : Nat) (evs : List Event) : Prop :=
  if timedOut then EndsWith s t .statusTimeout info evs else EndsWith s t .ok 0 evs

/-! ### Tables over the commands -/

/-- The commands that write R_RES (spec 10_state R25). -/
def writesRes : Instr → Bool
  | .shiftbit _ _ | .check | .identify | .opencfg | .openflash | .poll => true
  | .acquire | .release | .settms _ | .rev8 | .reset | .idle | .sir _ | .sdr _ _ _ | .burstwr | .burstrd | .close
  | .erase | .write | .read | .upload => false

/-- The commands that write BUF (spec 20_memory R73). -/
def writesBuf : Instr → Bool
  | .rev8 | .burstrd | .read => true
  | .sdr capture _ _ => capture
  | .acquire | .release | .shiftbit _ _ | .settms _ | .reset | .idle | .sir _ | .check | .burstwr | .identify
  | .opencfg | .openflash | .close | .poll | .erase | .write | .upload => false

/-- The mode a command sets, if it sets one (spec 10_state R32, 43 R220, 44 R255). -/
def setsMode : Instr → Option DevMode
  | .opencfg => some .configuredForSRAM
  | .openflash | .upload => some .configuredForFlash
  | .close => some .idle
  | .acquire | .release | .shiftbit _ _ | .settms _ | .rev8 | .reset | .idle | .sir _ | .sdr _ _ _ | .check
  | .burstwr | .burstrd | .identify | .poll | .erase | .write | .read => none

/-- The commands that read the flash's status into FSR (spec 10_state R47). -/
def writesFsr : Instr → Bool
  | .poll | .erase | .write | .upload => true
  | .acquire | .release | .shiftbit _ _ | .settms _ | .rev8 | .reset | .idle | .sir _ | .sdr _ _ _ | .check
  | .burstwr | .burstrd | .identify | .opencfg | .openflash | .close | .read => false

/-- The commands that compare under a mask (spec 10_state R46). -/
def mayMismatch : Instr → Bool
  | .check | .opencfg | .openflash | .erase | .upload => true
  | .acquire | .release | .shiftbit _ _ | .settms _ | .rev8 | .reset | .idle | .sir _ | .sdr _ _ _ | .burstwr
  | .burstrd | .identify | .close | .poll | .write | .read => false

/-- What a command needs of PATH (spec 60 R294). -/
def pathNeed : Instr → Option Path
  | .acquire => some .released
  | .rev8 | .check | .identify | .opencfg | .openflash | .upload => none
  | .release | .shiftbit _ _ | .settms _ | .reset | .idle | .sir _ | .sdr _ _ _ | .burstwr | .burstrd | .close
  | .poll | .erase | .write | .read => some .bitBang

/-- What a command needs of DEVMODE: one of these (spec 60 R294). -/
def modeNeed : Instr → List DevMode
  | .release => [.idle]
  | .close => [.configuredForSRAM, .configuredForFlash]
  | .poll | .erase | .write | .read => [.configuredForFlash]
  | .acquire | .shiftbit _ _ | .settms _ | .rev8 | .reset | .idle | .sir _ | .sdr _ _ _ | .check | .burstwr | .burstrd
  | .identify | .opencfg | .openflash | .upload => [.idle, .configuredForSRAM, .configuredForFlash]

/-- What a command needs of the TAP state (spec 60 R294): nothing, or to be known, or to be known as one of these. -/
def tapNeed (i : Instr) (t : Tracker) : Prop :=
  match i with
  | .acquire | .release | .rev8 | .check | .reset | .identify | .opencfg | .openflash | .upload => True
  | .shiftbit _ _ | .settms _ => t.known = true
  | .idle => t.known = true ∧ t.state ∈ [TapState.reset, .idle, .updateDR, .updateIR]
  | .sir _ | .sdr _ _ _ | .close | .poll | .erase | .write | .read => t.known = true ∧ t.state = .selectDRScan
  | .burstwr | .burstrd => t.known = true ∧ t.state = .shiftDR

/-- How many pulses a command that is not refused makes (spec 70 R350); `k`, `k1`, `k2` are the extra idle pulses
the clock makes necessary, `m` the poll attempts made. -/
def pulsesOwed (i : Instr) (s : State) (n : Nat) : Prop :=
  match i with
  | .acquire | .release | .rev8 | .check => n = 0
  | .shiftbit _ _ | .settms _ => n = 1
  | .reset => n = 6
  | .idle => ∃ k, n = s.regs.cyc.toNat + k + 1
  | .sir false => n = s.regs.len.toNat + 7
  | .sir true => ∃ k, n = s.regs.len.toNat + 7 + s.regs.cyc.toNat + k
  | .sdr _ false _ => n = s.regs.len.toNat + 6
  | .sdr _ true _ => ∃ k, n = s.regs.len.toNat + 6 + s.regs.cyc.toNat + k
  | .burstwr => n = 8 * (4 + s.regs.len.toNat)
  | .burstrd => n = 8 * (4 + s.cfg.dummyBytes + s.regs.len.toNat + 1)
  | .identify => n = 61
  | .opencfg => ∃ k1 k2, n = 229 + 2 * s.cfg.cfgWait.cycles + k1 + k2
  | .openflash => ∃ k1 k2, n = 229 + 2 * s.cfg.cfgWait.cycles + k1 + k2 + s.cfg.progSpiBits + 108
  | .close => ∃ k, n = 144 + s.cfg.refreshWait.cycles + k
  | .poll => ∃ m ≤ s.regs.att.toNat, n = 22 * m
  | .erase => ∃ m ≤ s.cfg.erasePoll.attempts, n = 74 + 22 * m
  | .write => ∃ m ≤ s.cfg.writePoll.attempts, n = 14 + 8 * (4 + s.regs.len.toNat) + 6 + 22 * m
  | .read => n = 8 * (4 + s.cfg.dummyBytes + s.regs.len.toNat + 1) + 6
  | .upload => True

/-! ### The upload -/

/-- The chunks of a stream of n bytes. -/
def chunksOf (eraseBlock n : Nat) : Nat := (n + eraseBlock - 1) / eraseBlock

/-- Their sizes: full chunks, then what is left, if anything is (spec 44 R256). -/
def chunkSizes (eraseBlock n : Nat) : List Nat :=
  List.replicate (n / eraseBlock) eraseBlock ++ (if n % eraseBlock = 0 then [] else [n % eraseBlock])

/-- From `before` to `after` one finished chunk of n bytes has been counted: as erased, as written, as both, or as
skipped where it was neither; the elapsed time has not run back (spec 44 R256). -/
def countsChunk (before : Stats) (n : Nat) (after : Stats) : Prop :=
  ∃ erased written : Bool, before.elapsed ≤ after.elapsed ∧
    after = { bytes := before.bytes + BitVec.ofNat 32 n
              blocks := before.blocks + 1#32
              erased := before.erased + (if erased then 1#32 else 0#32)
              written := before.written + (if written then 1#32 else 0#32)
              skipped := before.skipped + (if erased || written then 0#32 else 1#32)
              elapsed := after.elapsed }

/-- Chunks of these sizes have been finished one after the other, each counted and reported to the progress sink; `last`
are the statistics after them (spec 44 R256, R262). -/
def countedChunks : Stats → List Nat → List Stats → Stats → Prop
  | st, [], reports, last => reports = [] ∧ last = st
  | st, n :: sizes, reports, last =>
    ∃ now rest, reports = now :: rest ∧ countsChunk st n now ∧ countedChunks now sizes rest last

/-- The pieces in which a chunk is written: WRITE_BLOCK bytes each, the last what is left (spec 44 R258). -/
def piecesOf (writeBlock : Nat) (data : List Byte) : List (List Byte) :=
  (List.range ((data.length + writeBlock - 1) / writeBlock)).map fun k => (data.drop (k * writeBlock)).take writeBlock

/-- The events of writing pieces one after the other from address `a` on, each WRITE_BLOCK further, until one times out
(spec 44 R258): from a resting level of TDI and an FSR to an FSR. -/
def PiecesTrace (p : Params) : List (List Byte) → Nat → Bool → Byte → List Event → Byte → Bool → Prop
  | [], _, _, before, evs, sr, timedOut => evs = [] ∧ sr = before ∧ timedOut = false
  | piece :: pieces, a, tdi, before, evs, sr, timedOut =>
    ∃ e1 e2 sr1 out, evs = e1 ++ e2 ∧ WriteTrace p piece a tdi before e1 sr1 out ∧
      if out then e2 = [] ∧ sr = sr1 ∧ timedOut = true
      else PiecesTrace p pieces (a + p.writeBlock) false sr1 e2 sr timedOut

/-- The events of one program attempt on a chunk at address `a` (spec 44 R258): the erase where the classification asks
for one, then the pieces, unless the erase times out. `wrote` says whether the attempt came to the pieces. -/
def AttemptTrace (p : Params) (erase : Bool) (image : List Byte) (a : Nat) (tdi : Bool) (before : Byte)
    (evs : List Event) (sr : Byte) (timedOut wrote : Bool) : Prop :=
  if erase then
    ∃ e1 e2 sr1 out, evs = e1 ++ e2 ∧ EraseTrace p a tdi e1 sr1 out ∧
      if out then e2 = [] ∧ sr = sr1 ∧ timedOut = true ∧ wrote = false
      else wrote = true ∧ PiecesTrace p (piecesOf p.writeBlock image) a false sr1 e2 sr timedOut
  else wrote = true ∧ PiecesTrace p (piecesOf p.writeBlock image) a tdi before evs sr timedOut

/-- The events of the retry loop on a chunk at address `a`, with so many attempts left (spec 44 R257): the chunk is read
back and classified; one that already stands there, or that cannot be erased, ends the loop, and so does the last
attempt; else an attempt is made. From a resting level of TDI and an FSR to an FSR; `timedOut`, `erased` and `wrote` say
whether some attempt timed out, whether some erased and whether some wrote. -/
def RetryTrace (p : Params) (image : List Byte) (a : Nat) :
    Nat → Bool → Byte → List Event → Option ErrorKind → Byte → Bool → Bool → Bool → Prop
  | 0, tdi, before, evs, answer, fsr, timedOut, erased, wrote =>
    ∃ after cls, segment tdi evs (Wave.readBlock p a image.length) after ∧
      cls = classify p.eraseSafe (blockRead p image.length evs) image ∧
      fsr = before ∧ timedOut = false ∧ erased = false ∧ wrote = false ∧
      answer = (if cls = .noOp then none else if cls = .unerasable then some .unerasableImage else some .programFailure)
  | left + 1, tdi, before, evs, answer, fsr, timedOut, erased, wrote =>
    ∃ scan rest after cls, evs = scan ++ rest ∧ segment tdi scan (Wave.readBlock p a image.length) after ∧
      cls = classify p.eraseSafe (blockRead p image.length scan) image ∧
      if cls = .noOp ∨ cls = .unerasable then
        rest = [] ∧ fsr = before ∧ timedOut = false ∧ erased = false ∧ wrote = false ∧
          answer = (if cls = .noOp then none else some .unerasableImage)
      else
        ∃ e1 e2 sr out1 w1 out2 er2 w2, rest = e1 ++ e2 ∧
          AttemptTrace p (cls == .eraseThenWrite) image a after before e1 sr out1 w1 ∧
          RetryTrace p image a left false sr e2 answer fsr out2 er2 w2 ∧
          timedOut = (out1 || out2) ∧ erased = (cls == .eraseThenWrite || er2) ∧ wrote = (w1 || w2)

/-- The events of filling a chunk that holds `got` bytes already (spec 44 R256, 20_memory R79): the source is asked for
what lacks until the chunk is full or it answers that it is at its end, which `eos` says; `bytes` are those it gave. -/
def FillTrace (size : Nat) : Nat → List Event → List Byte → Bool → Prop
  | got, [], bytes, eos => size ≤ got ∧ bytes = [] ∧ eos = false
  | got, .src n none :: evs, bytes, eos => got < size ∧ n = size - got ∧ evs = [] ∧ bytes = [] ∧ eos = true
  | got, .src n (some answer) :: evs, bytes, eos =>
    got < size ∧ n = size - got ∧ answer ≠ [] ∧ answer.length ≤ n ∧
      ∃ rest, bytes = answer ++ rest ∧ FillTrace size (got + answer.length) evs rest eos
  | _, _ :: _, _, _ => False

/-- The statistics after one more finished chunk of n bytes, erased and written or not (spec 44 R256). -/
def Stats.finished (st : Stats) (n : Nat) (erased wrote : Bool) (elapsed : Word) : Stats where
  bytes := st.bytes + BitVec.ofNat 32 n
  blocks := st.blocks + 1#32
  erased := st.erased + (if erased then 1#32 else 0#32)
  written := st.written + (if wrote then 1#32 else 0#32)
  skipped := st.skipped + (if erased || wrote then 0#32 else 1#32)
  elapsed := elapsed

/-- The events of the chunk loop on a stream, in at most so many rounds, the first chunk at address `a`, from a resting
level of TDI, an FSR and the statistics so far to an FSR and the statistics at its end; `timedOut` says whether some attempt
timed out (spec 44 R256, R257, R260, R262, 70 R337). Each chunk, the next ERASE_BLOCK bytes of the stream or what is left, is
filled, read back and programmed at its address, counted and reported, ERASE_BLOCK further than the one before. The loop
ends at the end of the stream, or at a chunk that runs past the flash or fails, with the error and that chunk's address. -/
def ChunksTrace (p : Params) :
    Nat → ByteStream → Nat → Bool → Byte → Stats → List Event → Option (ErrorKind × Nat) → Byte → Bool → Stats → Prop
  | 0, _, _, _, _, _, _, _, _, _, _ => False
  | rounds + 1, stream, a, tdi, before, st, evs, answer, fsr, timedOut, last =>
    let chunk := stream.peek p.eraseBlock
    ∃ fill more eos, evs = fill ++ more ∧ FillTrace p.eraseBlock 0 fill chunk eos ∧
      if chunk = [] then more = [] ∧ answer = none ∧ fsr = before ∧ timedOut = false ∧ last = st
      else if 2 ^ 24 < a + chunk.length then
        more = [] ∧ answer = some (.addressRangeError, a) ∧ fsr = before ∧ timedOut = false ∧ last = st
      else
        ∃ tries rest failed sr out erased wrote, more = tries ++ rest ∧
          RetryTrace p chunk a 3 tdi before tries failed sr out erased wrote ∧
          match failed with
          | some e => rest = [] ∧ answer = some (e, a) ∧ fsr = sr ∧ timedOut = out ∧ last = st
          | none =>
            ∃ elapsed later now, st.elapsed ≤ elapsed ∧ now = st.finished chunk.length erased wrote elapsed ∧
              rest = .progress now :: later ∧
              if eos then later = [] ∧ answer = none ∧ fsr = sr ∧ timedOut = out ∧ last = now
              else
                ∃ out2, timedOut = (out || out2) ∧
                  ChunksTrace p rounds (stream.skip p.eraseBlock) (a + p.eraseBlock) false sr now later answer fsr out2 last

/-- How an UPLOAD that is not refused ends, from a stream attached in s (spec 44 R255, R256, R260, R262, 70 R337): without
error, where the stream has an end, all chunks counted and reported, and the time since the start in ST_ELAPSED; or at chunk
k, with its address, no further than the end of the flash, the chunks before it counted and reported, nothing counted since,
and the source read no further than that chunk. -/
def UploadEnds (s t : State) (evs : List Event) : Prop :=
  let stream := s.env.source.stream
  let total := stream.content.length
  let base := s.regs.addr.toNat
  let size := s.cfg.eraseBlock
  (EndsWith s t .ok 0 evs ∧ stream.endless = false ∧ t.env.source.stream = { stream with content := [] } ∧
    (total ≠ 0 → base + total ≤ 2 ^ 24) ∧
    t.stats.bytes = BitVec.ofNat 32 total ∧ t.stats.blocks = BitVec.ofNat 32 (chunksOf size total) ∧
    ∃ last, countedChunks Stats.zero (chunkSizes size total) (reportsOf evs) last ∧
      last.elapsed ≤ t.stats.elapsed ∧
      t.stats = { last with
        elapsed := BitVec.ofNat 32 (min (t.env.clock.time - t.work.tStart) (2 ^ 32 - 1)) }) ∨
  (∃ e k, EndsWith s t e (base + k * size) evs ∧ (stream.endless = true ∨ k * size < total) ∧ base + k * size ≤ 2 ^ 24 ∧
    t.env.source.stream = stream.skip ((k + 1) * size) ∧
    t.stats.bytes = BitVec.ofNat 32 (k * size) ∧ t.stats.blocks = BitVec.ofNat 32 k ∧
    countedChunks Stats.zero (List.replicate k size) (reportsOf evs) t.stats ∧
    (e = .unerasableImage ∨ e = .programFailure ∨
      (e = .addressRangeError ∧ 2 ^ 24 < base + k * size + ((stream.skip (k * size)).peek size).length)))

/-! ### Between commands -/

/-- What holds whenever no command runs. -/
structure BetweenCommands (s : State) : Prop where
  /-- The record is one a block can be constructed from (spec 93 U8). -/
  cfgValid : s.cfg.valid = true
  /-- No command is running (spec 10_state R39, R40). -/
  notBusy : s.ctl.busy = false
  noSeq : s.ctl.seq = none
  noCut : s.port.cut = none
  /-- Between commands PATH is Released or BitBang, never Burst (spec 60 R293). -/
  noBurst : s.pins.path ≠ .burst
  /-- TCK_L is 1 between pulses (spec 10_state R22). -/
  tckHigh : s.pins.tck = true
  /-- The TAP state of released lines is not known (spec 10_state R28, 60 R292). -/
  releasedUnknown : s.pins.path = .released → s.tap.known = false ∧ s.tap.ones = 0#3
  /-- DEVMODE != Idle implies PATH = BitBang (spec 60 R295). -/
  modeHoldsLines : s.devmode ≠ .idle → s.pins.path = .bitBang
  /-- ONES is at most 5, and at 5 the tracker is in Reset and knows it (spec 10_state R28, R30). -/
  onesBound : s.tap.ones ≤ 5#3
  onesReset : s.tap.ones = 5#3 → s.tap.state = .reset ∧ s.tap.known = true
  /-- ONES fits the state (spec 10_state R28, R30). -/
  tapConsistent : s.tap.consistent
  /-- BUF is in canonical form and inside its space (spec 20_memory R72). -/
  bufCanonical : Memory.wf s.buf = true
  bufInside : ∀ c ∈ s.buf, c.1 < s.cfg.bufBytes
  /-- The bounds of UPLOAD's working registers and buffers (spec 10_state R48, R50). -/
  faddrBound : s.work.faddr ≤ Config.flashBytes
  chunklenBound : s.work.chunklen ≤ s.cfg.eraseBlock
  retryBound : s.work.retry ≤ Config.retryMax
  chunkBound : s.work.chunk.length ≤ s.cfg.eraseBlock
  scratchBound : s.work.scratch.length ≤ s.cfg.eraseBlock
  /-- DRSR is a triple of one length (spec 10_state R34). -/
  drbitsLength : s.banks.drbits.length = s.banks.drlen
  drcapLength : s.banks.drcap.length = s.banks.drlen
  /-- The counters held as natural numbers fit their 32 bits (spec 10_state R34, R37, R48, R51). -/
  drlenWidth : s.banks.drlen < 2 ^ 32
  bitcntWidth : s.banks.bitcnt < 2 ^ 32
  cyccntWidth : s.counters.cyccnt < 2 ^ 32
  attemptWidth : s.counters.attempt < 2 ^ 32

end Sys2Proof.Machine
end

