-- ==== Sys2Proof/Certificates/Slice0/Obligations.lean ====
section
/-! DEFINITION. The statements for the provers. OBLIGATIONS.json lists them. -/

open Sys2Proof Sys2Proof.Machine

/-! ### Encoding -/

/-- Words written out from the encoding of spec 30_encoding R111 and R113 decode to the commands they stand for. -/
def Obligations.DecodesWrittenWords : Prop :=
  decode 0x00000001#32 = .ok .acquire ∧ decode 0x00000002#32 = .ok .release ∧
  decode 0x00001003#32 = .ok (.shiftbit true false) ∧ decode 0x00000803#32 = .ok (.shiftbit false true) ∧
  decode 0x00000804#32 = .ok (.settms true) ∧ decode 0x00000010#32 = .ok .reset ∧
  decode 0x00000212#32 = .ok (.sir true) ∧ decode 0x00000113#32 = .ok (.sdr true false false) ∧
  decode 0x00000613#32 = .ok (.sdr false true true) ∧ decode 0x00000020#32 = .ok .burstwr ∧
  decode 0x00000030#32 = .ok .identify ∧ decode 0x00000044#32 = .ok .upload

/-- Every command has exactly one word, and the decoder reads exactly that word as the command. -/
def Obligations.DecodeInvertsEncode : Prop :=
  ∀ (i : Instr) (w : Word), decode w = .ok i ↔ w = encode i

/-- The opcode table of spec 30_encoding R113, row by row: under the row's mask the word reads the row's value; the
flags the row uses are the command's operands. -/
def Obligations.OpcodeTable : Prop :=
  ∀ w : Word,
    (decode w = .ok .acquire ↔ w &&& 0xFFFFFFFF#32 = 0x01#32) ∧
    (decode w = .ok .release ↔ w &&& 0xFFFFFFFF#32 = 0x02#32) ∧
    (∀ tdi tms, decode w = .ok (.shiftbit tdi tms) ↔
      w &&& 0xFFFFE7FF#32 = 0x03#32 ∧ w.getLsbD 12 = tdi ∧ w.getLsbD 11 = tms) ∧
    (∀ tms, decode w = .ok (.settms tms) ↔ w &&& 0xFFFFF7FF#32 = 0x04#32 ∧ w.getLsbD 11 = tms) ∧
    (decode w = .ok .rev8 ↔ w &&& 0xFFFFFFFF#32 = 0x05#32) ∧
    (decode w = .ok .reset ↔ w &&& 0xFFFFFFFF#32 = 0x10#32) ∧
    (decode w = .ok .idle ↔ w &&& 0xFFFFFFFF#32 = 0x11#32) ∧
    (∀ idleTail, decode w = .ok (.sir idleTail) ↔ w &&& 0xFFFFFDFF#32 = 0x12#32 ∧ w.getLsbD 9 = idleTail) ∧
    (∀ capture idleTail pause, decode w = .ok (.sdr capture idleTail pause) ↔
      w &&& 0xFFFFF8FF#32 = 0x13#32 ∧ w.getLsbD 8 = capture ∧ w.getLsbD 9 = idleTail ∧ w.getLsbD 10 = pause) ∧
    (decode w = .ok .check ↔ w &&& 0xFFFFFFFF#32 = 0x14#32) ∧
    (decode w = .ok .burstwr ↔ w &&& 0xFFFFFFFF#32 = 0x20#32) ∧
    (decode w = .ok .burstrd ↔ w &&& 0xFFFFFFFF#32 = 0x21#32) ∧
    (decode w = .ok .identify ↔ w &&& 0xFFFFFFFF#32 = 0x30#32) ∧
    (decode w = .ok .opencfg ↔ w &&& 0xFFFFFFFF#32 = 0x31#32) ∧
    (decode w = .ok .openflash ↔ w &&& 0xFFFFFFFF#32 = 0x32#32) ∧
    (decode w = .ok .close ↔ w &&& 0xFFFFFFFF#32 = 0x33#32) ∧
    (decode w = .ok .poll ↔ w &&& 0xFFFFFFFF#32 = 0x40#32) ∧
    (decode w = .ok .erase ↔ w &&& 0xFFFFFFFF#32 = 0x41#32) ∧
    (decode w = .ok .write ↔ w &&& 0xFFFFFFFF#32 = 0x42#32) ∧
    (decode w = .ok .read ↔ w &&& 0xFFFFFFFF#32 = 0x43#32) ∧
    (decode w = .ok .upload ↔ w &&& 0xFFFFFFFF#32 = 0x44#32)

/-- A word that spells no command is refused with IllegalCommand: only `Done` is emitted and only ERR changes
(spec 30_encoding R114). The words that spell none are those that fail one of the three checks. -/
def Obligations.IllegalWordRefused : Prop :=
  (∀ w : Word, (∀ i, decode w ≠ .ok i) ↔
    (w.extractLsb' 0 8).toNat ∉ CommandWord.listedOps ∨ w.extractLsb' 13 19 ≠ 0#19 ∨
      CommandWord.unusedFlagsClear w = false) ∧
  ∀ (s : State) (w : Word) (rest : List Input), s.undisturbed → s.ctl.busy = false →
    s.port.inputs = .access (.write 32 0x00 w) :: rest → (∀ i, decode w ≠ .ok i) →
    ∃ t, step s = .next t ∧ EndsWith { s with port.inputs := rest } t .illegalCommand 0 [] ∧
      onlyEnd { s with port.inputs := rest } t

/-! ### The step and the host's registers -/

/-- A step in which the host writes the word of a command to CMD runs that command, from the state in which the input
has been taken (spec 10_state R43, 30_encoding R110); in particular after `withFetchWord` (log entry 20). -/
def Obligations.StepRunsDecodedCommand : Prop :=
  (∀ (s : State) (w : Word) (rest : List Input) (i : Instr), s.ctl.busy = false →
    s.port.inputs = .access (.write 32 0x00 w) :: rest → decode w = .ok i →
    step s = exec i { s with port.inputs := rest }) ∧
  (∀ (s : State) (i : Instr), step (s.withFetchWord 32 (encode i).toNat) = exec i { s with ctl.busy := false })

/-- With nothing from outside the block waits for CMD, and nothing changes (spec 70 R322, R351; that such a wait is a step
is the model's choice, log entry 1). -/
def Obligations.StepWaitsWithoutInput : Prop :=
  ∀ s : State, s.port.inputs = [] → step s = .next s

/-- The fields of STAT, of ERR and of FLAGS stand where spec 10_state R44, R45 and R46 put them, reserved bits read
0; the N_TAP_STATES TAP states have the codes of R27, PATH those of R23, DEVMODE those of R32, and the errors those of
60 R281. -/
def Obligations.StatusWordFields : Prop :=
  (∀ s : State,
    s.statWord.getLsbD 0 = s.ctl.busy ∧ s.statWord.extractLsb' 1 4 = s.tap.state.code ∧
    s.statWord.getLsbD 5 = s.tap.known ∧ s.statWord.extractLsb' 6 2 = s.devmode.code ∧
    s.statWord.extractLsb' 8 2 = s.pins.path.code ∧ s.statWord.extractLsb' 10 22 = 0#22) ∧
  (∀ c : Control, c.errWord.extractLsb' 0 4 = c.err.code ∧ c.errWord.extractLsb' 4 4 = 0#4 ∧
    c.errWord.extractLsb' 8 24 = c.info) ∧
  (∀ f : Flags, f.toWord.getLsbD 0 = f.mismatch ∧ f.toWord.getLsbD 1 = f.timeout ∧
    f.toWord.extractLsb' 2 30 = 0#30) ∧
  Config.nTapStates = 16 ∧ TapState.all =
    [.reset, .idle, .selectDRScan, .selectIRScan, .captureDR, .captureIR, .shiftDR, .shiftIR, .exit1DR, .exit1IR,
      .pauseDR, .pauseIR, .exit2DR, .exit2IR, .updateDR, .updateIR] ∧
  TapState.all.map TapState.code = (List.range Config.nTapStates).map (BitVec.ofNat 4) ∧
  [Path.released, .bitBang, .burst].map Path.code = [0#2, 1#2, 2#2] ∧
  [DevMode.idle, .configuredForSRAM, .configuredForFlash].map DevMode.code = [0#2, 1#2, 2#2] ∧
  [ErrorKind.ok, .alignmentError, .statusTimeout, .programFailure, .unerasableImage, .illegalCommand, .tapSequenceError,
    .sessionError, .operandError, .addressRangeError].map ErrorKind.code =
    [0#4, 2#4, 3#4, 4#4, 5#4, 6#4, 7#4, 8#4, 9#4, 10#4]

/-- A host read while the block is not busy answers the register at the offset (spec 10_state R42) and changes nothing
else. -/
def Obligations.HostReadsRegisters : Prop :=
  ∀ (s : State) (rest : List Input) (off : Nat) (v : Word), s.ctl.busy = false →
    s.port.inputs = .access (.read 32 off) :: rest →
    (off, v) ∈ [(0x00, 0#32), (0x04, s.statWord), (0x08, s.ctl.errWord), (0x0C, s.flags.toWord), (0x10, s.res),
      (0x14, s.fsr.setWidth 32), (0x20, s.regs.addr), (0x24, s.regs.len), (0x28, s.regs.buf), (0x2C, s.regs.val),
      (0x30, s.regs.exp), (0x34, s.regs.mask), (0x38, s.regs.cyc), (0x3C, s.regs.dur), (0x40, s.regs.pause),
      (0x44, s.regs.att), (0x48, s.regs.dly), (0x50, s.stats.bytes), (0x54, s.stats.blocks),
      (0x58, s.stats.erased), (0x5C, s.stats.written), (0x60, s.stats.skipped), (0x64, s.stats.elapsed)] →
    step s = .next { s with port := { s.port with inputs := rest, reads := (off, v) :: s.port.reads } }

/-- A host write while the block is not busy (spec 10_state R42, R46, 93 U3, U9): an operand register takes the value,
FLAGS loses the bits written as 1. Every other offset outside the BUF window and every other width is ignored (of the two
outcomes 93 U9 allows, the model's choice, log entry 8). What a write does in the BUF window, a word whose first byte lies
in BUF storing those of its bytes that do, low byte first, is the model's reading (DEDUCED, log entry 11). -/
def Obligations.HostWritesRegisters : Prop :=
  ∀ (s : State) (rest : List Input) (width off : Nat) (v : Word), s.ctl.busy = false →
    s.port.inputs = .access (.write width off v) :: rest → (width, off) ≠ (32, 0x00) →
    let s1 := { s with port.inputs := rest }
    step s = .next (
      if width ≠ 32 then s1
      else if off = 0x0C then
        { s1 with flags := { mismatch := s.flags.mismatch && !v.getLsbD 0, timeout := s.flags.timeout && !v.getLsbD 1 } }
      else if off = 0x20 then { s1 with regs.addr := v }
      else if off = 0x24 then { s1 with regs.len := v }
      else if off = 0x28 then { s1 with regs.buf := v }
      else if off = 0x2C then { s1 with regs.val := v }
      else if off = 0x30 then { s1 with regs.exp := v }
      else if off = 0x34 then { s1 with regs.mask := v }
      else if off = 0x38 then { s1 with regs.cyc := v }
      else if off = 0x3C then { s1 with regs.dur := v }
      else if off = 0x40 then { s1 with regs.pause := v }
      else if off = 0x44 then { s1 with regs.att := v }
      else if off = 0x48 then { s1 with regs.dly := v }
      else if 0x1000 ≤ off ∧ off % 4 = 0 ∧ off < 0x1000 + s.cfg.bufBytes then
        { s1 with buf := s.buf.writeRange (off - 0x1000)
                    ([v.extractLsb' 0 8, v.extractLsb' 8 8, v.extractLsb' 16 8, v.extractLsb' 24 8].take
                      (0x1000 + s.cfg.bufBytes - off)) }
      else s1)

/-- A word written to the BUF window lands in BUF with its low byte at the lowest address, leaves every other byte
alone, and reads back (spec 10_state R42, 20_memory R72). -/
def Obligations.BufWindowReadsBack : Prop :=
  ∀ (s : State) (rest : List Input) (a : Nat) (v : Word), s.ctl.busy = false → a % 4 = 0 → a + 4 ≤ s.cfg.bufBytes →
    s.port.inputs = .access (.write 32 (0x1000 + a) v) :: .access (.read 32 (0x1000 + a)) :: rest →
    ∃ t u, step s = .next t ∧ step t = .next u ∧
      bufHolds t a [v.extractLsb' 0 8, v.extractLsb' 8 8, v.extractLsb' 16 8, v.extractLsb' 24 8] ∧
      sameBufOutside s t a 4 ∧ t = { s with buf := t.buf, port.inputs := .access (.read 32 (0x1000 + a)) :: rest } ∧
      u = { t with port := { t.port with inputs := rest, reads := (0x1000 + a, v) :: s.port.reads } }

/-- While a command runs a host write is ignored, a read of STAT answers the live value, and any other read answers a
value nothing constrains (spec 10_state R39, R43, R60, 93 U2): the accesses that are due are served so as the command
starts, after each event it logs and after each pulse it makes, with STAT as it then is; over the whole command they are
the first of those that wait. A step that finds BUSY = 1 (no run reaches one) serves its access in the same way. That an
access comes after a number of events, and what the free value depends on, are the model's choices (log entries 2 and 8). -/
def Obligations.BusyHostAccess : Prop :=
  (∀ (s : State) (l : List (Nat × Access)), (∀ x ∈ l, x.2 ≠ .reset) → servedTo s l (dueAccesses l s)) ∧
  (∀ (s : State) (i : Instr), s.undisturbed →
    servedTo { s with ctl.busy := true, ctl.seq := some i } s.port.during (beginCommand i s)) ∧
  (∀ (s : State) (n : Nat) (a : Access) (rest : List (Nat × Access)), s.undisturbed → s.port.during = (n + 1, a) :: rest →
    (∀ e, servedTo { s with trace := e :: s.trace } ((n, a) :: rest) (emit e s)) ∧
    ∀ tms tdi,
      servedTo { (pulse tms tdi s).2 with port := s.port } ((n, a) :: rest) (pulse tms tdi s).2 ∧
      servedTo { (spiPulse tdi s).2 with port := s.port } ((n, a) :: rest) (spiPulse tdi s).2) ∧
  (∀ (i : Instr) (s t : State), s.undisturbed → exec i s = .next t →
    ∃ served answers, s.port.during.map Prod.snd = served ++ t.port.during.map Prod.snd ∧
      busyAnswered served s.port.draws answers t.port.draws ∧ t.port.reads = answers.reverse ++ s.port.reads) ∧
  (∀ (s : State) (a : Access) (rest : List Input), s.ctl.busy = true → a ≠ .reset → s.port.inputs = .access a :: rest →
    step s = .next { s with port := { s.port with
      inputs := rest
      reads := (busyAnswers s.statWord s.port.draws [a]).reverse ++ s.port.reads
      draws := s.port.draws + freeReads [a] } })

/-- What the host reads and writes while a command runs changes nothing of what the command does (spec 10_state R39,
R43, R60): its next state is the one it reaches undisturbed but for the host port, and it faults where it would. -/
def Obligations.HostCannotDisturb : Prop :=
  ∀ (i : Instr) (s : State), s.undisturbed →
    let alone : State := { s with port.during := [] }
    (∀ t0, exec i alone = .next t0 → ∃ t, exec i s = .next t ∧ t = { t0 with port := t.port } ∧
      t.port.inputs = s.port.inputs ∧ t.port.resets = s.port.resets ∧ t.port.cut = none) ∧
    (∀ f, exec i alone = .fault f → exec i s = .fault f)

/-! ### Reset -/

/-- Hardware reset (spec 10_state R59), at power-on and by the reset input in any state: every register has its value of
the table; the reset input makes no event and touches neither the configuration nor the environment, the target among
it. -/
def Obligations.HardwareResetStep : Prop :=
  ResetValues State.reset ∧
  ∀ (s : State) (rest : List Input), s.port.inputs = .access .reset :: rest →
    ∃ t, step s = .next t ∧ ResetValues t ∧ t.cfg = s.cfg ∧ t.env = s.env ∧
      t.port = { s.port with inputs := rest, resets := s.port.resets + 1, cut := none }

/-- A command during which the reset input becomes active stops there and leaves the block as the reset does: every
register at its reset value, the configuration and the host's coming inputs kept; the target, the clock and the source are
as the events before the reset leave them, not reset (spec 70 R320, R322, R323). Before the first event it is stopped even
where it could not have gone on; after the last one it has ended. That a reset comes after a number of the command's events
is the model's choice (log entry 3). -/
def Obligations.HardwareResetInCommand : Prop :=
  ∀ (i : Instr) (s : State), s.port.cut = none →
    let isReset (t : State) : Prop := t = State.resetWith s.cfg t.env t.port ∧ t.port.resets = s.port.resets + 1 ∧
      t.port.cut = none ∧ t.port.inputs = s.port.inputs
    (cutPoint s.port.during = some 0 → ∃ t, exec i s = .next t ∧ isReset t ∧ t.env = s.env) ∧
    (∀ m t0 evs, cutPoint s.port.during = some m → exec i { s with port.during := [] } = .next t0 →
      newEvents s t0 evs → ∃ t, exec i s = .next t ∧
        if m ≤ evs.length then
          isReset t ∧ ReachedEnv s.cfg s.env (evs.take m) t.env ∧ t.env.clock.time ≤ t0.env.clock.time
        else t = { t0 with port := t.port } ∧ t.port.resets = s.port.resets) ∧
    (∀ t, exec i s = .next t → t.port.resets ≠ s.port.resets → isReset t)

/-! ### The machine between commands -/

/-- What holds between commands holds after reset. That the record is legal there is the model's choice of a record for
State.reset (log entry 7), and that no reset waits is its choice of the host port's values (log entry 22). -/
def Obligations.BetweenCommandsAtReset : Prop := BetweenCommands State.reset

/-- Every step keeps what holds between commands, whatever the host, the target, the clock and the source do. -/
def Obligations.BetweenCommandsKept : Prop :=
  ∀ s t : State, BetweenCommands s → step s = .next t → BetweenCommands t

/-! ### The TAP tracker and the trace -/

/-- The transition table of spec 10_state R29, with the property that five steps with TMS=1 reach Reset from every
state, that Reset stays, and that from ShiftDR and PauseDR it takes all five. -/
def Obligations.TapTable : Prop :=
  delta .reset false = .idle ∧ delta .reset true = .reset ∧
  delta .idle false = .idle ∧ delta .idle true = .selectDRScan ∧
  delta .selectDRScan false = .captureDR ∧ delta .selectDRScan true = .selectIRScan ∧
  delta .selectIRScan false = .captureIR ∧ delta .selectIRScan true = .reset ∧
  delta .captureDR false = .shiftDR ∧ delta .captureDR true = .exit1DR ∧
  delta .captureIR false = .shiftIR ∧ delta .captureIR true = .exit1IR ∧
  delta .shiftDR false = .shiftDR ∧ delta .shiftDR true = .exit1DR ∧
  delta .shiftIR false = .shiftIR ∧ delta .shiftIR true = .exit1IR ∧
  delta .exit1DR false = .pauseDR ∧ delta .exit1DR true = .updateDR ∧
  delta .exit1IR false = .pauseIR ∧ delta .exit1IR true = .updateIR ∧
  delta .pauseDR false = .pauseDR ∧ delta .pauseDR true = .exit2DR ∧
  delta .pauseIR false = .pauseIR ∧ delta .pauseIR true = .exit2IR ∧
  delta .exit2DR false = .shiftDR ∧ delta .exit2DR true = .updateDR ∧
  delta .exit2IR false = .shiftIR ∧ delta .exit2IR true = .updateIR ∧
  delta .updateDR false = .idle ∧ delta .updateDR true = .selectDRScan ∧
  delta .updateIR false = .idle ∧ delta .updateIR true = .selectDRScan ∧
  (∀ st, afterOnes 5 st = .reset) ∧ afterOnes 4 .shiftDR ≠ .reset ∧ afterOnes 4 .pauseDR ≠ .reset

/-- The tracker's update, once a pulse, by either driver (spec 10_state R30): the event, then ONES, then TAPSTATE where
it is known, then the forcing at five ones; on a consistent tracker that knows its state the forcing changes nothing. -/
def Obligations.TrackerUpdate : Prop :=
  (∀ (s : State) (tms tdi : Bool), s.port.during = [] →
    let ones := if tms then min (s.tap.ones.toNat + 1) 5 else 0
    let moved := if s.tap.known then delta s.tap.state tms else s.tap.state
    (∃ tdo, newEvents s (pulse tms tdi s).2 [.pulse .bb tms tdi tdo]) ∧
    (∃ tdo, newEvents s (spiPulse tdi s).2 [.pulse .spi false tdi tdo]) ∧
    (pulse tms tdi s).2.tap.ones = BitVec.ofNat 3 ones ∧
    (pulse tms tdi s).2.tap.state = (if ones = 5 then .reset else moved) ∧
    (pulse tms tdi s).2.tap.known = (ones == 5 || s.tap.known) ∧
    (tms = false → (spiPulse tdi s).2.tap = (pulse tms tdi s).2.tap)) ∧
  (∀ (t : Tracker) (tms : Bool), t.known = true → t.consistent →
    (t.onPulse tms).state = delta t.state tms ∧ (t.onPulse tms).known = true ∧ (t.onPulse tms).consistent)

/-- Everything a command does on the lines is in its events: the tracker, PATH, TMS_L and TDI_L after it are those its
events lead to, its samples are the target's answers to its pulses in their order, its only `Done` is the last event, and the
clock has passed its waits and not run back (spec 10_state R22, R30, R58, 20_memory R88, 40 R154, R155, 42 R201, 60 R287,
R292, R296). That TAPSTATE stays where a release forgets it is the model's reading (DEDUCED, log entry 21). -/
def Obligations.TraceTellsAll : Prop :=
  ∀ (i : Instr) (s t : State), BetweenCommands s → s.undisturbed → exec i s = .next t →
    ∃ evs e info, EndsWith s t e info evs ∧ evs.any Event.isDone = false ∧
      t.tap = trackEvents s.tap evs ∧ t.pins.path = pathAfter s.pins.path evs ∧
      (t.pins.tms, t.pins.tdi) = levelsAfter (s.pins.tms, s.pins.tdi) evs ∧
      answeredBy s.cfg s.env.target evs t.env.target ∧ s.env.clock.time + waited evs ≤ t.env.clock.time

/-! ### Bits and bytes -/

/-- `rev8` (spec 00_scope R13). -/
def Obligations.Rev8Law : Prop :=
  (∀ (b : Byte) (i : Nat), i < 8 → (rev8 b).getLsbD i = b.getLsbD (7 - i)) ∧ (∀ b : Byte, rev8 (rev8 b) = b) ∧
  rev8 0x06#8 = 0x60#8 ∧ rev8 0x05#8 = 0xA0#8 ∧ rev8 0x02#8 = 0x40#8 ∧ rev8 0xD8#8 = 0x1B#8 ∧
  rev8 0x01#8 = 0x80#8 ∧ rev8 0xFF#8 = 0xFF#8 ∧ rev8 0x00#8 = 0x00#8

/-- Bit orders: stored bytes go out lowest bit first in ascending order (spec 00_scope R12), a frame's bytes highest
bit first (20_memory R81, 30_encoding R127), the three bytes of a flash address highest first (20_memory R81, 30_encoding
R131), and a word is the sum of its bits' powers of two (00_scope R14). -/
def Obligations.BitOrders : Prop :=
  (∀ (bytes : List Byte) (n i : Nat), i < n → i < 8 * bytes.length →
    (bitsOf bytes n)[i]? = some ((bytes.getD (i / 8) 0#8).getLsbD (i % 8))) ∧
  (∀ (frame : List Byte) (i : Nat), i < 8 * frame.length →
    (bitsOf (frame.map rev8) (8 * frame.length))[i]? = some ((frame.getD (i / 8) 0#8).getLsbD (7 - i % 8))) ∧
  (∀ a : BitVec 24, addressBytes a.toNat = [a.extractLsb' 16 8, a.extractLsb' 8 8, a.extractLsb' 0 8]) ∧
  (∀ bits : List Bool,
    wordOf bits = ((List.range bits.length).map fun i => (bits.getD i false).toNat * 2 ^ i).sum) ∧
  (∀ (n : Nat) (bits : List Bool) (i : Nat), i < n → bits.length = 8 * n →
    ∀ k < 8, ((flashBytesOf n bits).getD i 0#8).getLsbD (7 - k) = bits.getD (8 * i + k) false)

/-! ### Session -/

/-- ACQUIRE (spec 60 R291): refused when the lines are acquired; else they become the block's, output values before
directions, with no pulse and the TAP state as little known as before. The calls to the platform are read off the event
(a view of it, DEDUCED, log entry 15). -/
def Obligations.AcquireCommand : Prop :=
  ∀ s : State, s.undisturbed →
    HasOp .acquire 0x01#8 ∧
    RefusesInOrder .acquire s [(s.pins.path ≠ .released, .sessionError, 0)] ∧
    (s.pins.path = .released → ∃ t, Runs .acquire s t .ok 0 [.path .bitBang] ∧
      t = { s with pins := { s.pins with path := .bitBang, tck := true }, ctl := t.ctl, trace := t.trace, port := t.port } ∧
      callsOf s.pins.path t (.path .bitBang) =
        [.setOutput .tck true, .setOutput .tms s.pins.tms, .setOutput .tdi s.pins.tdi,
         .setDirection .tck .out, .setDirection .tms .out, .setDirection .tdi .out, .setDirection .tdo .sampled])

/-- RELEASE (spec 60 R292): refused without the lines or with a device mode open; else the lines float, the levels
stay, and the TAP state is forgotten. -/
def Obligations.ReleaseCommand : Prop :=
  ∀ s : State, s.undisturbed →
    HasOp .release 0x02#8 ∧
    RefusesInOrder .release s [(s.pins.path ≠ .bitBang, .sessionError, 0), (s.devmode ≠ .idle, .sessionError, 0)] ∧
    (s.pins.path = .bitBang → s.devmode = .idle → ∃ t, Runs .release s t .ok 0 [.path .released] ∧
      t = { s with pins.path := .released, tap := { s.tap with known := false, ones := 0#3 }, ctl := t.ctl,
                   trace := t.trace, port := t.port } ∧
      ∀ x, pinRole t.pins.path x = .hiZ)

/-! ### BitTransport -/

/-- SHIFTBIT (spec 40 R152): one pulse with the two levels of the word, the sample in R_RES, neither shift bank
touched. -/
def Obligations.ShiftbitCommand : Prop :=
  ∀ (s : State) (tdi tms : Bool), s.undisturbed →
    HasOp (.shiftbit tdi tms) 0x03#8 ∧
    RefusesInOrder (.shiftbit tdi tms) s
      [(s.pins.path ≠ .bitBang, .sessionError, 0), (s.tap.known = false, .tapSequenceError, 0)] ∧
    (s.pins.path = .bitBang → s.tap.known = true →
      let tdo := (s.env.target.pulse s.cfg tms tdi).1
      ∃ t, Runs (.shiftbit tdi tms) s t .ok 0 [.pulse .bb tms tdi tdo] ∧
        onlyLines { s with res := if tdo then 1#32 else 0#32 } t ∧
        t.pins = { s.pins with tck := true, tms := tms, tdi := tdi } ∧ t.tap = s.tap.onPulse tms ∧
        t.banks = s.banks ∧ t.counters = s.counters ∧
        (s.tap.consistent → t.tapAt (delta s.tap.state tms)))

/-- SETTMS (spec 40 R153): one pulse with TDI kept at its level; R_RES is kept. That the shift banks are kept, in ShiftIR
and ShiftDR too, is the model's reading (DEDUCED, log entry 14). -/
def Obligations.SettmsCommand : Prop :=
  ∀ (s : State) (tms : Bool), s.undisturbed →
    HasOp (.settms tms) 0x04#8 ∧
    RefusesInOrder (.settms tms) s
      [(s.pins.path ≠ .bitBang, .sessionError, 0), (s.tap.known = false, .tapSequenceError, 0)] ∧
    (s.pins.path = .bitBang → s.tap.known = true →
      ∃ t tdo, Runs (.settms tms) s t .ok 0 [.pulse .bb tms s.pins.tdi tdo] ∧ onlyLines s t ∧
        t.pins = { s.pins with tck := true, tms := tms } ∧ t.tap = s.tap.onPulse tms ∧
        t.banks = s.banks ∧ t.counters = s.counters ∧
        (s.tap.consistent → t.tapAt (delta s.tap.state tms)))

/-- REV8 (spec 40 R161): every byte of the range is reversed, every other byte kept, no event but `Done`; a second
REV8 restores the range. -/
def Obligations.Rev8Command : Prop :=
  ∀ s : State, s.undisturbed →
    HasOp .rev8 0x05#8 ∧
    RefusesInOrder .rev8 s
      [(s.regs.len = 0#32 ∨ ¬s.inBuf s.regs.len.toNat, .operandError, 0)] ∧
    (∀ bytes : List Byte, s.regs.len ≠ 0#32 → s.inBuf s.regs.len.toNat → bytes.length = s.regs.len.toNat →
      bufHolds s s.regs.buf.toNat bytes →
      ∃ t, Runs .rev8 s t .ok 0 [] ∧
        t = { s with buf := t.buf, ctl := t.ctl, trace := t.trace, port := t.port } ∧
        bufHolds t s.regs.buf.toNat (bytes.map rev8) ∧ sameBufOutside s t s.regs.buf.toNat bytes.length ∧
        ∃ u, exec .rev8 t = .next u ∧ bufHolds u s.regs.buf.toNat bytes)

/-! ### TapController -/

/-- RESET (spec 41 R172): six pulses with TMS=1, TDI at rest; the TAP is then known to be in Reset, whatever was known
before. That the shift banks are kept, when it starts in ShiftIR or ShiftDR too, is the model's reading (DEDUCED, log
entry 14). -/
def Obligations.ResetCommand : Prop :=
  ∀ s : State, s.undisturbed →
    HasOp .reset 0x10#8 ∧
    RefusesInOrder .reset s [(s.pins.path ≠ .bitBang, .sessionError, 0)] ∧
    (s.pins.path = .bitBang →
      ∃ t evs, Runs .reset s t .ok 0 evs ∧ plays s t evs (Wave.tms [true, true, true, true, true, true]) ∧
        t.tap = { state := .reset, known := true, ones := 5#3 } ∧ t.pins.path = .bitBang ∧ onlyLines s t ∧
        t.banks = s.banks ∧ t.counters = s.counters)

/-- IDLE (spec 41 R174 to R176): the owed pulses with TMS=0, then one more after every answer of the clock that lies before
the deadline and none after the first that does not, so none if no duration is asked, then one with TMS=1; not over before
the deadline, which is fixed on entry; the TAP ends in SelectDRScan. -/
def Obligations.IdleCommand : Prop :=
  ∀ s : State, s.undisturbed →
    HasOp .idle 0x11#8 ∧
    RefusesInOrder .idle s
      [(s.pins.path ≠ .bitBang, .sessionError, 0),
       (s.notIn [.reset, .idle, .updateDR, .updateIR], .tapSequenceError, 0),
       (s.tap.state = .reset ∧ s.regs.cyc = 0#32, .tapSequenceError, 0)] ∧
    (∀ st ∈ [TapState.reset, .idle, .updateDR, .updateIR], s.inTap st → ¬(st = .reset ∧ s.regs.cyc = 0#32) →
      ∃ t evs k, Runs .idle s t .ok 0 evs ∧
        plays s t evs (Wave.tms (List.replicate (s.regs.cyc.toNat + k) false ++ [true])) ∧
        idleTakes { cycles := s.regs.cyc.toNat, ticks := s.regs.dur.toNat } k s.env.clock t.env.clock ∧
        (s.regs.dur = 0#32 → k = 0) ∧ s.env.clock.time + s.regs.dur.toNat ≤ t.env.clock.time ∧
        t.inTap .selectDRScan ∧ onlyLines s t ∧ t.banks = s.banks ∧
        t.counters = { s.counters with deadline := s.env.clock.now.1 + s.regs.dur.toNat, cyccnt := 0 })

/-- Every idle wait, of IDLE and in the scans and scripts (spec 41 R175, R176): after the owed pulses the clock is asked
until it answers the deadline or later, with one pulse after every earlier answer. The clock alone fixes how many these
are. -/
def Obligations.IdleWaits : Prop :=
  ∀ (w : IdleWait) (s : State),
    ∃ evs k, newEvents s (idle w s) evs ∧ segment s.pins.tdi evs (Wave.idle (w.cycles + k)) (idle w s).pins.tdi ∧
      idleTakes w k s.env.clock (idle w s).env.clock ∧
      (∀ k' after, idleTakes w k' s.env.clock after → k' = k ∧ after = (idle w s).env.clock) ∧
      s.env.clock.now.1 + w.ticks ≤ (idle w s).env.clock.time ∧
      (idle w s).counters = { s.counters with deadline := s.env.clock.now.1 + w.ticks, cyccnt := 0 }

/-- SIR (spec 41 R178): the fixed walk over the IR path, the instruction bits lowest first, the last with TMS=1; the
samples are dropped, the data bank is kept, the instruction bank is shifted out. The idle tail makes exactly the pulses the
clock makes necessary. -/
def Obligations.SirCommand : Prop :=
  ∀ (s : State) (idleTail : Bool), s.undisturbed →
    HasOp (.sir idleTail) 0x12#8 ∧
    RefusesInOrder (.sir idleTail) s
      [(s.pins.path ≠ .bitBang, .sessionError, 0), (s.notIn [.selectDRScan], .tapSequenceError, 0),
       (s.regs.len = 0#32 ∨ 32 < s.regs.len.toNat, .operandError, 0)] ∧
    (s.inTap .selectDRScan → s.regs.len ≠ 0#32 → s.regs.len.toNat ≤ 32 →
      ∃ t evs k, Runs (.sir idleTail) s t .ok 0 evs ∧
        plays s t evs (Wave.sir ((List.range s.regs.len.toNat).map s.regs.val.getLsbD) k) ∧
        tailPulsesOf (s.idleTail idleTail) k ∧
        tailTakes (Clock.pulsed (s.regs.len.toNat + 6) s.env.clock) t.env.clock (s.idleTail idleTail) k ∧
        (idleTail = true → s.env.clock.time + s.regs.dur.toNat ≤ t.env.clock.time) ∧
        t.inTap .selectDRScan ∧ onlyLines s t ∧
        t.banks = { s.banks with irsr := 0#32, bitcnt := s.regs.len.toNat } ∧
        t.counters = (if idleTail then { s.counters with deadline := t.counters.deadline, cyccnt := 0 }
          else s.counters))

/-- SDR (spec 41 R180, R181, 10_state R34, R35): the fixed walk over the DR path with the buffer's old bits, the wait
in PauseDR and the idle tail where asked, with exactly the pulses the clock makes necessary; with capture the samples take the bits' places in the buffer, without it
the buffer is kept. -/
def Obligations.SdrCommand : Prop :=
  ∀ (s : State) (capture idleTail pause : Bool), s.undisturbed →
    let n := s.regs.len.toNat
    let base := s.regs.buf.toNat
    HasOp (.sdr capture idleTail pause) 0x13#8 ∧
    RefusesInOrder (.sdr capture idleTail pause) s
      [(s.pins.path ≠ .bitBang, .sessionError, 0), (s.notIn [.selectDRScan], .tapSequenceError, 0),
       (n = 0 ∨ ¬s.inBuf ((n + 7) / 8), .operandError, 0)] ∧
    (∀ bytes : List Byte, s.inTap .selectDRScan → n ≠ 0 → s.inBuf ((n + 7) / 8) → bytes.length = (n + 7) / 8 →
      bufHolds s base bytes →
      ∃ t evs k, Runs (.sdr capture idleTail pause) s t .ok 0 evs ∧
        plays s t evs (Wave.sdr (bitsOf bytes n) (s.pauseOperand pause) k) ∧ tailPulsesOf (s.idleTail idleTail) k ∧
        tailTakes (Clock.pulsed 2 (Clock.paused (s.pauseOperand pause) (Clock.pulsed (n + 3) s.env.clock))) t.env.clock
          (s.idleTail idleTail) k ∧
        s.env.clock.time + (if pause then s.regs.pause.toNat else 0) +
          (if idleTail then s.regs.dur.toNat else 0) ≤ t.env.clock.time ∧
        t.inTap .selectDRScan ∧ onlyLines { s with buf := t.buf } t ∧
        (if capture then capturedInto t base bytes (((samplesOf evs).drop 2).take n) ∧
            sameBufOutside s t base bytes.length
          else sameBuf s t) ∧
        t.banks = { s.banks with drbits := bitsOf bytes n, drcap := ((samplesOf evs).drop 2).take n, drlen := n,
                                 bitcnt := n } ∧
        t.counters = { s.counters with
          deadline := if pause || idleTail then t.counters.deadline else s.counters.deadline
          cyccnt := if idleTail then 0 else s.counters.cyccnt })

/-- CHECK (spec 41 R184): the masked comparison, its result in R_RES, a mismatch logged and flagged, no error either
way. -/
def Obligations.CheckCommand : Prop :=
  ∀ s : State, s.undisturbed →
    let mismatch := ((s.regs.val ^^^ s.regs.exp) &&& s.regs.mask) ≠ 0#32
    HasOp .check 0x14#8 ∧
    (mismatch → ∃ t, Runs .check s t .ok 0 [.mismatch s.regs.val s.regs.exp s.regs.mask] ∧
      t = { s with res := 1#32, flags.mismatch := true, ctl := t.ctl, trace := t.trace, port := t.port }) ∧
    (¬mismatch → ∃ t, Runs .check s t .ok 0 [] ∧
      t = { s with res := 0#32, ctl := t.ctl, trace := t.trace, port := t.port })

/-! ### BurstTransport -/

/-- BURSTWR (spec 42 R207): the prefix word and all bytes but the last as bulk, the last byte bit-banged with TMS=1 on
its last bit; from ShiftDR to Exit1DR. That the last byte leaves DRBITS and DRCAP alone is the model's reading (DEDUCED,
log entry 14). -/
def Obligations.BurstwrCommand : Prop :=
  ∀ s : State, s.undisturbed →
    HasOp .burstwr 0x20#8 ∧
    RefusesInOrder .burstwr s
      [(s.pins.path ≠ .bitBang, .sessionError, 0), (s.notIn [.shiftDR], .tapSequenceError, 0),
       (s.regs.len = 0#32 ∨ ¬s.inBuf s.regs.len.toNat, .operandError, 0)] ∧
    (∀ (bulk : List Byte) (finalByte : Byte), s.inTap .shiftDR → s.inBuf s.regs.len.toNat →
      bulk.length + 1 = s.regs.len.toNat → bufHolds s s.regs.buf.toNat (bulk ++ [finalByte]) →
      ∃ t evs, Runs .burstwr s t .ok 0 evs ∧
        plays s t evs (Wave.burst s.cfg.useBurst
          ([s.regs.val.extractLsb' 24 8, s.regs.val.extractLsb' 16 8, s.regs.val.extractLsb' 8 8,
            s.regs.val.extractLsb' 0 8] ++ bulk) finalByte) ∧
        pulseCount evs = 8 * (4 + s.regs.len.toNat) ∧
        t.inTap .exit1DR ∧ onlyLines s t ∧ sameBuf s t ∧
        t.banks = { s.banks with bitcnt := 8 } ∧ t.counters = s.counters)

/-- BURSTRD (spec 42 R209): the prefix word, the dummy bytes, then the bytes read with 0 on TDI, then a closing byte
bit-banged; the samples of the read bytes, in flash order, fill the range of BUF. That the closing byte leaves DRBITS and
DRCAP alone is the model's reading (DEDUCED, log entry 14). -/
def Obligations.BurstrdCommand : Prop :=
  ∀ s : State, s.undisturbed →
    let n := s.regs.len.toNat
    HasOp .burstrd 0x21#8 ∧
    RefusesInOrder .burstrd s
      [(s.pins.path ≠ .bitBang, .sessionError, 0), (s.notIn [.shiftDR], .tapSequenceError, 0),
       (n = 0 ∨ ¬s.inBuf n, .operandError, 0)] ∧
    (s.inTap .shiftDR → n ≠ 0 → s.inBuf n →
      ∃ t evs, Runs .burstrd s t .ok 0 evs ∧
        plays s t evs (Wave.burst s.cfg.useBurst
          ([s.regs.val.extractLsb' 24 8, s.regs.val.extractLsb' 16 8, s.regs.val.extractLsb' 8 8,
            s.regs.val.extractLsb' 0 8] ++ List.replicate s.cfg.dummyBytes 0#8 ++ List.replicate n 0#8) 0#8) ∧
        pulseCount evs = 8 * (4 + s.cfg.dummyBytes + n + 1) ∧
        t.inTap .exit1DR ∧ onlyLines { s with buf := t.buf } t ∧
        bufHolds t s.regs.buf.toNat (flashBytesOf n ((samplesOf evs).drop (8 * (4 + s.cfg.dummyBytes)))) ∧
        sameBufOutside s t s.regs.buf.toNat n ∧
        t.banks = { s.banks with bitcnt := 8 } ∧ t.counters = s.counters)

/-- The equivalence law of the burst (spec 42 R208): the levels of TMS and TDI are those of the bit-banged shift of
the same frame; only the path tags and the two `Path` events differ. -/
def Obligations.BurstEqualsShift : Prop :=
  ∀ (s : State) (lead bulk : List Byte) (d : Byte) (e1 e2 : List Event),
    newEvents s (burstWrite lead bulk (rev8 d) s) e1 →
    newEvents s (shiftBits (bitsOf ((lead ++ bulk ++ [d]).map rev8) (8 * (lead.length + bulk.length + 1))) s).2 e2 →
    wires e1 = wires e2 ∧
    nonPulses e1 = (if s.cfg.useBurst then [.path .burst, .path .bitBang] else []) ∧ nonPulses e2 = []

/-- The two backends are interchangeable (spec 42 R206, 44 R251): a block read makes the same levels on the lines and
returns the same bytes with the peripheral and without it. -/
def Obligations.BackendsAgree : Prop :=
  ∀ (s : State) (a n : Nat) (e1 e2 : List Event),
    let bb : State := { s with cfg.useBurst := false }
    newEvents s (readBlock a n s).2 e1 → newEvents bb (readBlock a n bb).2 e2 →
    wires e1 = wires e2 ∧ (readBlock a n s).1 = (readBlock a n bb).1 ∧
    (readBlock a n s).2.env.target = (readBlock a n bb).2.env.target

/-! ### DeviceProtocol -/

/-- IDENTIFY (spec 43 R222, R223): reset, one idle cycle, the id instruction, 32 zero bits; R_RES is the word of the
32 samples, first sample lowest; lines it acquired it releases. -/
def Obligations.IdentifyCommand : Prop :=
  ∀ s : State, s.undisturbed →
    HasOp .identify 0x30#8 ∧
    ∃ t e1 scan x, Runs .identify s t .ok 0
        (acquireEvents s.pins.path ++ e1 ++ scan ++ (if s.pins.path = .released then [.path .released] else [])) ∧
      segment s.pins.tdi e1 (fun w => (w.reset.idle 1).sir (byteBits s.cfg.op.readIdcode) none) x ∧
      segment x scan (Wave.sdr (List.replicate 32 false) none none) t.pins.tdi ∧
      pulseCount (e1 ++ scan) = 61 ∧
      t.res = BitVec.ofNat 32 (wordOf (((samplesOf scan).drop 2).take 32)) ∧
      onlyLines { s with res := t.res } t ∧ t.pins.path = s.pins.path ∧ t.counters.attempt = s.counters.attempt ∧
      (if s.pins.path = .released then t.tap.known = false else t.tapAt .selectDRScan)

/-- Against the reference target, in whatever state it and the tracker are, IDENTIFY returns the target's id,
unmodified (spec 43 R223, 30_encoding R136, 20_memory R90 to R92, R96). -/
def Obligations.IdentifyReturnsReferenceId : Prop :=
  ∀ (s : State) (r : RefTarget), s.undisturbed → s.env.target = .reference r →
    ∃ t, exec .identify s = .next t ∧ t.ctl.err = .ok ∧ t.res = r.refId

/-- OPENCFG (spec 43 R224, R225): the script, with a masked comparison of each status word against 0; a mismatch is
flagged and logged, and stops nothing; R_RES is 1 iff both matched; CFG_WAIT has passed twice; the mode is then
ConfiguredForSRAM. -/
def Obligations.OpencfgCommand : Prop :=
  ∀ s : State, s.undisturbed →
    HasOp .opencfg 0x31#8 ∧
    ∃ t e1 scan1 e2 scan2 k1 k2 x1 x2,
      let s1 := scannedWord 32 scan1
      let s2 := scannedWord 32 scan2
      let m1 := maskedMismatch s1 0#32 0x24040#32
      let m2 := maskedMismatch s2 0#32 0xB000#32
      Runs .opencfg s t .ok 0
        (acquireEvents s.pins.path ++ e1 ++ scan1 ++ (if m1 then [.mismatch s1 0#32 0x24040#32] else []) ++
          e2 ++ scan2 ++ (if m2 then [.mismatch s2 0#32 0xB000#32] else [])) ∧
      segment s.pins.tdi e1 (fun w => ((((w.reset.idle 1).sir (byteBits s.cfg.op.preload) none).sdr
        (List.replicate 64 true) none none).sir (byteBits s.cfg.op.iscEnable) (some k1)).sir
        (byteBits s.cfg.op.lscReadStatus) none) x1 ∧
      segment x1 scan1 (Wave.sdr (List.replicate 32 false) none none) false ∧
      segment false e2 (fun w => (w.sir (byteBits s.cfg.op.iscErase) (some k2)).sir
        (byteBits s.cfg.op.lscReadStatus) none) x2 ∧
      segment x2 scan2 (Wave.sdr (List.replicate 32 false) none none) t.pins.tdi ∧
      idlePulsesOf s.cfg.cfgWait k1 ∧ idlePulsesOf s.cfg.cfgWait k2 ∧
      onlyLines { s with res := if !m1 && !m2 then 1#32 else 0#32, devmode := .configuredForSRAM,
                         flags.mismatch := s.flags.mismatch || m1 || m2 } t ∧
      s.env.clock.time + 2 * s.cfg.cfgWait.ticks ≤ t.env.clock.time ∧
      t.tapAt .selectDRScan ∧ (s.pins.path ≠ .burst → t.pins.path = .bitBang) ∧
      t.counters.attempt = s.counters.attempt

/-- OPENFLASH (spec 43 R226): the script of OPENCFG, then the re-reset and the passthrough instruction and word with
their long idles of exactly 32 cycles; R_RES is OPENCFG's; the mode is then ConfiguredForFlash. -/
def Obligations.OpenflashCommand : Prop :=
  ∀ s : State, s.undisturbed →
    HasOp .openflash 0x32#8 ∧
    ∃ t e1 scan1 e2 scan2 e3 k1 k2 x1 x2 x3,
      let s1 := scannedWord 32 scan1
      let s2 := scannedWord 32 scan2
      let m1 := maskedMismatch s1 0#32 0x24040#32
      let m2 := maskedMismatch s2 0#32 0xB000#32
      Runs .openflash s t .ok 0
        (acquireEvents s.pins.path ++ e1 ++ scan1 ++ (if m1 then [.mismatch s1 0#32 0x24040#32] else []) ++
          e2 ++ scan2 ++ (if m2 then [.mismatch s2 0#32 0xB000#32] else []) ++ e3) ∧
      segment s.pins.tdi e1 (fun w => ((((w.reset.idle 1).sir (byteBits s.cfg.op.preload) none).sdr
        (List.replicate 64 true) none none).sir (byteBits s.cfg.op.iscEnable) (some k1)).sir
        (byteBits s.cfg.op.lscReadStatus) none) x1 ∧
      segment x1 scan1 (Wave.sdr (List.replicate 32 false) none none) false ∧
      segment false e2 (fun w => (w.sir (byteBits s.cfg.op.iscErase) (some k2)).sir
        (byteBits s.cfg.op.lscReadStatus) none) x2 ∧
      segment x2 scan2 (Wave.sdr (List.replicate 32 false) none none) x3 ∧
      segment x3 e3 (fun w => (((w.reset.idle 1).sir (byteBits s.cfg.op.bypass) (some 32)).sir
        (byteBits s.cfg.op.lscProgSpi) none).sdr (numberBits s.cfg.progSpiBits s.cfg.progSpiWord) none (some 32))
        t.pins.tdi ∧
      idlePulsesOf s.cfg.cfgWait k1 ∧ idlePulsesOf s.cfg.cfgWait k2 ∧
      onlyLines { s with res := if !m1 && !m2 then 1#32 else 0#32, devmode := .configuredForFlash,
                         flags.mismatch := s.flags.mismatch || m1 || m2 } t ∧
      s.env.clock.time + 2 * s.cfg.cfgWait.ticks ≤ t.env.clock.time ∧
      (0 < s.cfg.progSpiBits → t.tapAt .selectDRScan) ∧ (s.pins.path ≠ .burst → t.pins.path = .bitBang) ∧
      t.counters.attempt = s.counters.attempt

/-- CLOSE (spec 43 R228): refused in mode Idle; else write-disable, the four instructions with REFRESH_WAIT after the
last, the final reset; then the mode is Idle and the lines are released. -/
def Obligations.CloseCommand : Prop :=
  ∀ s : State, s.undisturbed →
    HasOp .close 0x33#8 ∧
    RefusesInOrder .close s
      [(s.devmode = .idle, .sessionError, 0), (s.pins.path ≠ .bitBang, .sessionError, 0),
       (s.notIn [.selectDRScan], .tapSequenceError, 0)] ∧
    (s.devmode ≠ .idle → s.inTap .selectDRScan →
      ∃ t evs k, Runs .close s t .ok 0 (evs ++ [.path .released]) ∧
        segment s.pins.tdi evs (fun w => (((((w.sdr (byteBits s.cfg.fc.wrdi).reverse none none).sir
          (byteBits s.cfg.op.bypass) (some 32)).sir (byteBits s.cfg.op.iscDisable) (some 32)).sir
          (byteBits s.cfg.op.bypass) none).sir (byteBits s.cfg.op.lscRefresh) (some k)).reset) t.pins.tdi ∧
        idlePulsesOf s.cfg.refreshWait k ∧ s.env.clock.time + s.cfg.refreshWait.ticks ≤ t.env.clock.time ∧
        onlyLines { s with devmode := .idle } t ∧ t.pins.path = .released ∧ t.tap.known = false ∧ t.tap.ones = 0#3 ∧
        t.counters.attempt = s.counters.attempt)

/-! ### FlashEngine -/

/-- POLL (spec 44 R240 to R243): one status frame an attempt, a wait of R_DLY after each whose status meets SR_WIP or
SR_WEL, an end at the first whose does not; the last status read goes to FSR and R_RES; attempts that run out set TIMEOUT and
end with StatusTimeout(0); with no attempts nothing is read and R_RES is kept. -/
def Obligations.PollCommand : Prop :=
  ∀ s : State, s.undisturbed →
    HasOp .poll 0x40#8 ∧
    RefusesInOrder .poll s
      [(s.devmode ≠ .configuredForFlash, .sessionError, 0), (s.pins.path ≠ .bitBang, .sessionError, 0),
       (s.notIn [.selectDRScan], .tapSequenceError, 0)] ∧
    (s.devmode = .configuredForFlash → s.inTap .selectDRScan →
      ∃ t evs sr timedOut, exec .poll s = .next t ∧ EndsPolled s t timedOut 0 evs ∧
        PollTrace s.cfg s.regs.dly.toNat s.regs.att.toNat s.pins.tdi s.fsr evs sr timedOut ∧
        s.env.clock.time + waited evs ≤ t.env.clock.time ∧
        onlyLines { s with fsr := sr, flags.timeout := s.flags.timeout || timedOut,
                           res := if s.regs.att = 0#32 then s.res else sr.setWidth 32 } t ∧
        t.counters.attempt = s.regs.att.toNat - waitCount evs ∧
        t.inTap .selectDRScan ∧ t.banks.irsr = s.banks.irsr ∧ t.counters.cyccnt = s.counters.cyccnt)

/-- The timeout law (spec 44 R244): POLL always ends; it makes at most as many status reads of 22 pulses as it has
attempts, and exactly as many, each followed by its wait, when it times out. Against a target that answers 1 to every
pulse it times out. -/
def Obligations.PollNeverHangs : Prop :=
  ∀ s : State, s.undisturbed → s.devmode = .configuredForFlash → s.inTap .selectDRScan →
    ∃ t evs m, exec .poll s = .next t ∧ newEvents s t evs ∧ m ≤ s.regs.att.toNat ∧ pulseCount evs = 22 * m ∧
      (t.ctl.err = .ok ∧ 0 < m ∧ waitCount evs = m - 1 ∧ t.flags = s.flags ∨
        t.ctl.err = .statusTimeout ∧ m = s.regs.att.toNat ∧ waitCount evs = m ∧ t.flags.timeout = true) ∧
      (∀ drawn, s.cfg.srWip ≠ 0#8 →
        s.env.target = .samples (List.replicate (22 * s.regs.att.toNat) true) drawn → t.ctl.err = .statusTimeout)

/-- ERASE (spec 44 R245): write-enable, the status read and checked for the latch (flagged, never fatal), the erase
frame, the poll, whose timeout ends the command with StatusTimeout(address). A block that would run past the flash is out of
range (20_memory R84) before it is misaligned (60 R285), which R245's own list of checks does not say (DEDUCED, log
entry 24). -/
def Obligations.EraseCommand : Prop :=
  ∀ s : State, s.undisturbed →
    let a := s.regs.addr.toNat
    HasOp .erase 0x41#8 ∧
    RefusesInOrder .erase s
      [(2 ^ 24 ≤ a ∨ 2 ^ 24 < a + s.cfg.eraseBlock, .addressRangeError, a),
       (a % s.cfg.eraseBlock ≠ 0, .alignmentError, a),
       (s.devmode ≠ .configuredForFlash, .sessionError, 0), (s.pins.path ≠ .bitBang, .sessionError, 0),
       (s.notIn [.selectDRScan], .tapSequenceError, 0)] ∧
    (a < 2 ^ 24 → a + s.cfg.eraseBlock ≤ 2 ^ 24 → a % s.cfg.eraseBlock = 0 → s.devmode = .configuredForFlash → s.inTap .selectDRScan →
      ∃ t evs sr timedOut, exec .erase s = .next t ∧ EndsPolled s t timedOut a evs ∧
        EraseTrace s.cfg a s.pins.tdi evs sr timedOut ∧
        s.env.clock.time + waited evs ≤ t.env.clock.time ∧
        onlyLines { s with fsr := sr, flags := { mismatch := s.flags.mismatch || evs.any Event.isMismatch
                                                 timeout := s.flags.timeout || timedOut } } t ∧
        t.inTap .selectDRScan ∧ t.banks.irsr = s.banks.irsr ∧ t.counters.cyccnt = s.counters.cyccnt)

/-- WRITE (spec 44 R248): write-enable, the program frame through the burst path, the poll, whose timeout ends the
command with StatusTimeout(address). -/
def Obligations.WriteCommand : Prop :=
  ∀ s : State, s.undisturbed →
    let a := s.regs.addr.toNat
    let n := s.regs.len.toNat
    HasOp .write 0x42#8 ∧
    RefusesInOrder .write s
      [(2 ^ 24 ≤ a ∨ 2 ^ 24 < a + n, .addressRangeError, a), (a % s.cfg.writeBlock ≠ 0, .alignmentError, a),
       (n = 0 ∨ s.cfg.writeBlock < n ∨ ¬s.inBuf n, .operandError, 0),
       (s.devmode ≠ .configuredForFlash, .sessionError, 0), (s.pins.path ≠ .bitBang, .sessionError, 0),
       (s.notIn [.selectDRScan], .tapSequenceError, 0)] ∧
    (∀ data : List Byte, a < 2 ^ 24 → a + n ≤ 2 ^ 24 → a % s.cfg.writeBlock = 0 → n ≠ 0 → n ≤ s.cfg.writeBlock →
      s.inBuf n → s.devmode = .configuredForFlash → s.inTap .selectDRScan → data.length = n →
      bufHolds s s.regs.buf.toNat data →
      ∃ t evs sr timedOut, exec .write s = .next t ∧ EndsPolled s t timedOut a evs ∧
        WriteTrace s.cfg data a s.pins.tdi s.fsr evs sr timedOut ∧
        s.env.clock.time + waited evs ≤ t.env.clock.time ∧
        onlyLines { s with fsr := sr, flags.timeout := s.flags.timeout || timedOut } t ∧
        sameBuf s t ∧ t.inTap .selectDRScan ∧ t.banks.irsr = s.banks.irsr ∧
        t.counters.cyccnt = s.counters.cyccnt)

/-- READ (spec 44 R250): the read frame through the burst path; the samples of its data bytes, in flash order, fill the
range of BUF; no alignment is asked, no status polled. That the closing byte leaves DRBITS and DRCAP alone is the model's
reading (DEDUCED, log entry 14). -/
def Obligations.ReadCommand : Prop :=
  ∀ s : State, s.undisturbed →
    let a := s.regs.addr.toNat
    let n := s.regs.len.toNat
    HasOp .read 0x43#8 ∧
    RefusesInOrder .read s
      [(2 ^ 24 ≤ a ∨ 2 ^ 24 < a + n, .addressRangeError, a),
       (n = 0 ∨ s.cfg.eraseBlock < n ∨ ¬s.inBuf n, .operandError, 0),
       (s.devmode ≠ .configuredForFlash, .sessionError, 0), (s.pins.path ≠ .bitBang, .sessionError, 0),
       (s.notIn [.selectDRScan], .tapSequenceError, 0)] ∧
    (a < 2 ^ 24 → a + n ≤ 2 ^ 24 → n ≠ 0 → n ≤ s.cfg.eraseBlock → s.inBuf n → s.devmode = .configuredForFlash →
      s.inTap .selectDRScan →
      ∃ t evs, Runs .read s t .ok 0 evs ∧ plays s t evs (Wave.readBlock s.cfg a n) ∧
        bufHolds t s.regs.buf.toNat (blockRead s.cfg n evs) ∧ (blockRead s.cfg n evs).length = n ∧
        sameBufOutside s t s.regs.buf.toNat n ∧ onlyLines { s with buf := t.buf } t ∧ t.inTap .selectDRScan ∧
        t.banks = { s.banks with bitcnt := 8 } ∧ t.counters = s.counters)

/-- UPLOAD (spec 43 R221, 44 R255 to R257, R260, R262, R263): refused on a bad base address before anything else; else the
statistics restart, the lines are acquired if they are released, the script of OPENFLASH is run in any mode, and the
stream is taken in chunks of ERASE_BLOCK, each filled from the source, read back, programmed and compared at its own
address. The stream may be endless (70 R337). The whole stream is taken, or the command stops at the chunk that failed, with its address. Each
finished chunk is counted once in ST_BYTES and ST_BLOCKS, in ST_ERASED, ST_WRITTEN or both, or else in ST_SKIPPED, and
reported with these counts; a timeout of any attempt is flagged; ST_ELAPSED is at the end the time since the start, saturated. Either way the mode stays
ConfiguredForFlash, the lines stay acquired, and BUF, R_RES and the operands are kept. An empty stream, having no chunk, can
only end without error. -/
def Obligations.UploadCommand : Prop :=
  ∀ s : State, BetweenCommands s → s.undisturbed →
    let base := s.regs.addr.toNat
    HasOp .upload 0x44#8 ∧
    RefusesInOrder .upload s
      [(2 ^ 24 ≤ base, .addressRangeError, base), (base % s.cfg.eraseBlock ≠ 0, .alignmentError, base)] ∧
    (base < 2 ^ 24 → base % s.cfg.eraseBlock = 0 →
      ∃ t evs, exec .upload s = .next t ∧ UploadEnds s t evs ∧ t.work.tStart = s.env.clock.now.1 ∧
        t.devmode = .configuredForFlash ∧ t.inTap .selectDRScan ∧
        t.flags.mismatch = (s.flags.mismatch || evs.any Event.isMismatch) ∧
        (∃ opening chunks answer timedOut last x,
          evs = acquireEvents s.pins.path ++ opening ++ chunks ∧
          OpenFlashTrace s.cfg s.pins.tdi opening x ∧
          ChunksTrace s.cfg (2 ^ 24 / s.cfg.eraseBlock + 1) s.env.source.stream base x s.fsr Stats.zero chunks answer t.fsr
            timedOut last ∧
          t.flags.timeout = (s.flags.timeout || timedOut) ∧
          s.env.clock.time + 2 * s.cfg.cfgWait.ticks + waited chunks ≤ t.env.clock.time ∧
          match answer with
          | none => EndsWith s t .ok 0 evs ∧ t.stats = { last with elapsed := t.stats.elapsed }
          | some (e, a) => EndsWith s t e a evs ∧ t.stats = last) ∧
        t = { s with pins := t.pins, tap := t.tap, devmode := t.devmode, banks := t.banks, ctl := t.ctl,
                     flags := t.flags, fsr := t.fsr, stats := t.stats, work := t.work, counters := t.counters,
                     trace := t.trace, env := t.env, port := t.port })

/-- The four outcomes of a comparison, for every ERASE_SAFE (spec 44 R253). -/
def Obligations.ClassifyOutcomes : Prop :=
  ∀ (e : EraseSafe) (flash image : List Byte), flash.length = image.length →
    let mustErase := ∃ j < image.length, (flash.getD j 0#8 &&& image.getD j 0#8) ≠ image.getD j 0#8
    let differs := ∃ j < image.length, flash.getD j 0#8 ≠ image.getD j 0#8
    (mustErase → classify e flash image = if EraseSafe.holds e flash image then .eraseThenWrite else .unerasable) ∧
    (¬mustErase → differs → classify e flash image = .writeOnly) ∧
    (¬mustErase → ¬differs → classify e flash image = .noOp) ∧
    (mustErase ↔ ∃ j < image.length, ∃ k < 8,
      (image.getD j 0#8).getLsbD k = true ∧ (flash.getD j 0#8).getLsbD k = false)

/-- A chunk is filled from the stream alone (spec 20_memory R78, R79): however the source splits its answers, the chunk is
the next ERASE_BLOCK bytes of the stream, or what is left at its end, which an endless stream does not have; the rest stays
to be given. -/
def Obligations.ChunkAssembly : Prop :=
  ∀ s : State, s.work.chunklen = 0 →
    let r := fillChunk s.cfg.eraseBlock s
    let stream := s.env.source.stream
    let rest := r.2.env.source.stream
    r.2.work.chunklen = r.2.chunkBytes.length ∧ rest.endless = stream.endless ∧
    (stream.endless = false →
      r.2.chunkBytes = stream.content.take s.cfg.eraseBlock ∧ rest.content = stream.content.drop s.cfg.eraseBlock ∧
      r.1 = decide (stream.content.length < s.cfg.eraseBlock)) ∧
    (stream.endless = true → r.2.chunkBytes.length = s.cfg.eraseBlock ∧ r.1 = false) ∧
    (∀ n, stream.peek (r.2.chunkBytes.length + n) = r.2.chunkBytes ++ rest.peek n) ∧
    ∃ evs, newEvents s r.2 evs ∧ bytesTaken evs = r.2.chunkBytes ∧
      ∀ e ∈ evs, ∃ n answer, e = .src n answer ∧ 1 ≤ n ∧ n ≤ s.cfg.eraseBlock

/-- UPLOAD ends whatever the source gives (spec 70 R337, 20_memory R78): it finishes no more chunks than erase blocks stand
from its base address to the end of the flash. A source that never ends makes it end with an error: at a chunk that fails, or
where the flash is used up, with AddressRangeError at the address 2^24. -/
def Obligations.UploadTerminates : Prop :=
  ∀ s : State, BetweenCommands s → s.undisturbed →
    let base := s.regs.addr.toNat
    let size := s.cfg.eraseBlock
    base < 2 ^ 24 → base % size = 0 →
      ∃ t evs, exec .upload s = .next t ∧ UploadEnds s t evs ∧
        base + (reportsOf evs).length * size ≤ 2 ^ 24 ∧
        (s.env.source.stream.endless = true →
          ∃ e, EndsWith s t e (base + (reportsOf evs).length * size) evs ∧ t.env.source.stream.endless = true ∧
            (e = .unerasableImage ∨ e = .programFailure ∨
              (e = .addressRangeError ∧ base + (reportsOf evs).length * size = 2 ^ 24)))

/-- The retry loop of a chunk (spec 44 R257): it succeeds only when what it last read back is the chunk; it fails with
UnerasableImage on that classification, and with ProgramFailure only after all three attempts. -/
def Obligations.RetryLoopAnswers : Prop :=
  ∀ s : State, s.cfg.valid = true → s.work.chunklen ≤ s.work.chunk.length → s.work.retry = 0 →
    let r := retryLoop 3 s
    r.2.work.retry ≤ 3 ∧ r.2.chunkBytes = s.chunkBytes ∧ r.2.work.faddr = s.work.faddr ∧
    (r.1 = none → r.2.work.scratch.take s.work.chunklen = s.chunkBytes) ∧
    (∀ e, r.1 = some e → (e = .unerasableImage ∧ r.2.work.cls = .unerasable) ∨
      (e = .programFailure ∧ r.2.work.retry = 3 ∧ (r.2.work.cls = .writeOnly ∨ r.2.work.cls = .eraseThenWrite)))

/-- One program attempt (spec 44 R258): the block is erased where the classification asks for it, then the chunk is
written in pieces of WRITE_BLOCK, each at its offset from FADDR; a timeout of either ends the attempt, flagged, and so does
the last piece. What was begun is recorded for the counts. -/
def Obligations.ProgramAttempt : Prop :=
  ∀ s : State, s.cfg.valid = true → 0 < s.work.chunklen → s.work.chunklen ≤ s.work.chunk.length →
    let t := programAttempt s
    let erase := s.work.cls == .eraseThenWrite
    ∃ evs sr timedOut wrote, newEvents s t evs ∧
      AttemptTrace s.cfg erase s.chunkBytes s.work.faddr s.pins.tdi s.fsr evs sr timedOut wrote ∧
      onlyLines { s with
        fsr := sr
        flags := { mismatch := s.flags.mismatch || evs.any Event.isMismatch, timeout := s.flags.timeout || timedOut }
        work := { s.work with didErase := s.work.didErase || erase, didWrite := s.work.didWrite || wrote } } t ∧
      t.pins.tdi = false ∧ (s.inTap .selectDRScan → t.inTap .selectDRScan) ∧
      s.env.clock.time + waited evs ≤ t.env.clock.time

/-- One chunk of an upload (spec 44 R256, R257, R262, 20_memory R84): one that runs past the flash is out of range before
anything is done; else it is read back and compared, and programmed and compared again up to three times. Where it stands at
last it is counted, by whether some attempt erased and whether some wrote, and reported; where it does not, nothing is. A
timeout of any attempt is flagged. -/
def Obligations.ChunkRound : Prop :=
  ∀ s : State, s.cfg.valid = true → 0 < s.work.chunklen → s.work.chunklen ≤ s.work.chunk.length →
    let r := runChunk s
    if 2 ^ 24 < s.work.faddr + s.work.chunklen then r = (some .addressRangeError, s)
    else
      ∃ evs timedOut erased wrote,
        RetryTrace s.cfg s.chunkBytes s.work.faddr 3 s.pins.tdi s.fsr evs r.1 r.2.fsr timedOut erased wrote ∧
        r.2.flags.timeout = (s.flags.timeout || timedOut) ∧ r.2.pins.tdi = false ∧
        r.2.work.didErase = erased ∧ r.2.work.didWrite = wrote ∧
        if r.1 = none then
          newEvents s r.2 (evs ++ [.progress r.2.stats]) ∧
          r.2.stats =
            { bytes := s.stats.bytes + BitVec.ofNat 32 s.work.chunklen
              blocks := s.stats.blocks + 1#32
              erased := s.stats.erased + (if erased then 1#32 else 0#32)
              written := s.stats.written + (if wrote then 1#32 else 0#32)
              skipped := s.stats.skipped + (if erased || wrote then 0#32 else 1#32)
              elapsed := BitVec.ofNat 32 (min (r.2.env.clock.time - s.work.tStart) (2 ^ 32 - 1)) }
        else newEvents s r.2 evs ∧ r.2.stats = s.stats

/-- A chunk that already stands in the flash is left alone (spec 44 R264): if what the first read returns is the chunk,
the read frame is all the loop does, and neither an erase nor a write is recorded. -/
def Obligations.MatchingChunkUntouched : Prop :=
  ∀ (s : State) (left : Nat), s.work.chunklen ≤ s.work.chunk.length →
    (readBlock s.work.faddr s.work.chunklen s).1 = s.chunkBytes →
    let r := retryLoop left s
    r.1 = none ∧ r.2.work.didErase = s.work.didErase ∧ r.2.work.didWrite = s.work.didWrite ∧
    r.2.work.retry = s.work.retry ∧ r.2.trace = (readBlock s.work.faddr s.work.chunklen s).2.trace ∧
    r.2.env = (readBlock s.work.faddr s.work.chunklen s).2.env

/-! ### Rules over all commands -/

/-- A command refused by the first of its checks that fails emits `Done` and changes ERR, and nothing else
(spec 60 R283). -/
def Obligations.RefusalChangesNothing : Prop :=
  ∀ (i : Instr) (s : State) (e : ErrorKind) (info : Nat), s.undisturbed →
    firstRefusal (entryChecks i s) = some (e, info) →
    Refuses i s e info

/-- What each command needs of PATH, DEVMODE and the TAP state (spec 60 R294): a command that lacks it is refused. -/
def Obligations.CommandNeeds : Prop :=
  ∀ (i : Instr) (s : State), s.undisturbed →
    (∃ p, pathNeed i = some p ∧ s.pins.path ≠ p) ∨ s.devmode ∉ modeNeed i ∨ ¬tapNeed i s.tap →
    ∃ e info, e ≠ .ok ∧ Refuses i s e info

/-- What a command may write beside the lines and the counters: no operand register and no configuration at all; R_RES,
BUF, DEVMODE, FSR and the flags only the commands their rules name, UPLOAD alone the statistics and its working
registers, and a flag is never cleared (spec 10_state R24, R25, R32, R46, R47, R49, 20_memory R73, 70 R322). -/
def Obligations.OnlyTheseWrite : Prop :=
  ∀ (i : Instr) (s t : State), BetweenCommands s → s.undisturbed → exec i s = .next t →
    t.regs = s.regs ∧ t.cfg = s.cfg ∧ t.port.inputs = s.port.inputs ∧
    (t.res ≠ s.res → writesRes i = true) ∧ (t.buf ≠ s.buf → writesBuf i = true) ∧
    (t.devmode ≠ s.devmode → setsMode i = some t.devmode) ∧ (t.fsr ≠ s.fsr → writesFsr i = true) ∧
    (t.stats ≠ s.stats ∨ t.work ≠ s.work ∨ t.env.source ≠ s.env.source → i = .upload) ∧
    (t.flags.mismatch ≠ s.flags.mismatch → t.flags.mismatch = true ∧ mayMismatch i = true) ∧
    (t.flags.timeout ≠ s.flags.timeout → t.flags.timeout = true ∧ writesFsr i = true) ∧
    (∀ evs, newEvents s t evs → t.flags.mismatch = (s.flags.mismatch || evs.any Event.isMismatch))

/-- Where a raise can happen and the state it leaves (spec 60 R286): only POLL, ERASE, WRITE and UPLOAD end with an
error once their checks have passed, and then the TAP is in SelectDRScan, the lines are bit-banged, TCK is high, the
mode is ConfiguredForFlash, and every command is well defined again. -/
def Obligations.RaisedErrorState : Prop :=
  ∀ (i : Instr) (s t : State), BetweenCommands s → s.undisturbed → firstRefusal (entryChecks i s) = none →
    exec i s = .next t → t.ctl.err ≠ .ok →
    (i = .poll ∨ i = .erase ∨ i = .write ∨ i = .upload) ∧ t.inTap .selectDRScan ∧ t.pins.tck = true ∧
    t.devmode = .configuredForFlash ∧ BetweenCommands t

/-- The pulse counts of spec 70 R350, command by command. Of UPLOAD, whose count depends on what it reads back, the
statement says nothing. -/
def Obligations.PulseCounts : Prop :=
  ∀ (i : Instr) (s t : State) (evs : List Event), s.undisturbed → firstRefusal (entryChecks i s) = none →
    exec i s = .next t → newEvents s t evs → pulsesOwed i s (pulseCount evs)

/-- A command whose checks have passed and that reads a byte of BUF nothing has written since reset stops the run with
the model's fault, which is no error code of the block (spec 20_memory R73, 70 R325, 93 U1; log entry 9). These four commands
read BUF, and nothing faults but where one of them reads such a byte of its range. -/
def Obligations.UnwrittenBufFaults : Prop :=
  let reads (i : Instr) (s : State) (n : Nat) : Prop :=
    (i = .rev8 ∨ i = .burstwr ∨ i = .write) ∧ n = s.regs.len.toNat ∨
      (∃ c d p, i = .sdr c d p) ∧ n = (s.regs.len.toNat + 7) / 8
  (∀ (i : Instr) (s : State) (n a : Nat), s.undisturbed → firstRefusal (entryChecks i s) = none → reads i s n →
    s.regs.buf.toNat ≤ a → a < s.regs.buf.toNat + n → Memory.read s.buf a = none →
    exec i s = .fault .bufNeverWritten) ∧
  (∀ (i : Instr) (s : State) (f : Fault), exec i s = .fault f →
    ∃ n a, reads i s n ∧ s.regs.buf.toNat ≤ a ∧ a < s.regs.buf.toNat + n ∧ Memory.read s.buf a = none)
end

