-- ==== Sys2Proof/Laws/Memory.lean ====
section
/-! SUPPORT. The laws of byte memories: read after write, what a write leaves alone, the canonical form kept. -/

namespace Sys2Proof.Machine

/-! ### One byte -/

@[simp] theorem Memory.read_nil (a : Nat) : Memory.read [] a = none := rfl

theorem Memory.read_cons (c : Host.Cell) (m : Memory) (a : Nat) :
    Memory.read (c :: m) a = if c.1 = a then some c.2 else Memory.read m a := rfl

/-- The addresses of a canonical memory lie above the first one. -/
theorem Memory.wf_cons (c : Host.Cell) (m : Memory) :
    Memory.wf (c :: m) = true ↔ (∀ d ∈ m, c.1 < d.1) ∧ Memory.wf m = true := by
  simp [Memory.wf, List.pairwise_cons]

theorem Memory.read_eq_none (m : Memory) (a : Nat) (h : ∀ d ∈ m, d.1 ≠ a) : Memory.read m a = none := by
  induction m with
  | nil => rfl
  | cons c m ih =>
    rw [Memory.read_cons, if_neg (h c (by simp))]
    exact ih fun d hd => h d (by simp [hd])

/-- Read after write: the written address gives the written byte, every other address what it gave before. -/
theorem Memory.read_write (m : Memory) (a b : Nat) (v : Byte) :
    Memory.read (Memory.write m a v) b = if b = a then some v else Memory.read m b := by
  induction m with
  | nil =>
    simp only [Memory.write, Memory.read_cons, Memory.read_nil]
    by_cases h : b = a
    · simp [h]
    · rw [if_neg h, if_neg (fun e => h e.symm)]
  | cons c m ih =>
    obtain ⟨k, w⟩ := c
    simp only [Memory.write]
    by_cases h1 : a < k
    · simp only [if_pos h1, Memory.read_cons]
      by_cases h : b = a
      · simp [h]
      · rw [if_neg h, if_neg (fun e => h e.symm)]
    · rw [if_neg h1]
      by_cases h2 : a = k
      · simp only [if_pos h2, Memory.read_cons]
        by_cases h : b = a
        · simp [h]
        · rw [if_neg h, if_neg (fun e => h e.symm), if_neg (fun e => h (e.symm.trans h2.symm))]
      · simp only [if_neg h2, Memory.read_cons, ih]
        by_cases h : b = a
        · subst h
          simp [Ne.symm h2]
        · simp [h]

/-- A written cell is the new one or an old one. -/
theorem Memory.mem_write (m : Memory) (a : Nat) (v : Byte) (c : Host.Cell) (h : c ∈ Memory.write m a v) :
    c = (a, v) ∨ c ∈ m := by
  induction m with
  | nil => simpa [Memory.write] using h
  | cons d m ih =>
    obtain ⟨k, w⟩ := d
    simp only [Memory.write] at h
    split at h
    · simpa using h
    · split at h
      · rcases List.mem_cons.1 h with h | h
        · exact .inl h
        · exact .inr (by simp [h])
      · rcases List.mem_cons.1 h with h | h
        · exact .inr (by simp [h])
        · rcases ih h with h | h
          · exact .inl h
          · exact .inr (by simp [h])

/-- A write keeps the canonical form. -/
theorem Memory.wf_write (m : Memory) (a : Nat) (v : Byte) (h : Memory.wf m = true) :
    Memory.wf (Memory.write m a v) = true := by
  induction m with
  | nil => simp [Memory.write, Memory.wf]
  | cons d m ih =>
    obtain ⟨k, w⟩ := d
    have hk := (Memory.wf_cons _ _).1 h
    simp only [Memory.write]
    split
    · rename_i h1
      refine (Memory.wf_cons _ _).2 ⟨fun d hd => ?_, h⟩
      rcases List.mem_cons.1 hd with hd | hd
      · subst hd; exact h1
      · exact Nat.lt_trans h1 (hk.1 d hd)
    · split
      · rename_i h2
        exact (Memory.wf_cons _ _).2 ⟨fun d hd => h2 ▸ hk.1 d hd, hk.2⟩
      · rename_i h1 h2
        refine (Memory.wf_cons _ _).2 ⟨fun d hd => ?_, ih hk.2⟩
        rcases Memory.mem_write _ _ _ _ hd with hd | hd
        · subst hd; show k < a; omega
        · exact hk.1 d hd

/-! ### Ranges -/

/-- A byte outside a written range reads as before. -/
theorem Memory.read_writeRange_outside (bytes : List Byte) (m : Memory) (base a : Nat)
    (h : a < base ∨ base + bytes.length ≤ a) :
    Memory.read (Memory.writeRange m base bytes) a = Memory.read m a := by
  induction bytes generalizing m base with
  | nil => rfl
  | cons b bs ih =>
    simp only [List.length_cons] at h
    simp only [Memory.writeRange]
    rw [ih _ _ (by omega), Memory.read_write, if_neg (by omega)]

/-- A byte inside a written range reads as written. -/
theorem Memory.read_writeRange_inside (bytes : List Byte) (m : Memory) (base j : Nat) (h : j < bytes.length) :
    Memory.read (Memory.writeRange m base bytes) (base + j) = some bytes[j] := by
  induction bytes generalizing m base j with
  | nil => simp at h
  | cons b bs ih =>
    simp only [Memory.writeRange]
    cases j with
    | zero =>
      rw [Memory.read_writeRange_outside _ _ _ _ (by omega), Nat.add_zero, Memory.read_write, if_pos rfl]
      rfl
    | succ j =>
      have := ih (Memory.write m base b) (base + 1) j (by simpa using h)
      rw [show base + (j + 1) = base + 1 + j by omega, this]
      rfl

/-- Writing a range keeps the canonical form. -/
theorem Memory.wf_writeRange (bytes : List Byte) (m : Memory) (base : Nat) (h : Memory.wf m = true) :
    Memory.wf (Memory.writeRange m base bytes) = true := by
  induction bytes generalizing m base with
  | nil => exact h
  | cons b bs ih => exact ih _ _ (Memory.wf_write _ _ _ h)

/-- A cell after writing a range is an old one or lies in the range. -/
theorem Memory.mem_writeRange (bytes : List Byte) (m : Memory) (base : Nat) (c : Host.Cell)
    (h : c ∈ Memory.writeRange m base bytes) : c ∈ m ∨ (base ≤ c.1 ∧ c.1 < base + bytes.length) := by
  induction bytes generalizing m base with
  | nil => exact .inl h
  | cons b bs ih =>
    simp only [List.length_cons]
    rcases ih _ _ h with h | h
    · rcases Memory.mem_write _ _ _ _ h with h | h
      · subst h; exact .inr ⟨Nat.le_refl _, by show base < _; omega⟩
      · exact .inl h
    · exact .inr (by omega)

/-- A range that reads back has the asked length, and its bytes are those of the memory. -/
theorem Memory.readRange_some (m : Memory) (base n : Nat) (bytes : List Byte)
    (h : Memory.readRange m base n = some bytes) :
    bytes.length = n ∧ ∀ j (hj : j < bytes.length), Memory.read m (base + j) = some bytes[j] := by
  induction n generalizing base bytes with
  | zero =>
    simp only [Memory.readRange, Option.some.injEq] at h
    subst h
    exact ⟨rfl, fun j hj => absurd hj (by simp)⟩
  | succ n ih =>
    simp only [Memory.readRange] at h
    split at h
    · rename_i b bs hb hbs
      simp only [Option.some.injEq] at h
      subst h
      obtain ⟨hl, hr⟩ := ih _ _ hbs
      refine ⟨by simp [hl], fun j hj => ?_⟩
      cases j with
      | zero => simpa using hb
      | succ j =>
        rw [show base + (j + 1) = base + 1 + j by omega, hr j (by simpa using hj)]
        rfl
    · exact absurd h (by simp)

/-- A range every byte of which has been written reads. -/
theorem Memory.readRange_of_read (m : Memory) (base : Nat) (bytes : List Byte)
    (h : ∀ j (hj : j < bytes.length), Memory.read m (base + j) = some bytes[j]) :
    Memory.readRange m base bytes.length = some bytes := by
  induction bytes generalizing base with
  | nil => rfl
  | cons b bs ih =>
    have h0 := h 0 (by simp)
    have h1 := ih (base + 1) fun j hj => by
      have := h (j + 1) (by simpa using hj)
      rw [show base + 1 + j = base + (j + 1) by omega, this]
      rfl
    simp only [Nat.add_zero, List.getElem_cons_zero] at h0
    simp only [List.length_cons, Memory.readRange, h0, h1]

/-! ### Forgetting, and the reference flash -/

/-- Forgetting keeps the canonical form. -/
theorem Memory.wf_forget (m : Memory) (base n : Nat) (h : Memory.wf m = true) :
    Memory.wf (Memory.forget m base n) = true := by
  have hp : (m.map Prod.fst).Pairwise (· < ·) := of_decide_eq_true h
  exact decide_eq_true (hp.sublist (List.Sublist.map _ List.filter_sublist))

/-- A forgotten byte reads as unlisted, every other byte as before. -/
theorem Memory.read_forget (m : Memory) (base n a : Nat) :
    Memory.read (Memory.forget m base n) a = if base ≤ a ∧ a < base + n then none else Memory.read m a := by
  induction m with
  | nil => simp [Memory.forget]
  | cons c m ih =>
    obtain ⟨k, w⟩ := c
    have hc : Memory.forget ((k, w) :: m) base n =
        if base ≤ k ∧ k < base + n then Memory.forget m base n else (k, w) :: Memory.forget m base n := by
      simp only [Memory.forget, List.filter_cons]
      by_cases h : base ≤ k ∧ k < base + n
      · simp [h]
      · rw [if_neg h]
        have : (!(decide (base ≤ k) && decide (k < base + n))) = true := by
          simp; omega
        simp only [this, if_true]
    rw [hc]
    by_cases h : base ≤ k ∧ k < base + n
    · rw [if_pos h, ih, Memory.read_cons]
      by_cases h2 : base ≤ a ∧ a < base + n
      · simp [h2]
      · simp only [if_neg h2]
        rw [if_neg]
        rintro rfl
        exact h2 h
    · rw [if_neg h, Memory.read_cons, Memory.read_cons, ih]
      by_cases h3 : k = a
      · subst h3; simp [h]
      · simp [h3]

/-- An accepted byte of the reference flash reads back, every other byte reads as before (spec 20_memory R94). -/
theorem flashRead_flashStore (m : Memory) (a b : Nat) (v : Byte) :
    flashRead (flashStore m a v) b = if b = a then v else flashRead m b := by
  unfold flashRead flashStore
  split
  · rename_i h
    rw [Memory.read_forget]
    by_cases hb : b = a
    · simp [hb, h]
    · rw [if_neg (by omega), if_neg hb]
  · rw [Memory.read_write]
    by_cases hb : b = a <;> simp [hb]

/-- A store keeps the canonical form of the reference flash. -/
theorem flashWf_flashStore (m : Memory) (a : Nat) (v : Byte) (h : flashWf m = true) :
    flashWf (flashStore m a v) = true := by
  simp only [flashWf, Bool.and_eq_true, List.all_eq_true] at h ⊢
  unfold flashStore
  split
  · exact ⟨Memory.wf_forget _ _ _ h.1, fun c hc => h.2 c (List.mem_filter.1 hc).1⟩
  · rename_i hv
    refine ⟨Memory.wf_write _ _ _ h.1, fun c hc => ?_⟩
    rcases Memory.mem_write _ _ _ _ hc with rfl | hc
    · simpa using hv
    · exact h.2 c hc

/-- Programming keeps the canonical form of the reference flash (spec 20_memory R94). -/
theorem flashWf_programBytes_step (m : Memory) (a : Nat) (d : Byte) (h : flashWf m = true) :
    flashWf (flashStore m a (flashRead m a &&& d)) = true := flashWf_flashStore _ _ _ h

/-! ### The internal buffers -/

/-- Bytes spliced at an offset inside the written part end where they end, or where the buffer ended. -/
theorem splice_length (off : Nat) (bytes buffer : List Byte) (h : off ≤ buffer.length) :
    (splice off bytes buffer).length = max (off + bytes.length) buffer.length := by
  simp only [splice, List.length_append, List.length_take, List.length_drop]
  omega

/-- The bytes up to the end of a splice. -/
theorem take_splice (off : Nat) (bytes buffer : List Byte) (h : off ≤ buffer.length) :
    (splice off bytes buffer).take (off + bytes.length) = buffer.take off ++ bytes := by
  simp only [splice]
  rw [List.take_append_of_le_length (by simp only [List.length_append, List.length_take]; omega),
    List.take_of_length_le (by simp only [List.length_append, List.length_take]; omega)]

end Sys2Proof.Machine
end

