-- ==== Sys2Proof/Laws/Bits.lean ====
section
/-! SUPPORT. Small laws of bit sequences, bytes and words. -/

namespace Sys2Proof.Machine

@[simp] theorem byteBits_length (b : Byte) : (byteBits b).length = 8 := by simp [byteBits]

/-- Bit i of a byte is its i-th bit in transport order (spec 00_scope R12). -/
@[simp] theorem byteBits_getElem (b : Byte) (i : Nat) (h : i < (byteBits b).length) :
    (byteBits b)[i] = b.getLsbD i := by simp [byteBits]

@[simp] theorem numberBits_length (n v : Nat) : (numberBits n v).length = n := by simp [numberBits]

/-- A sequence of n bits is a number below 2^n. -/
theorem wordOf_lt (bits : List Bool) : wordOf bits < 2 ^ bits.length := by
  induction bits with
  | nil => simp [wordOf]
  | cons b bs ih =>
    simp only [wordOf, List.length_cons, Nat.pow_succ]
    have := Bool.toNat_lt b
    omega

/-- Two sequences of one length with the same number are equal. -/
theorem wordOf_inj (xs ys : List Bool) (hl : xs.length = ys.length) (h : wordOf xs = wordOf ys) : xs = ys := by
  induction xs generalizing ys with
  | nil => cases ys with
    | nil => rfl
    | cons y ys => simp at hl
  | cons x xs ih => cases ys with
    | nil => simp at hl
    | cons y ys =>
      simp only [wordOf] at h
      have hx := Bool.toNat_lt x
      have hy := Bool.toNat_lt y
      have h1 : x.toNat = y.toNat := by omega
      have h2 : wordOf xs = wordOf ys := by omega
      have h3 : x = y := by cases x <;> cases y <;> simp_all
      rw [ih ys (by simpa using hl) h2, h3]

/-- The byte of a byte's bits is the byte. -/
@[simp] theorem byteOf_byteBits (b : Byte) : byteOf (byteBits b) = b := by revert b; decide

/-- The bits of a byte written with `rev8` are its bits in the other order (spec 00_scope R13). -/
@[simp] theorem byteBits_rev8 (b : Byte) : byteBits (rev8 b) = (byteBits b).reverse := by revert b; decide

/-- `rev8` undoes itself (spec 00_scope R13). -/
@[simp] theorem rev8_rev8 (b : Byte) : rev8 (rev8 b) = b := by revert b; decide

/-- The bits of the byte of eight bits are those bits. -/
theorem byteBits_byteOf (bits : List Bool) (h : bits.length = 8) : byteBits (byteOf bits) = bits := by
  match bits, h with
  | [a, b, c, d, e, f, g, i], _ => revert a b c d e f g i; decide

@[simp] theorem packBytes_length (n : Nat) (bits : List Bool) : (packBytes n bits).length = n := by
  induction n generalizing bits with
  | zero => rfl
  | succ n ih => simp [packBytes, ih]

theorem flatMap_byteBits_length (bytes : List Byte) : (bytes.flatMap byteBits).length = 8 * bytes.length := by
  induction bytes with
  | nil => rfl
  | cons b bs ih => simp only [List.flatMap_cons, List.length_append, byteBits_length, ih, List.length_cons]; omega

@[simp] theorem bitsOf_length (bytes : List Byte) (n : Nat) :
    (bitsOf bytes n).length = min n (8 * bytes.length) := by
  simp only [bitsOf, List.length_take, flatMap_byteBits_length]

/-- Bytes stored from their own bits are themselves. -/
theorem packBytes_flatMap (bytes : List Byte) (rest : List Bool) :
    packBytes bytes.length (bytes.flatMap byteBits ++ rest) = bytes := by
  induction bytes with
  | nil => rfl
  | cons b bs ih =>
    simp only [List.length_cons, packBytes, List.flatMap_cons, List.append_assoc]
    rw [List.take_append_of_le_length (by simp), List.take_of_length_le (by simp), byteOf_byteBits,
      List.drop_append_of_le_length (by simp), List.drop_of_length_le (by simp), List.nil_append, ih]

/-- The bits of stored bytes are the bits stored. -/
theorem flatMap_packBytes (n : Nat) (bits : List Bool) (h : bits.length = 8 * n) :
    (packBytes n bits).flatMap byteBits = bits := by
  induction n generalizing bits with
  | zero => simpa [packBytes] using (List.eq_nil_of_length_eq_zero (by omega)).symm
  | succ n ih =>
    simp only [packBytes, List.flatMap_cons]
    rw [byteBits_byteOf _ (by simp only [List.length_take]; omega),
      ih _ (by simp only [List.length_drop]; omega), List.take_append_drop]

/-! ### Single bits of packed bytes -/

/-- Bit k of the byte of eight bits is the k-th of them (spec 00_scope R12). -/
theorem byteOf_getLsbD (bits : List Bool) (h : bits.length = 8) (k : Nat) (hk : k < 8) :
    (byteOf bits).getLsbD k = bits.getD k false := by
  have hb := byteBits_byteOf bits h
  have h1 := byteBits_getElem (byteOf bits) k (by simpa using hk)
  rw [← h1, List.getD_eq_getElem _ _ (by omega)]
  exact List.getElem_of_eq hb _

/-- Bit k of byte j of packed bits is bit `8 j + k` of them. -/
theorem packBytes_getLsbD (n : Nat) (bits : List Bool) (h : bits.length = 8 * n) (j : Nat) (hj : j < n) (k : Nat)
    (hk : k < 8) : ((packBytes n bits).getD j 0#8).getLsbD k = bits.getD (8 * j + k) false := by
  induction n generalizing bits j with
  | zero => omega
  | succ n ih =>
    cases j with
    | zero =>
      simp only [packBytes, List.getD_cons_zero]
      rw [byteOf_getLsbD _ (by rw [List.length_take]; omega) k hk, List.getD_eq_getElem _ _ (by rw [List.length_take]; omega),
        List.getD_eq_getElem _ _ (by omega)]
      simp
    | succ j =>
      simp only [packBytes, List.getD_cons_succ]
      rw [ih (bits.drop 8) (by rw [List.length_drop]; omega) j (by omega),
        List.getD_eq_getElem _ _ (by rw [List.length_drop]; omega), List.getD_eq_getElem _ _ (by omega),
        List.getElem_drop]
      congr 1
      omega

/-- Bit k of byte j of a byte list is bit `8 j + k` of its bits. -/
theorem flatMap_byteBits_getD (bytes : List Byte) (j : Nat) (hj : j < bytes.length) (k : Nat) (hk : k < 8) :
    (bytes.flatMap byteBits).getD (8 * j + k) false = (bytes.getD j 0#8).getLsbD k := by
  have h := packBytes_getLsbD bytes.length (bytes.flatMap byteBits) (flatMap_byteBits_length bytes) j hj k hk
  have hp := packBytes_flatMap bytes []
  rw [List.append_nil] at hp
  rw [hp] at h
  exact h.symm

end Sys2Proof.Machine
end

