-- ==== Sys2Proof/Laws/Environment.lean ====
section
/-! SUPPORT. The laws of the wall clock (spec 60 R296, R297) and of the upload source (20_memory R78). -/

namespace Sys2Proof.Machine

/-! ### The clock -/

@[simp] theorem Clock.now_snd_time (c : Clock) : c.now.2.time = c.now.1 := by
  cases c with
  | test t => rfl
  | free t ahead n => cases ahead <;> rfl

/-- An answer is never earlier than the one before (spec 60 R296). -/
theorem Clock.time_le_now (c : Clock) : c.time ≤ c.now.1 := by
  cases c with
  | test t => exact Nat.le_refl _
  | free t ahead n => cases ahead <;> simp only [Clock.now, Clock.time] <;> omega

theorem Clock.time_le_onPulse (c : Clock) : c.time ≤ c.onPulse.time := by
  cases c <;> simp [Clock.onPulse, Clock.time]

/-- One more consultation before the deadline, then a pulse: fewer can follow (spec 60 R296). -/
theorem Clock.answersBefore_lt (c : Clock) (t : Nat) (h : c.now.1 < t) :
    c.now.2.onPulse.answersBefore t < c.answersBefore t := by
  cases c with
  | test n => simp only [Clock.now, Clock.onPulse, Clock.answersBefore] at *; omega
  | free n ahead k =>
    cases ahead with
    | nil => simp only [Clock.now, Clock.onPulse, Clock.answersBefore, List.length_nil] at *; omega
    | cons d ahead => simp only [Clock.now, Clock.onPulse, Clock.answersBefore, List.length_cons] at *; omega

/-- A free clock stays one, at the time of its answer. -/
theorem Clock.free_now (t : Nat) (ahead : List Nat) (n : Nat) :
    ∃ ahead' n', (Clock.free t ahead n).now.2 = .free (Clock.free t ahead n).now.1 ahead' n' := by
  cases ahead with
  | nil => exact ⟨_, _, rfl⟩
  | cons d ahead => exact ⟨_, _, rfl⟩

/-- Asking until a time, with answers enough, ends at or after it. -/
theorem Clock.time_askUntil (t fuel now : Nat) (ahead : List Nat) (n : Nat)
    (h : (Clock.free now ahead n).answersBefore t < fuel) :
    max now t ≤ (Clock.askUntil t fuel (.free now ahead n)).time := by
  induction fuel generalizing now ahead n with
  | zero => omega
  | succ fuel ih =>
    have h1 : now ≤ (Clock.free now ahead n).now.1 := Clock.time_le_now (.free now ahead n)
    have h2 := Clock.answersBefore_lt (.free now ahead n) t
    obtain ⟨ahead', n', h3⟩ := Clock.free_now now ahead n
    simp only [Clock.askUntil]
    split
    · rename_i hc
      have h4 := h2 hc
      rw [h3] at h4
      simp only [Clock.onPulse] at h4
      rw [h3]
      have := ih (Clock.free now ahead n).now.1 ahead' n' (by omega)
      omega
    · rename_i hc
      rw [Clock.now_snd_time]
      omega

/-- `WaitUntil(t)` ends not before t, and not before the time at which it began (spec 60 R297). -/
theorem Clock.time_waitUntil (c : Clock) (t : Nat) : max c.time t ≤ (c.waitUntil t).time := by
  cases c with
  | test n => simp [Clock.waitUntil, Clock.time]
  | free n ahead k => exact Clock.time_askUntil t _ n ahead k (by omega)

/-! ### The upload source -/

theorem ByteStream.peek_length (n : Nat) (b : ByteStream) :
    (b.peek n).length = if b.endless then n else min n b.content.length := by
  simp only [peek, List.length_append, List.length_take]
  split <;> simp
  omega

theorem ByteStream.peek_length_le (n : Nat) (b : ByteStream) : (b.peek n).length ≤ n := by
  rw [peek_length]
  split <;> omega

@[simp] theorem ByteStream.peek_zero (b : ByteStream) : b.peek 0 = [] := List.eq_nil_of_length_eq_zero (by
  rw [peek_length]; split <;> simp)

@[simp] theorem ByteStream.skip_zero (b : ByteStream) : b.skip 0 = b := by simp [skip]

@[simp] theorem ByteStream.skip_endless (n : Nat) (b : ByteStream) : (b.skip n).endless = b.endless := rfl
@[simp] theorem ByteStream.skip_content (n : Nat) (b : ByteStream) : (b.skip n).content = b.content.drop n := rfl

/-- A finite stream is its listed bytes. -/
theorem ByteStream.peek_finite {b : ByteStream} (n : Nat) (h : b.endless = false) : b.peek n = b.content.take n := by
  simp [peek, h]

theorem ByteStream.skip_finite {b : ByteStream} (n : Nat) (h : b.endless = false) :
    b.skip n = { b with content := b.content.drop n } := by
  simp [skip, h]

theorem ByteStream.skip_add (m n : Nat) (b : ByteStream) : (b.skip m).skip n = b.skip (m + n) := by
  simp only [skip, List.drop_drop, List.length_drop]
  split
  · congr 1
    omega
  · rfl

/-- The next bytes in two goes. -/
theorem ByteStream.peek_add (m n : Nat) (b : ByteStream) : b.peek (m + n) = b.peek m ++ (b.skip m).peek n := by
  cases he : b.endless with
  | false => rw [peek_finite _ he, peek_finite _ he, peek_finite (b := b.skip m) _ he, skip_content, List.take_add]
  | true =>
    simp only [peek, skip, he, if_true, List.length_drop]
    by_cases hm : m ≤ b.content.length
    · rw [Nat.sub_eq_zero_of_le hm, List.range_zero, List.map_nil, List.append_nil, ← List.append_assoc, ← List.take_add]
      congr 3
      omega
    · rw [List.take_of_length_le (i := m) (by omega), List.take_of_length_le (i := m + n) (by omega),
        List.drop_of_length_le (by omega), List.take_nil, List.nil_append, List.append_assoc,
        show m + n - b.content.length = m - b.content.length + n by omega, List.range_add, List.map_append, List.map_map,
        show n - (b.content.length - m) = n by omega]
      simp only [Function.comp_def, Nat.add_assoc]

/-- Bytes beyond the end of the stream are none. -/
theorem ByteStream.skip_peek_length (n : Nat) (b : ByteStream) : b.skip (b.peek n).length = b.skip n := by
  rw [peek_length]
  cases he : b.endless with
  | true => rfl
  | false =>
    rw [skip_finite _ he, skip_finite _ he, if_neg (by simp)]
    by_cases h : n ≤ b.content.length
    · rw [Nat.min_eq_left h]
    · rw [Nat.min_eq_right (by omega), List.drop_of_length_le (Nat.le_refl _), List.drop_of_length_le (by omega)]

theorem ByteStream.peek_peek_length (n : Nat) (b : ByteStream) : b.peek (b.peek n).length = b.peek n := by
  rw [peek_length]
  cases he : b.endless with
  | true => rfl
  | false =>
    rw [peek_finite _ he, peek_finite _ he, if_neg (by simp), ← List.take_take, List.take_length]


theorem ByteStream.ended_iff (b : ByteStream) : b.ended = true ↔ b.content = [] ∧ b.endless = false := by
  simp [ended]

/-- Nothing is left exactly at the end. -/
theorem ByteStream.peek_eq_nil {n : Nat} (b : ByteStream) (h : 0 < n) : b.peek n = [] ↔ b.ended = true := by
  rw [ended_iff, ← List.length_eq_zero_iff, peek_length, ← List.length_eq_zero_iff]
  cases b.endless <;> simp <;> omega

/-- The source answers EOS exactly at the end of its stream, and else a non-empty list of at most the asked number of
bytes, the next ones of the stream (spec 20_memory R78). -/
theorem Source.next_cases (n : Nat) (src : Source) :
    (src.stream.ended = true ∧ (src.next n).1 = none ∧ (src.next n).2 = src) ∨
    ∃ k, src.stream.ended = false ∧ (src.next n).1 = some (src.stream.peek k) ∧
      (src.next n).2.stream = src.stream.skip k ∧ k ≤ n ∧ (0 < n → src.stream.peek k ≠ []) := by
  unfold Source.next
  split
  · rename_i h; exact .inl ⟨h, rfl, rfl⟩
  · rename_i h
    refine .inr ⟨_, by simpa using h, rfl, rfl, Nat.min_le_left _ _, fun hn => ?_⟩
    rw [ne_eq, ByteStream.peek_eq_nil _ (by omega)]
    exact h

end Sys2Proof.Machine
end

