-- ==== Sys2Proof/Laws/State.lean ====
section
/-! SUPPORT. One lemma per field for the named updates of the state: the trace, the services of the host while a
command runs, an emitted event. No later proof unfolds them. -/

namespace Sys2Proof.Machine

/-! ### `log` -/

@[simp] theorem log_trace (e : Event) (s : State) : (log e s).trace = e :: s.trace := rfl
@[simp] theorem log_cfg (e : Event) (s : State) : (log e s).cfg = s.cfg := rfl
@[simp] theorem log_pins (e : Event) (s : State) : (log e s).pins = s.pins := rfl
@[simp] theorem log_tap (e : Event) (s : State) : (log e s).tap = s.tap := rfl
@[simp] theorem log_devmode (e : Event) (s : State) : (log e s).devmode = s.devmode := rfl
@[simp] theorem log_banks (e : Event) (s : State) : (log e s).banks = s.banks := rfl
@[simp] theorem log_regs (e : Event) (s : State) : (log e s).regs = s.regs := rfl
@[simp] theorem log_res (e : Event) (s : State) : (log e s).res = s.res := rfl
@[simp] theorem log_ctl (e : Event) (s : State) : (log e s).ctl = s.ctl := rfl
@[simp] theorem log_flags (e : Event) (s : State) : (log e s).flags = s.flags := rfl
@[simp] theorem log_fsr (e : Event) (s : State) : (log e s).fsr = s.fsr := rfl
@[simp] theorem log_stats (e : Event) (s : State) : (log e s).stats = s.stats := rfl
@[simp] theorem log_work (e : Event) (s : State) : (log e s).work = s.work := rfl
@[simp] theorem log_counters (e : Event) (s : State) : (log e s).counters = s.counters := rfl
@[simp] theorem log_buf (e : Event) (s : State) : (log e s).buf = s.buf := rfl
@[simp] theorem log_env (e : Event) (s : State) : (log e s).env = s.env := rfl
@[simp] theorem log_port (e : Event) (s : State) : (log e s).port = s.port := rfl

/-! ### `busyAccess` and `dueAccesses`: only the host port -/

/-- An access of the host while a command runs changes nothing but the host port. -/
theorem busyAccess_eq (a : Access) (s : State) : busyAccess a s = { s with port := (busyAccess a s).port } := by
  cases a with
  | read width off => simp only [busyAccess]; split <;> rfl
  | write width off v => rfl
  | reset => rfl

@[simp] theorem busyAccess_inputs (a : Access) (s : State) : (busyAccess a s).port.inputs = s.port.inputs := by
  cases a with
  | read width off => simp only [busyAccess]; split <;> rfl
  | write width off v => rfl
  | reset => rfl

@[simp] theorem busyAccess_resets (a : Access) (s : State) : (busyAccess a s).port.resets = s.port.resets := by
  cases a with
  | read width off => simp only [busyAccess]; split <;> rfl
  | write width off v => rfl
  | reset => rfl

@[simp] theorem busyAccess_cut (a : Access) (s : State) : (busyAccess a s).port.cut = s.port.cut := by
  cases a with
  | read width off => simp only [busyAccess]; split <;> rfl
  | write width off v => rfl
  | reset => rfl

/-- Serving the accesses that are due changes nothing but the host port. -/
theorem dueAccesses_eq (l : List (Nat × Access)) (s : State) :
    dueAccesses l s = { s with port := (dueAccesses l s).port } := by
  induction l generalizing s with
  | nil => rfl
  | cons x rest ih =>
    obtain ⟨n, a⟩ := x
    cases n with
    | succ n => rfl
    | zero =>
      cases a with
      | reset => rfl
      | read width off => simp only [dueAccesses]; rw [ih, busyAccess_eq]
      | write width off v => simp only [dueAccesses]; rw [ih, busyAccess_eq]

@[simp] theorem dueAccesses_inputs (l : List (Nat × Access)) (s : State) :
    (dueAccesses l s).port.inputs = s.port.inputs := by
  induction l generalizing s with
  | nil => rfl
  | cons x rest ih =>
    obtain ⟨n, a⟩ := x
    cases n with
    | succ n => rfl
    | zero => cases a <;> simp [dueAccesses, ih]

@[simp] theorem dueAccesses_resets (l : List (Nat × Access)) (s : State) :
    (dueAccesses l s).port.resets = s.port.resets := by
  induction l generalizing s with
  | nil => rfl
  | cons x rest ih =>
    obtain ⟨n, a⟩ := x
    cases n with
    | succ n => rfl
    | zero => cases a <;> simp [dueAccesses, ih]

@[simp] theorem dueAccesses_cfg (l : List (Nat × Access)) (s : State) : (dueAccesses l s).cfg = s.cfg := by
  rw [dueAccesses_eq]
@[simp] theorem dueAccesses_pins (l : List (Nat × Access)) (s : State) : (dueAccesses l s).pins = s.pins := by
  rw [dueAccesses_eq]
@[simp] theorem dueAccesses_tap (l : List (Nat × Access)) (s : State) : (dueAccesses l s).tap = s.tap := by
  rw [dueAccesses_eq]
@[simp] theorem dueAccesses_devmode (l : List (Nat × Access)) (s : State) : (dueAccesses l s).devmode = s.devmode := by
  rw [dueAccesses_eq]
@[simp] theorem dueAccesses_banks (l : List (Nat × Access)) (s : State) : (dueAccesses l s).banks = s.banks := by
  rw [dueAccesses_eq]
@[simp] theorem dueAccesses_regs (l : List (Nat × Access)) (s : State) : (dueAccesses l s).regs = s.regs := by
  rw [dueAccesses_eq]
@[simp] theorem dueAccesses_res (l : List (Nat × Access)) (s : State) : (dueAccesses l s).res = s.res := by
  rw [dueAccesses_eq]
@[simp] theorem dueAccesses_ctl (l : List (Nat × Access)) (s : State) : (dueAccesses l s).ctl = s.ctl := by
  rw [dueAccesses_eq]
@[simp] theorem dueAccesses_flags (l : List (Nat × Access)) (s : State) : (dueAccesses l s).flags = s.flags := by
  rw [dueAccesses_eq]
@[simp] theorem dueAccesses_fsr (l : List (Nat × Access)) (s : State) : (dueAccesses l s).fsr = s.fsr := by
  rw [dueAccesses_eq]
@[simp] theorem dueAccesses_stats (l : List (Nat × Access)) (s : State) : (dueAccesses l s).stats = s.stats := by
  rw [dueAccesses_eq]
@[simp] theorem dueAccesses_work (l : List (Nat × Access)) (s : State) : (dueAccesses l s).work = s.work := by
  rw [dueAccesses_eq]
@[simp] theorem dueAccesses_counters (l : List (Nat × Access)) (s : State) : (dueAccesses l s).counters = s.counters := by
  rw [dueAccesses_eq]
@[simp] theorem dueAccesses_buf (l : List (Nat × Access)) (s : State) : (dueAccesses l s).buf = s.buf := by
  rw [dueAccesses_eq]
@[simp] theorem dueAccesses_env (l : List (Nat × Access)) (s : State) : (dueAccesses l s).env = s.env := by
  rw [dueAccesses_eq]
@[simp] theorem dueAccesses_trace (l : List (Nat × Access)) (s : State) : (dueAccesses l s).trace = s.trace := by
  rw [dueAccesses_eq]

/-! ### `serveDuring` -/

@[simp] theorem serveDuring_cfg (s : State) : (serveDuring s).cfg = s.cfg := by simp [serveDuring]
@[simp] theorem serveDuring_pins (s : State) : (serveDuring s).pins = s.pins := by simp [serveDuring]
@[simp] theorem serveDuring_tap (s : State) : (serveDuring s).tap = s.tap := by simp [serveDuring]
@[simp] theorem serveDuring_devmode (s : State) : (serveDuring s).devmode = s.devmode := by simp [serveDuring]
@[simp] theorem serveDuring_banks (s : State) : (serveDuring s).banks = s.banks := by simp [serveDuring]
@[simp] theorem serveDuring_regs (s : State) : (serveDuring s).regs = s.regs := by simp [serveDuring]
@[simp] theorem serveDuring_res (s : State) : (serveDuring s).res = s.res := by simp [serveDuring]
@[simp] theorem serveDuring_ctl (s : State) : (serveDuring s).ctl = s.ctl := by simp [serveDuring]
@[simp] theorem serveDuring_flags (s : State) : (serveDuring s).flags = s.flags := by simp [serveDuring]
@[simp] theorem serveDuring_fsr (s : State) : (serveDuring s).fsr = s.fsr := by simp [serveDuring]
@[simp] theorem serveDuring_stats (s : State) : (serveDuring s).stats = s.stats := by simp [serveDuring]
@[simp] theorem serveDuring_work (s : State) : (serveDuring s).work = s.work := by simp [serveDuring]
@[simp] theorem serveDuring_counters (s : State) : (serveDuring s).counters = s.counters := by simp [serveDuring]
@[simp] theorem serveDuring_buf (s : State) : (serveDuring s).buf = s.buf := by simp [serveDuring]
@[simp] theorem serveDuring_env (s : State) : (serveDuring s).env = s.env := by simp [serveDuring]
@[simp] theorem serveDuring_trace (s : State) : (serveDuring s).trace = s.trace := by simp [serveDuring]
@[simp] theorem serveDuring_inputs (s : State) : (serveDuring s).port.inputs = s.port.inputs := by simp [serveDuring]
@[simp] theorem serveDuring_resets (s : State) : (serveDuring s).port.resets = s.port.resets := by simp [serveDuring]

/-! ### `emit` -/

@[simp] theorem emit_trace (e : Event) (s : State) : (emit e s).trace = e :: s.trace := by simp [emit]
@[simp] theorem emit_cfg (e : Event) (s : State) : (emit e s).cfg = s.cfg := by simp [emit]
@[simp] theorem emit_pins (e : Event) (s : State) : (emit e s).pins = s.pins := by simp [emit]
@[simp] theorem emit_tap (e : Event) (s : State) : (emit e s).tap = s.tap := by simp [emit]
@[simp] theorem emit_devmode (e : Event) (s : State) : (emit e s).devmode = s.devmode := by simp [emit]
@[simp] theorem emit_banks (e : Event) (s : State) : (emit e s).banks = s.banks := by simp [emit]
@[simp] theorem emit_regs (e : Event) (s : State) : (emit e s).regs = s.regs := by simp [emit]
@[simp] theorem emit_res (e : Event) (s : State) : (emit e s).res = s.res := by simp [emit]
@[simp] theorem emit_ctl (e : Event) (s : State) : (emit e s).ctl = s.ctl := by simp [emit]
@[simp] theorem emit_flags (e : Event) (s : State) : (emit e s).flags = s.flags := by simp [emit]
@[simp] theorem emit_fsr (e : Event) (s : State) : (emit e s).fsr = s.fsr := by simp [emit]
@[simp] theorem emit_stats (e : Event) (s : State) : (emit e s).stats = s.stats := by simp [emit]
@[simp] theorem emit_work (e : Event) (s : State) : (emit e s).work = s.work := by simp [emit]
@[simp] theorem emit_counters (e : Event) (s : State) : (emit e s).counters = s.counters := by simp [emit]
@[simp] theorem emit_buf (e : Event) (s : State) : (emit e s).buf = s.buf := by simp [emit]
@[simp] theorem emit_env (e : Event) (s : State) : (emit e s).env = s.env := by simp [emit]
@[simp] theorem emit_inputs (e : Event) (s : State) : (emit e s).port.inputs = s.port.inputs := by simp [emit]
@[simp] theorem emit_resets (e : Event) (s : State) : (emit e s).port.resets = s.port.resets := by simp [emit]

/-! ### `beginCommand` -/

@[simp] theorem beginCommand_ctl (i : Instr) (s : State) :
    (beginCommand i s).ctl = { s.ctl with busy := true, seq := some i } := by simp [beginCommand]
@[simp] theorem beginCommand_cfg (i : Instr) (s : State) : (beginCommand i s).cfg = s.cfg := by simp [beginCommand]
@[simp] theorem beginCommand_pins (i : Instr) (s : State) : (beginCommand i s).pins = s.pins := by simp [beginCommand]
@[simp] theorem beginCommand_tap (i : Instr) (s : State) : (beginCommand i s).tap = s.tap := by simp [beginCommand]
@[simp] theorem beginCommand_devmode (i : Instr) (s : State) : (beginCommand i s).devmode = s.devmode := by simp [beginCommand]
@[simp] theorem beginCommand_banks (i : Instr) (s : State) : (beginCommand i s).banks = s.banks := by simp [beginCommand]
@[simp] theorem beginCommand_regs (i : Instr) (s : State) : (beginCommand i s).regs = s.regs := by simp [beginCommand]
@[simp] theorem beginCommand_res (i : Instr) (s : State) : (beginCommand i s).res = s.res := by simp [beginCommand]
@[simp] theorem beginCommand_flags (i : Instr) (s : State) : (beginCommand i s).flags = s.flags := by simp [beginCommand]
@[simp] theorem beginCommand_fsr (i : Instr) (s : State) : (beginCommand i s).fsr = s.fsr := by simp [beginCommand]
@[simp] theorem beginCommand_stats (i : Instr) (s : State) : (beginCommand i s).stats = s.stats := by simp [beginCommand]
@[simp] theorem beginCommand_work (i : Instr) (s : State) : (beginCommand i s).work = s.work := by simp [beginCommand]
@[simp] theorem beginCommand_counters (i : Instr) (s : State) : (beginCommand i s).counters = s.counters := by simp [beginCommand]
@[simp] theorem beginCommand_buf (i : Instr) (s : State) : (beginCommand i s).buf = s.buf := by simp [beginCommand]
@[simp] theorem beginCommand_env (i : Instr) (s : State) : (beginCommand i s).env = s.env := by simp [beginCommand]
@[simp] theorem beginCommand_trace (i : Instr) (s : State) : (beginCommand i s).trace = s.trace := by simp [beginCommand]
@[simp] theorem beginCommand_inputs (i : Instr) (s : State) : (beginCommand i s).port.inputs = s.port.inputs := by simp [beginCommand]
@[simp] theorem beginCommand_resets (i : Instr) (s : State) : (beginCommand i s).port.resets = s.port.resets := by simp [beginCommand]

/-! ### `now` -/

@[simp] theorem now_fst (s : State) : (now s).1 = s.env.clock.now.1 := rfl
@[simp] theorem now_env (s : State) : (now s).2.env = { s.env with clock := s.env.clock.now.2 } := rfl
@[simp] theorem now_cfg (s : State) : (now s).2.cfg = s.cfg := rfl
@[simp] theorem now_pins (s : State) : (now s).2.pins = s.pins := rfl
@[simp] theorem now_tap (s : State) : (now s).2.tap = s.tap := rfl
@[simp] theorem now_devmode (s : State) : (now s).2.devmode = s.devmode := rfl
@[simp] theorem now_banks (s : State) : (now s).2.banks = s.banks := rfl
@[simp] theorem now_regs (s : State) : (now s).2.regs = s.regs := rfl
@[simp] theorem now_res (s : State) : (now s).2.res = s.res := rfl
@[simp] theorem now_ctl (s : State) : (now s).2.ctl = s.ctl := rfl
@[simp] theorem now_flags (s : State) : (now s).2.flags = s.flags := rfl
@[simp] theorem now_fsr (s : State) : (now s).2.fsr = s.fsr := rfl
@[simp] theorem now_stats (s : State) : (now s).2.stats = s.stats := rfl
@[simp] theorem now_work (s : State) : (now s).2.work = s.work := rfl
@[simp] theorem now_counters (s : State) : (now s).2.counters = s.counters := rfl
@[simp] theorem now_buf (s : State) : (now s).2.buf = s.buf := rfl
@[simp] theorem now_port (s : State) : (now s).2.port = s.port := rfl
@[simp] theorem now_trace (s : State) : (now s).2.trace = s.trace := rfl

end Sys2Proof.Machine
end

