-- ==== Sys2Proof/Laws/Tap.lean ====
section
/-! SUPPORT. The laws of the TAP tracker (spec 10_state R28 to R30). -/

namespace Sys2Proof.Machine

/-- The block tracks N_TAP_STATES states (spec 00_scope R9). -/
theorem TapState.all_length : TapState.all.length = Config.nTapStates := rfl

/-- It tracks every state there is, each once. -/
theorem TapState.mem_all (st : TapState) : st ∈ TapState.all := by cases st <;> decide

theorem TapState.all_nodup : TapState.all.Nodup := by decide

/-- A pulse with TMS=0 clears ONES (spec 10_state R30). -/
theorem onesAfter_false (ones : BitVec 3) : onesAfter ones false = 0#3 := rfl

/-- ONES never exceeds 5 (spec 10_state R28). -/
theorem onesAfter_le (ones : BitVec 3) (tms : Bool) : onesAfter ones tms ≤ 5#3 := by
  revert ones tms; decide

/-- On a known target a pulse follows the transition table, until five ones in a row force Reset
(spec 10_state R30). -/
theorem Tracker.onPulse_known (t : Tracker) (tms : Bool) (h : t.known = true) :
    (t.onPulse tms).known = true ∧
      ((t.onPulse tms).state = delta t.state tms ∨ onesAfter t.ones tms = 5#3 ∧ (t.onPulse tms).state = .reset) := by
  unfold Tracker.onPulse
  split
  · rename_i h5; exact ⟨rfl, .inr ⟨h5, rfl⟩⟩
  · exact ⟨h, .inl (by simp)⟩

/-- A pulse with TMS=0 on a known target. -/
theorem Tracker.onPulse_false (t : Tracker) (h : t.known = true) :
    t.onPulse false = { state := delta t.state false, known := true, ones := 0#3 } := by
  simp [Tracker.onPulse, onesAfter_false, h]

/-- The tracker's own invariant: ONES is at most 5, and at 5 the target is known to be in Reset. -/
def Tracker.sound (t : Tracker) : Prop := t.ones ≤ 5#3 ∧ (t.ones = 5#3 → t.state = .reset ∧ t.known = true)

theorem Tracker.sound_onPulse (t : Tracker) (tms : Bool) : (t.onPulse tms).sound := by
  unfold Tracker.onPulse
  split
  · exact ⟨BitVec.le_refl _, fun _ => ⟨rfl, rfl⟩⟩
  · rename_i h
    exact ⟨onesAfter_le _ _, fun h5 => absurd h5 h⟩

end Sys2Proof.Machine
end

