-- ==== Sys2Proof/Laws/Moves.lean ====
section
/-! SUPPORT. What an operation inside a command can do, said once: the relation `Moves` (what no operation but a
command's own last act touches), its stronger form `Lines` (operations that only work the lines and the clock), and
`Plays` (the wave an operation puts on the wires). Every operation has one lemma in these terms. -/

namespace Sys2Proof.Machine

/-! ### Lists of events -/

@[simp] theorem trackEvents_nil (t : Tracker) : trackEvents t [] = t := rfl
@[simp] theorem trackEvents_cons (t : Tracker) (e : Event) (evs : List Event) :
    trackEvents t (e :: evs) = trackEvents (trackEvent t e) evs := rfl
theorem trackEvents_append (t : Tracker) (e1 e2 : List Event) :
    trackEvents t (e1 ++ e2) = trackEvents (trackEvents t e1) e2 := List.foldl_append

@[simp] theorem pathAfter_nil (p : Path) : pathAfter p [] = p := rfl
theorem pathAfter_append (p : Path) (e1 e2 : List Event) :
    pathAfter p (e1 ++ e2) = pathAfter (pathAfter p e1) e2 := List.foldl_append

theorem levelsAfter_append (l : Bool × Bool) (e1 e2 : List Event) :
    levelsAfter l (e1 ++ e2) = levelsAfter (levelsAfter l e1) e2 := List.foldl_append

@[simp] theorem samplesOf_nil : samplesOf [] = [] := rfl
theorem samplesOf_append (e1 e2 : List Event) : samplesOf (e1 ++ e2) = samplesOf e1 ++ samplesOf e2 :=
  List.filterMap_append

theorem answeredBy_append {p : Params} {x y z : Target} {e1 e2 : List Event} (h1 : answeredBy p x e1 y)
    (h2 : answeredBy p y e2 z) : answeredBy p x (e1 ++ e2) z := by
  induction e1 generalizing x with
  | nil => cases h1; exact h2
  | cons e evs ih =>
    cases e with
    | pulse d tms tdi tdo => exact ⟨h1.1, ih h1.2⟩
    | _ => exact ih (x := x) h1

/-- Events that are no pulses leave the target alone. -/
theorem answeredBy_nil (p : Params) (x : Target) : answeredBy p x [] x := rfl

theorem pulseCount_append (e1 e2 : List Event) : pulseCount (e1 ++ e2) = pulseCount e1 + pulseCount e2 :=
  List.countP_append

@[simp] theorem waited_nil : waited [] = 0 := rfl
theorem waited_append (e1 e2 : List Event) : waited (e1 ++ e2) = waited e1 + waited e2 := by
  simp [waited, List.sum_append]

@[simp] theorem reportsOf_nil : reportsOf [] = [] := rfl
theorem reportsOf_append (e1 e2 : List Event) : reportsOf (e1 ++ e2) = reportsOf e1 ++ reportsOf e2 :=
  List.filterMap_append

theorem quiet_append {e1 e2 : List Event} (h1 : reportsOf e1 = []) (h2 : reportsOf e2 = []) :
    reportsOf (e1 ++ e2) = [] := by rw [reportsOf_append, h1, h2]; rfl

/-- Each pulse has one sample. -/
theorem samplesOf_length (evs : List Event) : (samplesOf evs).length = pulseCount evs := by
  induction evs with
  | nil => rfl
  | cons e evs ih => cases e <;> simp_all [samplesOf, pulseCount, Event.sample, Event.isPulse, List.filterMap_cons, List.countP_cons]

/-- Whether an event is a pulse does not depend on its sample. -/
theorem pulseCount_blind (evs : List Event) : pulseCount (evs.map Event.blind) = pulseCount evs := by
  induction evs with
  | nil => rfl
  | cons e evs ih => cases e <;> simp_all [pulseCount, Event.blind, Event.isPulse, List.countP_cons]

/-! ### The outside leaves the command alone -/

theorem busyAccess_undisturbed (a : Access) (s : State) (h : s.undisturbed) : (busyAccess a s).undisturbed := by
  cases a with
  | read width off => simp only [busyAccess]; split <;> exact h
  | write width off v => exact h
  | reset => exact h

theorem dueAccesses_undisturbed (l : List (Nat × Access)) (s : State) (hc : s.port.cut = none)
    (hl : ∀ x ∈ l, x.2 ≠ .reset) : (dueAccesses l s).undisturbed := by
  induction l generalizing s with
  | nil => exact ⟨hc, fun x hx => absurd hx (by simp [dueAccesses])⟩
  | cons x rest ih =>
    obtain ⟨n, a⟩ := x
    cases n with
    | succ n => exact ⟨hc, hl⟩
    | zero =>
      have hr : ∀ x ∈ rest, x.2 ≠ .reset := fun x hx => hl x (by simp [hx])
      cases a with
      | reset => exact absurd rfl (hl (0, .reset) (by simp))
      | read width off => exact ih _ (by simp [hc]) hr
      | write width off v => exact ih _ (by simp [hc]) hr

theorem serveDuring_undisturbed (s : State) (h : s.undisturbed) : (serveDuring s).undisturbed := by
  refine dueAccesses_undisturbed _ _ h.1 ?_
  obtain ⟨-, h⟩ := h
  cases hd : s.port.during with
  | nil => simp [passEvent]
  | cons x rest =>
    rw [hd] at h
    obtain ⟨n, a⟩ := x
    cases n with
    | zero => exact h
    | succ n =>
      intro x hx
      rcases List.mem_cons.1 hx with rfl | hx
      · exact h (n + 1, a) (by simp)
      · exact h x (by simp [hx])

theorem emit_undisturbed (e : Event) (s : State) (h : s.undisturbed) : (emit e s).undisturbed :=
  serveDuring_undisturbed _ h

/-! ### `Moves`, `Lines` -/

/-- From s to t an operation inside a command emitted `evs`: the tracker and PATH follow the events, the clock
passes the waits, FLAGS only gain, and the operand registers, R_RES, BUF, the control registers, the configuration and
the host's coming inputs are untouched. -/
structure Moves (s t : State) (evs : List Event) : Prop where
  trace : newEvents s t evs
  cfg : t.cfg = s.cfg
  regs : t.regs = s.regs
  res : t.res = s.res
  buf : t.buf = s.buf
  ctl : t.ctl = s.ctl
  inputs : t.port.inputs = s.port.inputs
  resets : t.port.resets = s.port.resets
  tap : t.tap = trackEvents s.tap evs
  path : t.pins.path = pathAfter s.pins.path evs
  tck : s.pins.tck = true → t.pins.tck = true
  undisturbed : s.undisturbed → t.undisturbed
  time : s.env.clock.time + waited evs ≤ t.env.clock.time
  mismatch : t.flags.mismatch = (s.flags.mismatch || evs.any Event.isMismatch)
  timeout : s.flags.timeout = true → t.flags.timeout = true
  target : answeredBy s.cfg s.env.target evs t.env.target
  noDone : evs.any Event.isDone = false
  levels : (t.pins.tms, t.pins.tdi) = levelsAfter (s.pins.tms, s.pins.tdi) evs

/-- An operation that works only the lines, the shift banks, the counters, the target and the clock. -/
structure Lines (s t : State) (evs : List Event) : Prop extends Moves s t evs where
  devmode : t.devmode = s.devmode
  flags : t.flags = s.flags
  fsr : t.fsr = s.fsr
  stats : t.stats = s.stats
  work : t.work = s.work
  source : t.env.source = s.env.source
  quiet : reportsOf evs = []

theorem Moves.refl (s : State) : Moves s s [] := by
  constructor <;> simp [newEvents, answeredBy, levelsAfter]

theorem Moves.trans {s t u : State} {e1 e2 : List Event} (h1 : Moves s t e1) (h2 : Moves t u e2) :
    Moves s u (e1 ++ e2) where
  trace := by
    have a := h1.trace; have b := h2.trace
    simp only [newEvents] at *
    rw [b, a, List.reverse_append, List.append_assoc]
  cfg := h2.cfg.trans h1.cfg
  regs := h2.regs.trans h1.regs
  res := h2.res.trans h1.res
  buf := h2.buf.trans h1.buf
  ctl := h2.ctl.trans h1.ctl
  inputs := h2.inputs.trans h1.inputs
  resets := h2.resets.trans h1.resets
  tap := by rw [trackEvents_append, ← h1.tap]; exact h2.tap
  path := by rw [pathAfter_append, ← h1.path]; exact h2.path
  tck := fun h => h2.tck (h1.tck h)
  undisturbed := fun h => h2.undisturbed (h1.undisturbed h)
  time := by have := h1.time; have := h2.time; rw [waited_append]; omega
  mismatch := by rw [h2.mismatch, h1.mismatch, List.any_append, Bool.or_assoc]
  timeout := fun h => h2.timeout (h1.timeout h)
  target := answeredBy_append h1.target (by rw [← h1.cfg]; exact h2.target)
  noDone := by rw [List.any_append, h1.noDone, h2.noDone]; rfl
  levels := by rw [levelsAfter_append, ← h1.levels]; exact h2.levels

theorem Lines.refl (s : State) : Lines s s [] := ⟨Moves.refl s, rfl, rfl, rfl, rfl, rfl, rfl, rfl⟩

theorem Lines.trans {s t u : State} {e1 e2 : List Event} (h1 : Lines s t e1) (h2 : Lines t u e2) :
    Lines s u (e1 ++ e2) :=
  ⟨h1.toMoves.trans h2.toMoves, h2.devmode.trans h1.devmode, h2.flags.trans h1.flags, h2.fsr.trans h1.fsr,
   h2.stats.trans h1.stats, h2.work.trans h1.work, h2.source.trans h1.source,
   quiet_append h1.quiet h2.quiet⟩

/-- The shift banks and the counters are no concern of `Lines`. -/
theorem Lines.setBanks {s t : State} {evs : List Event} (h : Lines s t evs) (b : Banks) (c : Counters) :
    Lines s { t with banks := b, counters := c } evs :=
  ⟨⟨h.trace, h.cfg, h.regs, h.res, h.buf, h.ctl, h.inputs, h.resets, h.tap, h.path, h.tck, h.undisturbed, h.time,
    h.mismatch, h.timeout, h.target, h.noDone, h.levels⟩, h.devmode, h.flags, h.fsr, h.stats, h.work, h.source, h.quiet⟩

/-- Neither before the operation. -/
theorem Lines.ofBanks {s t : State} {evs : List Event} (b : Banks) (c : Counters)
    (h : Lines { s with banks := b, counters := c } t evs) : Lines s t evs :=
  ⟨⟨h.trace, h.cfg, h.regs, h.res, h.buf, h.ctl, h.inputs, h.resets, h.tap, h.path, h.tck, h.undisturbed, h.time,
    h.mismatch, h.timeout, h.target, h.noDone, h.levels⟩, h.devmode, h.flags, h.fsr, h.stats, h.work, h.source, h.quiet⟩

/-! ### `Plays` -/

/-- From s to t the events `evs` are what the wave `f` adds, and TDI rests where it leaves it. -/
def Plays (s t : State) (evs : List Event) (f : Wave → Wave) : Prop :=
  ∀ before : List Event,
    f { events := before, tdi := s.pins.tdi } = { events := before ++ evs.map Event.blind, tdi := t.pins.tdi }

theorem Plays.trans {s t u : State} {e1 e2 : List Event} {f g : Wave → Wave} (h1 : Plays s t e1 f)
    (h2 : Plays t u e2 g) : Plays s u (e1 ++ e2) (fun w => g (f w)) := by
  intro before
  simp only
  rw [h1, h2, List.map_append, List.append_assoc]

theorem Plays.plays {s t : State} {evs : List Event} {f : Wave → Wave} (h : Plays s t evs f) : plays s t evs f := by
  have := h []
  rwa [List.nil_append] at this

/-- Only the TDI levels of the two states count. -/
theorem Plays.congr {s t s' t' : State} {evs : List Event} {f : Wave → Wave} (h : Plays s t evs f)
    (hs : s'.pins.tdi = s.pins.tdi) (ht : t'.pins.tdi = t.pins.tdi) : Plays s' t' evs f := by
  intro before
  rw [hs, ht]
  exact h before

/-- Nothing on the wires. -/
theorem Plays.nothing {s t : State} (h : t.pins.tdi = s.pins.tdi) : Plays s t [] (fun w => w) := by
  intro before
  simp [h]

/-! ### Emitting an event -/

/-- The state in which `emit` leaves the lines and the clock: an event that is no pulse and no release. -/
theorem emit_plays (e : Event) (s : State) (h : e.blind = e) : Plays s (emit e s) [e] (Wave.mark e) := by
  intro before
  simp [Wave.mark, h]

end Sys2Proof.Machine
end

