-- ==== Sys2Proof/Laws/Ops.lean ====
section
/-! SUPPORT. The shared operations of Machine/Ops.lean: one lemma each that says once everything it can do. -/

namespace Sys2Proof.Machine

/-! ### One pulse -/

@[simp] theorem tckPulse_pins (d : Driver) (tms tdi : Bool) (s : State) :
    (tckPulse d tms tdi s).2.pins = s.pins := by simp [tckPulse]
@[simp] theorem tckPulse_banks (d : Driver) (tms tdi : Bool) (s : State) :
    (tckPulse d tms tdi s).2.banks = s.banks := by simp [tckPulse]
@[simp] theorem tckPulse_counters (d : Driver) (tms tdi : Bool) (s : State) :
    (tckPulse d tms tdi s).2.counters = s.counters := by simp [tckPulse]
@[simp] theorem tckPulse_clock (d : Driver) (tms tdi : Bool) (s : State) :
    (tckPulse d tms tdi s).2.env.clock = s.env.clock.onPulse := by simp [tckPulse]
@[simp] theorem tckPulse_tap (d : Driver) (tms tdi : Bool) (s : State) :
    (tckPulse d tms tdi s).2.tap = s.tap.onPulse tms := by simp [tckPulse]

/-- A pulse: one event, which carries the target's answer; the tracker follows it (spec 10_state R30). -/
theorem tckPulse_lines (d : Driver) (tms tdi : Bool) (s : State)
    (hd : d = .bb → (s.pins.tms, s.pins.tdi) = (tms, tdi)) : Lines s (tckPulse d tms tdi s).2 [.pulse d tms tdi (tckPulse d tms tdi s).1] where
  trace := by simp [newEvents, tckPulse]
  cfg := by simp [tckPulse]
  regs := by simp [tckPulse]
  res := by simp [tckPulse]
  buf := by simp [tckPulse]
  ctl := by simp [tckPulse]
  inputs := by simp [tckPulse]
  resets := by simp [tckPulse]
  tap := by simp [trackEvent]
  path := by simp [pathAfter]
  tck := by simp
  undisturbed := fun h => serveDuring_undisturbed _ h
  time := by rw [tckPulse_clock]; exact Clock.time_le_onPulse _
  mismatch := by simp [tckPulse, Event.isMismatch]
  timeout := by simp [tckPulse]
  target := by simp [answeredBy, tckPulse]
  noDone := by simp [Event.isDone]
  levels := by
    rw [tckPulse_pins]
    cases d with
    | bb => exact hd rfl
    | spi => rfl
  devmode := by simp [tckPulse]
  flags := by simp [tckPulse]
  fsr := by simp [tckPulse]
  stats := by simp [tckPulse]
  work := by simp [tckPulse]
  source := by simp [tckPulse]
  quiet := rfl

/-- `Pulse`'s sample. -/
theorem pulse_fst (tms tdi : Bool) (s : State) : (pulse tms tdi s).1 = (s.env.target.pulse s.cfg tms tdi).1 := rfl

@[simp] theorem pulse_pins (tms tdi : Bool) (s : State) :
    (pulse tms tdi s).2.pins = { s.pins with tck := true, tms := tms, tdi := tdi } := by simp [pulse]
@[simp] theorem pulse_banks (tms tdi : Bool) (s : State) : (pulse tms tdi s).2.banks = s.banks := by simp [pulse]
@[simp] theorem pulse_counters (tms tdi : Bool) (s : State) : (pulse tms tdi s).2.counters = s.counters := by
  simp [pulse]
@[simp] theorem pulse_clock (tms tdi : Bool) (s : State) :
    (pulse tms tdi s).2.env.clock = s.env.clock.onPulse := by simp [pulse]
@[simp] theorem pulse_tap (tms tdi : Bool) (s : State) : (pulse tms tdi s).2.tap = s.tap.onPulse tms := by
  simp [pulse]

/-- `Pulse(tms, tdi)` (spec 40 R151). -/
theorem pulse_lines (tms tdi : Bool) (s : State) :
    Lines s (pulse tms tdi s).2 [.pulse .bb tms tdi (pulse tms tdi s).1] := by
  have h := tckPulse_lines .bb tms tdi { s with pins := { s.pins with tck := true, tms := tms, tdi := tdi } }
    fun _ => rfl
  exact ⟨⟨h.trace, h.cfg, h.regs, h.res, h.buf, h.ctl, h.inputs, h.resets, h.tap, h.path, fun _ => h.tck rfl,
    h.undisturbed, h.time, h.mismatch, h.timeout, h.target, h.noDone, h.levels⟩, h.devmode, h.flags, h.fsr, h.stats, h.work, h.source, h.quiet⟩

@[simp] theorem spiPulse_pins (tdi : Bool) (s : State) : (spiPulse tdi s).2.pins = s.pins := by simp [spiPulse]
@[simp] theorem spiPulse_banks (tdi : Bool) (s : State) : (spiPulse tdi s).2.banks = s.banks := by simp [spiPulse]
@[simp] theorem spiPulse_counters (tdi : Bool) (s : State) : (spiPulse tdi s).2.counters = s.counters := by
  simp [spiPulse]

/-- `SpiPulse(tdi)` (spec 42 R204). -/
theorem spiPulse_lines (tdi : Bool) (s : State) :
    Lines s (spiPulse tdi s).2 [.pulse .spi false tdi (spiPulse tdi s).1] := tckPulse_lines .spi false tdi s fun h => absurd h (by decide)

/-! ### TMS walks -/

@[simp] theorem setTms_banks (tms : Bool) (s : State) : (setTms tms s).banks = s.banks := by simp [setTms]
@[simp] theorem setTms_counters (tms : Bool) (s : State) : (setTms tms s).counters = s.counters := by simp [setTms]
@[simp] theorem setTms_tdi (tms : Bool) (s : State) : (setTms tms s).pins.tdi = s.pins.tdi := by simp [setTms]
@[simp] theorem setTms_clock (tms : Bool) (s : State) :
    (setTms tms s).env.clock = s.env.clock.onPulse := by simp [setTms]

/-- `setTms(tms)` (spec 40 R153). -/
theorem setTms_lines (tms : Bool) (s : State) :
    Lines s (setTms tms s) [.pulse .bb tms s.pins.tdi (pulse tms s.pins.tdi s).1] := pulse_lines _ _ _

theorem setTms_plays (tms : Bool) (s : State) (b : Bool) :
    Plays s (setTms tms s) [.pulse .bb tms s.pins.tdi b] (Wave.tms [tms]) := by
  intro before
  simp [Wave.tms, Event.blind]

theorem Wave.tms_cons (b : Bool) (bs : List Bool) (w : Wave) :
    Wave.tms (b :: bs) w = Wave.tms bs (Wave.tms [b] w) := by simp [Wave.tms]

theorem Wave.tms_append (xs ys : List Bool) (w : Wave) : Wave.tms (xs ++ ys) w = Wave.tms ys (Wave.tms xs w) := by
  simp [Wave.tms]

@[simp] theorem walk_banks (l : List Bool) (s : State) : (walk l s).banks = s.banks := by
  induction l generalizing s with
  | nil => rfl
  | cons b bs ih => simp [walk, ih]

@[simp] theorem walk_counters (l : List Bool) (s : State) : (walk l s).counters = s.counters := by
  induction l generalizing s with
  | nil => rfl
  | cons b bs ih => simp [walk, ih]

@[simp] theorem walk_tdi (l : List Bool) (s : State) : (walk l s).pins.tdi = s.pins.tdi := by
  induction l generalizing s with
  | nil => rfl
  | cons b bs ih => simp [walk, ih]

theorem walk_clock (l : List Bool) (s : State) : (walk l s).env.clock = Clock.pulsed l.length s.env.clock := by
  induction l generalizing s with
  | nil => rfl
  | cons b bs ih => simp only [walk, ih, setTms_clock, List.length_cons, Clock.pulsed]

/-- A fixed TMS sequence: one pulse for each level, TDI at rest (spec 30_encoding R120). -/
theorem walk_spec (l : List Bool) (s : State) :
    ∃ evs, Lines s (walk l s) evs ∧ Plays s (walk l s) evs (Wave.tms l) ∧ pulseCount evs = l.length := by
  induction l generalizing s with
  | nil => exact ⟨[], Lines.refl s, fun before => by simp [Wave.tms, walk], rfl⟩
  | cons b bs ih =>
    obtain ⟨evs, h1, h2, h3⟩ := ih (setTms b s)
    refine ⟨_, (setTms_lines b s).trans h1, ?_, ?_⟩
    · have := (setTms_plays b s (pulse b s.pins.tdi s).1).trans h2
      intro before
      rw [Wave.tms_cons]
      exact this before
    · rw [pulseCount_append, h3, List.length_cons, Nat.add_comm]; rfl

/-! ### Shifting bits -/

theorem shiftOne_fst (tms bit : Bool) (s : State) : (shiftOne tms bit s).1 = (pulse tms bit s).1 := rfl
@[simp] theorem shiftOne_pins (tms bit : Bool) (s : State) :
    (shiftOne tms bit s).2.pins = { s.pins with tck := true, tms := tms, tdi := bit } := by simp [shiftOne]
@[simp] theorem shiftOne_drbits (tms bit : Bool) (s : State) :
    (shiftOne tms bit s).2.banks.drbits = s.banks.drbits := by simp [shiftOne]
@[simp] theorem shiftOne_drcap (tms bit : Bool) (s : State) :
    (shiftOne tms bit s).2.banks.drcap = s.banks.drcap := by simp [shiftOne]
@[simp] theorem shiftOne_drlen (tms bit : Bool) (s : State) :
    (shiftOne tms bit s).2.banks.drlen = s.banks.drlen := by simp [shiftOne]
@[simp] theorem shiftOne_bitcnt (tms bit : Bool) (s : State) :
    (shiftOne tms bit s).2.banks.bitcnt = s.banks.bitcnt + 1 := by simp [shiftOne]
@[simp] theorem shiftOne_counters (tms bit : Bool) (s : State) :
    (shiftOne tms bit s).2.counters = s.counters := by simp [shiftOne]

@[simp] theorem shiftOne_clock (tms bit : Bool) (s : State) :
    (shiftOne tms bit s).2.env.clock = s.env.clock.onPulse := by simp [shiftOne]

theorem shiftLoop_clock (last : Bool) (bits : List Bool) (s : State) :
    (shiftLoop last bits s).2.env.clock = Clock.pulsed bits.length s.env.clock := by
  induction bits generalizing s with
  | nil => rfl
  | cons b bs ih => simp only [shiftLoop, ih, shiftOne_clock, List.length_cons, Clock.pulsed]

theorem shiftBits_clock (bits : List Bool) (s : State) :
    (shiftBits bits s).2.env.clock = Clock.pulsed bits.length s.env.clock := shiftLoop_clock true bits _

theorem Clock.pulsed_add (m n : Nat) (c : Clock) : Clock.pulsed n (Clock.pulsed m c) = Clock.pulsed (m + n) c := by
  induction m generalizing c with
  | zero => rw [Nat.zero_add]; rfl
  | succ m ih => rw [Nat.succ_add]; exact ih c.onPulse

theorem shiftOne_lines (tms bit : Bool) (s : State) :
    Lines s (shiftOne tms bit s).2 [.pulse .bb tms bit (pulse tms bit s).1] :=
  (pulse_lines tms bit s).setBanks _ _

/-- What a loop of shifts leaves of the shift banks: the data-register bank as it was, BITCNT counted on. -/
structure SameBanks (s t : State) (shifted : Nat) : Prop where
  drbits : t.banks.drbits = s.banks.drbits
  drcap : t.banks.drcap = s.banks.drcap
  drlen : t.banks.drlen = s.banks.drlen
  bitcnt : t.banks.bitcnt = s.banks.bitcnt + shifted
  counters : t.counters = s.counters

/-- The loop of `shiftBits` and `shiftByte` (spec 40 R156, R158): one pulse a bit, the samples in order. -/
theorem shiftLoop_spec (last : Bool) (bits : List Bool) (s : State) :
    ∃ evs, Lines s (shiftLoop last bits s).2 evs ∧ Plays s (shiftLoop last bits s).2 evs (Wave.shift last bits) ∧
      samplesOf evs = (shiftLoop last bits s).1 ∧ (shiftLoop last bits s).1.length = bits.length ∧
      SameBanks s (shiftLoop last bits s).2 bits.length := by
  induction bits generalizing s with
  | nil =>
    exact ⟨[], Lines.refl s, fun before => by simp [Wave.shift, shiftLoop, shiftEvents], rfl, rfl,
      ⟨rfl, rfl, rfl, rfl, rfl⟩⟩
  | cons b bs ih =>
    obtain ⟨evs, h1, h2, h3, h4, h5⟩ := ih (shiftOne (last && bs.isEmpty) b s).2
    refine ⟨_, (shiftOne_lines _ _ _).trans h1, ?_, ?_, ?_, ?_⟩
    · intro before
      have h := h2 (before ++ [.pulse .bb (last && bs.isEmpty) b false])
      simp only [shiftOne_pins, Wave.shift, Wave.mk.injEq, List.append_assoc] at h ⊢
      simp only [shiftLoop, ← h.2, shiftEvents]
      refine ⟨by simpa [Event.blind] using h.1, ?_⟩
      cases bs <;> simp [List.getLastD]
    · rw [samplesOf_append, h3]; rfl
    · simp only [shiftLoop, List.length_cons, h4]
    · exact ⟨h5.drbits.trans (by simp), h5.drcap.trans (by simp), h5.drlen.trans (by simp),
        h5.bitcnt.trans (by simp; omega), h5.counters.trans (by simp)⟩

/-- `shiftBits(bits, n)` (spec 40 R156). -/
theorem shiftBits_spec (bits : List Bool) (s : State) :
    ∃ evs, Lines s (shiftBits bits s).2 evs ∧ Plays s (shiftBits bits s).2 evs (Wave.shift true bits) ∧
      samplesOf evs = (shiftBits bits s).1 ∧ (shiftBits bits s).1.length = bits.length ∧
      SameBanks { s with banks.bitcnt := 0 } (shiftBits bits s).2 bits.length := by
  obtain ⟨evs, h1, h2, h3, h4, h5⟩ := shiftLoop_spec true bits { s with banks.bitcnt := 0 }
  exact ⟨evs, h1.ofBanks, h2.congr rfl rfl, h3, h4, h5⟩

/-- `shiftByte(b, exit)` (spec 40 R158): the result's bits are the samples. -/
theorem shiftByte_spec (b : Byte) (last : Bool) (s : State) :
    ∃ evs, Lines s (shiftByte b last s).2 evs ∧ Plays s (shiftByte b last s).2 evs (Wave.shift last (byteBits b)) ∧
      samplesOf evs = byteBits (shiftByte b last s).1 ∧
      SameBanks { s with banks.bitcnt := 0 } (shiftByte b last s).2 8 := by
  obtain ⟨evs, h1, h2, h3, h4, h5⟩ := shiftLoop_spec last (byteBits b) { s with banks.bitcnt := 0 }
  rw [byteBits_length] at h4 h5
  simp only [shiftByte]
  rw [byteBits_byteOf _ h4]
  exact ⟨evs, h1.ofBanks, Plays.congr (s := { s with banks.bitcnt := 0 }) h2 rfl rfl, h3, h5⟩

/-! ### The wall clock -/

/-- Asking the clock emits nothing. -/
theorem now_lines (s : State) : Lines s (now s).2 [] := by
  refine ⟨⟨rfl, rfl, rfl, rfl, rfl, rfl, rfl, rfl, rfl, rfl, id, id, ?_, by simp, id, rfl, rfl, rfl⟩, rfl, rfl, rfl, rfl, rfl, rfl, rfl⟩
  rw [now_env, Clock.now_snd_time]
  exact Clock.time_le_now _

@[simp] theorem pauseFor_pins (d : Nat) (s : State) : (pauseFor d s).pins = s.pins := by simp [pauseFor]
@[simp] theorem pauseFor_banks (d : Nat) (s : State) : (pauseFor d s).banks = s.banks := by simp [pauseFor]
/-- The wait leaves its end in DEADLINE (spec 10_state R51). -/
@[simp] theorem pauseFor_counters (d : Nat) (s : State) :
    (pauseFor d s).counters = { s.counters with deadline := s.env.clock.now.1 + d } := by simp [pauseFor]

/-- The clock after the unclocked wait is at least `d` later (spec 60 R297). -/
theorem pauseFor_time (d : Nat) (s : State) : s.env.clock.time + d ≤ (pauseFor d s).env.clock.time := by
  have h0 := Clock.time_le_now s.env.clock
  have h1 := Clock.time_waitUntil s.env.clock.now.2 (s.env.clock.now.1 + d)
  rw [Clock.now_snd_time] at h1
  simp [pauseFor]
  omega

/-- The unclocked wait: no pulse, one `Wait` event, and the clock is at least `d` later (spec 41 R180, 60 R297). -/
theorem pauseFor_spec (d : Nat) (s : State) :
    Lines s (pauseFor d s) [.wait d] ∧ Plays s (pauseFor d s) [.wait d] (Wave.mark (.wait d)) ∧
      s.env.clock.time + d ≤ (pauseFor d s).env.clock.time := by
  have ht := pauseFor_time d s
  refine ⟨⟨⟨?_, ?_, ?_, ?_, ?_, ?_, ?_, ?_, ?_, ?_, ?_, fun h => emit_undisturbed _ _ h, ?_, ?_, ?_, ?_, ?_, ?_⟩,
    ?_, ?_, ?_, ?_, ?_, ?_, rfl⟩, ?_, ht⟩
  case refine_12 => simpa [waited] using ht
  case refine_24 =>
    intro before
    simp [Wave.mark, Event.blind]
  all_goals simp [pauseFor, newEvents, trackEvent, pathAfter, Event.isMismatch, answeredBy, Event.isDone, levelsAfter]

/-! ### The masked comparison -/

@[simp] theorem check_fst (r e m : Word) (s : State) : (check r e m s).1 = maskedMismatch r e m := rfl
@[simp] theorem check_flags (r e m : Word) (s : State) :
    (check r e m s).2.flags = s.flags.afterCheck (maskedMismatch r e m) := by
  simp only [check]; split <;> simp
@[simp] theorem check_pins (r e m : Word) (s : State) : (check r e m s).2.pins = s.pins := by
  simp only [check]; split <;> simp
@[simp] theorem check_banks (r e m : Word) (s : State) : (check r e m s).2.banks = s.banks := by
  simp only [check]; split <;> simp
@[simp] theorem check_counters (r e m : Word) (s : State) : (check r e m s).2.counters = s.counters := by
  simp only [check]; split <;> simp
@[simp] theorem check_devmode (r e m : Word) (s : State) : (check r e m s).2.devmode = s.devmode := by
  simp only [check]; split <;> simp
@[simp] theorem check_fsr (r e m : Word) (s : State) : (check r e m s).2.fsr = s.fsr := by
  simp only [check]; split <;> simp
@[simp] theorem check_stats (r e m : Word) (s : State) : (check r e m s).2.stats = s.stats := by
  simp only [check]; split <;> simp
@[simp] theorem check_work (r e m : Word) (s : State) : (check r e m s).2.work = s.work := by
  simp only [check]; split <;> simp
@[simp] theorem check_env (r e m : Word) (s : State) : (check r e m s).2.env = s.env := by
  simp only [check]; split <;> simp

/-- `check(response, expected, mask)` (spec 41 R184). -/
theorem check_moves (r e m : Word) (s : State) : Moves s (check r e m s).2 (checkEvents r e m) := by
  unfold checkEvents
  cases h : maskedMismatch r e m with
  | true =>
    constructor <;>
      simp [check, h, newEvents, trackEvent, pathAfter, Event.isMismatch, Flags.afterCheck,
        answeredBy, Event.isDone, levelsAfter, waited]
    exact fun hu => emit_undisturbed _ _ hu
  | false =>
    constructor <;> simp [check, h, newEvents, Flags.afterCheck, answeredBy, levelsAfter]

/-- A masked comparison reports nothing to the progress sink. -/
theorem checkEvents_quiet (r e m : Word) : reportsOf (checkEvents r e m) = [] := by
  unfold checkEvents; split <;> rfl

theorem check_plays (r e m : Word) (s : State) (f : Wave → Wave)
    (hf : f = if maskedMismatch r e m then Wave.mark (.mismatch r e m) else fun w => w) :
    Plays s (check r e m s).2 (checkEvents r e m) f := by
  intro before
  subst hf
  unfold checkEvents
  split <;> simp [Wave.mark, Event.blind]

end Sys2Proof.Machine
end

