-- ==== Sys2Proof/Laws/Scans.lean ====
section
/-! SUPPORT. The TAP controller's operations: reset, the idle wait, the instruction scan, the data scan; one lemma
each. -/

namespace Sys2Proof.Machine

/-- `Lines.trans` and `Plays.trans` at once. -/
theorem wire_trans {s t u : State} {e1 e2 : List Event} {f g : Wave → Wave}
    (h1 : Lines s t e1 ∧ Plays s t e1 f) (h2 : Lines t u e2 ∧ Plays t u e2 g) :
    Lines s u (e1 ++ e2) ∧ Plays s u (e1 ++ e2) (fun w => g (f w)) :=
  ⟨h1.1.trans h2.1, h1.2.trans h2.2⟩

/-- `reset()` (spec 41 R172). -/
theorem tapReset_spec (s : State) :
    ∃ evs, Lines s (tapReset s) evs ∧ Plays s (tapReset s) evs Wave.reset ∧
      pulseCount evs = Config.resetClocks := by
  obtain ⟨evs, h1, h2, h3⟩ := walk_spec (List.replicate Config.resetClocks true) s
  exact ⟨evs, h1, h2, by rw [h3, List.length_replicate]⟩

@[simp] theorem tapReset_banks (s : State) : (tapReset s).banks = s.banks := walk_banks _ _
@[simp] theorem tapReset_counters (s : State) : (tapReset s).counters = s.counters := walk_counters _ _
@[simp] theorem tapReset_tdi (s : State) : (tapReset s).pins.tdi = s.pins.tdi := walk_tdi _ _

/-! ### The idle wait (spec 41 R175, R176) -/

theorem idleCycles_banks (n : Nat) (s : State) : (idleCycles n s).banks = s.banks := by
  induction n generalizing s with
  | zero => rfl
  | succ n ih => simp [idleCycles, ih]

theorem idleCycles_counters (n : Nat) (s : State) (h : s.counters.cyccnt = n) :
    (idleCycles n s).counters = { s.counters with cyccnt := 0 } := by
  induction n generalizing s with
  | zero => simp only [idleCycles, ← h]
  | succ n ih => simp only [idleCycles]; rw [ih _ rfl]; simp

theorem idleCycles_clock (n : Nat) (s : State) : (idleCycles n s).env.clock = Clock.pulsed n s.env.clock := by
  induction n generalizing s with
  | zero => rfl
  | succ n ih => simp only [idleCycles, ih, setTms_clock, Clock.pulsed]

/-- Phase 1: exactly the owed pulses. -/
theorem idleCycles_spec (n : Nat) (s : State) :
    ∃ evs, Lines s (idleCycles n s) evs ∧ Plays s (idleCycles n s) evs (Wave.tms (List.replicate n false)) := by
  induction n generalizing s with
  | zero => exact ⟨[], Lines.refl s, fun before => by simp [Wave.tms, idleCycles]⟩
  | succ n ih =>
    obtain ⟨evs, h⟩ := ih { (setTms false s) with counters.cyccnt := n }
    have h0 : Lines s { (setTms false s) with counters.cyccnt := n } _ := (setTms_lines false s).setBanks _ _
    have h1 : Plays s { (setTms false s) with counters.cyccnt := n } _ (Wave.tms [false]) :=
      (setTms_plays false s (pulse false s.pins.tdi s).1).congr rfl rfl
    have := wire_trans ⟨h0, h1⟩ h
    refine ⟨_, this.1, fun before => ?_⟩
    rw [List.replicate_succ, Wave.tms_cons]
    exact this.2 before

theorem idleUntilDeadline_banks (n : Nat) (s : State) : (idleUntilDeadline n s).banks = s.banks := by
  induction n generalizing s with
  | zero => rfl
  | succ n ih => simp only [idleUntilDeadline]; split <;> simp [ih]

theorem idleUntilDeadline_counters (n : Nat) (s : State) : (idleUntilDeadline n s).counters = s.counters := by
  induction n generalizing s with
  | zero => rfl
  | succ n ih => simp only [idleUntilDeadline]; split <;> simp [ih]

/-- Phase 2: as many pulses as answers of the clock lie before the deadline, so none if it had passed on entry. -/
theorem idleUntilDeadline_spec (n : Nat) (s : State) (h : s.env.clock.answersBefore s.counters.deadline < n) :
    ∃ evs k, Lines s (idleUntilDeadline n s) evs ∧
      Plays s (idleUntilDeadline n s) evs (Wave.tms (List.replicate k false)) ∧
      s.counters.deadline ≤ (idleUntilDeadline n s).env.clock.time ∧
      (s.counters.deadline ≤ s.env.clock.time → k = 0) ∧
      Clock.idledTo s.counters.deadline k s.env.clock (idleUntilDeadline n s).env.clock := by
  induction n generalizing s with
  | zero => omega
  | succ n ih =>
    simp only [idleUntilDeadline]
    by_cases hc : (now s).1 < s.counters.deadline
    · rw [if_pos hc]
      have hlt := Clock.answersBefore_lt s.env.clock s.counters.deadline hc
      obtain ⟨evs, k, h1, h2, h3, h4, h5⟩ := ih (setTms false (now s).2) (by
        rw [setTms_clock, setTms_counters, now_counters, now_env]
        exact Nat.lt_of_lt_of_le hlt (Nat.le_of_lt_succ h))
      have h0 := wire_trans (s := s) ⟨now_lines s, Plays.nothing (by simp)⟩
        ⟨setTms_lines false (now s).2, setTms_plays false (now s).2 (pulse false (now s).2.pins.tdi (now s).2).1⟩
      have := wire_trans h0 ⟨h1, h2⟩
      refine ⟨_, k + 1, this.1, fun before => ?_, by simpa using h3, fun hd => ?_, hc, by simpa using h5⟩
      · rw [List.replicate_succ, Wave.tms_cons]
        exact this.2 before
      · have := Clock.time_le_now s.env.clock
        rw [now_fst] at hc
        omega
    · rw [if_neg hc]
      refine ⟨[], 0, now_lines s, fun before => by simp [Wave.tms], ?_, fun _ => rfl, Nat.le_of_not_lt hc, rfl⟩
      rw [now_env, Clock.now_snd_time]
      exact Nat.le_of_not_lt hc

/-- `idle(cycles, minDuration)` (spec 41 R175, R176): the owed pulses with TMS=0, one more for every answer of the clock
before the deadline, then one with TMS=1; none more when no duration is asked; not over before the deadline, which is
fixed on entry. -/
theorem idle_exact (w : IdleWait) (s : State) :
    ∃ evs k, Lines s (idle w s) evs ∧ Plays s (idle w s) evs (Wave.idle (w.cycles + k)) ∧ (w.ticks = 0 → k = 0) ∧
      s.env.clock.time + w.ticks ≤ (idle w s).env.clock.time ∧ idleTakes w k s.env.clock (idle w s).env.clock := by
  generalize hs1 : ({ (now s).2 with counters.deadline := (now s).1 + w.ticks, counters.cyccnt := w.cycles } : State)
    = s1
  have hl1 : Lines s s1 [] := hs1 ▸ (now_lines s).setBanks _ _
  have hp1 : Plays s s1 [] (fun w => w) := Plays.nothing (by rw [← hs1]; rfl)
  obtain ⟨e2, hl2, hp2⟩ := idleCycles_spec w.cycles s1
  have hd : (idleCycles w.cycles s1).counters.deadline = s.env.clock.now.1 + w.ticks := by
    rw [idleCycles_counters _ _ (by rw [← hs1]), ← hs1]; rfl
  have hck : (idleCycles w.cycles s1).env.clock = Clock.pulsed w.cycles s.env.clock.now.2 := by
    rw [idleCycles_clock, ← hs1]; rfl
  obtain ⟨e3, k, hl3, hp3, h3, hk, hto⟩ := idleUntilDeadline_spec
    ((idleCycles w.cycles s1).env.clock.answersBefore (idleCycles w.cycles s1).counters.deadline + 1)
    (idleCycles w.cycles s1) (by omega)
  generalize hs3 : idleUntilDeadline
    ((idleCycles w.cycles s1).env.clock.answersBefore (idleCycles w.cycles s1).counters.deadline + 1)
    (idleCycles w.cycles s1) = s3 at *
  have h4 := wire_trans (wire_trans (wire_trans ⟨hl1, hp1⟩ ⟨hl2, hp2⟩) ⟨hl3, hp3⟩)
    ⟨setTms_lines true s3, setTms_plays true s3 (pulse true s3.pins.tdi s3).1⟩
  have he : idle w s = setTms true s3 := by rw [← hs3, ← hs1]; rfl
  rw [hd, hck] at hto
  have ht := Clock.time_le_now s.env.clock
  have ht2 := hl2.time
  have hs1t : s1.env.clock.time = s.env.clock.now.1 := by rw [← hs1]; exact Clock.now_snd_time _
  rw [he]
  refine ⟨_, k, h4.1, fun before => ?_, fun h0 => hk (by omega), ?_, _, hto, setTms_clock true s3⟩
  · rw [Wave.idle, ← List.replicate_append_replicate, Wave.tms_append, Wave.tms_append]
    exact h4.2 before
  · have := (setTms_lines true s3).time
    omega

/-- The same with the number of idle pulses at one. -/
theorem idle_spec (w : IdleWait) (s : State) :
    ∃ evs n, Lines s (idle w s) evs ∧ Plays s (idle w s) evs (Wave.idle n) ∧ idlePulsesOf w n ∧
      s.env.clock.time + w.ticks ≤ (idle w s).env.clock.time := by
  obtain ⟨evs, k, h1, h2, h3, h4, -⟩ := idle_exact w s
  exact ⟨evs, w.cycles + k, h1, h2, ⟨Nat.le_add_right _ _, fun h => by rw [h3 h, Nat.add_zero]⟩, h4⟩

@[simp] theorem idle_banks (w : IdleWait) (s : State) : (idle w s).banks = s.banks := by
  simp [idle, idleUntilDeadline_banks, idleCycles_banks]

/-- What the idle wait leaves in the counters. -/
theorem idle_counters (w : IdleWait) (s : State) :
    (idle w s).counters = { s.counters with deadline := (now s).1 + w.ticks, cyccnt := 0 } := by
  simp only [idle, setTms_counters, idleUntilDeadline_counters]
  rw [idleCycles_counters w.cycles _ (by simp)]
  simp

/-! ### Scans -/

/-- The tail of a scan, its idle pulses exactly those the clock makes necessary. -/
theorem scanTail_exact (idleAfter : Option IdleWait) (s : State) :
    ∃ evs n, Lines s (scanTail idleAfter s) evs ∧ Plays s (scanTail idleAfter s) evs (Wave.tail n) ∧
      tailPulsesOf idleAfter n ∧ tailTakes s.env.clock (scanTail idleAfter s).env.clock idleAfter n := by
  cases idleAfter with
  | none => exact ⟨_, none, setTms_lines true s, setTms_plays true s (pulse true s.pins.tdi s).1, trivial, trivial⟩
  | some w =>
    obtain ⟨evs, k, h1, h2, h3, -, h5⟩ := idle_exact w s
    exact ⟨evs, some (w.cycles + k), h1, h2, ⟨Nat.le_add_right _ _, fun h => by rw [h3 h, Nat.add_zero]⟩,
      Nat.le_add_right _ _, by rw [Nat.add_sub_cancel_left]; exact h5⟩

@[simp] theorem scanTail_banks (idleAfter : Option IdleWait) (s : State) :
    (scanTail idleAfter s).banks = s.banks := by
  cases idleAfter <;> simp [scanTail]

/-- `sir(bits, n, idleAfter)` (spec 41 R178). -/
theorem sir_exact (bits : List Bool) (idleAfter : Option IdleWait) (s : State) :
    ∃ evs n, Lines s (sir bits idleAfter s) evs ∧ Plays s (sir bits idleAfter s) evs (Wave.sir bits n) ∧
      tailPulsesOf idleAfter n ∧
      tailTakes (Clock.pulsed (bits.length + 6) s.env.clock) (sir bits idleAfter s).env.clock idleAfter n := by
  obtain ⟨e1, hl1, hp1, -⟩ := walk_spec [true, false, false] { s with banks.irsr := BitVec.ofNat 32 (wordOf bits) }
  generalize hs1 : walk [true, false, false] { s with banks.irsr := BitVec.ofNat 32 (wordOf bits) } = s1 at *
  obtain ⟨e2, hl2, hp2, -⟩ := shiftBits_spec bits s1
  obtain ⟨e3, hl3, hp3, -⟩ := walk_spec [false, true, true] (shiftBits bits s1).2
  obtain ⟨e4, n, hl4, hp4, hn, hx⟩ := scanTail_exact idleAfter (walk [false, true, true] (shiftBits bits s1).2)
  have h := wire_trans (s := s) (wire_trans (wire_trans ⟨hl1.ofBanks, hp1.congr rfl rfl⟩ ⟨hl2, hp2⟩) ⟨hl3, hp3⟩)
    ⟨hl4, hp4⟩
  have he : sir bits idleAfter s = scanTail idleAfter (walk [false, true, true] (shiftBits bits s1).2) := by
    rw [← hs1]; rfl
  have hc : (walk [false, true, true] (shiftBits bits s1).2).env.clock =
      Clock.pulsed (bits.length + 6) s.env.clock := by
    simp only [walk_clock, shiftBits_clock, ← hs1, Clock.pulsed_add, List.length_cons, List.length_nil]
    congr 1
    omega
  rw [hc] at hx
  rw [he]
  exact ⟨_, n, h.1, h.2, hn, hx⟩

theorem sir_spec (bits : List Bool) (idleAfter : Option IdleWait) (s : State) :
    ∃ evs n, Lines s (sir bits idleAfter s) evs ∧ Plays s (sir bits idleAfter s) evs (Wave.sir bits n) ∧
      tailPulsesOf idleAfter n := by
  obtain ⟨evs, n, h1, h2, h3, -⟩ := sir_exact bits idleAfter s
  exact ⟨evs, n, h1, h2, h3⟩

/-- An instruction scan leaves the data-register bank as it was, and BITCNT at the length of the instruction. -/
theorem sir_banks (bits : List Bool) (idleAfter : Option IdleWait) (s : State) :
    (sir bits idleAfter s).banks.drbits = s.banks.drbits ∧ (sir bits idleAfter s).banks.drcap = s.banks.drcap ∧
      (sir bits idleAfter s).banks.drlen = s.banks.drlen ∧ (sir bits idleAfter s).banks.bitcnt = bits.length := by
  obtain ⟨-, -, -, -, -, h⟩ :=
    shiftBits_spec bits (walk [true, false, false] { s with banks.irsr := BitVec.ofNat 32 (wordOf bits) })
  simp only [sir, scanTail_banks, walk_banks]
  exact ⟨h.drbits.trans (by simp), h.drcap.trans (by simp), h.drlen.trans (by simp), h.bitcnt.trans (by simp)⟩

/-- The optional pause. -/
theorem pauseDr_spec (pause : Option Nat) (s : State) :
    ∃ evs, Lines s (pauseDr pause s) evs ∧
      Plays s (pauseDr pause s) evs (fun w => match pause with | some p => w.mark (.wait p) | none => w) ∧
      pulseCount evs = 0 := by
  cases pause with
  | none => exact ⟨[], Lines.refl s, Plays.nothing rfl, rfl⟩
  | some p =>
    obtain ⟨h1, h2, -⟩ := pauseFor_spec p s
    exact ⟨_, h1, h2, rfl⟩

@[simp] theorem pauseDr_banks (pause : Option Nat) (s : State) : (pauseDr pause s).banks = s.banks := by
  cases pause <;> simp [pauseDr]

theorem pauseDr_clock (pause : Option Nat) (s : State) :
    (pauseDr pause s).env.clock = Clock.paused pause s.env.clock := by
  cases pause with
  | none => rfl
  | some d => simp [pauseDr, pauseFor, Clock.paused]

/-- `sdr(bits, n, pause, idleAfter)` (spec 41 R180): the captured bits are the samples of the pulses after the first
two, and the data-register bank holds sent and captured bits. -/
theorem sdr_exact (bits : List Bool) (pause : Option Nat) (idleAfter : Option IdleWait) (s : State) :
    ∃ evs n, Lines s (sdr bits pause idleAfter s).2 evs ∧
      Plays s (sdr bits pause idleAfter s).2 evs (Wave.sdr bits pause n) ∧ tailPulsesOf idleAfter n ∧
      (sdr bits pause idleAfter s).1 = ((samplesOf evs).drop 2).take bits.length ∧
      (sdr bits pause idleAfter s).1.length = bits.length ∧
      tailTakes (Clock.pulsed 2 (Clock.paused pause (Clock.pulsed (bits.length + 3) s.env.clock)))
        (sdr bits pause idleAfter s).2.env.clock idleAfter n := by
  obtain ⟨e1, hl1, hp1, hc1⟩ := walk_spec [false, false] { s with banks.drbits := bits, banks.drlen := bits.length }
  generalize hs1 : walk [false, false] { s with banks.drbits := bits, banks.drlen := bits.length } = s1 at *
  obtain ⟨e2, hl2, hp2, h2, hlen, -⟩ := shiftBits_spec bits s1
  have hk : (shiftBits bits s1).2.env.clock = Clock.pulsed (bits.length + 2) s.env.clock := by
    simp only [shiftBits_clock, ← hs1, walk_clock, Clock.pulsed_add, List.length_cons, List.length_nil]
    congr 1
    omega
  generalize hr : shiftBits bits s1 = r at *
  have hl2' : Lines s1 { r.2 with banks.drcap := r.1 } e2 := hl2.setBanks _ _
  have hp2' : Plays s1 { r.2 with banks.drcap := r.1 } e2 (Wave.shift true bits) := hp2.congr rfl rfl
  generalize hs2 : ({ r.2 with banks.drcap := r.1 } : State) = s2 at *
  obtain ⟨e3, hl3, hp3, -⟩ := walk_spec [false] s2
  obtain ⟨e4, hl4, hp4, -⟩ := pauseDr_spec pause (walk [false] s2)
  obtain ⟨e5, hl5, hp5, -⟩ := walk_spec [true, true] (pauseDr pause (walk [false] s2))
  obtain ⟨e6, n, hl6, hp6, hn, hx⟩ := scanTail_exact idleAfter (walk [true, true] (pauseDr pause (walk [false] s2)))
  have h := wire_trans (s := s) (wire_trans (wire_trans (wire_trans (wire_trans
    ⟨hl1.ofBanks, hp1.congr rfl rfl⟩ ⟨hl2', hp2'⟩) ⟨hl3, hp3⟩) ⟨hl4, hp4⟩) ⟨hl5, hp5⟩) ⟨hl6, hp6⟩
  have he : sdr bits pause idleAfter s =
      (r.1, scanTail idleAfter (walk [true, true] (pauseDr pause (walk [false] s2)))) := by
    rw [← hs2, ← hr, ← hs1]; rfl
  have hc : (walk [true, true] (pauseDr pause (walk [false] s2))).env.clock =
      Clock.pulsed 2 (Clock.paused pause (Clock.pulsed (bits.length + 3) s.env.clock)) := by
    have hs : s2.env.clock = r.2.env.clock := by rw [← hs2]
    simp only [walk_clock, pauseDr_clock, hs, hk, Clock.pulsed_add, List.length_cons, List.length_nil]
  rw [hc] at hx
  rw [he]
  refine ⟨_, n, h.1, ?_, hn, ?_, hlen, hx⟩
  · intro before
    have := h.2 before
    cases pause <;> exact this
  · simp only [samplesOf_append, List.append_assoc]
    have h1 : (samplesOf e1).length = 2 := by rw [samplesOf_length, hc1]; rfl
    rw [List.drop_append_of_le_length (by omega), List.drop_of_length_le (by omega), List.nil_append, h2,
      List.take_append_of_le_length (by omega), List.take_of_length_le (by omega)]

theorem sdr_spec (bits : List Bool) (pause : Option Nat) (idleAfter : Option IdleWait) (s : State) :
    ∃ evs n, Lines s (sdr bits pause idleAfter s).2 evs ∧
      Plays s (sdr bits pause idleAfter s).2 evs (Wave.sdr bits pause n) ∧ tailPulsesOf idleAfter n ∧
      (sdr bits pause idleAfter s).1 = ((samplesOf evs).drop 2).take bits.length ∧
      (sdr bits pause idleAfter s).1.length = bits.length := by
  obtain ⟨evs, n, h1, h2, h3, h4, h5, -⟩ := sdr_exact bits pause idleAfter s
  exact ⟨evs, n, h1, h2, h3, h4, h5⟩

/-- What a data scan leaves in the data-register bank and in BITCNT. -/
theorem sdr_banks (bits : List Bool) (pause : Option Nat) (idleAfter : Option IdleWait) (s : State) :
    (sdr bits pause idleAfter s).2.banks.drbits = bits ∧
      (sdr bits pause idleAfter s).2.banks.drcap = (sdr bits pause idleAfter s).1 ∧
      (sdr bits pause idleAfter s).2.banks.drlen = bits.length ∧
      (sdr bits pause idleAfter s).2.banks.bitcnt = bits.length := by
  obtain ⟨-, -, -, -, -, h⟩ :=
    shiftBits_spec bits (walk [false, false] { s with banks.drbits := bits, banks.drlen := bits.length })
  simp only [sdr, scanTail_banks, walk_banks, pauseDr_banks]
  exact ⟨h.drbits.trans (by simp), trivial, h.drlen.trans (by simp), h.bitcnt.trans (by simp)⟩

end Sys2Proof.Machine
end

