-- ==== Sys2Proof/Laws/Bursts.lean ====
section
/-! SUPPORT. The burst transport's operations: the path switch, the bulk bytes, the two transfers; one lemma each. -/

namespace Sys2Proof.Machine

/-! ### The path switch (spec 42 R201, R205, R206) -/

/-- The wave of a path switch: nothing without the peripheral. -/
def switchWave (useBurst : Bool) (p : Path) (w : Wave) : Wave := if useBurst then w.mark (.path p) else w

theorem toBurst_spec (s : State) :
    ∃ evs, Lines s (toBurst s) evs ∧ Plays s (toBurst s) evs (switchWave s.cfg.useBurst .burst) ∧
      samplesOf evs = [] ∧ (toBurst s).banks = s.banks ∧ (toBurst s).counters = s.counters := by
  unfold toBurst switchWave
  cases s.cfg.useBurst with
  | false =>
    exact ⟨[], Lines.refl s, fun before => by simp, rfl, rfl, rfl⟩
  | true =>
    refine ⟨[.path .burst], ?_, ?_, rfl, ?_, ?_⟩
    · refine ⟨⟨?_, ?_, ?_, ?_, ?_, ?_, ?_, ?_, ?_, ?_, ?_, fun h => emit_undisturbed _ _ h, ?_, ?_, ?_, ?_, ?_, ?_⟩,
        ?_, ?_, ?_, ?_, ?_, ?_, rfl⟩ <;>
      simp [newEvents, trackEvent, pathAfter, Event.isMismatch, answeredBy, Event.isDone, levelsAfter, waited]
    · intro before; simp [Wave.mark, Event.blind]
    · simp
    · simp

theorem toBitBang_spec (s : State) :
    ∃ evs, Lines s (toBitBang s) evs ∧ Plays s (toBitBang s) evs (switchWave s.cfg.useBurst .bitBang) ∧
      samplesOf evs = [] ∧ (toBitBang s).banks = s.banks ∧ (toBitBang s).counters = s.counters := by
  unfold toBitBang switchWave
  cases s.cfg.useBurst with
  | false =>
    exact ⟨[], Lines.refl s, fun before => by simp, rfl, rfl, rfl⟩
  | true =>
    refine ⟨[.path .bitBang], ?_, ?_, rfl, ?_, ?_⟩
    · refine ⟨⟨?_, ?_, ?_, ?_, ?_, ?_, ?_, ?_, ?_, ?_, ?_, fun h => emit_undisturbed _ _ h, ?_, ?_, ?_, ?_, ?_, ?_⟩,
        ?_, ?_, ?_, ?_, ?_, ?_, rfl⟩ <;>
      simp [newEvents, trackEvent, pathAfter, Event.isMismatch, answeredBy, Event.isDone, levelsAfter, waited]
    · intro before; simp [Wave.mark, Event.blind]
    · simp
    · simp

/-! ### Bulk bytes (spec 42 R204, R206) -/

/-- What a bulk transfer leaves of the shift banks and the counters. -/
structure SameDr (s t : State) : Prop where
  drbits : t.banks.drbits = s.banks.drbits
  drcap : t.banks.drcap = s.banks.drcap
  drlen : t.banks.drlen = s.banks.drlen
  bitcnt : t.banks.bitcnt ≤ max s.banks.bitcnt 8
  counters : t.counters = s.counters

theorem SameDr.refl (s : State) : SameDr s s := ⟨rfl, rfl, rfl, by omega, rfl⟩

theorem SameDr.trans {s t u : State} (h1 : SameDr s t) (h2 : SameDr t u) : SameDr s u :=
  ⟨h2.drbits.trans h1.drbits, h2.drcap.trans h1.drcap, h2.drlen.trans h1.drlen,
   by have := h1.bitcnt; have := h2.bitcnt; omega, h2.counters.trans h1.counters⟩

theorem SameDr.of_eq {s t : State} (hb : t.banks = s.banks) (hc : t.counters = s.counters) : SameDr s t :=
  ⟨by rw [hb], by rw [hb], by rw [hb], by rw [hb]; omega, hc⟩

theorem shiftByte_sameDr (b : Byte) (last : Bool) (s : State) : SameDr s (shiftByte b last s).2 := by
  obtain ⟨-, -, -, -, h⟩ := shiftByte_spec b last s
  exact ⟨h.drbits, h.drcap, h.drlen, by rw [h.bitcnt]; simp, h.counters⟩

/-- Bits through the peripheral. -/
theorem spiBits_spec (bits : List Bool) (s : State) :
    ∃ evs, Lines s (spiBits bits s).2 evs ∧
      evs.map Event.blind = bits.map (fun x => Event.pulse .spi false x false) ∧
      samplesOf evs = (spiBits bits s).1 ∧ (spiBits bits s).1.length = bits.length ∧
      (spiBits bits s).2.pins = s.pins ∧ (spiBits bits s).2.banks = s.banks ∧
      (spiBits bits s).2.counters = s.counters := by
  induction bits generalizing s with
  | nil => exact ⟨[], Lines.refl s, rfl, rfl, rfl, rfl, rfl, rfl⟩
  | cons b bs ih =>
    obtain ⟨evs, h1, h2, h3, h4, h5, h6, h7⟩ := ih (spiPulse b s).2
    refine ⟨_, (spiPulse_lines b s).trans h1, ?_, ?_, ?_, h5.trans (by simp), h6.trans (by simp), h7.trans (by simp)⟩
    · rw [List.map_append, h2]; rfl
    · rw [samplesOf_append, h3]; rfl
    · simp only [spiBits, List.length_cons, h4]

/-- One byte out and in: the result's bits are the samples, the first sample its most significant bit. -/
theorem bulkByte_spec (b : Byte) (s : State) :
    ∃ evs, Lines s (bulkByte b s).2 evs ∧ Plays s (bulkByte b s).2 evs (Wave.bulkByte s.cfg.useBurst b) ∧
      (samplesOf evs).reverse = byteBits (bulkByte b s).1 ∧ SameDr s (bulkByte b s).2 := by
  unfold bulkByte Wave.bulkByte
  cases s.cfg.useBurst with
  | true =>
    obtain ⟨evs, h1, h2, h3, h4, h5, h6, h7⟩ := spiBits_spec (byteBits b).reverse s
    simp only [if_true]
    refine ⟨evs, h1, fun before => ?_, ?_, SameDr.of_eq h6 h7⟩
    · rw [h2, h5]
    · rw [byteBits_byteOf _ (by simpa using h4), h3]
  | false =>
    obtain ⟨evs, h1, h2, h3, -⟩ := shiftByte_spec (rev8 b) false s
    simp only [Bool.false_eq_true, if_false]
    refine ⟨evs, h1, h2, ?_, shiftByte_sameDr _ _ _⟩
    rw [byteBits_rev8, h3]

/-- Each bulk byte is eight samples. -/
theorem samples_of_byte {evs : List Event} {b : Byte} (h : (samplesOf evs).reverse = byteBits b) :
    (samplesOf evs).length = 8 := by
  have := congrArg List.length h
  simpa using this

/-- `spiWrite(bytes)` (spec 42 R204). -/
theorem spiWrite_spec (bytes : List Byte) (s : State) :
    ∃ evs, Lines s (spiWrite bytes s) evs ∧ Plays s (spiWrite bytes s) evs (Wave.bulk s.cfg.useBurst bytes) ∧
      (samplesOf evs).length = 8 * bytes.length ∧ SameDr s (spiWrite bytes s) := by
  induction bytes generalizing s with
  | nil => exact ⟨[], Lines.refl s, Plays.nothing rfl, rfl, SameDr.refl s⟩
  | cons b bs ih =>
    obtain ⟨e1, h1, h2, h3, h4⟩ := bulkByte_spec b s
    obtain ⟨e2, g1, g2, g3, g4⟩ := ih (bulkByte b s).2
    rw [h1.cfg] at g2
    have h := wire_trans ⟨h1, h2⟩ ⟨g1, g2⟩
    refine ⟨_, h.1, h.2, ?_, h4.trans g4⟩
    rw [samplesOf_append, List.length_append, g3, samples_of_byte h3, List.length_cons]
    omega

/-- The bits of read bytes are the samples, in flash order. -/
theorem flashBytesOf_cons (n : Nat) (b : Byte) (samples rest : List Bool) (h : samples.reverse = byteBits b) :
    flashBytesOf (n + 1) (samples ++ rest) = b :: flashBytesOf n rest := by
  have hs : samples = byteBits (rev8 b) := by rw [byteBits_rev8, ← h, List.reverse_reverse]
  simp only [flashBytesOf, packBytes, List.map_cons]
  rw [hs, List.take_append_of_le_length (by simp), List.take_of_length_le (by simp), byteOf_byteBits, rev8_rev8,
    List.drop_append_of_le_length (by simp), List.drop_of_length_le (by simp), List.nil_append]

/-- `spiRead(n)` (spec 42 R204): the bytes are the samples in flash order. -/
theorem spiRead_spec (n : Nat) (s : State) :
    ∃ evs, Lines s (spiRead n s).2 evs ∧
      Plays s (spiRead n s).2 evs (Wave.bulk s.cfg.useBurst (List.replicate n 0#8)) ∧
      (samplesOf evs).length = 8 * n ∧ (∀ rest, flashBytesOf n (samplesOf evs ++ rest) = (spiRead n s).1) ∧
      (spiRead n s).1.length = n ∧ SameDr s (spiRead n s).2 := by
  induction n generalizing s with
  | zero => exact ⟨[], Lines.refl s, Plays.nothing rfl, rfl, fun _ => rfl, rfl, SameDr.refl s⟩
  | succ n ih =>
    obtain ⟨e1, h1, h2, h3, h4⟩ := bulkByte_spec 0#8 s
    obtain ⟨e2, g1, g2, g3, g4, g5, g6⟩ := ih (bulkByte 0#8 s).2
    rw [h1.cfg] at g2
    have h := wire_trans ⟨h1, h2⟩ ⟨g1, g2⟩
    refine ⟨_, h.1, h.2, ?_, fun rest => ?_, ?_, h4.trans g6⟩
    · rw [samplesOf_append, List.length_append, g3, samples_of_byte h3]
      omega
    · rw [samplesOf_append, List.append_assoc, flashBytesOf_cons _ _ _ _ h3, g4]; rfl
    · simp only [spiRead, List.length_cons, g5]

/-! ### The two transfers (spec 42 R207, R209) -/

theorem Wave.bulk_append (useBurst : Bool) (xs ys : List Byte) (w : Wave) :
    Wave.bulk useBurst (xs ++ ys) w = Wave.bulk useBurst ys (Wave.bulk useBurst xs w) := by
  induction xs generalizing w with
  | nil => rfl
  | cons x xs ih => exact ih _

/-- `burstWrite(prefix, bulk, finalByte)`. -/
theorem burstWrite_spec (lead bulk : List Byte) (finalByte : Byte) (s : State) :
    ∃ evs, Lines s (burstWrite lead bulk finalByte s) evs ∧
      Plays s (burstWrite lead bulk finalByte s) evs (Wave.burst s.cfg.useBurst (lead ++ bulk) finalByte) ∧
      SameDr s (burstWrite lead bulk finalByte s) := by
  obtain ⟨e1, a1, a2, -, a4, a5⟩ := toBurst_spec s
  obtain ⟨e2, b1, b2, -, b4⟩ := spiWrite_spec (lead ++ bulk) (toBurst s)
  obtain ⟨e3, c1, c2, -, c4, c5⟩ := toBitBang_spec (spiWrite (lead ++ bulk) (toBurst s))
  obtain ⟨e4, d1, d2, -, -⟩ := shiftByte_spec finalByte true (toBitBang (spiWrite (lead ++ bulk) (toBurst s)))
  rw [a1.cfg] at b2
  rw [b1.cfg, a1.cfg] at c2
  have h := wire_trans (wire_trans (wire_trans ⟨a1, a2⟩ ⟨b1, b2⟩) ⟨c1, c2⟩) ⟨d1, d2⟩
  refine ⟨_, h.1, h.2, ?_⟩
  have hs := shiftByte_sameDr finalByte true (toBitBang (spiWrite (lead ++ bulk) (toBurst s)))
  exact (((SameDr.of_eq a4 a5).trans b4).trans (SameDr.of_eq c4 c5)).trans hs

/-- `burstRead(prefix, n)`: the bytes are the samples after those of the prefix and the dummy bytes. -/
theorem burstRead_spec (lead : List Byte) (n : Nat) (s : State) :
    ∃ evs, Lines s (burstRead lead n s).2 evs ∧
      Plays s (burstRead lead n s).2 evs (Wave.burst s.cfg.useBurst
        (lead ++ List.replicate s.cfg.dummyBytes 0#8 ++ List.replicate n 0#8) 0#8) ∧
      (∀ rest, flashBytesOf n ((samplesOf evs).drop (8 * (lead.length + s.cfg.dummyBytes)) ++ rest) =
        (burstRead lead n s).1) ∧
      8 * (lead.length + s.cfg.dummyBytes) ≤ (samplesOf evs).length ∧
      (burstRead lead n s).1.length = n ∧ SameDr s (burstRead lead n s).2 := by
  have hw := spiWrite_spec (lead ++ List.replicate s.cfg.dummyBytes 0#8) (toBurst s)
  obtain ⟨e1, a1, a2, a3, a4, a5⟩ := toBurst_spec s
  obtain ⟨e2, b1, b2, b3, b4⟩ := hw
  generalize hs2 : spiWrite (lead ++ List.replicate s.cfg.dummyBytes 0#8) (toBurst s) = s2 at *
  obtain ⟨e3, c1, c2, c3, c4, c5, c6⟩ := spiRead_spec n s2
  obtain ⟨e4, d1, d2, -, d4, d5⟩ := toBitBang_spec (spiRead n s2).2
  obtain ⟨e5, g1, g2, -, -⟩ := shiftByte_spec 0#8 true (toBitBang (spiRead n s2).2)
  rw [a1.cfg] at b2
  rw [b1.cfg, a1.cfg] at c2
  rw [c1.cfg, b1.cfg, a1.cfg] at d2
  have h := wire_trans (wire_trans (wire_trans (wire_trans ⟨a1, a2⟩ ⟨b1, b2⟩) ⟨c1, c2⟩) ⟨d1, d2⟩) ⟨g1, g2⟩
  have he : burstRead lead n s = ((spiRead n s2).1, (shiftByte 0#8 true (toBitBang (spiRead n s2).2)).2) := by
    simp only [burstRead, hs2]
  rw [he]
  have h8 : (samplesOf e2).length = 8 * (lead.length + s.cfg.dummyBytes) := by
    rw [b3, List.length_append, List.length_replicate]
  refine ⟨_, h.1, fun before => ?_, fun rest => ?_, ?_, c5, ?_⟩
  · have := h.2 before
    simp only [Wave.burst]
    rw [Wave.bulk_append]
    exact this
  · simp only [samplesOf_append, List.append_assoc]
    rw [a3, List.nil_append, ← h8, List.drop_append_of_le_length (Nat.le_refl _),
      List.drop_of_length_le (Nat.le_refl _), List.nil_append, List.append_assoc, c4]
  · simp only [samplesOf_append, List.length_append]
    omega
  · have hs := shiftByte_sameDr 0#8 true (toBitBang (spiRead n s2).2)
    have ht := (((SameDr.of_eq a4 a5).trans b4).trans c6).trans (SameDr.of_eq d4 d5)
    exact ht.trans hs

end Sys2Proof.Machine
end

