-- ==== Sys2Proof/Laws/Scripts.lean ====
section
/-! SUPPORT. The session and the ECP5 scripts: one lemma for each operation. -/

namespace Sys2Proof.Machine

/-! ### The session (spec 60 R291, R292) -/

@[simp] theorem acquire_banks (s : State) : (acquire s).banks = s.banks := by simp [acquire]
@[simp] theorem acquire_counters (s : State) : (acquire s).counters = s.counters := by simp [acquire]
@[simp] theorem acquire_pins (s : State) : (acquire s).pins = { s.pins with path := .bitBang, tck := true } := by
  simp [acquire]
@[simp] theorem release_banks (s : State) : (release s).banks = s.banks := by simp [release]
@[simp] theorem release_counters (s : State) : (release s).counters = s.counters := by simp [release]
@[simp] theorem release_pins (s : State) : (release s).pins = { s.pins with path := .released } := by simp [release]
@[simp] theorem release_tap (s : State) : (release s).tap = { s.tap with known := false, ones := 0#3 } := by
  simp [release]

/-- `acquire()`. -/
theorem acquire_spec (s : State) :
    Lines s (acquire s) [.path .bitBang] ∧ Plays s (acquire s) [.path .bitBang] (Wave.mark (.path .bitBang)) := by
  refine ⟨⟨⟨?_, ?_, ?_, ?_, ?_, ?_, ?_, ?_, ?_, ?_, ?_, fun h => emit_undisturbed _ _ h, ?_, ?_, ?_, ?_, ?_, ?_⟩,
    ?_, ?_, ?_, ?_, ?_, ?_, rfl⟩, fun before => ?_⟩ <;>
  simp [acquire, newEvents, trackEvent, pathAfter, Event.isMismatch, answeredBy, Event.isDone, levelsAfter, waited,
    Wave.mark, Event.blind]

/-- `release()`. -/
theorem release_spec (s : State) :
    Lines s (release s) [.path .released] ∧ Plays s (release s) [.path .released] (Wave.mark (.path .released)) := by
  refine ⟨⟨⟨?_, ?_, ?_, ?_, ?_, ?_, ?_, ?_, ?_, ?_, ?_, fun h => emit_undisturbed _ _ h, ?_, ?_, ?_, ?_, ?_, ?_⟩,
    ?_, ?_, ?_, ?_, ?_, ?_, rfl⟩, fun before => ?_⟩ <;>
  simp [release, newEvents, trackEvent, pathAfter, Event.isMismatch, answeredBy, Event.isDone, levelsAfter, waited,
    Wave.mark, Event.blind]

/-- `if PATH = Released then acquire()`. -/
theorem acquireIfReleased_spec (s : State) :
    Lines s (acquireIfReleased s) (acquireEvents s.pins.path) ∧
      (acquireIfReleased s).pins.tdi = s.pins.tdi ∧
      (acquireIfReleased s).banks = s.banks ∧ (acquireIfReleased s).counters = s.counters := by
  unfold acquireIfReleased acquireEvents
  split
  · exact ⟨(acquire_spec s).1, by simp, by simp, by simp⟩
  · exact ⟨Lines.refl s, rfl, rfl, rfl⟩

/-! ### Scripts change the mode and MISMATCH beside the lines -/

/-- What a script can do beside working the lines: set DEVMODE and MISMATCH. -/
structure Script (s t : State) (evs : List Event) : Prop extends Moves s t evs where
  sameTimeout : t.flags.timeout = s.flags.timeout
  fsr : t.fsr = s.fsr
  stats : t.stats = s.stats
  work : t.work = s.work
  source : t.env.source = s.env.source
  quiet : reportsOf evs = []

theorem Lines.script {s t : State} {evs : List Event} (h : Lines s t evs) : Script s t evs :=
  ⟨h.toMoves, by rw [h.flags], h.fsr, h.stats, h.work, h.source, h.quiet⟩

theorem Script.trans {s t u : State} {e1 e2 : List Event} (h1 : Script s t e1) (h2 : Script t u e2) :
    Script s u (e1 ++ e2) :=
  ⟨h1.toMoves.trans h2.toMoves, h2.sameTimeout.trans h1.sameTimeout, h2.fsr.trans h1.fsr, h2.stats.trans h1.stats,
   h2.work.trans h1.work, h2.source.trans h1.source, quiet_append h1.quiet h2.quiet⟩

theorem Script.setMode {s t : State} {evs : List Event} (h : Script s t evs) (m : DevMode) :
    Script s { t with devmode := m } evs :=
  ⟨⟨h.trace, h.cfg, h.regs, h.res, h.buf, h.ctl, h.inputs, h.resets, h.tap, h.path, h.tck, h.undisturbed, h.time,
    h.mismatch, h.timeout, h.target, h.noDone, h.levels⟩, h.sameTimeout, h.fsr, h.stats, h.work, h.source, h.quiet⟩

/-- The masked comparison inside a script. -/
theorem check_script (r e m : Word) (s : State) : Script s (check r e m s).2 (checkEvents r e m) :=
  ⟨check_moves r e m s, by simp [Flags.afterCheck], by simp, by simp, by simp, by simp, checkEvents_quiet r e m⟩

/-! ### Parts of the scripts -/

/-- The sixty-four ones of a script's instruction scan, and so on: the scan of a fixed instruction value. -/
theorem sirOp_spec (op : Byte) (idleAfter : Option IdleWait) (s : State) :
    ∃ evs n, Lines s (sirOp op idleAfter s) evs ∧ Plays s (sirOp op idleAfter s) evs (Wave.sirOp op n) ∧
      tailPulsesOf idleAfter n := sir_spec _ _ _

/-- Without an idle tail the wave is fixed. -/
theorem sirOp_none_spec (op : Byte) (s : State) :
    ∃ evs, Lines s (sirOp op none s) evs ∧ Plays s (sirOp op none s) evs (Wave.sirOp op none) := by
  obtain ⟨evs, n, h1, h2, h3⟩ := sirOp_spec op none s
  cases n with
  | none => exact ⟨evs, h1, h2⟩
  | some n => exact h3.elim

/-- With one, its pulses are at least those owed. -/
theorem sirOp_some_spec (op : Byte) (w : IdleWait) (s : State) :
    ∃ evs n, Lines s (sirOp op (some w) s) evs ∧ Plays s (sirOp op (some w) s) evs (Wave.sirOp op (some n)) ∧
      idlePulsesOf w n := by
  obtain ⟨evs, n, h1, h2, h3⟩ := sirOp_spec op (some w) s
  cases n with
  | none => exact h3.elim
  | some n => exact ⟨evs, n, h1, h2, h3⟩

theorem sdr_none_spec (bits : List Bool) (s : State) :
    ∃ evs, Lines s (sdr bits none none s).2 evs ∧ Plays s (sdr bits none none s).2 evs (Wave.sdr bits none none) ∧
      (sdr bits none none s).1 = ((samplesOf evs).drop 2).take bits.length ∧
      (sdr bits none none s).1.length = bits.length := by
  obtain ⟨evs, n, h1, h2, h3, h4, h5⟩ := sdr_spec bits none none s
  cases n with
  | none => exact ⟨evs, h1, h2, h4, h5⟩
  | some n => exact h3.elim

theorem sdr_some_spec (bits : List Bool) (w : IdleWait) (s : State) :
    ∃ evs n, Lines s (sdr bits none (some w) s).2 evs ∧
      Plays s (sdr bits none (some w) s).2 evs (Wave.sdr bits none (some n)) ∧ idlePulsesOf w n := by
  obtain ⟨evs, n, h1, h2, h3, -⟩ := sdr_spec bits none (some w) s
  cases n with
  | none => exact h3.elim
  | some n => exact ⟨evs, n, h1, h2, h3⟩

/-- The reset and the idle cycle a script starts with. -/
theorem scriptStart_spec (s : State) :
    ∃ evs, Lines s (scriptStart s) evs ∧ Plays s (scriptStart s) evs Wave.scriptStart := by
  obtain ⟨e1, a1, a2, -⟩ := tapReset_spec s
  obtain ⟨e2, n, b1, b2, b3, -⟩ := idle_spec { cycles := Config.identIdleCycles, ticks := 0 } (tapReset s)
  have h := wire_trans ⟨a1, a2⟩ ⟨b1, b2⟩
  rw [b3.2 rfl] at h
  exact ⟨_, h.1, h.2⟩

theorem Plays.segment {s t : State} {evs : List Event} {f : Wave → Wave} (h : Plays s t evs f) :
    segment s.pins.tdi evs f t.pins.tdi := h.plays

/-- STATUS_BITS has one value (spec 00_scope R10). -/
@[simp] theorem StatusBits.count_eq (b : StatusBits) : b.count = 32 := by cases b; rfl

/-- A status check (spec 43 R224, R225): instruction scan, data scan, comparison of the scanned word with 0. -/
theorem checkStatus_spec (mask : Word) (s : State) :
    ∃ e1 scan, Script s (checkStatus mask s).2 (e1 ++ scan ++ checkEvents (scannedWord 32 scan) 0#32 mask) ∧
      Plays s (sirOp s.cfg.op.lscReadStatus none s) e1 (Wave.sirOp s.cfg.op.lscReadStatus none) ∧
      Plays (sirOp s.cfg.op.lscReadStatus none s) (checkStatus mask s).2 scan
        (Wave.sdr (List.replicate 32 false) none none) ∧
      (checkStatus mask s).1 = maskedMismatch (scannedWord 32 scan) 0#32 mask ∧
      (checkStatus mask s).2.devmode = s.devmode := by
  generalize hn : List.replicate 32 false = zeros
  have hl : zeros.length = 32 := by rw [← hn, List.length_replicate]
  generalize hs1 : sirOp s.cfg.op.lscReadStatus none s = s1
  obtain ⟨e1, a1, a2⟩ := sirOp_none_spec s.cfg.op.lscReadStatus s
  obtain ⟨e2, b1, b2, b3, -⟩ := sdr_none_spec zeros s1
  rw [hs1] at a1 a2
  have hr : readStatus s = (scannedWord 32 e2, (sdr zeros none none s1).2) := by
    simp only [readStatus, StatusBits.count_eq, hn, hs1, scannedWord, b3, hl]
  have hc : checkStatus mask s = check (scannedWord 32 e2) 0#32 mask (sdr zeros none none s1).2 := by
    simp only [checkStatus, hr]
  rw [hc]
  exact ⟨e1, e2, ((a1.trans b1).script).trans (check_script _ _ _ _), a2, b2.congr rfl (by simp), by simp,
    by rw [check_devmode, b1.devmode, a1.devmode]⟩

/-! ### The scripts -/

/-- `openForConfiguration()` (spec 43 R224). -/
theorem openForConfiguration_spec (s : State) :
    ∃ e1 scan1 e2 scan2 k1 k2 x1 x2,
      Script s (openForConfiguration s).2
        (e1 ++ scan1 ++ checkEvents (scannedWord 32 scan1) 0#32 Config.maskStatusA ++
          e2 ++ scan2 ++ checkEvents (scannedWord 32 scan2) 0#32 Config.maskStatusB) ∧
      segment s.pins.tdi e1 (fun w => ((((w.scriptStart.sirOp s.cfg.op.preload none).sdr
        (List.replicate Config.preloadBits true) none none).sirOp s.cfg.op.iscEnable (some k1)).sirOp
        s.cfg.op.lscReadStatus none)) x1 ∧
      segment x1 scan1 (Wave.sdr (List.replicate 32 false) none none) false ∧
      segment false e2 (fun w => (w.sirOp s.cfg.op.iscErase (some k2)).sirOp s.cfg.op.lscReadStatus none) x2 ∧
      segment x2 scan2 (Wave.sdr (List.replicate 32 false) none none)
        (openForConfiguration s).2.pins.tdi ∧
      idlePulsesOf s.cfg.cfgWait k1 ∧ idlePulsesOf s.cfg.cfgWait k2 ∧
      (openForConfiguration s).1 =
        (!maskedMismatch (scannedWord 32 scan1) 0#32 Config.maskStatusA &&
         !maskedMismatch (scannedWord 32 scan2) 0#32 Config.maskStatusB) ∧
      (openForConfiguration s).2.devmode = .configuredForSRAM := by
  obtain ⟨a, a1, a2⟩ := scriptStart_spec s
  generalize hsa : scriptStart s = sa at *
  obtain ⟨b, b1, b2⟩ := sirOp_none_spec s.cfg.op.preload sa
  generalize hsb : sirOp s.cfg.op.preload none sa = sb at *
  obtain ⟨c, c1, c2, -⟩ := sdr_none_spec (List.replicate Config.preloadBits true) sb
  generalize hsc : (sdr (List.replicate Config.preloadBits true) none none sb).2 = sc at *
  have hcfgc : sc.cfg = s.cfg := by rw [c1.cfg, b1.cfg, a1.cfg]
  obtain ⟨d, k1, d1, d2, d3⟩ := sirOp_some_spec s.cfg.op.iscEnable s.cfg.cfgWait sc
  generalize hsd : sirOp s.cfg.op.iscEnable (some s.cfg.cfgWait) sc = sd at *
  have hcfgd : sd.cfg = s.cfg := by rw [d1.cfg, hcfgc]
  obtain ⟨e, scan1, f1, f2, f3, f4, -⟩ := checkStatus_spec Config.maskStatusA sd
  rw [hcfgd] at f2
  rw [hcfgd] at f3
  generalize hm1 : sirOp s.cfg.op.lscReadStatus none sd = m1 at *
  generalize hr1 : checkStatus Config.maskStatusA sd = r1 at *
  have hcfgr : r1.2.cfg = s.cfg := by rw [f1.cfg, hcfgd]
  have htdi1 : r1.2.pins.tdi = false := by
    have := congrArg Wave.tdi (f3 [])
    simpa [Wave.sdr, Wave.shift, Wave.tms, Wave.tail, List.replicate] using this.symm
  obtain ⟨g, k2, g1, g2, g3⟩ := sirOp_some_spec s.cfg.op.iscErase s.cfg.cfgWait r1.2
  generalize hsg : sirOp s.cfg.op.iscErase (some s.cfg.cfgWait) r1.2 = sg at *
  have hcfgg : sg.cfg = s.cfg := by rw [g1.cfg, hcfgr]
  obtain ⟨h, scan2, i1, i2, i3, i4, -⟩ := checkStatus_spec Config.maskStatusB sg
  rw [hcfgg] at i2
  rw [hcfgg] at i3
  generalize hm2 : sirOp s.cfg.op.lscReadStatus none sg = m2 at *
  generalize hr2 : checkStatus Config.maskStatusB sg = r2 at *
  have he : openForConfiguration s = (!r1.1 && !r2.1, { r2.2 with devmode := .configuredForSRAM }) := by
    simp only [openForConfiguration, hsa, hsb, hsc, hsd, hr1, hsg, hr2]
  rw [he]
  refine ⟨a ++ b ++ c ++ d ++ e, scan1, g ++ h, scan2, k1, k2, m1.pins.tdi, m2.pins.tdi, ?_,
    ((((a2.trans b2).trans c2).trans d2).trans f2).segment, ?_, ?_, i3.segment, d3, g3, by rw [f4, i4], rfl⟩
  · have := (((((a1.trans b1).trans c1).trans d1).script.trans f1).trans g1.script).trans i1
    simp only [List.append_assoc] at this ⊢
    exact this.setMode _
  · have := f3.segment
    rwa [htdi1] at this
  · have := (g2.trans i2).segment
    rwa [htdi1] at this

/-- `openForFlash()` after `openForConfiguration()` (spec 43 R226). -/
theorem openForFlash_spec (s : State) :
    ∃ evs k1 k2, Script (openForConfiguration s).2 (openForFlash s).2 evs ∧
      segment (openForConfiguration s).2.pins.tdi evs (Wave.flashEntry s.cfg k1 k2) (openForFlash s).2.pins.tdi ∧
      k1 = Config.longIdleCycles ∧ k2 = Config.longIdleCycles ∧
      (openForFlash s).1 = (openForConfiguration s).1 ∧ (openForFlash s).2.devmode = .configuredForFlash := by
  generalize hr : openForConfiguration s = r
  have hcfg : r.2.cfg = s.cfg := by
    obtain ⟨_, _, _, _, _, _, _, _, h, -⟩ := openForConfiguration_spec s
    rw [← hr]; exact h.cfg
  obtain ⟨a, a1, a2⟩ := scriptStart_spec r.2
  generalize hsa : scriptStart r.2 = sa at *
  obtain ⟨b, k1, b1, b2, b3⟩ := sirOp_some_spec s.cfg.op.bypass longIdle sa
  generalize hsb : sirOp s.cfg.op.bypass (some longIdle) sa = sb at *
  obtain ⟨c, c1, c2⟩ := sirOp_none_spec s.cfg.op.lscProgSpi sb
  generalize hsc : sirOp s.cfg.op.lscProgSpi none sb = sc at *
  obtain ⟨d, k2, d1, d2, d3⟩ := sdr_some_spec (numberBits s.cfg.progSpiBits s.cfg.progSpiWord) longIdle sc
  generalize hsd : (sdr (numberBits s.cfg.progSpiBits s.cfg.progSpiWord) none (some longIdle) sc).2 = sd at *
  have he : openForFlash s = (r.1, { sd with devmode := .configuredForFlash }) := by
    simp only [openForFlash, hr, hsa, hsb, hsc, hsd]
  have hp := ((a2.trans b2).trans c2).trans d2
  rw [he]
  refine ⟨_, k1, k2, ((((a1.trans b1).trans c1).trans d1).script).setMode _, ?_, b3.2 rfl, d3.2 rfl, rfl, rfl⟩
  exact hp.segment

/-- The scans of IDENTIFY (spec 43 R222). -/
theorem identifyScan_spec (s : State) :
    ∃ e1 scan x, Lines s (identifyScan s).2 (e1 ++ scan) ∧
      segment s.pins.tdi e1 (fun w => w.scriptStart.sirOp s.cfg.op.readIdcode none) x ∧
      segment x scan (Wave.sdr (List.replicate Config.idcodeBits false) none none) (identifyScan s).2.pins.tdi ∧
      (identifyScan s).1 = scannedWord Config.idcodeBits scan := by
  generalize hn : List.replicate Config.idcodeBits false = zeros
  have hl : zeros.length = Config.idcodeBits := by rw [← hn, List.length_replicate]
  obtain ⟨a, a1, a2⟩ := scriptStart_spec s
  generalize hsa : scriptStart s = sa at *
  obtain ⟨b, b1, b2⟩ := sirOp_none_spec s.cfg.op.readIdcode sa
  generalize hsb : sirOp s.cfg.op.readIdcode none sa = sb at *
  obtain ⟨c, c1, c2, c3, -⟩ := sdr_none_spec zeros sb
  have he : identifyScan s = (scannedWord Config.idcodeBits c, (sdr zeros none none sb).2) := by
    simp only [identifyScan, hn, hsa, hsb, scannedWord, c3, hl]
  rw [he]
  exact ⟨_, c, sb.pins.tdi, (a1.trans b1).trans c1, (a2.trans b2).segment, c2.segment, rfl⟩

/-- The scans of CLOSE (spec 43 R228). -/
theorem closeScans_spec (s : State) :
    ∃ evs k, Lines s (closeScans s) evs ∧ Plays s (closeScans s) evs (Wave.close s.cfg k) ∧
      idlePulsesOf s.cfg.refreshWait k := by
  obtain ⟨a, a1, a2, -⟩ := sdr_none_spec (bitsOf [rev8 s.cfg.fc.wrdi] 8) s
  generalize hsa : (sdr (bitsOf [rev8 s.cfg.fc.wrdi] 8) none none s).2 = sa at *
  obtain ⟨b, k1, b1, b2, b3⟩ := sirOp_some_spec s.cfg.op.bypass longIdle sa
  generalize hsb : sirOp s.cfg.op.bypass (some longIdle) sa = sb at *
  obtain ⟨c, k2, c1, c2, c3⟩ := sirOp_some_spec s.cfg.op.iscDisable longIdle sb
  generalize hsc : sirOp s.cfg.op.iscDisable (some longIdle) sb = sc at *
  obtain ⟨d, d1, d2⟩ := sirOp_none_spec s.cfg.op.bypass sc
  generalize hsd : sirOp s.cfg.op.bypass none sc = sd at *
  obtain ⟨e, k, e1, e2, e3⟩ := sirOp_some_spec s.cfg.op.lscRefresh s.cfg.refreshWait sd
  generalize hse : sirOp s.cfg.op.lscRefresh (some s.cfg.refreshWait) sd = se at *
  obtain ⟨f, f1, f2, -⟩ := tapReset_spec se
  have he : closeScans s = tapReset se := by
    simp only [closeScans, hsa, hsb, hsc, hsd, hse]
  rw [he]
  refine ⟨_, k, ((((a1.trans b1).trans c1).trans d1).trans e1).trans f1, ?_, e3⟩
  have h := ((((a2.trans b2).trans c2).trans d2).trans e2).trans f2
  rw [b3.2 rfl, c3.2 rfl] at h
  exact h

end Sys2Proof.Machine
end

