-- ==== Sys2Proof/Laws/Flash.lean ====
section
/-! SUPPORT. The flash engine's operations below the upload: frames, the status poll, erase, write, read; one lemma
each. -/

namespace Sys2Proof.Machine

/-- What a flash operation can do beside working the lines: write FSR and FLAGS. -/
structure FlashOp (s t : State) (evs : List Event) : Prop extends Moves s t evs where
  devmode : t.devmode = s.devmode
  stats : t.stats = s.stats
  work : t.work = s.work
  source : t.env.source = s.env.source
  quiet : reportsOf evs = []

theorem Lines.flashOp {s t : State} {evs : List Event} (h : Lines s t evs) : FlashOp s t evs :=
  ⟨h.toMoves, h.devmode, h.stats, h.work, h.source, h.quiet⟩

theorem FlashOp.trans {s t u : State} {e1 e2 : List Event} (h1 : FlashOp s t e1) (h2 : FlashOp t u e2) :
    FlashOp s u (e1 ++ e2) :=
  ⟨h1.toMoves.trans h2.toMoves, h2.devmode.trans h1.devmode, h2.stats.trans h1.stats, h2.work.trans h1.work,
   h2.source.trans h1.source, quiet_append h1.quiet h2.quiet⟩

theorem FlashOp.setFsr {s t : State} {evs : List Event} (h : FlashOp s t evs) (b : Byte) :
    FlashOp s { t with fsr := b } evs :=
  ⟨⟨h.trace, h.cfg, h.regs, h.res, h.buf, h.ctl, h.inputs, h.resets, h.tap, h.path, h.tck, h.undisturbed, h.time,
    h.mismatch, h.timeout, h.target, h.noDone, h.levels⟩, h.devmode, h.stats, h.work, h.source, h.quiet⟩

theorem FlashOp.ofCounters {s t : State} {evs : List Event} (c : Counters)
    (h : FlashOp { s with counters := c } t evs) : FlashOp s t evs :=
  ⟨⟨h.trace, h.cfg, h.regs, h.res, h.buf, h.ctl, h.inputs, h.resets, h.tap, h.path, h.tck, h.undisturbed, h.time,
    h.mismatch, h.timeout, h.target, h.noDone, h.levels⟩, h.devmode, h.stats, h.work, h.source, h.quiet⟩

theorem check_flashOp (r e m : Word) (s : State) : FlashOp s (check r e m s).2 (checkEvents r e m) :=
  ⟨check_moves r e m s, by simp, by simp, by simp, by simp, checkEvents_quiet r e m⟩

/-! ### Frames (spec 44 R240) -/

/-- A bit-banged frame. -/
theorem frameBB_spec (frame : List Byte) (s : State) :
    ∃ evs, Lines s (frameBB frame s).2 evs ∧ Plays s (frameBB frame s).2 evs (Wave.frame frame) ∧
      (frameBB frame s).1 = flashBytesOf frame.length (((samplesOf evs).drop 2).take (8 * frame.length)) := by
  obtain ⟨evs, h1, h2, h3, -⟩ := sdr_none_spec (bitsOf (frame.map rev8) (8 * frame.length)) s
  refine ⟨evs, h1, h2, ?_⟩
  rw [bitsOf_length, List.length_map, Nat.min_self] at h3
  simp only [frameBB, h3, flashBytesOf]

/-- SR_BITS is one byte, so the status frame is the command and one zero byte (spec 00_scope R10, 44 R241). -/
theorem statusFrame_eq (p : Params) : statusFrame p = [p.fc.rdsr, 0#8] := by
  have h : p.srBits.count = 8 := by cases p.srBits; rfl
  rw [statusFrame, h]
  rfl

/-- `readFlashStatus()` (spec 44 R241). -/
theorem readFlashStatus_spec (s : State) :
    ∃ evs, FlashOp s (readFlashStatus s).2 evs ∧
      segment s.pins.tdi evs (Wave.frame [s.cfg.fc.rdsr, 0#8]) false ∧ (readFlashStatus s).2.pins.tdi = false ∧
      (readFlashStatus s).1 = statusOf evs ∧ (readFlashStatus s).2.fsr = statusOf evs ∧
      (readFlashStatus s).2.flags = s.flags := by
  obtain ⟨evs, h1, h2, h3⟩ := frameBB_spec [s.cfg.fc.rdsr, 0#8] s
  have hb : (frameBB [s.cfg.fc.rdsr, 0#8] s).1.getD 1 0#8 = statusOf evs := by rw [h3]; rfl
  generalize hr : frameBB [s.cfg.fc.rdsr, 0#8] s = r at *
  have he : readFlashStatus s = (statusOf evs, { r.2 with fsr := statusOf evs }) := by
    simp only [readFlashStatus, statusFrame_eq, hr, hb]
  have ht : r.2.pins.tdi = false := by
    have h := congrArg Wave.tdi (h2 [])
    have hz : ∀ (x y : Bool), (bitsOf ([s.cfg.fc.rdsr, 0#8].map rev8) (8 * [s.cfg.fc.rdsr, 0#8].length)).getLastD x =
        false := by
      intro x _
      simp [bitsOf, rev8, byteBits, List.range, List.range.loop, byteOf, wordOf]
    simp only [Wave.frame, Wave.sdr, Wave.shift, Wave.tms, Wave.tail, hz _ false] at h
    exact h.symm
  rw [he]
  refine ⟨evs, h1.flashOp.setFsr _, ?_, ht, rfl, rfl, h1.flags⟩
  have := h2.segment
  rwa [ht] at this

/-! ### The poll (spec 44 R243) -/

/-- What ends a poll (spec 44 R243). -/
theorem pollDone_iff (p : Params) (sr : Byte) : pollDone p sr = true ↔ sr &&& (p.srWip ||| p.srWel) = 0#8 := by
  simp [pollDone]

/-- The loop of `pollStatus`. -/
theorem pollLoop_spec (delay n : Nat) (before : Byte) (s : State) :
    ∃ evs, FlashOp s (pollLoop delay n before s).2 evs ∧
      PollTrace s.cfg delay n s.pins.tdi before evs (pollLoop delay n before s).1.1 (pollLoop delay n before s).1.2 ∧
      (pollLoop delay n before s).2.fsr = (if n = 0 then s.fsr else (pollLoop delay n before s).1.1) ∧
      (pollLoop delay n before s).2.flags.timeout = (s.flags.timeout || (pollLoop delay n before s).1.2) ∧
      (pollLoop delay n before s).2.flags.mismatch = s.flags.mismatch := by
  induction n generalizing before s with
  | zero =>
    refine ⟨[], ⟨⟨rfl, rfl, rfl, rfl, rfl, rfl, rfl, rfl, rfl, rfl, id, id, Nat.le_refl _, by simp [pollLoop,
      Flags.setTimeout], fun _ => rfl, rfl, rfl, rfl⟩, rfl, rfl, rfl, rfl, rfl⟩, ⟨rfl, rfl, rfl⟩, rfl, by simp [pollLoop,
      Flags.setTimeout], rfl⟩
  | succ n ih =>
    obtain ⟨scan, h1, h2, h3, h4, h5, h6⟩ := readFlashStatus_spec s
    generalize hr : readFlashStatus s = r at *
    simp only [pollLoop, hr, h4]
    by_cases hd : pollDone s.cfg (statusOf scan) = true
    · rw [if_pos hd]
      exact ⟨scan, h1, ⟨scan, h2, by rw [if_pos ((pollDone_iff _ _).1 hd)]; exact ⟨rfl, rfl, rfl⟩⟩, h5, by simp [h6], by rw [h6]⟩
    · rw [if_neg hd]
      obtain ⟨p1, p2, -⟩ := pauseFor_spec delay { r.2 with counters.attempt := n }
      have hflags := p1.flags
      have hcfg := p1.cfg
      have htdi := pauseFor_pins delay { r.2 with counters.attempt := n }
      have hfsr := p1.fsr
      have hp : FlashOp r.2 (pauseFor delay { r.2 with counters.attempt := n }) [.wait delay] := p1.flashOp.ofCounters
      generalize pauseFor delay { r.2 with counters.attempt := n } = s1 at *
      obtain ⟨evs, g1, g2, g3, g4, g5⟩ := ih (statusOf scan) s1
      rw [hcfg, htdi, h1.cfg] at g2
      simp only [h3] at g2
      refine ⟨_, h1.trans (hp.trans g1), ⟨scan, h2, ?_⟩, ?_, ?_, ?_⟩
      · rw [if_neg (mt (pollDone_iff _ _).2 hd)]
        exact ⟨evs, rfl, g2⟩
      · rw [g3]
        cases n with
        | zero => simpa [pollLoop] using hfsr.trans h5
        | succ n => simp
      · rw [g4, hflags]; simp only [h6]
      · rw [g5, hflags]; simp only [h6]

/-- `pollStatus(attempts, delay)`. -/
theorem pollStatus_spec (attempts delay : Nat) (s : State) :
    ∃ evs, FlashOp s (pollStatus attempts delay s).2 evs ∧
      PollTrace s.cfg delay attempts s.pins.tdi s.fsr evs (pollStatus attempts delay s).1.1
        (pollStatus attempts delay s).1.2 ∧
      (pollStatus attempts delay s).2.fsr = (pollStatus attempts delay s).1.1 ∧
      (pollStatus attempts delay s).2.flags.timeout = (s.flags.timeout || (pollStatus attempts delay s).1.2) ∧
      (pollStatus attempts delay s).2.flags.mismatch = s.flags.mismatch := by
  obtain ⟨evs, h1, h2, h3, h4, h5⟩ := pollLoop_spec delay attempts s.fsr { s with counters.attempt := attempts }
  refine ⟨evs, h1.ofCounters, h2, ?_, h4, h5⟩
  simp only [pollStatus]
  rw [h3]
  cases attempts with
  | zero => simp [pollLoop]
  | succ n => simp

/-- The status byte that ends a status frame leaves TDI low. -/
theorem pollLoop_tdi (delay n : Nat) (before : Byte) (s : State) (h : 0 < n) :
    (pollLoop delay n before s).2.pins.tdi = false := by
  induction n generalizing before s with
  | zero => omega
  | succ n ih =>
    obtain ⟨scan, -, -, h3, -⟩ := readFlashStatus_spec s
    simp only [pollLoop]
    split
    · exact h3
    · cases n with
      | zero => simpa [pollLoop] using h3
      | succ n => exact ih _ _ (by omega)

theorem pollStatus_tdi (attempts delay : Nat) (s : State) (h : 0 < attempts) :
    (pollStatus attempts delay s).2.pins.tdi = false := pollLoop_tdi delay attempts _ _ h

/-! ### Erase, write, read (spec 44 R245, R248, R250) -/

/-- `eraseBlock(a)`. -/
theorem eraseBlock_spec (a : Nat) (s : State) :
    ∃ evs sr, FlashOp s (eraseBlock a s).2 evs ∧ EraseTrace s.cfg a s.pins.tdi evs sr (eraseBlock a s).1 ∧
      (eraseBlock a s).2.fsr = sr ∧ (eraseBlock a s).2.flags.timeout = (s.flags.timeout || (eraseBlock a s).1) := by
  obtain ⟨e1, a1, a2, -⟩ := frameBB_spec [s.cfg.fc.wren] s
  generalize hs1 : (frameBB [s.cfg.fc.wren] s).2 = s1 at *
  obtain ⟨scan, b1, b2, b3, b4, b5, b6⟩ := readFlashStatus_spec s1
  rw [a1.cfg] at b2
  generalize hr : readFlashStatus s1 = r at *
  have c1 := check_flashOp ((statusOf scan).setWidth 32) (s.cfg.srWel.setWidth 32) (s.cfg.srWel.setWidth 32) r.2
  have c2 := check_pins ((statusOf scan).setWidth 32) (s.cfg.srWel.setWidth 32) (s.cfg.srWel.setWidth 32) r.2
  have c3 := check_fsr ((statusOf scan).setWidth 32) (s.cfg.srWel.setWidth 32) (s.cfg.srWel.setWidth 32) r.2
  have c4 := check_flags ((statusOf scan).setWidth 32) (s.cfg.srWel.setWidth 32) (s.cfg.srWel.setWidth 32) r.2
  generalize hs2 : (check ((statusOf scan).setWidth 32) (s.cfg.srWel.setWidth 32) (s.cfg.srWel.setWidth 32) r.2).2
    = s2 at *
  obtain ⟨e2, d1, d2, -⟩ := frameBB_spec (s.cfg.fc.erase :: addressBytes a) s2
  generalize hs3 : (frameBB (s.cfg.fc.erase :: addressBytes a) s2).2 = s3 at *
  obtain ⟨e3, f1, f2, f3, f4, -⟩ := pollStatus_spec s.cfg.erasePoll.attempts s.cfg.erasePoll.delay s3
  have hcfg3 : s3.cfg = s.cfg := by rw [d1.cfg, c1.cfg, b1.cfg, a1.cfg]
  have hfsr3 : s3.fsr = statusOf scan := by rw [d1.fsr, c3, b5]
  have hto3 : s3.flags.timeout = s.flags.timeout := by
    rw [d1.flags, c4, b6, a1.flags]; rfl
  rw [hcfg3, hfsr3] at f2
  generalize hp : pollStatus s.cfg.erasePoll.attempts s.cfg.erasePoll.delay s3 = p at *
  have he : eraseBlock a s = (p.1.2, p.2) := by
    simp only [eraseBlock, hs1, hr, b4, hs2, hs3, hp]
  rw [he]
  refine ⟨_, p.1.1, (((a1.flashOp.trans b1).trans c1).trans d1.flashOp).trans f1,
    ⟨e1, scan, e2, e3, s1.pins.tdi, s3.pins.tdi, rfl, a2.segment, b2, ?_, f2⟩, f3, by rw [f4, hto3]⟩
  have := d2.segment
  rwa [c2, b3] at this

/-- `writeBlock(data, a)`. -/
theorem writeBlock_spec (data : List Byte) (a : Nat) (s : State) :
    ∃ evs sr, FlashOp s (writeBlock data a s).2 evs ∧
      WriteTrace s.cfg data a s.pins.tdi s.fsr evs sr (writeBlock data a s).1 ∧ (writeBlock data a s).2.fsr = sr ∧
      (writeBlock data a s).2.flags.timeout = (s.flags.timeout || (writeBlock data a s).1) ∧
      (writeBlock data a s).2.flags.mismatch = s.flags.mismatch := by
  obtain ⟨e1, a1, a2, -⟩ := frameBB_spec [s.cfg.fc.wren] s
  generalize hs0 : (frameBB [s.cfg.fc.wren] s).2 = s0 at *
  obtain ⟨e2, b1, b2, -⟩ := walk_spec [false, false] s0
  generalize hs1 : walk [false, false] s0 = s1 at *
  obtain ⟨e3, c1, c2, -⟩ := burstWrite_spec (s.cfg.fc.pageProgram :: addressBytes a) data.dropLast
    (rev8 (data.getLastD 0#8)) s1
  rw [b1.cfg, a1.cfg] at c2
  generalize hs2 : burstWrite (s.cfg.fc.pageProgram :: addressBytes a) data.dropLast (rev8 (data.getLastD 0#8)) s1
    = s2 at *
  obtain ⟨e4, d1, d2, -⟩ := walk_spec [false, true, true, true] s2
  generalize hs3 : walk [false, true, true, true] s2 = s3 at *
  obtain ⟨e5, f1, f2, f3, f4, f5⟩ := pollStatus_spec s.cfg.writePoll.attempts s.cfg.writePoll.delay s3
  have hcfg3 : s3.cfg = s.cfg := by rw [d1.cfg, c1.cfg, b1.cfg, a1.cfg]
  have hfsr3 : s3.fsr = s.fsr := by rw [d1.fsr, c1.fsr, b1.fsr, a1.fsr]
  have hfl3 : s3.flags = s.flags := by rw [d1.flags, c1.flags, b1.flags, a1.flags]
  rw [hcfg3, hfsr3] at f2
  generalize hp : pollStatus s.cfg.writePoll.attempts s.cfg.writePoll.delay s3 = p at *
  have he : writeBlock data a s = (p.1.2, p.2) := by
    simp only [writeBlock, hs0, hs1, hs2, hs3, hp]
  rw [he]
  exact ⟨_, p.1.1, ((((a1.trans b1).trans c1).trans d1).flashOp).trans f1,
    ⟨_, e5, s3.pins.tdi, rfl, (((a2.trans b2).trans c2).trans d2).segment, f2⟩, f3, by rw [f4, hfl3], by rw [f5, hfl3]⟩

theorem eraseBlock_tdi (a : Nat) (s : State) (h : 0 < s.cfg.erasePoll.attempts) :
    (eraseBlock a s).2.pins.tdi = false := pollStatus_tdi _ _ _ h

theorem writeBlock_tdi (data : List Byte) (a : Nat) (s : State) (h : 0 < s.cfg.writePoll.attempts) :
    (writeBlock data a s).2.pins.tdi = false := pollStatus_tdi _ _ _ h

/-- `readBlock(a, n)`. -/
theorem readBlock_spec (a n : Nat) (s : State) :
    ∃ evs, Lines s (readBlock a n s).2 evs ∧ Plays s (readBlock a n s).2 evs (Wave.readBlock s.cfg a n) ∧
      (readBlock a n s).1 = blockRead s.cfg n evs ∧ (readBlock a n s).1.length = n := by
  obtain ⟨e1, a1, a2, a3⟩ := walk_spec [false, false] s
  generalize hs1 : walk [false, false] s = s1 at *
  obtain ⟨e2, b1, b2, b3, b5, b4, -⟩ := burstRead_spec (s.cfg.fc.fastRead :: addressBytes a) n s1
  rw [a1.cfg] at b2 b3 b5
  generalize hr : burstRead (s.cfg.fc.fastRead :: addressBytes a) n s1 = r at *
  obtain ⟨e3, c1, c2, -⟩ := walk_spec [false, true, true, true] r.2
  have he : readBlock a n s = (r.1, walk [false, true, true, true] r.2) := by
    simp only [readBlock, hs1, hr]
  rw [he]
  refine ⟨_, (a1.trans b1).trans c1, (a2.trans b2).trans c2, ?_, b4⟩
  have h4 : (s.cfg.fc.fastRead :: addressBytes a).length = 4 := rfl
  rw [h4] at b3 b5
  have h2 : (samplesOf e1).length = 2 := by rw [samplesOf_length, a3]; rfl
  simp only [blockRead, samplesOf_append, List.append_assoc]
  rw [← List.drop_drop, List.drop_left' h2, List.drop_append_of_le_length b5]
  exact (b3 _).symm

end Sys2Proof.Machine
end

