-- ==== Sys2Proof/Laws/Steady.lean ====
section
/-! SUPPORT. What every operation inside a command keeps of the invariant between commands: acquired lines stay
acquired at its end, and the shift banks and counters keep their bounds. -/

namespace Sys2Proof.Machine

/-- The bounds of the shift banks and counters (spec 10_state R34, R37, R48, R51). -/
structure CountersOk (s : State) : Prop where
  drbitsLength : s.banks.drbits.length = s.banks.drlen
  drcapLength : s.banks.drcap.length = s.banks.drlen
  drlenWidth : s.banks.drlen < 2 ^ 32
  bitcntWidth : s.banks.bitcnt < 2 ^ 32
  cyccntWidth : s.counters.cyccnt < 2 ^ 32
  attemptWidth : s.counters.attempt < 2 ^ 32

/-- An operation that ends with the lines acquired if it began so, and keeps the bounds. -/
structure Steady (s t : State) : Prop where
  path : s.pins.path = .bitBang → t.pins.path = .bitBang
  counters : CountersOk s → CountersOk t

theorem Steady.refl (s : State) : Steady s s := ⟨id, id⟩

theorem Steady.trans {s t u : State} (h1 : Steady s t) (h2 : Steady t u) : Steady s u :=
  ⟨fun h => h2.path (h1.path h), fun h => h2.counters (h1.counters h)⟩

/-- Only the path, the banks and the counters count. -/
theorem Steady.congr {s t s' t' : State} (h : Steady s t) (hp : s'.pins.path = s.pins.path)
    (hb : s'.banks = s.banks) (hc : s'.counters = s.counters) (hp' : t'.pins.path = t.pins.path)
    (hb' : t'.banks = t.banks) (hc' : t'.counters = t.counters) : Steady s' t' where
  path := by rw [hp, hp']; exact h.path
  counters := fun k => by
    have k' : CountersOk s := ⟨hb ▸ k.1, hb ▸ k.2, hb ▸ k.3, hb ▸ k.4, hc ▸ k.5, hc ▸ k.6⟩
    have r := h.counters k'
    exact ⟨hb' ▸ r.1, hb' ▸ r.2, hb' ▸ r.3, hb' ▸ r.4, hc' ▸ r.5, hc' ▸ r.6⟩

theorem CountersOk.congr {s t : State} (h : CountersOk s) (hb : t.banks = s.banks) (hc : t.counters = s.counters) :
    CountersOk t := ⟨hb ▸ h.1, hb ▸ h.2, hb ▸ h.3, hb ▸ h.4, hc ▸ h.5, hc ▸ h.6⟩

theorem Steady.setMode {s t : State} (h : Steady s t) (m : DevMode) : Steady s { t with devmode := m } :=
  ⟨h.path, fun k => (h.counters k).congr rfl rfl⟩

theorem Steady.setFsr {s t : State} (h : Steady s t) (b : Byte) : Steady s { t with fsr := b } :=
  ⟨h.path, fun k => (h.counters k).congr rfl rfl⟩

/-! ### Pulses and scans -/

@[simp] theorem setTms_path (tms : Bool) (s : State) : (setTms tms s).pins.path = s.pins.path := by simp [setTms]

@[simp] theorem walk_path (l : List Bool) (s : State) : (walk l s).pins.path = s.pins.path := by
  induction l generalizing s with
  | nil => rfl
  | cons b bs ih => simp [walk, ih]

@[simp] theorem shiftLoop_path (last : Bool) (bits : List Bool) (s : State) :
    (shiftLoop last bits s).2.pins.path = s.pins.path := by
  induction bits generalizing s with
  | nil => rfl
  | cons b bs ih => simp [shiftLoop, ih]

@[simp] theorem idleCycles_path (n : Nat) (s : State) : (idleCycles n s).pins.path = s.pins.path := by
  induction n generalizing s with
  | zero => rfl
  | succ n ih => simp [idleCycles, ih]

@[simp] theorem idleUntilDeadline_path (n : Nat) (s : State) :
    (idleUntilDeadline n s).pins.path = s.pins.path := by
  induction n generalizing s with
  | zero => rfl
  | succ n ih => simp only [idleUntilDeadline]; split <;> simp [ih]

@[simp] theorem idle_path (w : IdleWait) (s : State) : (idle w s).pins.path = s.pins.path := by
  simp [idle]

@[simp] theorem scanTail_path (idleAfter : Option IdleWait) (s : State) :
    (scanTail idleAfter s).pins.path = s.pins.path := by
  cases idleAfter <;> simp [scanTail]

@[simp] theorem pauseDr_path (pause : Option Nat) (s : State) : (pauseDr pause s).pins.path = s.pins.path := by
  cases pause <;> simp [pauseDr]

@[simp] theorem sir_path (bits : List Bool) (idleAfter : Option IdleWait) (s : State) :
    (sir bits idleAfter s).pins.path = s.pins.path := by simp [sir, shiftBits]

@[simp] theorem sdr_path (bits : List Bool) (pause : Option Nat) (idleAfter : Option IdleWait) (s : State) :
    (sdr bits pause idleAfter s).2.pins.path = s.pins.path := by simp [sdr, shiftBits]

theorem walk_steady (l : List Bool) (s : State) : Steady s (walk l s) :=
  ⟨fun h => by simpa using h, fun h => h.congr (by simp) (by simp)⟩

theorem tapReset_steady (s : State) : Steady s (tapReset s) := walk_steady _ _

theorem idle_steady (w : IdleWait) (s : State) : Steady s (idle w s) := by
  refine ⟨fun h => by simpa using h, fun h => ?_⟩
  have hb := idle_banks w s
  have hc := idle_counters w s
  exact ⟨hb ▸ h.1, hb ▸ h.2, hb ▸ h.3, hb ▸ h.4, by rw [hc]; exact Nat.two_pow_pos 32, by rw [hc]; exact h.6⟩

theorem scanTail_steady (idleAfter : Option IdleWait) (s : State) : Steady s (scanTail idleAfter s) := by
  cases idleAfter with
  | none => exact ⟨fun h => by simpa [scanTail] using h, fun h => h.congr (by simp) (by simp [scanTail])⟩
  | some w => exact idle_steady w s

@[simp] theorem shiftBits_counters (bits : List Bool) (s : State) : (shiftBits bits s).2.counters = s.counters := by
  obtain ⟨-, -, -, -, -, h⟩ := shiftBits_spec bits s
  exact h.counters

/-- The tail of a scan is steady, so a scan is if its body leaves good banks. -/
theorem sir_steady (bits : List Bool) (idleAfter : Option IdleWait) (s : State) (hl : bits.length < 2 ^ 32) :
    Steady s (sir bits idleAfter s) := by
  refine ⟨fun h => by simpa using h, fun h => ?_⟩
  refine (scanTail_steady idleAfter _).counters ?_
  obtain ⟨-, -, -, -, -, g⟩ :=
    shiftBits_spec bits (walk [true, false, false] { s with banks.irsr := BitVec.ofNat 32 (wordOf bits) })
  have hd := g.drbits
  have hc := g.drcap
  have hn := g.drlen
  have hb := g.bitcnt
  have hk := g.counters
  simp only [walk_banks, walk_counters] at hd hc hn hb hk
  refine ⟨?_, ?_, ?_, ?_, ?_, ?_⟩ <;> simp only [walk_banks, walk_counters]
  · rw [hd, hn]; exact h.1
  · rw [hc, hn]; exact h.2
  · rw [hn]; exact h.3
  · rw [hb]; omega
  · rw [hk]; exact h.5
  · rw [hk]; exact h.6

theorem sdr_steady (bits : List Bool) (pause : Option Nat) (idleAfter : Option IdleWait) (s : State)
    (hl : bits.length < 2 ^ 32) : Steady s (sdr bits pause idleAfter s).2 := by
  refine ⟨fun h => by simpa using h, fun h => ?_⟩
  refine (scanTail_steady idleAfter _).counters ?_
  obtain ⟨-, -, -, -, hlen, g⟩ :=
    shiftBits_spec bits (walk [false, false] { s with banks.drbits := bits, banks.drlen := bits.length })
  have hd := g.drbits
  have hn := g.drlen
  have hb := g.bitcnt
  have hk := g.counters
  simp only [walk_banks, walk_counters] at hd hn hb hk
  have hpc : ∀ x, (pauseDr pause x).counters.cyccnt = x.counters.cyccnt ∧
      (pauseDr pause x).counters.attempt = x.counters.attempt := by
    intro x; cases pause <;> simp [pauseDr]
  refine ⟨?_, ?_, ?_, ?_, ?_, ?_⟩ <;> simp only [walk_banks, walk_counters, pauseDr_banks, hpc]
  · rw [hd, hn]
  · rw [hlen, hn]
  · rw [hn]; exact hl
  · rw [hb]; omega
  · rw [hk]; exact h.5
  · rw [hk]; exact h.6

/-! ### Bursts -/

theorem SameDr.counters_ok {s t : State} (h : SameDr s t) (k : CountersOk s) : CountersOk t := by
  have hb := h.bitcnt
  have kb := k.bitcntWidth
  exact ⟨by rw [h.drbits, h.drlen]; exact k.1, by rw [h.drcap, h.drlen]; exact k.2, by rw [h.drlen]; exact k.3,
    by omega, by rw [h.counters]; exact k.5, by rw [h.counters]; exact k.6⟩

@[simp] theorem shiftByte_path (b : Byte) (last : Bool) (s : State) :
    (shiftByte b last s).2.pins.path = s.pins.path := by simp [shiftByte]

theorem spiBits_path (bits : List Bool) (s : State) : (spiBits bits s).2.pins.path = s.pins.path := by
  obtain ⟨-, -, -, -, -, h, -⟩ := spiBits_spec bits s
  rw [h]

@[simp] theorem bulkByte_path (b : Byte) (s : State) : (bulkByte b s).2.pins.path = s.pins.path := by
  unfold bulkByte
  split
  · exact spiBits_path _ _
  · simp

@[simp] theorem spiWrite_path (bytes : List Byte) (s : State) : (spiWrite bytes s).pins.path = s.pins.path := by
  induction bytes generalizing s with
  | nil => rfl
  | cons b bs ih => simp [spiWrite, ih]

@[simp] theorem spiRead_path (n : Nat) (s : State) : (spiRead n s).2.pins.path = s.pins.path := by
  induction n generalizing s with
  | zero => rfl
  | succ n ih => simp [spiRead, ih]

/-- The path switched and switched back. -/
theorem toBitBang_path (s t : State) (hc : t.cfg = s.cfg) (hp : t.pins.path = (toBurst s).pins.path)
    (h : s.pins.path = .bitBang) : (toBitBang t).pins.path = .bitBang := by
  unfold toBitBang
  unfold toBurst at hp
  rw [hc]
  cases hu : s.cfg.useBurst with
  | true => simp
  | false => simpa [hu, h] using hp

theorem burstWrite_steady (lead bulk : List Byte) (finalByte : Byte) (s : State) :
    Steady s (burstWrite lead bulk finalByte s) := by
  obtain ⟨_, -, -, hd⟩ := burstWrite_spec lead bulk finalByte s
  refine ⟨fun h => ?_, hd.counters_ok⟩
  obtain ⟨_, a1, -⟩ := toBurst_spec s
  obtain ⟨_, b1, -⟩ := spiWrite_spec (lead ++ bulk) (toBurst s)
  simp only [burstWrite, shiftByte_path]
  exact toBitBang_path s _ (b1.cfg.trans a1.cfg) (by simp) h

theorem burstRead_steady (lead : List Byte) (n : Nat) (s : State) : Steady s (burstRead lead n s).2 := by
  obtain ⟨_, -, -, -, -, -, hd⟩ := burstRead_spec lead n s
  refine ⟨fun h => ?_, hd.counters_ok⟩
  obtain ⟨_, a1, -⟩ := toBurst_spec s
  obtain ⟨_, b1, -⟩ := spiWrite_spec (lead ++ List.replicate s.cfg.dummyBytes 0#8) (toBurst s)
  obtain ⟨_, c1, -⟩ := spiRead_spec n (spiWrite (lead ++ List.replicate s.cfg.dummyBytes 0#8) (toBurst s))
  simp only [burstRead, shiftByte_path]
  exact toBitBang_path s _ ((c1.cfg.trans b1.cfg).trans a1.cfg) (by simp) h

/-! ### Scripts -/

theorem check_steady (r e m : Word) (s : State) : Steady s (check r e m s).2 :=
  ⟨fun h => by simpa using h, fun h => h.congr (by simp) (by simp)⟩

theorem sirOp_steady (op : Byte) (idleAfter : Option IdleWait) (s : State) : Steady s (sirOp op idleAfter s) :=
  sir_steady _ _ _ (by simp [Config.irBits])

theorem scriptStart_steady (s : State) : Steady s (scriptStart s) :=
  (tapReset_steady s).trans (idle_steady _ _)

theorem checkStatus_steady (mask : Word) (s : State) : Steady s (checkStatus mask s).2 := by
  simp only [checkStatus, readStatus]
  refine Steady.trans ?_ (check_steady _ _ _ _)
  refine Steady.trans (sirOp_steady _ _ _) (sdr_steady _ _ _ _ ?_)
  rw [List.length_replicate]
  simp [StatusBits.count_eq]

theorem openForConfiguration_steady (s : State) : Steady s (openForConfiguration s).2 := by
  simp only [openForConfiguration]
  refine Steady.setMode ?_ _
  refine Steady.trans ?_ (checkStatus_steady _ _)
  refine Steady.trans ?_ (sirOp_steady _ _ _)
  refine Steady.trans ?_ (checkStatus_steady _ _)
  refine Steady.trans ?_ (sirOp_steady _ _ _)
  refine Steady.trans ?_ (sdr_steady _ _ _ _ ?_)
  · exact (scriptStart_steady s).trans (sirOp_steady _ _ _)
  · rw [List.length_replicate]
    exact (by decide : Config.preloadBits < 2 ^ 32)

theorem openForFlash_steady (s : State) (hw : s.cfg.progSpiBits < 2 ^ 32) : Steady s (openForFlash s).2 := by
  simp only [openForFlash]
  refine Steady.setMode ?_ _
  refine Steady.trans ?_ (sdr_steady _ _ _ _ ?_)
  · refine Steady.trans ?_ (sirOp_steady _ _ _)
    refine Steady.trans ?_ (sirOp_steady _ _ _)
    exact (openForConfiguration_steady s).trans (scriptStart_steady _)
  · rw [numberBits_length]
    exact hw

theorem identifyScan_steady (s : State) : Steady s (identifyScan s).2 := by
  simp only [identifyScan]
  refine Steady.trans ?_ (sdr_steady _ _ _ _ ?_)
  · exact (scriptStart_steady s).trans (sirOp_steady _ _ _)
  · rw [List.length_replicate]
    exact (by decide : Config.idcodeBits < 2 ^ 32)

theorem closeScans_steady (s : State) : Steady s (closeScans s) := by
  simp only [closeScans]
  refine Steady.trans ?_ (tapReset_steady _)
  refine Steady.trans ?_ (sirOp_steady _ _ _)
  refine Steady.trans ?_ (sirOp_steady _ _ _)
  refine Steady.trans ?_ (sirOp_steady _ _ _)
  refine Steady.trans ?_ (sirOp_steady _ _ _)
  refine sdr_steady _ _ _ _ ?_
  rw [bitsOf_length, List.length_singleton]
  exact (by decide : min 8 (8 * 1) < 2 ^ 32)

/-! ### Flash operations -/

theorem frameBB_steady (frame : List Byte) (s : State) (h : frame.length < 2 ^ 28) :
    Steady s (frameBB frame s).2 := by
  simp only [frameBB]
  refine sdr_steady _ _ _ _ ?_
  rw [bitsOf_length, List.length_map]
  omega

theorem readFlashStatus_steady (s : State) : Steady s (readFlashStatus s).2 := by
  simp only [readFlashStatus, statusFrame_eq]
  refine Steady.setFsr ?_ _
  exact frameBB_steady _ s (by simp only [List.length_cons, List.length_nil]; omega)

theorem pollLoop_steady (delay n : Nat) (before : Byte) (s : State) (hn : n < 2 ^ 32) :
    Steady s (pollLoop delay n before s).2 := by
  induction n generalizing before s with
  | zero => exact ⟨id, fun k => k.congr rfl rfl⟩
  | succ n ih =>
    simp only [pollLoop]
    have h := readFlashStatus_steady s
    split
    · exact h
    · refine h.trans (Steady.trans (t := pauseFor delay { (readFlashStatus s).2 with counters.attempt := n })
        ⟨fun k => by simpa using k, fun k => ?_⟩ (ih _ _ (by omega)))
      exact ⟨by simpa using k.1, by simpa using k.2, by simpa using k.3, by simpa using k.4, by simpa using k.5,
        by simp; omega⟩

theorem pollStatus_steady (attempts delay : Nat) (s : State) (hn : attempts < 2 ^ 32) :
    Steady s (pollStatus attempts delay s).2 := by
  have h := pollLoop_steady delay attempts s.fsr { s with counters.attempt := attempts } hn
  exact ⟨h.path, fun k => h.counters ⟨k.1, k.2, k.3, k.4, k.5, hn⟩⟩

theorem eraseBlock_steady (a : Nat) (s : State) (hn : s.cfg.erasePoll.attempts < 2 ^ 32) :
    Steady s (eraseBlock a s).2 := by
  simp only [eraseBlock]
  refine Steady.trans ?_ (pollStatus_steady _ _ _ hn)
  refine Steady.trans ?_ (frameBB_steady _ _ (by simp only [addressBytes, List.length_cons, List.length_nil]; omega))
  refine Steady.trans ?_ (check_steady _ _ _ _)
  refine Steady.trans ?_ (readFlashStatus_steady _)
  exact frameBB_steady _ s (by simp only [List.length_cons, List.length_nil]; omega)

theorem writeBlock_steady (data : List Byte) (a : Nat) (s : State) (hn : s.cfg.writePoll.attempts < 2 ^ 32) :
    Steady s (writeBlock data a s).2 := by
  simp only [writeBlock]
  refine Steady.trans ?_ (pollStatus_steady _ _ _ hn)
  refine Steady.trans ?_ (walk_steady _ _)
  refine Steady.trans ?_ (burstWrite_steady _ _ _ _)
  refine Steady.trans ?_ (walk_steady _ _)
  exact frameBB_steady _ s (by simp only [List.length_cons, List.length_nil]; omega)

theorem readBlock_steady (a n : Nat) (s : State) : Steady s (readBlock a n s).2 :=
  ((walk_steady _ s).trans (burstRead_steady _ _ _)).trans (walk_steady _ _)

end Sys2Proof.Machine
end

