-- ==== Sys2Proof/Laws/Upload.lean ====
section
/-! SUPPORT. The operations of UPLOAD: the source, filling a chunk, the retry loop, the chunk loop; one lemma each. -/

namespace Sys2Proof.Machine

/-! ### What the upload writes beside the lines -/

theorem Moves.setWork {s t : State} {evs : List Event} (h : Moves s t evs) (st : Stats) (w : Work) (src : Source) :
    Moves s { t with stats := st, work := w, env := { t.env with source := src } } evs :=
  ⟨h.trace, h.cfg, h.regs, h.res, h.buf, h.ctl, h.inputs, h.resets, h.tap, h.path, h.tck, h.undisturbed, h.time,
    h.mismatch, h.timeout, h.target, h.noDone, h.levels⟩

theorem Moves.ofWork {s t : State} {evs : List Event} (st : Stats) (w : Work) (src : Source)
    (h : Moves { s with stats := st, work := w, env := { s.env with source := src } } t evs) : Moves s t evs :=
  ⟨h.trace, h.cfg, h.regs, h.res, h.buf, h.ctl, h.inputs, h.resets, h.tap, h.path, h.tck, h.undisturbed, h.time,
    h.mismatch, h.timeout, h.target, h.noDone, h.levels⟩

theorem Steady.setWork {s t : State} (h : Steady s t) (st : Stats) (w : Work) (src : Source) :
    Steady s { t with stats := st, work := w, env := { t.env with source := src } } :=
  ⟨h.path, fun k => (h.counters k).congr rfl rfl⟩

theorem Steady.ofWork {s t : State} (st : Stats) (w : Work) (src : Source)
    (h : Steady { s with stats := st, work := w, env := { s.env with source := src } } t) : Steady s t :=
  ⟨h.path, fun k => h.counters (k.congr rfl rfl)⟩

theorem emit_src_moves (n : Nat) (a : Option (List Byte)) (s : State) : Moves s (emit (.src n a) s) [.src n a] where
  trace := by simp [newEvents]
  cfg := by simp
  regs := by simp
  res := by simp
  buf := by simp
  ctl := by simp
  inputs := by simp
  resets := by simp
  tap := by simp [trackEvent]
  path := by simp [pathAfter]
  tck := by simp
  undisturbed := emit_undisturbed _ _
  time := by simp [waited]
  mismatch := by simp [Event.isMismatch]
  timeout := by simp
  target := by simp [answeredBy]
  noDone := by simp [Event.isDone]
  levels := by simp [levelsAfter]

theorem emit_progress_moves (st : Stats) (s : State) : Moves s (emit (.progress st) s) [.progress st] where
  trace := by simp [newEvents]
  cfg := by simp
  regs := by simp
  res := by simp
  buf := by simp
  ctl := by simp
  inputs := by simp
  resets := by simp
  tap := by simp [trackEvent]
  path := by simp [pathAfter]
  tck := by simp
  undisturbed := emit_undisturbed _ _
  time := by simp [waited]
  mismatch := by simp [Event.isMismatch]
  timeout := by simp
  target := by simp [answeredBy]
  noDone := by simp [Event.isDone]
  levels := by simp [levelsAfter]

/-! ### The source (spec 20_memory R78) -/

@[simp] theorem srcNext_fst (n : Nat) (s : State) : (srcNext n s).1 = (s.env.source.next n).1 := rfl
@[simp] theorem srcNext_source (n : Nat) (s : State) : (srcNext n s).2.env.source = (s.env.source.next n).2 := by
  simp [srcNext]
@[simp] theorem srcNext_target (n : Nat) (s : State) : (srcNext n s).2.env.target = s.env.target := by simp [srcNext]
@[simp] theorem srcNext_clock (n : Nat) (s : State) : (srcNext n s).2.env.clock = s.env.clock := by simp [srcNext]
@[simp] theorem srcNext_work (n : Nat) (s : State) : (srcNext n s).2.work = s.work := by simp [srcNext]
@[simp] theorem srcNext_stats (n : Nat) (s : State) : (srcNext n s).2.stats = s.stats := by simp [srcNext]
@[simp] theorem srcNext_cfg (n : Nat) (s : State) : (srcNext n s).2.cfg = s.cfg := by simp [srcNext]
@[simp] theorem srcNext_pins (n : Nat) (s : State) : (srcNext n s).2.pins = s.pins := by simp [srcNext]
@[simp] theorem srcNext_banks (n : Nat) (s : State) : (srcNext n s).2.banks = s.banks := by simp [srcNext]
@[simp] theorem srcNext_counters (n : Nat) (s : State) : (srcNext n s).2.counters = s.counters := by simp [srcNext]
@[simp] theorem srcNext_devmode (n : Nat) (s : State) : (srcNext n s).2.devmode = s.devmode := by simp [srcNext]
@[simp] theorem srcNext_flags (n : Nat) (s : State) : (srcNext n s).2.flags = s.flags := by simp [srcNext]
@[simp] theorem srcNext_fsr (n : Nat) (s : State) : (srcNext n s).2.fsr = s.fsr := by simp [srcNext]

theorem srcNext_moves (n : Nat) (s : State) : Moves s (srcNext n s).2 [.src n (s.env.source.next n).1] :=
  (emit_src_moves n (s.env.source.next n).1 { s with env.source := (s.env.source.next n).2 }).ofWork
    s.stats s.work _

/-! ### Filling a chunk (spec 44 R256, 20_memory R79) -/

/-- What filling a chunk does: the chunk takes the next bytes of the stream, and nothing but the trace, the source
and the chunk changes. How the source splits its answers does not show (20_memory R79). -/
structure Filled (s t : State) (eos : Bool) : Prop where
  moves : ∃ evs, Moves s t evs ∧ ∀ e ∈ evs, ∃ n a, e = .src n a
  same : t.devmode = s.devmode ∧ t.flags = s.flags ∧ t.fsr = s.fsr ∧ t.pins = s.pins ∧ t.banks = s.banks ∧
    t.counters = s.counters ∧ t.stats = s.stats ∧ t.env.target = s.env.target ∧ t.env.clock = s.env.clock
  work : t.work = { s.work with chunk := t.work.chunk, chunklen := t.work.chunklen }
  bytes : t.chunkBytes = s.chunkBytes ++ s.env.source.stream.peek (s.cfg.eraseBlock - s.work.chunklen)
  stream : t.env.source.stream = s.env.source.stream.skip (s.cfg.eraseBlock - s.work.chunklen)
  chunklen : t.work.chunklen =
    s.work.chunklen + (s.env.source.stream.peek (s.cfg.eraseBlock - s.work.chunklen)).length
  inside : t.work.chunklen ≤ t.work.chunk.length
  bound : s.work.chunk.length ≤ s.cfg.eraseBlock → t.work.chunk.length ≤ s.cfg.eraseBlock
  eos : eos = decide (t.work.chunklen < s.cfg.eraseBlock)

/-- A full chunk is left as it is. -/
theorem Filled.full {s : State} (h : s.cfg.eraseBlock ≤ s.work.chunklen) (hc : s.work.chunklen ≤ s.work.chunk.length) :
    Filled s s false := by
  have he : s.cfg.eraseBlock - s.work.chunklen = 0 := by omega
  refine ⟨⟨[], Moves.refl s, by simp⟩, by simp, rfl, ?_, ?_, ?_, hc, id, ?_⟩
  · simp [he]
  · simp [he]
  · simp [he]
  · simp; omega

theorem fillChunk_spec (n : Nat) (s : State) (hn : s.cfg.eraseBlock ≤ s.work.chunklen + n)
    (hc : s.work.chunklen ≤ s.work.chunk.length) (hb : s.work.chunklen ≤ s.cfg.eraseBlock) :
    Filled s (fillChunk n s).2 (fillChunk n s).1 := by
  induction n generalizing s with
  | zero => exact Filled.full hn hc
  | succ n ih =>
    simp only [fillChunk]
    by_cases hlt : s.work.chunklen < s.cfg.eraseBlock
    · rw [if_pos hlt]
      rcases Source.next_cases (s.cfg.eraseBlock - s.work.chunklen) s.env.source with ⟨h0, h1, h2⟩ | ⟨k, h0, h1, h2, h3, h4⟩
      · have hp := (ByteStream.peek_eq_nil (n := s.cfg.eraseBlock - s.work.chunklen) s.env.source.stream (by omega)).2 h0
        have hk := ByteStream.skip_peek_length (s.cfg.eraseBlock - s.work.chunklen) s.env.source.stream
        rw [hp, List.length_nil, ByteStream.skip_zero] at hk
        simp only [srcNext_fst, h1]
        refine ⟨⟨_, srcNext_moves _ s, fun e he => ⟨_, _, List.mem_singleton.1 he⟩⟩, by simp, by simp, ?_, ?_, ?_, ?_,
          ?_, ?_⟩
        · simp [hp, State.chunkBytes]
        · simp [h2, ← hk]
        · simp [hp]
        · simpa using hc
        · simp
        · simpa using hlt
      · simp only [srcNext_fst, h1]
        have h4 := h4 (by omega)
        have hk := ByteStream.skip_peek_length k s.env.source.stream
        have hpp := ByteStream.peek_peek_length k s.env.source.stream
        have hle := ByteStream.peek_length_le k s.env.source.stream
        rw [← hk] at h2
        generalize s.env.source.stream.peek k = bytes at *
        have hpos : 0 < bytes.length := List.length_pos_iff.2 h4
        have hadd := ByteStream.peek_add bytes.length (s.cfg.eraseBlock - s.work.chunklen - bytes.length)
          s.env.source.stream
        have hskip := ByteStream.skip_add bytes.length (s.cfg.eraseBlock - s.work.chunklen - bytes.length)
          s.env.source.stream
        rw [hpp, show bytes.length + (s.cfg.eraseBlock - s.work.chunklen - bytes.length) =
          s.cfg.eraseBlock - s.work.chunklen by omega] at hadd
        rw [show bytes.length + (s.cfg.eraseBlock - s.work.chunklen - bytes.length) =
          s.cfg.eraseBlock - s.work.chunklen by omega] at hskip
        have hm := srcNext_moves (s.cfg.eraseBlock - s.work.chunklen) s
        generalize hr : (srcNext (s.cfg.eraseBlock - s.work.chunklen) s).2 = r at *
        have r1 : r.env.source.stream = s.env.source.stream.skip bytes.length := by rw [← h2]; simp [← hr]
        have r2 : r.work = s.work := by simp [← hr]
        have r3 : r.cfg = s.cfg := by simp [← hr]
        have hs := splice_length r.work.chunklen bytes r.work.chunk (by rw [r2]; exact hc)
        have ht := take_splice r.work.chunklen bytes r.work.chunk (by rw [r2]; exact hc)
        rw [r2] at hs ht
        have hi := ih { r with
            work.chunk := splice r.work.chunklen bytes r.work.chunk
            work.chunklen := r.work.chunklen + bytes.length } (by simp only [r2, r3]; omega)
          (by simp only [r2, hs]; exact Nat.le_max_left _ _)
          (by simp only [r2, r3]; omega)
        generalize fillChunk n { r with
            work.chunk := splice r.work.chunklen bytes r.work.chunk
            work.chunklen := r.work.chunklen + bytes.length } = f at *
        obtain ⟨evs, g1, g2⟩ := hi.moves
        obtain ⟨m1, m2, m3, m4, m5, m6, m7, m8, m9⟩ := hi.same
        refine ⟨⟨_, hm.trans (g1.ofWork r.stats { r.work with
              chunk := splice r.work.chunklen bytes r.work.chunk
              chunklen := r.work.chunklen + bytes.length } r.env.source), fun e he => ?_⟩, ?_, ?_, ?_, ?_, ?_, ?_, ?_, ?_⟩
        · rcases List.mem_append.1 he with he | he
          · exact ⟨_, _, List.mem_singleton.1 he⟩
          · exact g2 e he
        · exact ⟨m1.trans (by simp [← hr]), m2.trans (by simp [← hr]), m3.trans (by simp [← hr]),
            m4.trans (by simp [← hr]), m5.trans (by simp [← hr]), m6.trans (by simp [← hr]), m7.trans (by simp [← hr]),
            m8.trans (by simp [← hr]), m9.trans (by simp [← hr])⟩
        · have := hi.work
          rw [this, r2]
        · rw [hi.bytes, hadd]
          simp only [State.chunkBytes, r1, r2, r3, ht, List.append_assoc, Nat.sub_add_eq]
        · rw [hi.stream, ← hskip]
          simp only [r1, r2, r3, Nat.sub_add_eq]
        · rw [hi.chunklen, hadd, List.length_append]
          simp only [r1, r2, r3, Nat.sub_add_eq]
          omega
        · exact hi.inside
        · intro hle
          refine Nat.le_trans (hi.bound ?_) (Nat.le_of_eq (congrArg Params.eraseBlock r3))
          simp only [r2, r3, hs]
          omega
        · rw [hi.eos]
          simp only [r3]
    · rw [if_neg hlt]
      exact Filled.full (by omega) hc

/-! ### One attempt, the retry loop (spec 44 R257, R258) -/

/-- What happens to a filled chunk: the upload's address, chunk, statistics, source and mode stay. -/
structure OnChunk (s t : State) (evs : List Event) : Prop extends Moves s t evs where
  devmode : t.devmode = s.devmode
  stats : t.stats = s.stats
  source : t.env.source = s.env.source
  faddr : t.work.faddr = s.work.faddr
  chunklen : t.work.chunklen = s.work.chunklen
  chunk : t.work.chunk = s.work.chunk
  tStart : t.work.tStart = s.work.tStart
  scratch : t.work.scratch.length ≤ max s.work.scratch.length s.work.chunklen
  quiet : reportsOf evs = []

theorem FlashOp.onChunk {s t : State} {evs : List Event} (h : FlashOp s t evs) : OnChunk s t evs :=
  ⟨h.toMoves, h.devmode, h.stats, h.source, by rw [h.work], by rw [h.work], by rw [h.work], by rw [h.work],
   by rw [h.work]; exact Nat.le_max_left _ _, h.quiet⟩

theorem OnChunk.refl (s : State) : OnChunk s s [] :=
  ⟨Moves.refl s, rfl, rfl, rfl, rfl, rfl, rfl, rfl, Nat.le_max_left _ _, rfl⟩

theorem OnChunk.trans {s t u : State} {e1 e2 : List Event} (h1 : OnChunk s t e1) (h2 : OnChunk t u e2) :
    OnChunk s u (e1 ++ e2) :=
  ⟨h1.toMoves.trans h2.toMoves, h2.devmode.trans h1.devmode, h2.stats.trans h1.stats, h2.source.trans h1.source,
   h2.faddr.trans h1.faddr, h2.chunklen.trans h1.chunklen, h2.chunk.trans h1.chunk, h2.tStart.trans h1.tStart, by
    have := h1.scratch; have := h2.scratch; have := h1.chunklen; omega, quiet_append h1.quiet h2.quiet⟩

/-- The fields of an attempt that no comparison reads. -/
theorem OnChunk.ofAttempt {s t : State} {evs : List Event} (r : Nat) (e w : Bool)
    (h : OnChunk { s with work.retry := r, work.didErase := e, work.didWrite := w } t evs) : OnChunk s t evs :=
  ⟨⟨h.trace, h.cfg, h.regs, h.res, h.buf, h.ctl, h.inputs, h.resets, h.tap, h.path, h.tck, h.undisturbed, h.time,
    h.mismatch, h.timeout, h.target, h.noDone, h.levels⟩, h.devmode, h.stats, h.source, h.faddr, h.chunklen, h.chunk, h.tStart, h.scratch, h.quiet⟩

theorem Steady.ofAttempt {s t : State} (r : Nat) (e w : Bool)
    (h : Steady { s with work.retry := r, work.didErase := e, work.didWrite := w } t) : Steady s t :=
  ⟨h.path, fun k => h.counters (k.congr rfl rfl)⟩

/-- Writing a chunk in pieces, until one times out. -/
theorem writePieces_spec (n off : Nat) (s : State) (hp : s.cfg.writePoll.attempts < 2 ^ 32) :
    ∃ evs, FlashOp s (writePieces n off s) evs ∧ Steady s (writePieces n off s) := by
  induction n generalizing off s with
  | zero => exact ⟨[], (Lines.refl s).flashOp, Steady.refl s⟩
  | succ n ih =>
    simp only [writePieces]
    split
    · obtain ⟨evs, sr, h1, -⟩ := writeBlock_spec
        ((s.chunkBytes.drop off).take (min s.cfg.writeBlock (s.work.chunklen - off))) (s.work.faddr + off) s
      have h2 := writeBlock_steady
        ((s.chunkBytes.drop off).take (min s.cfg.writeBlock (s.work.chunklen - off))) (s.work.faddr + off) s hp
      generalize writeBlock ((s.chunkBytes.drop off).take (min s.cfg.writeBlock (s.work.chunklen - off)))
        (s.work.faddr + off) s = r at *
      split
      · exact ⟨evs, h1, h2⟩
      · obtain ⟨e2, g1, g2⟩ := ih (off + s.cfg.writeBlock) r.2 (by rw [h1.cfg]; exact hp)
        exact ⟨_, h1.trans g1, h2.trans g2⟩
    · exact ⟨[], (Lines.refl s).flashOp, Steady.refl s⟩

theorem writeChunk_spec (s : State) (hp : s.cfg.writePoll.attempts < 2 ^ 32) :
    ∃ evs, OnChunk s (writeChunk s) evs ∧ Steady s (writeChunk s) ∧
      (writeChunk s).work = { s.work with didWrite := true } := by
  obtain ⟨evs, h1, h2⟩ := writePieces_spec (s.work.chunklen + 1) 0 { s with work.didWrite := true } hp
  exact ⟨evs, (h1.onChunk).ofAttempt s.work.retry s.work.didErase true, h2.ofAttempt s.work.retry s.work.didErase true,
    h1.work⟩

/-- `programAttempt()`: a timeout ends the attempt, nothing more (spec 44 R258). -/
theorem programAttempt_spec (s : State) (he : s.cfg.erasePoll.attempts < 2 ^ 32)
    (hp : s.cfg.writePoll.attempts < 2 ^ 32) :
    ∃ evs e w, OnChunk s (programAttempt s) evs ∧ Steady s (programAttempt s) ∧
      (programAttempt s).work = { s.work with didErase := e, didWrite := w } ∧
      (w = true ∨ s.work.cls = .eraseThenWrite) ∧ (s.work.cls = .eraseThenWrite → e = true) ∧
      (s.work.didErase = true → e = true) ∧ (s.work.didWrite = true → w = true) := by
  unfold programAttempt
  split
  · rename_i hc
    obtain ⟨e1, sr, h1, -⟩ := eraseBlock_spec s.work.faddr { s with work.didErase := true }
    have h2 := eraseBlock_steady s.work.faddr { s with work.didErase := true } he
    simp only
    generalize eraseBlock s.work.faddr { s with work.didErase := true } = r at *
    have o1 : OnChunk s r.2 e1 := (h1.onChunk).ofAttempt s.work.retry true s.work.didWrite
    have o2 : Steady s r.2 := h2.ofAttempt s.work.retry true s.work.didWrite
    split
    · exact ⟨e1, true, s.work.didWrite, o1, o2, h1.work, .inr hc, fun _ => rfl, fun _ => rfl, id⟩
    · obtain ⟨e2, g1, g2, g3⟩ := writeChunk_spec r.2 (by rw [h1.cfg]; exact hp)
      exact ⟨_, true, true, o1.trans g1, o2.trans g2, by rw [g3, h1.work], .inl rfl, fun _ => rfl, fun _ => rfl,
        fun _ => rfl⟩
  · rename_i hc
    obtain ⟨e2, g1, g2, g3⟩ := writeChunk_spec s hp
    exact ⟨_, s.work.didErase, true, g1, g2, g3, .inl rfl, fun h => absurd h hc, id, fun _ => rfl⟩

/-- Steps 1 and 2 of the retry loop: what is read back goes to SCRATCH and is classified against the chunk. -/
theorem compareChunk_spec (s : State) :
    ∃ evs, OnChunk s (compareChunk s) evs ∧ Steady s (compareChunk s) ∧
      (compareChunk s).work.scratch.take s.work.chunklen = blockRead s.cfg s.work.chunklen evs ∧
      (blockRead s.cfg s.work.chunklen evs).length = s.work.chunklen ∧
      (compareChunk s).work.cls =
        classify s.cfg.eraseSafe (blockRead s.cfg s.work.chunklen evs) s.chunkBytes ∧
      segment s.pins.tdi evs (Wave.readBlock s.cfg s.work.faddr s.work.chunklen) (compareChunk s).pins.tdi ∧
      (compareChunk s).work =
        { s.work with scratch := (compareChunk s).work.scratch, cls := (compareChunk s).work.cls } ∧
      (compareChunk s).flags = s.flags ∧ (compareChunk s).fsr = s.fsr := by
  obtain ⟨evs, h1, h2, h3, h4⟩ := readBlock_spec s.work.faddr s.work.chunklen s
  have h5 := readBlock_steady s.work.faddr s.work.chunklen s
  unfold compareChunk
  simp only
  generalize readBlock s.work.faddr s.work.chunklen s = r at *
  have hl := splice_length 0 r.1 r.2.work.scratch (Nat.zero_le _)
  have ht := take_splice 0 r.1 r.2.work.scratch (Nat.zero_le _)
  rw [Nat.zero_add] at hl ht
  rw [List.take_zero, List.nil_append, h4] at ht
  have k1 := congrArg Work.faddr h1.work
  have k2 := congrArg Work.chunklen h1.work
  have k3 := congrArg Work.chunk h1.work
  have k4 := congrArg Work.tStart h1.work
  refine ⟨evs, ⟨⟨h1.trace, h1.cfg, h1.regs, h1.res, h1.buf, h1.ctl, h1.inputs, h1.resets, h1.tap, h1.path, h1.tck,
    h1.undisturbed, h1.time, h1.mismatch, h1.timeout, h1.target, h1.noDone, h1.levels⟩, h1.devmode, h1.stats, h1.source, k1, k2, k3, k4, ?_, h1.quiet⟩, ?_, ht.trans h3, ?_, ?_,
    h2.segment, ?_, h1.flags, h1.fsr⟩
  · show (splice 0 r.1 r.2.work.scratch).length ≤ _
    rw [hl, h4, h1.work]
    omega
  · exact ⟨h5.path, fun k => (h5.counters k).congr rfl rfl⟩
  · rw [← h3, h4]
  · rw [h3]
  · simp only [h1.work]

/-- What the retry loop answers (spec 44 R257): success only on NoOp; a failure is one of two, and ProgramFailure
comes only after all attempts. -/
def RetryAnswer (left : Nat) (s t : State) : Option ErrorKind → Prop
  | none => t.work.cls = .noOp
  | some e =>
    (e = .unerasableImage ∧ t.work.cls = .unerasable) ∨
    (e = .programFailure ∧ (t.work.cls = .writeOnly ∨ t.work.cls = .eraseThenWrite) ∧
      t.work.retry = s.work.retry + left)

/-- `retryLoop()`, with so many attempts left. -/
theorem retryLoop_spec (left : Nat) (s : State) (he : s.cfg.erasePoll.attempts < 2 ^ 32)
    (hp : s.cfg.writePoll.attempts < 2 ^ 32) :
    ∃ evs, OnChunk s (retryLoop left s).2 evs ∧ Steady s (retryLoop left s).2 ∧
      RetryAnswer left s (retryLoop left s).2 (retryLoop left s).1 ∧
      s.work.retry ≤ (retryLoop left s).2.work.retry ∧
      (retryLoop left s).2.work.retry ≤ s.work.retry + left ∧
      ((retryLoop left s).1 = none → ∃ read,
        (retryLoop left s).2.work.scratch.take s.work.chunklen = read ∧ read.length = s.work.chunklen ∧
        classify s.cfg.eraseSafe read s.chunkBytes = .noOp) := by
  induction left generalizing s with
  | zero =>
    obtain ⟨e1, h1, h2, h3, h3', h4, -, h5, -⟩ := compareChunk_spec s
    unfold retryLoop
    simp only
    generalize hc : compareChunk s = c at *
    have hr := congrArg Work.retry h5
    simp only at hr
    split
    · rename_i hk
      exact ⟨e1, h1, h2, hk, by simp [hr], by simp [hr], fun _ => ⟨_, h3, h3', h4.symm.trans hk⟩⟩
    · rename_i hk
      exact ⟨e1, h1, h2, .inl ⟨rfl, hk⟩, by simp [hr], by simp [hr], fun h => absurd h (by simp)⟩
    · rename_i hk
      exact ⟨e1, h1, h2, .inr ⟨rfl, .inl hk, by simp [hr]⟩, by simp [hr], by simp [hr], fun h => absurd h (by simp)⟩
    · rename_i hk
      exact ⟨e1, h1, h2, .inr ⟨rfl, .inr hk, by simp [hr]⟩, by simp [hr], by simp [hr], fun h => absurd h (by simp)⟩
  | succ n ih =>
    obtain ⟨e1, h1, h2, h3, h3', h4, -, h5, -⟩ := compareChunk_spec s
    have hgo : ∀ c : State, OnChunk s c e1 → Steady s c → c.work.retry = s.work.retry →
        ∃ evs, OnChunk s (retryLoop n (programAttempt { c with work.retry := c.work.retry + 1 })).2 evs ∧
          Steady s (retryLoop n (programAttempt { c with work.retry := c.work.retry + 1 })).2 ∧
          RetryAnswer (n + 1) s (retryLoop n (programAttempt { c with work.retry := c.work.retry + 1 })).2
            (retryLoop n (programAttempt { c with work.retry := c.work.retry + 1 })).1 ∧
          s.work.retry ≤ (retryLoop n (programAttempt { c with work.retry := c.work.retry + 1 })).2.work.retry ∧
          (retryLoop n (programAttempt { c with work.retry := c.work.retry + 1 })).2.work.retry ≤
            s.work.retry + (n + 1) ∧
          ((retryLoop n (programAttempt { c with work.retry := c.work.retry + 1 })).1 = none → ∃ read,
            (retryLoop n (programAttempt { c with work.retry := c.work.retry + 1 })).2.work.scratch.take
              s.work.chunklen = read ∧ read.length = s.work.chunklen ∧
            classify s.cfg.eraseSafe read s.chunkBytes = .noOp) := by
      intro c o1 o2 hr
      obtain ⟨e2, e, w, p1, p2, p3, -⟩ := programAttempt_spec { c with work.retry := c.work.retry + 1 }
        (by rw [show ({ c with work.retry := c.work.retry + 1 } : State).cfg = s.cfg from o1.cfg]; exact he)
        (by rw [show ({ c with work.retry := c.work.retry + 1 } : State).cfg = s.cfg from o1.cfg]; exact hp)
      have q1 : OnChunk c (programAttempt { c with work.retry := c.work.retry + 1 }) e2 :=
        p1.ofAttempt (c.work.retry + 1) c.work.didErase c.work.didWrite
      have q2 : Steady c (programAttempt { c with work.retry := c.work.retry + 1 }) :=
        p2.ofAttempt (c.work.retry + 1) c.work.didErase c.work.didWrite
      have hcfg : (programAttempt { c with work.retry := c.work.retry + 1 }).cfg = s.cfg := q1.cfg.trans o1.cfg
      generalize programAttempt { c with work.retry := c.work.retry + 1 } = a at *
      obtain ⟨e3, g1, g2, g3, g4, g5, g6⟩ := ih a (by rw [hcfg]; exact he) (by rw [hcfg]; exact hp)
      have ha : a.work.retry = s.work.retry + 1 := by rw [p3]; simp [hr]
      have hk : a.work.chunklen = s.work.chunklen := q1.chunklen.trans o1.chunklen
      have hb : a.chunkBytes = s.chunkBytes := by
        simp only [State.chunkBytes, hk, q1.chunk.trans o1.chunk]
      refine ⟨_, (o1.trans q1).trans g1, (o2.trans q2).trans g2, ?_, by omega, by omega, ?_⟩
      · cases h : (retryLoop n a).1 with
        | none => rw [h] at g3; exact g3
        | some e =>
          rw [h] at g3
          rcases g3 with g3 | ⟨g3, g3', g3''⟩
          · exact .inl g3
          · exact .inr ⟨g3, g3', by omega⟩
      · rw [hk, hcfg, hb] at g6
        exact g6
    unfold retryLoop
    simp only
    generalize hc : compareChunk s = c at *
    have hr := congrArg Work.retry h5
    simp only at hr
    split
    · rename_i hk
      exact ⟨e1, h1, h2, hk, by simp [hr], by simp [hr], fun _ => ⟨_, h3, h3', h4.symm.trans hk⟩⟩
    · rename_i hk
      exact ⟨e1, h1, h2, .inl ⟨rfl, hk⟩, by simp [hr], by simp [hr], fun h => absurd h (by simp)⟩
    · exact hgo c h1 h2 hr
    · exact hgo c h1 h2 hr

end Sys2Proof.Machine
end

