-- ==== Sys2Proof/Laws/Attempts.lean ====
section
/-! SUPPORT. The events of UPLOAD's program attempts and of its retry loop (spec 44 R257, R258). -/

namespace Sys2Proof.Machine

/-! ### The pieces of a chunk -/

theorem piecesOf_nil (size : Nat) (h : 0 < size) : piecesOf size [] = [] := by
  have : (0 + size - 1) / size = 0 := Nat.div_eq_of_lt (by omega)
  simp only [piecesOf, List.length_nil, this, List.range_zero, List.map_nil]

theorem piecesOf_cons (size : Nat) (data : List Byte) (h : 0 < size) (hd : data ≠ []) :
    piecesOf size data = data.take size :: piecesOf size (data.drop size) := by
  have hl : 0 < data.length := List.length_pos_iff.2 hd
  have hn : (data.length + size - 1) / size = ((data.drop size).length + size - 1) / size + 1 := by
    rw [List.length_drop]
    by_cases hs : size ≤ data.length
    · rw [show data.length + size - 1 = data.length - size + size - 1 + size by omega, Nat.add_div_right _ h]
    · rw [show data.length - size + size - 1 = size - 1 by omega, Nat.div_eq_of_lt (a := size - 1) (by omega),
        show data.length + size - 1 = data.length - 1 + size by omega, Nat.add_div_right _ h,
        Nat.div_eq_of_lt (by omega)]
  unfold piecesOf
  rw [hn, List.range_succ_eq_map, List.map_cons, List.map_map]
  congr 1
  · simp
  · apply List.map_congr_left
    intro k _
    simp only [Function.comp, List.drop_drop]
    congr 2
    rw [Nat.succ_mul]
    omega

/-! ### Writing the pieces -/

/-- What an attempt leaves of the flags and FSR, beside its events. -/
structure Flagged (s t : State) (evs : List Event) (sr : Byte) (timedOut : Bool) : Prop where
  trace : newEvents s t evs
  fsr : t.fsr = sr
  timeout : t.flags.timeout = (s.flags.timeout || timedOut)

/-- Writing a chunk from offset `off` on (spec 44 R258). -/
theorem writePieces_trace (n off : Nat) (s : State) (hn : s.chunkBytes.length - off < n)
    (hl : s.chunkBytes.length = s.work.chunklen) (hb : 0 < s.cfg.writeBlock) (ha : 0 < s.cfg.writePoll.attempts) :
    ∃ evs sr timedOut, Flagged s (writePieces n off s) evs sr timedOut ∧
      PiecesTrace s.cfg (piecesOf s.cfg.writeBlock (s.chunkBytes.drop off)) (s.work.faddr + off) s.pins.tdi s.fsr evs
        sr timedOut ∧
      ((writePieces n off s).pins.tdi = if off < s.work.chunklen then false else s.pins.tdi) := by
  induction n generalizing off s with
  | zero => omega
  | succ n ih =>
    unfold writePieces
    by_cases ho : off < s.work.chunklen
    · rw [if_pos ho, if_pos ho]
      have hne : s.chunkBytes.drop off ≠ [] := by
        intro h
        have := congrArg List.length h
        rw [List.length_drop, hl] at this
        simp at this
        omega
      have ht : (s.chunkBytes.drop off).take (min s.cfg.writeBlock (s.work.chunklen - off)) =
          (s.chunkBytes.drop off).take s.cfg.writeBlock := by
        rw [← hl, ← List.length_drop, ← List.take_take, List.take_length]
      simp only [ht]
      rw [piecesOf_cons _ _ hb hne]
      obtain ⟨e1, sr, h1, h2, h3, h4, -⟩ := writeBlock_spec ((s.chunkBytes.drop off).take s.cfg.writeBlock)
        (s.work.faddr + off) s
      have h5 := writeBlock_tdi ((s.chunkBytes.drop off).take s.cfg.writeBlock) (s.work.faddr + off) s ha
      generalize writeBlock ((s.chunkBytes.drop off).take s.cfg.writeBlock) (s.work.faddr + off) s = r at *
      cases hr : r.1 with
      | true =>
        rw [hr] at h2 h4
        exact ⟨e1, sr, true, ⟨h1.trace, h3, h4⟩, ⟨e1, [], sr, true, by simp, h2, rfl, rfl, rfl⟩, h5⟩
      | false =>
        rw [hr] at h2 h4
        have hw : r.2.work = s.work := h1.work
        have hc : r.2.chunkBytes = s.chunkBytes := by simp only [State.chunkBytes, hw]
        obtain ⟨e2, sr2, out, g1, g2, g3⟩ := ih (off + s.cfg.writeBlock) r.2 (by rw [hc]; omega)
          (by rw [hc, hw]; exact hl) (by rw [h1.cfg]; exact hb) (by rw [h1.cfg]; exact ha)
        rw [hc, h1.cfg, hw, h5, h3, ← Nat.add_assoc] at g2
        rw [hw, h5] at g3
        have a := h1.trace
        have b := g1.trace
        refine ⟨e1 ++ e2, sr2, out, ⟨?_, g1.fsr, ?_⟩, ⟨e1, e2, sr, false, rfl, h2, ?_⟩, ?_⟩
        · simp only [newEvents] at *
          simp only [Bool.false_eq_true, if_false]
          rw [b, a, List.reverse_append, List.append_assoc]
        · have := g1.timeout
          rw [h4, Bool.or_false] at this
          exact this
        · rw [List.drop_drop]
          exact g2
        · simp only [Bool.false_eq_true, if_false]
          rw [g3]
          split <;> rfl
    · rw [if_neg ho, if_neg ho]
      have hd : s.chunkBytes.drop off = [] := List.drop_of_length_le (by omega)
      rw [hd, piecesOf_nil _ hb]
      exact ⟨[], s.fsr, false, ⟨rfl, rfl, by simp⟩, ⟨rfl, rfl, rfl⟩, rfl⟩

theorem writeChunk_trace (s : State) (hl : s.chunkBytes.length = s.work.chunklen) (hp : 0 < s.work.chunklen)
    (hb : 0 < s.cfg.writeBlock) (ha : 0 < s.cfg.writePoll.attempts) :
    ∃ evs sr timedOut, Flagged s (writeChunk s) evs sr timedOut ∧
      PiecesTrace s.cfg (piecesOf s.cfg.writeBlock s.chunkBytes) s.work.faddr s.pins.tdi s.fsr evs sr timedOut ∧
      (writeChunk s).pins.tdi = false := by
  obtain ⟨evs, sr, out, h1, h2, h3⟩ := writePieces_trace (s.work.chunklen + 1) 0 { s with work.didWrite := true }
    (by show s.chunkBytes.length - 0 < _; omega) hl hb ha
  exact ⟨evs, sr, out, ⟨h1.trace, h1.fsr, h1.timeout⟩, h2, by
    show (writePieces (s.work.chunklen + 1) 0 { s with work.didWrite := true }).pins.tdi = false
    rw [h3, if_pos hp]⟩

/-- `programAttempt()` (spec 44 R258). -/
theorem programAttempt_trace (s : State) (hl : s.chunkBytes.length = s.work.chunklen) (hp : 0 < s.work.chunklen)
    (hv : 0 < s.cfg.writeBlock ∧ 0 < s.cfg.erasePoll.attempts ∧ 0 < s.cfg.writePoll.attempts)
    (hw : s.cfg.erasePoll.attempts < 2 ^ 32 ∧ s.cfg.writePoll.attempts < 2 ^ 32) :
    ∃ evs sr timedOut wrote, Flagged s (programAttempt s) evs sr timedOut ∧
      AttemptTrace s.cfg (s.work.cls == .eraseThenWrite) s.chunkBytes s.work.faddr s.pins.tdi s.fsr evs sr timedOut wrote ∧
      (programAttempt s).pins.tdi = false ∧
      (programAttempt s).work = { s.work with didErase := s.work.didErase || s.work.cls == .eraseThenWrite
                                              didWrite := s.work.didWrite || wrote } := by
  obtain ⟨v1, v2, v3⟩ := hv
  unfold programAttempt
  by_cases hc : s.work.cls = .eraseThenWrite
  · have hce : (s.work.cls == .eraseThenWrite) = true := by rw [hc]; rfl
    rw [if_pos hc]
    obtain ⟨e1, sr, h1, h2, h3, h4⟩ := eraseBlock_spec s.work.faddr { s with work.didErase := true }
    have h5 := eraseBlock_tdi s.work.faddr { s with work.didErase := true } v2
    simp only
    generalize eraseBlock s.work.faddr { s with work.didErase := true } = r at *
    have hw' : r.2.work = { s.work with didErase := true } := h1.work
    cases hr : r.1 with
    | true =>
      rw [hr] at h2 h4
      exact ⟨e1, sr, true, false, ⟨h1.trace, h3, h4⟩, by
        rw [AttemptTrace, if_pos hce]
        exact ⟨e1, [], sr, true, by simp, h2, rfl, rfl, rfl, rfl⟩, h5, by simp [hw', hc]⟩
    | false =>
      rw [hr] at h2 h4
      have hcb : r.2.chunkBytes = s.chunkBytes := by simp only [State.chunkBytes, hw']
      have hcfg : r.2.cfg = s.cfg := h1.cfg
      obtain ⟨e2, sr2, out, g1, g2, g3⟩ := writeChunk_trace r.2 (by rw [hcb, hw']; exact hl) (by rw [hw']; exact hp)
        (by rw [hcfg]; exact v1) (by rw [hcfg]; exact v3)
      obtain ⟨-, -, -, g4⟩ := writeChunk_spec r.2 (by rw [hcfg]; exact hw.2)
      rw [hcb, hcfg, hw', h5, h3] at g2
      have a := h1.trace
      have b := g1.trace
      refine ⟨e1 ++ e2, sr2, out, true, ⟨?_, g1.fsr, ?_⟩, by
        rw [AttemptTrace, if_pos hce]
        exact ⟨e1, e2, sr, false, rfl, h2, rfl, g2⟩, g3, ?_⟩
      · simp only [newEvents] at *
        simp only [Bool.false_eq_true, if_false]
        rw [b, a, List.reverse_append, List.append_assoc]
      · have := g1.timeout
        rw [h4, Bool.or_false] at this
        exact this
      · simp only [Bool.false_eq_true, if_false, g4, hw']
        simp [hc]
  · have hce : ¬(s.work.cls == .eraseThenWrite) = true := by simpa using hc
    rw [if_neg hc]
    obtain ⟨e2, sr2, out, g1, g2, g3⟩ := writeChunk_trace s hl hp v1 v3
    obtain ⟨-, -, -, g4⟩ := writeChunk_spec s hw.2
    refine ⟨e2, sr2, out, true, g1, by rw [AttemptTrace, if_neg hce]; exact ⟨rfl, g2⟩, g3, ?_⟩
    rw [g4]
    have : (s.work.cls == .eraseThenWrite) = false := by simpa using hc
    simp [this]

/-! ### The retry loop -/

/-- One attempt and the rest of the retry loop after it, from what the attempt leaves. -/
theorem attempt_then {c a : State} {e1 : List Event} {sr : Byte} {out : Bool} (h : Flagged c a e1 sr out) {t : State}
    {e2 : List Event} (g : newEvents a t e2) : newEvents c t (e1 ++ e2) := by
  have b := h.trace
  simp only [newEvents] at *
  rw [g, b, List.reverse_append, List.append_assoc]

/-- What comparing leaves of what an attempt reads. -/
theorem compareChunk_same (s : State) :
    (compareChunk s).cfg = s.cfg ∧ (compareChunk s).chunkBytes = s.chunkBytes ∧
    (compareChunk s).work.faddr = s.work.faddr ∧ (compareChunk s).work.chunklen = s.work.chunklen ∧
    (compareChunk s).work.didErase = s.work.didErase ∧ (compareChunk s).work.didWrite = s.work.didWrite ∧
    (compareChunk s).fsr = s.fsr := by
  obtain ⟨scan, h1, -, -, -, -, -, h6, -, h8⟩ := compareChunk_spec s
  generalize compareChunk s = c at *
  have hk := h1.chunk
  have hn := h1.chunklen
  refine ⟨h1.cfg, ?_, h1.faddr, hn, ?_, ?_, h8⟩
  · simp only [State.chunkBytes, hn, hk]
  · rw [h6]
  · rw [h6]

/-- An attempt inside the retry loop. -/
theorem attempt_trace (c : State) (hl : c.chunkBytes.length = c.work.chunklen) (hp : 0 < c.work.chunklen)
    (hv : 0 < c.cfg.writeBlock ∧ 0 < c.cfg.erasePoll.attempts ∧ 0 < c.cfg.writePoll.attempts)
    (hw : c.cfg.erasePoll.attempts < 2 ^ 32 ∧ c.cfg.writePoll.attempts < 2 ^ 32) :
    let a := programAttempt { c with work.retry := c.work.retry + 1 }
    ∃ evs sr out wrote, Flagged c a evs sr out ∧
      AttemptTrace c.cfg (c.work.cls == .eraseThenWrite) c.chunkBytes c.work.faddr c.pins.tdi c.fsr evs sr out wrote ∧
      a.pins.tdi = false ∧ a.cfg = c.cfg ∧ a.chunkBytes = c.chunkBytes ∧ a.work.faddr = c.work.faddr ∧
      a.work.chunklen = c.work.chunklen ∧ a.work.didErase = (c.work.didErase || c.work.cls == .eraseThenWrite) ∧
      a.work.didWrite = (c.work.didWrite || wrote) := by
  obtain ⟨e1, sr, out, w1, a1, a2, a3, a4⟩ := programAttempt_trace { c with work.retry := c.work.retry + 1 } hl hp hv hw
  obtain ⟨_, _, _, a5, -⟩ := programAttempt_spec { c with work.retry := c.work.retry + 1 } hw.1 hw.2
  have a6 := a5.cfg
  simp only
  generalize programAttempt { c with work.retry := c.work.retry + 1 } = a at *
  exact ⟨e1, sr, out, w1, ⟨a1.trace, a1.fsr, a1.timeout⟩, a2, a3, a6, by simp only [State.chunkBytes, a4], by rw [a4],
    by rw [a4], by rw [a4], by rw [a4]⟩

/-- A comparison that asks for an attempt. -/
theorem retryLoop_attempts (n : Nat) (s : State)
    (h : ¬((compareChunk s).work.cls = .noOp ∨ (compareChunk s).work.cls = .unerasable)) :
    retryLoop (n + 1) s =
      retryLoop n (programAttempt { compareChunk s with work.retry := (compareChunk s).work.retry + 1 }) := by
  rw [retryLoop]
  generalize compareChunk s = c at *
  cases hc : c.work.cls <;> simp_all

/-- A comparison that ends the loop. -/
theorem retryLoop_ends (n : Nat) (s : State) (h : (compareChunk s).work.cls = .noOp ∨ (compareChunk s).work.cls = .unerasable) :
    retryLoop (n + 1) s =
      (if (compareChunk s).work.cls = .noOp then none else some .unerasableImage, compareChunk s) := by
  rw [retryLoop]
  generalize compareChunk s = c at *
  rcases h with h | h <;> simp only [h] <;> rfl

/-- `retryLoop()` (spec 44 R257). -/
theorem retryLoop_trace (left : Nat) (s : State) (hl : s.chunkBytes.length = s.work.chunklen)
    (hp : 0 < s.work.chunklen)
    (hv : 0 < s.cfg.writeBlock ∧ 0 < s.cfg.erasePoll.attempts ∧ 0 < s.cfg.writePoll.attempts)
    (hw : s.cfg.erasePoll.attempts < 2 ^ 32 ∧ s.cfg.writePoll.attempts < 2 ^ 32) :
    ∃ evs timedOut erased wrote, Flagged s (retryLoop left s).2 evs (retryLoop left s).2.fsr timedOut ∧
      RetryTrace s.cfg s.chunkBytes s.work.faddr left s.pins.tdi s.fsr evs (retryLoop left s).1 (retryLoop left s).2.fsr
        timedOut erased wrote ∧
      (retryLoop left s).2.work.didErase = (s.work.didErase || erased) ∧
      (retryLoop left s).2.work.didWrite = (s.work.didWrite || wrote) := by
  induction left generalizing s with
  | zero =>
    obtain ⟨scan, h1, -, -, -, h4, h5, -, hfl, -⟩ := compareChunk_spec s
    obtain ⟨-, -, -, -, he, hd, hs⟩ := compareChunk_same s
    rw [← hl] at h4 h5
    have ht := h1.trace
    unfold retryLoop
    simp only
    generalize compareChunk s = c at *
    cases hc : c.work.cls <;>
    exact ⟨scan, false, false, false, ⟨ht, rfl, by simp [hfl]⟩,
      ⟨c.pins.tdi, c.work.cls, h5, h4, hs, rfl, rfl, rfl, by rw [hc]; rfl⟩, by simp [he], by simp [hd]⟩
  | succ n ih =>
    obtain ⟨scan, h1, -, -, -, h4, h5, -, hfl, -⟩ := compareChunk_spec s
    obtain ⟨hcfg, hb, hf, hn, he, hd, hs⟩ := compareChunk_same s
    rw [← hl] at h4 h5
    have ht := h1.trace
    by_cases hq : (compareChunk s).work.cls = .noOp ∨ (compareChunk s).work.cls = .unerasable
    · rw [retryLoop_ends n s hq]
      generalize compareChunk s = c at *
      exact ⟨scan, false, false, false, ⟨ht, rfl, by simp [hfl]⟩, ⟨scan, [], c.pins.tdi, c.work.cls, by simp, h5, h4, by
        rw [if_pos hq]; exact ⟨rfl, hs, rfl, rfl, rfl, rfl⟩⟩, by simp [he], by simp [hd]⟩
    · rw [retryLoop_attempts n s hq]
      generalize compareChunk s = c at *
      obtain ⟨e1, sr, out, w1, a1, a2, a3, a4, a5, a6, a7, a8, a9⟩ := attempt_trace c (by rw [hb, hn]; exact hl)
        (by rw [hn]; exact hp) (by rw [hcfg]; exact hv) (by rw [hcfg]; exact hw)
      rw [hcfg, hb, hf, hs] at a2
      replace a4 := a4.trans hcfg
      replace a5 := a5.trans hb
      replace a6 := a6.trans hf
      replace a7 := a7.trans hn
      replace a8 := a8.trans (congrArg (· || _) he)
      replace a9 := a9.trans (congrArg (· || _) hd)
      have hg := ih (programAttempt { c with work.retry := c.work.retry + 1 }) (by rw [a5, a7]; exact hl)
        (by rw [a7]; exact hp) (by rw [a4]; exact hv) (by rw [a4]; exact hw)
      have a1f := a1.fsr
      have a1t := a1.timeout.trans (congrArg (fun f => f.timeout || out) hfl)
      rw [a4, a5, a6, a3, a1f] at hg
      generalize programAttempt { c with work.retry := c.work.retry + 1 } = a at *
      obtain ⟨e2, out2, er2, w2, g1, g2, g3, g4⟩ := hg
      refine ⟨scan ++ (e1 ++ e2), out || out2, c.work.cls == .eraseThenWrite || er2, w1 || w2,
        ⟨?_, rfl, by rw [g1.timeout, a1t, Bool.or_assoc]⟩,
        ⟨scan, e1 ++ e2, c.pins.tdi, c.work.cls, rfl, h5, h4, ?_⟩, by rw [g3, a8, Bool.or_assoc], by rw [g4, a9, Bool.or_assoc]⟩
      · have g := attempt_then a1 g1.trace
        simp only [newEvents] at *
        rw [g, ht]
        simp only [List.reverse_append, List.append_assoc]
      · rw [if_neg hq]
        exact ⟨e1, e2, sr, out, w1, out2, er2, w2, rfl, a2, g2, rfl, rfl, rfl⟩

end Sys2Proof.Machine
end

