-- ==== Sys2Proof/Laws/UploadLoop.lean ====
section
/-! SUPPORT. The chunk loop of UPLOAD and its start: what a finished and a failed upload leave (spec 44 R255, R256,
R260). -/

namespace Sys2Proof.Machine

/-! ### The end of a chunk -/

theorem stampElapsed_moves (s : State) : Moves s (stampElapsed s) [] := by
  have h := (now_lines s).toMoves
  exact ⟨h.trace, h.cfg, h.regs, h.res, h.buf, h.ctl, h.inputs, h.resets, h.tap, h.path, h.tck, h.undisturbed, h.time,
    h.mismatch, h.timeout, h.target, h.noDone, h.levels⟩

@[simp] theorem stampElapsed_work (s : State) : (stampElapsed s).work = s.work := rfl
@[simp] theorem stampElapsed_devmode (s : State) : (stampElapsed s).devmode = s.devmode := rfl
@[simp] theorem stampElapsed_source (s : State) : (stampElapsed s).env.source = s.env.source := rfl
@[simp] theorem stampElapsed_pins (s : State) : (stampElapsed s).pins = s.pins := rfl
@[simp] theorem stampElapsed_banks (s : State) : (stampElapsed s).banks = s.banks := rfl
@[simp] theorem stampElapsed_counters (s : State) : (stampElapsed s).counters = s.counters := rfl
@[simp] theorem stampElapsed_flags (s : State) : (stampElapsed s).flags = s.flags := rfl
@[simp] theorem stampElapsed_fsr (s : State) : (stampElapsed s).fsr = s.fsr := rfl

/-- Only ST_ELAPSED changes among the statistics. -/
theorem stampElapsed_stats (s : State) :
    (stampElapsed s).stats = { s.stats with elapsed := elapsedWord s.env.clock.now.1 s.work.tStart } := rfl

/-- A later time is no earlier a time elapsed. -/
theorem elapsedWord_mono {a b : Nat} (start : Nat) (h : a ≤ b) : elapsedWord a start ≤ elapsedWord b start := by
  simp only [elapsedWord, BitVec.le_def, BitVec.toNat_ofNat]
  rw [Nat.mod_eq_of_lt (by omega), Nat.mod_eq_of_lt (by omega)]
  omega

/-- ST_ELAPSED is no later than now. -/
def ElapsedOk (s : State) : Prop := s.stats.elapsed ≤ elapsedWord s.env.clock.time s.work.tStart

theorem ElapsedOk.later {s t : State} (h : ElapsedOk s) (hs : t.stats = s.stats) (hw : t.work.tStart = s.work.tStart)
    (ht : s.env.clock.time ≤ t.env.clock.time) : ElapsedOk t := by
  unfold ElapsedOk at *
  rw [hs, hw]
  exact BitVec.le_trans h (elapsedWord_mono _ ht)

/-- The stamped time is that of the clock's answer. -/
theorem stampElapsed_elapsed (s : State) :
    (stampElapsed s).stats.elapsed = elapsedWord (stampElapsed s).env.clock.time s.work.tStart := by
  rw [stampElapsed_stats]
  simp only [stampElapsed, now_env, Clock.now_snd_time]

/-- Counting a finished chunk: the counts, the time, one report. -/
theorem finishChunk_spec (s : State) :
    ∃ e, Moves s (finishChunk s) [e] ∧ e = .progress (finishChunk s).stats ∧
      Steady s (finishChunk s) ∧ (finishChunk s).work = s.work ∧ (finishChunk s).devmode = s.devmode ∧
      (finishChunk s).env.source = s.env.source ∧
      (finishChunk s).stats =
        { s.stats.afterChunk s.work.chunklen s.work.didErase s.work.didWrite with
          elapsed := elapsedWord (finishChunk s).env.clock.time s.work.tStart } := by
  have h1 := stampElapsed_moves
    { s with stats := s.stats.afterChunk s.work.chunklen s.work.didErase s.work.didWrite }
  have h2 := h1.ofWork (s := s) _ s.work s.env.source
  have h3 := emit_progress_moves
    (stampElapsed { s with stats := s.stats.afterChunk s.work.chunklen s.work.didErase s.work.didWrite }).stats
    (stampElapsed { s with stats := s.stats.afterChunk s.work.chunklen s.work.didErase s.work.didWrite })
  refine ⟨_, h2.trans h3, ?_, ⟨fun h => ?_, fun k => k.congr ?_ ?_⟩, ?_, ?_, ?_, ?_⟩
  · simp [finishChunk]
  · simpa [finishChunk] using h
  · simp [finishChunk]
  · simp [finishChunk]
  · simp [finishChunk]
  · simp [finishChunk]
  · simp [finishChunk]
  · simp [finishChunk, stampElapsed]

/-- The chunk counted, in the terms of claims. -/
theorem afterChunk_counts {before after : Stats} (n : Nat) (e w : Bool) (t : Word) (h : before.elapsed ≤ t)
    (ha : after = { before.afterChunk n e w with elapsed := t }) : countsChunk before n after := by
  subst ha
  refine ⟨e, w, h, ?_⟩
  cases e <;> cases w <;> rfl

/-! ### The chunk loop -/

/-- What the upload keeps all the way, the bounds of its registers and buffers among it. -/
structure Uploading (s t : State) (evs : List Event) : Prop extends Moves s t evs where
  devmode : t.devmode = s.devmode
  tStart : t.work.tStart = s.work.tStart
  steady : Steady s t

/-- The bounds of UPLOAD's working registers and buffers (spec 10_state R48, R50). -/
structure WorkOk (s : State) : Prop where
  faddr : s.work.faddr ≤ Config.flashBytes
  chunklen : s.work.chunklen ≤ s.cfg.eraseBlock
  retry : s.work.retry ≤ Config.retryMax
  chunk : s.work.chunk.length ≤ s.cfg.eraseBlock
  scratch : s.work.scratch.length ≤ s.cfg.eraseBlock

theorem Uploading.trans {s t u : State} {e1 e2 : List Event} (h1 : Uploading s t e1) (h2 : Uploading t u e2) :
    Uploading s u (e1 ++ e2) :=
  ⟨h1.toMoves.trans h2.toMoves, h2.devmode.trans h1.devmode, h2.tStart.trans h1.tStart, h1.steady.trans h2.steady⟩

/-- One round over a filled chunk (spec 44 R256): either the chunk is finished and counted, or the upload fails with
nothing counted and FADDR at the chunk. -/
theorem runChunk_spec (s : State) (he : s.cfg.erasePoll.attempts < 2 ^ 32) (hp : s.cfg.writePoll.attempts < 2 ^ 32)
    (hw : WorkOk s) (ho : ElapsedOk s) :
    ∃ evs, Uploading s (runChunk s).2 evs ∧ WorkOk (runChunk s).2 ∧ ElapsedOk (runChunk s).2 ∧
      (runChunk s).2.work.faddr = s.work.faddr ∧ (runChunk s).2.work.chunklen = s.work.chunklen ∧
      (runChunk s).2.env.source = s.env.source ∧
      match (runChunk s).1 with
      | none => s.work.faddr + s.work.chunklen ≤ Config.flashBytes ∧ reportsOf evs = [(runChunk s).2.stats] ∧
          countsChunk s.stats s.work.chunklen (runChunk s).2.stats
      | some e => (runChunk s).2.stats = s.stats ∧ reportsOf evs = [] ∧
          ((e = .addressRangeError ∧ Config.flashBytes < s.work.faddr + s.work.chunklen) ∨
            (s.work.faddr + s.work.chunklen ≤ Config.flashBytes ∧
              (e = .unerasableImage ∨ e = .programFailure))) := by
  unfold runChunk
  by_cases hr : runsPastFlash s.work.faddr s.work.chunklen = true
  · rw [if_pos hr]
    simp only [runsPastFlash, decide_eq_true_eq] at hr
    exact ⟨[], ⟨Moves.refl s, rfl, rfl, Steady.refl s⟩, hw, ho, rfl, rfl, rfl, rfl, rfl, .inl ⟨rfl, hr⟩⟩
  · rw [if_neg hr]
    simp only [runsPastFlash, decide_eq_true_eq, Nat.not_lt] at hr
    obtain ⟨e1, h1, h2, h3, h4, h5, -⟩ := retryLoop_spec Config.retryMax
      { s with work.retry := 0, work.didErase := false, work.didWrite := false } he hp
    simp only
    generalize retryLoop Config.retryMax
      { s with work.retry := 0, work.didErase := false, work.didWrite := false } = r at *
    have o1 : OnChunk s r.2 e1 := h1.ofAttempt 0 false false
    have o2 : Steady s r.2 := h2.ofAttempt 0 false false
    have hwr : WorkOk r.2 := by
      refine ⟨by rw [o1.faddr]; exact hw.faddr, by rw [o1.chunklen, o1.cfg]; exact hw.chunklen, by simpa using h5,
        by rw [o1.chunk, o1.cfg]; exact hw.chunk, ?_⟩
      have := o1.scratch
      have := hw.scratch
      have := hw.chunklen
      rw [o1.cfg]
      omega
    have hor : ElapsedOk r.2 := ho.later o1.stats o1.tStart (Nat.le_trans (Nat.le_add_right _ _) o1.time)
    split
    · rename_i e hre
      rw [hre] at h3
      refine ⟨e1, ⟨o1.toMoves, o1.devmode, o1.tStart, o2⟩, hwr, hor, o1.faddr, o1.chunklen, o1.source, o1.stats, o1.quiet,
        .inr ⟨hr, ?_⟩⟩
      rcases h3 with h3 | h3
      · exact .inl h3.1
      · exact .inr h3.1
    · obtain ⟨e, g1, rfl, g2, g3, g4, g5, g6⟩ := finishChunk_spec r.2
      refine ⟨_, ⟨o1.toMoves.trans g1, g4.trans o1.devmode, by rw [g3, o1.tStart], o2.trans g2⟩, ?_, ?_,
        by rw [g3, o1.faddr], by rw [g3, o1.chunklen], g5.trans o1.source, hr, ?_, ?_⟩
      · refine ⟨by rw [g3]; exact hwr.faddr, by rw [g3, g1.cfg]; exact hwr.chunklen, by rw [g3]; exact hwr.retry,
          by rw [g3, g1.cfg]; exact hwr.chunk, by rw [g3, g1.cfg]; exact hwr.scratch⟩
      · unfold ElapsedOk
        rw [g3, g6]
        exact BitVec.le_refl _
      · rw [reportsOf_append, o1.quiet]; rfl
      · rw [o1.chunklen, o1.stats] at g6
        refine afterChunk_counts _ _ _ _ ?_ g6
        have h := g1.time
        rw [← o1.stats]
        exact BitVec.le_trans hor (elapsedWord_mono _ (Nat.le_trans (Nat.le_add_right _ _) h))

/-- What the chunk loop answers on a stream: success comes only where it has an end, has counted all its bytes and taken
them from the source; a failure stands at a chunk, has counted the chunks before it and taken from the source no more
than that chunk (spec 44 R256, R260, 70 R337). -/
def LoopAnswer (s t : State) (evs : List Event) : Option ErrorKind → Prop
  | none =>
    s.env.source.stream.endless = false ∧ t.env.source.stream = { s.env.source.stream with content := [] } ∧
    t.stats.bytes = s.stats.bytes + BitVec.ofNat 32 s.env.source.stream.content.length ∧
    t.stats.blocks = s.stats.blocks +
      BitVec.ofNat 32 ((s.env.source.stream.content.length + s.cfg.eraseBlock - 1) / s.cfg.eraseBlock) ∧
    (s.env.source.stream.content.length ≠ 0 →
      s.work.faddr + s.env.source.stream.content.length ≤ Config.flashBytes) ∧
    countedChunks s.stats (chunkSizes s.cfg.eraseBlock s.env.source.stream.content.length) (reportsOf evs) t.stats
  | some e =>
    ∃ k, (s.env.source.stream.endless = true ∨ k * s.cfg.eraseBlock < s.env.source.stream.content.length) ∧
      t.work.faddr = s.work.faddr + k * s.cfg.eraseBlock ∧
      t.env.source.stream = s.env.source.stream.skip ((k + 1) * s.cfg.eraseBlock) ∧
      t.stats.bytes = s.stats.bytes + BitVec.ofNat 32 (k * s.cfg.eraseBlock) ∧
      t.stats.blocks = s.stats.blocks + BitVec.ofNat 32 k ∧
      countedChunks s.stats (List.replicate k s.cfg.eraseBlock) (reportsOf evs) t.stats ∧
      (e = .unerasableImage ∨ e = .programFailure ∨
        (e = .addressRangeError ∧ Config.flashBytes <
          t.work.faddr + ((s.env.source.stream.skip (k * s.cfg.eraseBlock)).peek s.cfg.eraseBlock).length))

theorem chunkSizes_small {size n : Nat} (h : n < size) (h0 : n ≠ 0) : chunkSizes size n = [n] := by
  rw [chunkSizes, Nat.div_eq_of_lt h, Nat.mod_eq_of_lt h, if_neg h0]
  rfl

theorem chunkSizes_cons {size n : Nat} (h0 : 0 < size) (h : size ≤ n) :
    chunkSizes size n = size :: chunkSizes size (n - size) := by
  have hd : n / size = (n - size) / size + 1 := by rw [Nat.div_eq n size, if_pos ⟨h0, h⟩]
  have hm : n % size = (n - size) % size := Nat.mod_eq_sub_mod h
  rw [chunkSizes, chunkSizes, hd, hm, List.replicate_succ, List.cons_append]

/-- The bound on the rounds is one for every base address. -/
theorem chunkRounds_enough (p : Params) (base : Nat) (h : 0 < p.eraseBlock) :
    Config.flashBytes < base + chunkRounds p * p.eraseBlock := by
  have := Nat.lt_div_mul_add h (a := Config.flashBytes)
  rw [chunkRounds, Nat.succ_mul]
  omega

/-- `chunkLoop()`, with rounds enough for every address up to the end of the flash. -/
theorem chunkLoop_spec (n : Nat) (s : State) (hn : Config.flashBytes < s.work.faddr + n * s.cfg.eraseBlock)
    (hb : 0 < s.cfg.eraseBlock)
    (he : s.cfg.erasePoll.attempts < 2 ^ 32) (hp : s.cfg.writePoll.attempts < 2 ^ 32) (hw : WorkOk s)
    (ho : ElapsedOk s) :
    ∃ evs, Uploading s (chunkLoop n s).2 evs ∧ WorkOk (chunkLoop n s).2 ∧ ElapsedOk (chunkLoop n s).2 ∧
      LoopAnswer s (chunkLoop n s).2 evs (chunkLoop n s).1 := by
  induction n generalizing s with
  | zero => have := hw.faddr; omega
  | succ n ih =>
    have hf := fillChunk_spec s.cfg.eraseBlock { s with work.chunklen := 0 } (by simp) (by simp) (by simp)
    unfold chunkLoop
    simp only
    generalize fillChunk s.cfg.eraseBlock { s with work.chunklen := 0 } = f at *
    obtain ⟨ef, f1, fq⟩ := hf.moves
    obtain ⟨m1, -, -, m4, m5, m6, m7, -⟩ := hf.same
    have f1' : Moves s f.2 ef := f1.ofWork s.stats { s.work with chunklen := 0 } s.env.source
    have fcfg : f.2.cfg = s.cfg := f1.cfg
    have fst : f.2.stats = s.stats := m7
    have hlen := hf.chunklen
    have hcont := hf.stream
    have heos := hf.eos
    simp only [Nat.sub_zero, Nat.zero_add] at hlen hcont heos
    have hpl := ByteStream.peek_length s.cfg.eraseBlock s.env.source.stream
    have hple := ByteStream.peek_length_le s.cfg.eraseBlock s.env.source.stream
    rw [← hlen] at hpl hple
    have fw := hf.work
    have ffaddr := congrArg Work.faddr fw
    have ftst := congrArg Work.tStart fw
    simp only at ffaddr ftst
    have fU : Uploading s f.2 ef := ⟨f1', m1, ftst,
      ⟨fun h => by rw [m4]; exact h, fun k => k.congr m5 m6⟩⟩
    have fW : WorkOk f.2 := by
      refine ⟨by rw [ffaddr]; exact hw.faddr, by rw [fcfg]; exact hple, ?_, ?_, ?_⟩
      · have := congrArg Work.retry fw; simp only at this; rw [this]; exact hw.retry
      · rw [fcfg]; exact hf.bound hw.chunk
      · have := congrArg Work.scratch fw; simp only at this; rw [this, fcfg]; exact hw.scratch
    have fo : ElapsedOk f.2 := ho.later fst ftst (Nat.le_trans (Nat.le_add_right _ _) f1'.time)
    have fq : reportsOf ef = [] := by
      rw [reportsOf, List.filterMap_eq_nil_iff]
      intro e he
      obtain ⟨_, _, rfl⟩ := fq e he
      rfl
    by_cases h0 : f.2.work.chunklen = 0
    · rw [if_pos h0]
      rw [h0] at hpl
      have hfin : s.env.source.stream.endless = false := by
        cases he : s.env.source.stream.endless with
        | false => rfl
        | true => rw [if_pos he] at hpl; omega
      rw [hfin, if_neg (by simp)] at hpl
      have hl0 : s.env.source.stream.content.length = 0 := by omega
      have hnil := List.eq_nil_of_length_eq_zero hl0
      refine ⟨ef, fU, fW, fo, hfin, ?_, ?_, ?_, fun h => absurd hl0 h, ?_⟩
      · rw [hcont, ByteStream.skip_finite _ hfin, hnil, List.drop_nil]
      · rw [fst, hl0]; simp
      · rw [fst, hl0, Nat.zero_add, Nat.div_eq_of_lt (by omega)]; simp
      · rw [fst, hl0, fq, chunkSizes, Nat.zero_div, Nat.zero_mod]
        exact ⟨rfl, rfl⟩
    · rw [if_neg h0]
      obtain ⟨er, r1, r2, ro, r3, r4, r5, r6⟩ := runChunk_spec f.2 (by rw [fcfg]; exact he) (by rw [fcfg]; exact hp) fW fo
      generalize runChunk f.2 = r at *
      have rcfg : r.2.cfg = s.cfg := r1.cfg.trans fcfg
      cases hr : r.1 with
      | some e =>
        rw [hr] at r6
        obtain ⟨r6, rq, r7⟩ := r6
        refine ⟨_, fU.trans r1, r2, ro, 0, ?_, ?_, ?_, ?_, ?_, ?_, ?_⟩
        · cases he : s.env.source.stream.endless with
          | true => exact .inl rfl
          | false => rw [he, if_neg (by simp)] at hpl; exact .inr (by omega)
        · rw [r3, ffaddr]; simp
        · rw [r5, hcont]; simp
        · rw [r6, fst]; simp
        · rw [r6, fst]; simp
        · rw [reportsOf_append, fq, rq, r6, fst]; exact ⟨rfl, rfl⟩
        · rcases r7 with ⟨r7, r8⟩ | ⟨-, r7⟩
          · refine .inr (.inr ⟨r7, ?_⟩)
            rw [r3]
            rw [hlen] at r8
            simpa using r8
          · rcases r7 with r7 | r7
            · exact .inl r7
            · exact .inr (.inl r7)
      | none =>
        rw [hr] at r6
        obtain ⟨r6, rq, r7⟩ := r6
        rw [fst] at r7
        have hbytes : r.2.stats.bytes = s.stats.bytes + BitVec.ofNat 32 f.2.work.chunklen := by
          obtain ⟨_, _, -, h⟩ := r7
          exact congrArg Stats.bytes h
        have hblocks : r.2.stats.blocks = s.stats.blocks + 1#32 := by
          obtain ⟨_, _, -, h⟩ := r7
          exact congrArg Stats.blocks h
        have hrep : reportsOf (ef ++ er) = [r.2.stats] := by rw [reportsOf_append, fq, rq]; rfl
        simp only
        by_cases hE : f.1 = true
        · rw [if_pos hE]
          rw [hE] at heos
          have hltk : f.2.work.chunklen < s.cfg.eraseBlock := by simpa using heos.symm
          have hfin : s.env.source.stream.endless = false := by
            cases he : s.env.source.stream.endless with
            | false => rfl
            | true => rw [if_pos he] at hpl; omega
          rw [hfin, if_neg (by simp)] at hpl
          have hk : f.2.work.chunklen = s.env.source.stream.content.length := by omega
          have hlt : s.env.source.stream.content.length < s.cfg.eraseBlock := by omega
          refine ⟨_, fU.trans r1, r2, ro, hfin, ?_, ?_, ?_, fun _ => ?_, ?_⟩
          · rw [r5, hcont, ByteStream.skip_finite _ hfin, List.drop_of_length_le (by omega)]
          · rw [hbytes, hk]
          · rw [hblocks]
            congr 1
            rw [show (s.env.source.stream.content.length + s.cfg.eraseBlock - 1) / s.cfg.eraseBlock = 1 by
              rw [show s.env.source.stream.content.length + s.cfg.eraseBlock - 1 =
                s.env.source.stream.content.length - 1 + s.cfg.eraseBlock by omega, Nat.add_div_right _ hb,
                Nat.div_eq_of_lt (by omega)]]
          · rw [hk, ffaddr] at r6; exact r6
          · rw [hrep, chunkSizes_small hlt (by omega), ← hk]
            exact ⟨_, _, rfl, r7, rfl, rfl⟩
        · rw [if_neg hE]
          have hk : f.2.work.chunklen = s.cfg.eraseBlock := by
            have hE' : f.1 = false := by simpa using hE
            rw [hE'] at heos
            have : ¬f.2.work.chunklen < s.cfg.eraseBlock := by simpa using heos.symm
            omega
          have rs : r.2.env.source.stream = s.env.source.stream.skip s.cfg.eraseBlock := by rw [r5, hcont]
          have rl : r.2.env.source.stream.content.length = s.env.source.stream.content.length - s.cfg.eraseBlock := by
            rw [rs, ByteStream.skip_content, List.length_drop]
          have hge : s.env.source.stream.endless = false → s.cfg.eraseBlock ≤ s.env.source.stream.content.length := by
            intro he
            rw [he, if_neg (by simp)] at hpl
            omega
          have hW : WorkOk { r.2 with work.faddr := r.2.work.faddr + r.2.cfg.eraseBlock } :=
            ⟨by simp only; rw [r3, rcfg]; omega, r2.chunklen, r2.retry, r2.chunk, r2.scratch⟩
          obtain ⟨e2, g1, g2, go, g3⟩ := ih { r.2 with work.faddr := r.2.work.faddr + r.2.cfg.eraseBlock }
            (by simp only [r3, ffaddr, rcfg]; rw [Nat.succ_mul] at hn; omega) (by simp only [rcfg]; exact hb) (by simp only [rcfg]; exact he)
            (by simp only [rcfg]; exact hp) hW ro
          generalize chunkLoop n { r.2 with work.faddr := r.2.work.faddr + r.2.cfg.eraseBlock } = g at *
          have g1' : Uploading r.2 g.2 e2 :=
            ⟨g1.toMoves.ofWork r.2.stats { r.2.work with faddr := r.2.work.faddr + r.2.cfg.eraseBlock } r.2.env.source,
             g1.devmode, g1.tStart, g1.steady.ofWork r.2.stats
              { r.2.work with faddr := r.2.work.faddr + r.2.cfg.eraseBlock } r.2.env.source⟩
          refine ⟨_, (fU.trans r1).trans g1', g2, go, ?_⟩
          rw [hk] at hbytes r7
          cases hg : g.1 with
          | none =>
            rw [hg] at g3
            obtain ⟨a0, a1, a2, a3, a4, a5⟩ := g3
            simp only [rs, ByteStream.skip_endless] at a0 a1
            simp only [rl, rcfg] at a2 a3 a4 a5
            have hge := hge a0
            refine ⟨a0, by rw [a1, ByteStream.skip_finite _ a0], ?_, ?_, fun _ => ?_, ?_⟩
            · rw [a2, hbytes, BitVec.add_assoc, ← BitVec.ofNat_add]
              congr 2; omega
            · rw [a3, hblocks, BitVec.add_assoc, show (1#32 : Word) = BitVec.ofNat 32 1 from rfl, ← BitVec.ofNat_add]
              congr 2
              rw [show s.env.source.stream.content.length + s.cfg.eraseBlock - 1 =
                s.env.source.stream.content.length - s.cfg.eraseBlock + s.cfg.eraseBlock - 1 + s.cfg.eraseBlock by omega,
                Nat.add_div_right _ hb]
              omega
            · by_cases hz : s.env.source.stream.content.length = s.cfg.eraseBlock
              · rw [hk, ffaddr] at r6; omega
              · have := a4 (by omega)
                rw [r3, ffaddr] at this
                omega
            · rw [reportsOf_append, hrep, chunkSizes_cons hb hge]
              exact ⟨_, _, rfl, r7, a5⟩
          | some e =>
            rw [hg] at g3
            obtain ⟨k, a1, a2, a3, a4, a5, a7, a6⟩ := g3
            simp only [rs, rl, rcfg, r3, ffaddr, ByteStream.skip_endless, ByteStream.skip_add] at a1 a2 a3 a4 a5 a6 a7
            refine ⟨k + 1, ?_, ?_, ?_, ?_, ?_, ?_, ?_⟩
            · rcases a1 with a1 | a1
              · exact .inl a1
              · refine .inr ?_
                rw [ByteStream.skip_content, List.length_drop] at a1
                rw [Nat.succ_mul]; omega
            · rw [a2, Nat.succ_mul]; omega
            · rw [a3]; congr 1; rw [Nat.succ_mul (k + 1)]; omega
            · rw [a4, hbytes, BitVec.add_assoc, ← BitVec.ofNat_add]; congr 2; rw [Nat.succ_mul]; omega
            · rw [a5, hblocks, BitVec.add_assoc, show (1#32 : Word) = BitVec.ofNat 32 1 from rfl, ← BitVec.ofNat_add]
              congr 2; omega
            · rw [reportsOf_append, hrep, List.replicate_succ]
              exact ⟨_, _, rfl, r7, a7⟩
            · rcases a6 with a6 | a6 | ⟨a6, a7⟩
              · exact .inl a6
              · exact .inr (.inl a6)
              · refine .inr (.inr ⟨a6, ?_⟩)
                rw [Nat.succ_mul k, Nat.add_comm (k * s.cfg.eraseBlock)]
                exact a7

end Sys2Proof.Machine
end

