-- ==== Sys2Proof/Laws/Walks.lean ====
section
/-! SUPPORT. Where each operation takes the TAP: the tracker follows the transition table on a known, consistent state,
and every operation ends where the spec says (spec 10_state R29 to R31, 41 R183). -/

namespace Sys2Proof.Machine

/-! ### One pulse -/

/-- From every state five pulses with TMS=1 reach Reset. -/
theorem afterOnes_five (st : TapState) : afterOnes 5 st = .reset := by cases st <;> rfl

theorem afterOnes_reset (k : Nat) : afterOnes k .reset = .reset := by
  induction k with
  | zero => rfl
  | succ k ih => exact ih

/-- More of them do not leave it. -/
theorem afterOnes_more {j k : Nat} {st : TapState} (h : afterOnes j st = .reset) (hle : j ≤ k) :
    afterOnes k st = .reset := by
  induction j generalizing k st with
  | zero => simp only [afterOnes] at h; rw [h, afterOnes_reset]
  | succ j ih =>
    cases k with
    | zero => omega
    | succ k => exact ih (st := delta st true) h (by omega)

/-- On a known, consistent state a pulse does what the transition table says, and keeps both. -/
theorem Tracker.onPulse_consistent (t : Tracker) (tms : Bool) (hk : t.known = true) (hc : t.consistent) :
    (t.onPulse tms).known = true ∧ (t.onPulse tms).state = delta t.state tms ∧ (t.onPulse tms).consistent := by
  have h := hc hk
  cases tms with
  | false =>
    rw [Tracker.onPulse_false t hk]
    exact ⟨rfl, rfl, fun _ => afterOnes_five _⟩
  | true =>
    have ho : (onesAfter t.ones true).toNat = min (t.ones.toNat + 1) 5 := by
      have : ∀ o : BitVec 3, (onesAfter o true).toNat = min (o.toNat + 1) 5 := by decide
      exact this _
    unfold Tracker.onPulse
    by_cases h5 : onesAfter t.ones true = 5#3
    · rw [if_pos h5]
      have h4 : 4 ≤ t.ones.toNat := by
        rw [h5] at ho
        have : (5#3).toNat = 5 := rfl
        omega
      have hd : delta t.state true = .reset := by
        have := afterOnes_more h (k := 1) (by omega)
        exact this
      exact ⟨rfl, hd.symm, fun _ => rfl⟩
    · rw [if_neg h5]
      refine ⟨hk, by simp [hk], fun _ => ?_⟩
      have hlt : t.ones.toNat + 1 < 5 := by
        apply Nat.lt_of_not_le
        intro hge
        apply h5
        apply BitVec.eq_of_toNat_eq
        rw [ho]
        show min _ 5 = 5
        omega
      simp only [ho, hk, if_true]
      rw [show 5 - min (t.ones.toNat + 1) 5 = 5 - t.ones.toNat - 1 by omega]
      rw [show 5 - t.ones.toNat = (5 - t.ones.toNat - 1) + 1 by omega] at h
      exact h

/-- Every tracker is consistent after a pulse. -/
theorem Tracker.consistent_onPulse (t : Tracker) (tms : Bool) (hc : t.consistent) : (t.onPulse tms).consistent := by
  by_cases hk : t.known = true
  · exact (t.onPulse_consistent tms hk hc).2.2
  · unfold Tracker.onPulse
    split
    · exact fun _ => rfl
    · exact fun h => absurd h hk

/-- Tracking events keeps the tracker consistent, and sound. -/
theorem trackEvents_consistent (evs : List Event) (t : Tracker) (hc : t.consistent) :
    (trackEvents t evs).consistent := by
  induction evs generalizing t with
  | nil => exact hc
  | cons e evs ih =>
    refine ih _ ?_
    cases e with
    | pulse d tms tdi tdo => exact t.consistent_onPulse tms hc
    | path p => cases p <;> first | exact hc | exact fun h => absurd h (by simp [trackEvent])
    | _ => exact hc

theorem trackEvents_sound (evs : List Event) (t : Tracker) (hc : t.sound) : (trackEvents t evs).sound := by
  induction evs generalizing t with
  | nil => exact hc
  | cons e evs ih =>
    refine ih _ ?_
    cases e with
    | pulse d tms tdi tdo => exact t.sound_onPulse tms
    | path p =>
      cases p with
      | released => exact ⟨by simp [trackEvent], fun h => absurd h (by simp [trackEvent])⟩
      | _ => exact hc
    | _ => exact hc

/-! ### Operations of the TAP controller -/

theorem State.tapAt.of_eq {s t : State} {st : TapState} (h : s.tapAt st) (he : t.tap = s.tap) : t.tapAt st := by
  unfold State.tapAt at *
  rwa [he]

theorem State.tapAt.setMode {s : State} {st : TapState} (m : DevMode) (h : s.tapAt st) :
    ({ s with devmode := m } : State).tapAt st := h

theorem State.tapAt.setFsr {s : State} {st : TapState} (b : Byte) (h : s.tapAt st) :
    ({ s with fsr := b } : State).tapAt st := h

theorem State.tapAt.setWork {s : State} {st : TapState} (w : Work) (h : s.tapAt st) :
    ({ s with work := w } : State).tapAt st := h

theorem tckPulse_tapAt {s : State} {st : TapState} (d : Driver) (tms tdi : Bool) (h : s.tapAt st) :
    (tckPulse d tms tdi s).2.tapAt (delta st tms) := by
  obtain ⟨h1, h2, h3⟩ := h
  have := s.tap.onPulse_consistent tms h1 h3
  unfold State.tapAt
  rw [tckPulse_tap, ← h2]
  exact this

theorem pulse_tapAt {s : State} {st : TapState} (tms tdi : Bool) (h : s.tapAt st) :
    (pulse tms tdi s).2.tapAt (delta st tms) := tckPulse_tapAt .bb tms tdi h

theorem setTms_tapAt {s : State} {st : TapState} (tms : Bool) (h : s.tapAt st) :
    (setTms tms s).tapAt (delta st tms) := pulse_tapAt _ _ h

theorem walk_tapAt {s : State} {st : TapState} (l : List Bool) (h : s.tapAt st) :
    (walk l s).tapAt (l.foldl delta st) := by
  induction l generalizing s st with
  | nil => exact h
  | cons b bs ih => exact ih (setTms_tapAt b h)

theorem shiftOne_tapAt {s : State} {st : TapState} (tms bit : Bool) (h : s.tapAt st) :
    (shiftOne tms bit s).2.tapAt (delta st tms) := (pulse_tapAt tms bit h).of_eq rfl

/-- A shift state is left exactly on the last bit, if that carries TMS=1. -/
theorem shiftLoop_tapAt {s : State} {st : TapState} (last : Bool) (bits : List Bool) (h : s.tapAt st)
    (hs : delta st false = st) : (shiftLoop last bits s).2.tapAt (if last && !bits.isEmpty then delta st true else st) := by
  induction bits generalizing s with
  | nil => simpa [shiftLoop] using h
  | cons b bs ih =>
    simp only [shiftLoop]
    cases bs with
    | nil =>
      have := shiftOne_tapAt last b h
      cases last with
      | false => rw [hs] at this; simpa [shiftLoop] using this
      | true => simpa [shiftLoop] using this
    | cons c cs =>
      have h0 := shiftOne_tapAt false b h
      rw [hs] at h0
      have := ih h0
      simpa using this

theorem shiftBits_tapAt {s : State} {st : TapState} (bits : List Bool) (h : s.tapAt st) (hs : delta st false = st)
    (hb : bits ≠ []) : (shiftBits bits s).2.tapAt (delta st true) := by
  have := shiftLoop_tapAt (s := { s with banks.bitcnt := 0 }) true bits (h.of_eq rfl) hs
  rw [if_pos (by cases bits <;> simp_all)] at this
  exact this

theorem shiftByte_tapAt {s : State} {st : TapState} (b : Byte) (last : Bool) (h : s.tapAt st)
    (hs : delta st false = st) : (shiftByte b last s).2.tapAt (if last then delta st true else st) := by
  have := shiftLoop_tapAt (s := { s with banks.bitcnt := 0 }) last (byteBits b) (h.of_eq rfl) hs
  have he : (byteBits b).isEmpty = false := by
    rw [List.isEmpty_eq_false_iff]
    exact List.ne_nil_of_length_pos (by simp)
  simp only [he, Bool.not_false, Bool.and_true] at this
  simp only [shiftByte]
  exact this

/-- Six pulses with TMS=1 reach Reset from every state, known or not (spec 41 R173). -/
theorem tapReset_tap (s : State) : (tapReset s).tap = { state := .reset, known := true, ones := 5#3 } := by
  have h5 : ∀ o : BitVec 3, onesAfter (onesAfter (onesAfter (onesAfter (onesAfter (onesAfter o true) true) true) true)
      true) true = 5#3 := by decide
  have hp : ∀ t : Tracker, ((t.onPulse true).ones = onesAfter t.ones true) := by
    intro t
    unfold Tracker.onPulse
    split
    · rename_i h; exact h.symm
    · rfl
  have hl : ∀ t : Tracker, onesAfter t.ones true = 5#3 → t.onPulse true = { state := .reset, known := true, ones := 5#3 } := by
    intro t h
    unfold Tracker.onPulse
    rw [if_pos h]
  have hs : ∀ x : State, (setTms true x).tap = x.tap.onPulse true := fun x => by simp [setTms]
  simp only [tapReset, Config.resetClocks, List.replicate, walk, hs]
  apply hl
  simp only [hp]
  exact h5 _

theorem tapReset_tapAt (s : State) : (tapReset s).tapAt .reset := by
  unfold State.tapAt
  rw [tapReset_tap]
  exact ⟨rfl, rfl, fun _ => rfl⟩

theorem now_tapAt {s : State} {st : TapState} (h : s.tapAt st) : (now s).2.tapAt st := h.of_eq rfl

/-- The states after pulses with TMS=0, from a state that moves to Idle. -/
theorem idleCycles_tapAt {s : State} {st : TapState} (n : Nat) (h : s.tapAt st) (hi : delta st false = .idle) :
    (idleCycles n s).tapAt (if n = 0 then st else .idle) := by
  induction n generalizing s st with
  | zero => simpa [idleCycles] using h
  | succ n ih =>
    have h1 : ({ (setTms false s) with counters.cyccnt := n } : State).tapAt .idle := by
      have := setTms_tapAt false h
      rw [hi] at this
      exact this.of_eq rfl
    have := ih h1 rfl
    simp only [idleCycles]
    by_cases hn : n = 0
    · simpa [hn] using this
    · simpa [hn] using this

theorem idleUntilDeadline_tapAt {s : State} {st : TapState} (n : Nat) (h : s.tapAt st)
    (hi : delta st false = .idle) :
    (idleUntilDeadline n s).tapAt st ∨ (idleUntilDeadline n s).tapAt .idle := by
  induction n generalizing s st with
  | zero => exact .inl h
  | succ n ih =>
    simp only [idleUntilDeadline]
    split
    · have h1 := setTms_tapAt false (now_tapAt h)
      rw [hi] at h1
      rcases ih h1 rfl with h2 | h2 <;> exact .inr h2
    · exact .inl (now_tapAt h)

/-- IDLE's operation ends in SelectDRScan from each of its entry states, with the exception of no cycle from Reset. -/
theorem idle_tapAt {s : State} {st : TapState} (w : IdleWait) (h : s.tapAt st) (hi : delta st false = .idle)
    (hw : delta st true = .selectDRScan ∨ 0 < w.cycles) : (idle w s).tapAt .selectDRScan := by
  simp only [idle]
  generalize hs1 : ({ (now s).2 with counters.deadline := (now s).1 + w.ticks, counters.cyccnt := w.cycles } : State)
    = s1
  have h1 : s1.tapAt st := h.of_eq (by rw [← hs1]; rfl)
  have h2 := idleCycles_tapAt w.cycles h1 hi
  have h3 := idleUntilDeadline_tapAt
    ((idleCycles w.cycles s1).env.clock.answersBefore (idleCycles w.cycles s1).counters.deadline + 1) h2
    (by split
        · exact hi
        · rfl)
  rcases h3 with h3 | h3
  · have h4 := setTms_tapAt true h3
    by_cases h0 : w.cycles = 0
    · simp only [h0, if_true] at h4
      rcases hw with hw | hw
      · rw [hw] at h4
        rw [h0]
        exact h4
      · omega
    · rw [if_neg h0] at h4; exact h4
  · exact setTms_tapAt true h3

theorem scanTail_tapAt {s : State} {st : TapState} (idleAfter : Option IdleWait) (h : s.tapAt st)
    (hu : st = .updateDR ∨ st = .updateIR) : (scanTail idleAfter s).tapAt .selectDRScan := by
  cases idleAfter with
  | none =>
    have := setTms_tapAt true h
    rcases hu with hu | hu <;> · subst hu; exact this
  | some w => exact idle_tapAt w h (by rcases hu with hu | hu <;> (subst hu; rfl)) (.inl (by rcases hu with hu | hu <;> (subst hu; rfl)))

/-- SIR's operation, from SelectDRScan to SelectDRScan (spec 41 R183). -/
theorem sir_tapAt {s : State} (bits : List Bool) (idleAfter : Option IdleWait) (h : s.tapAt .selectDRScan)
    (hb : bits ≠ []) : (sir bits idleAfter s).tapAt .selectDRScan := by
  simp only [sir]
  refine scanTail_tapAt (st := .updateIR) idleAfter ?_ (.inr rfl)
  refine walk_tapAt (st := .exit1IR) [false, true, true] ?_
  refine shiftBits_tapAt (st := .shiftIR) bits ?_ rfl hb
  exact walk_tapAt (st := .selectDRScan) [true, false, false] (h.of_eq rfl)

theorem pauseDr_tapAt {s : State} {st : TapState} (pause : Option Nat) (h : s.tapAt st) :
    (pauseDr pause s).tapAt st := by
  cases pause with
  | none => exact h
  | some p => exact h.of_eq (by simp [pauseDr, pauseFor])

/-- SDR's operation, from SelectDRScan to SelectDRScan (spec 41 R183). -/
theorem sdr_tapAt {s : State} (bits : List Bool) (pause : Option Nat) (idleAfter : Option IdleWait)
    (h : s.tapAt .selectDRScan) (hb : bits ≠ []) : (sdr bits pause idleAfter s).2.tapAt .selectDRScan := by
  simp only [sdr]
  refine scanTail_tapAt (st := .updateDR) idleAfter ?_ (.inl rfl)
  refine walk_tapAt (st := .pauseDR) [true, true] ?_
  refine pauseDr_tapAt pause ?_
  refine walk_tapAt (st := .exit1DR) [false] ?_
  refine State.tapAt.of_eq (s := (shiftBits bits (walk [false, false]
    { s with banks.drbits := bits, banks.drlen := bits.length })).2) ?_ rfl
  refine shiftBits_tapAt (st := .shiftDR) bits ?_ rfl hb
  exact walk_tapAt (st := .selectDRScan) [false, false] (h.of_eq rfl)

/-! ### Bursts -/

theorem toBurst_tap (s : State) : (toBurst s).tap = s.tap := by unfold toBurst; split <;> simp
theorem toBitBang_tap (s : State) : (toBitBang s).tap = s.tap := by unfold toBitBang; split <;> simp

theorem spiBits_tapAt {s : State} (bits : List Bool) (h : s.tapAt .shiftDR) : (spiBits bits s).2.tapAt .shiftDR := by
  induction bits generalizing s with
  | nil => exact h
  | cons b bs ih => exact ih (tckPulse_tapAt .spi false b h)

theorem bulkByte_tapAt {s : State} (b : Byte) (h : s.tapAt .shiftDR) : (bulkByte b s).2.tapAt .shiftDR := by
  unfold bulkByte
  split
  · exact spiBits_tapAt _ h
  · have := shiftByte_tapAt (rev8 b) false h rfl
    generalize shiftByte (rev8 b) false s = r at *
    exact this

theorem spiWrite_tapAt {s : State} (bytes : List Byte) (h : s.tapAt .shiftDR) : (spiWrite bytes s).tapAt .shiftDR := by
  induction bytes generalizing s with
  | nil => exact h
  | cons b bs ih => exact ih (bulkByte_tapAt b h)

theorem spiRead_tapAt {s : State} (n : Nat) (h : s.tapAt .shiftDR) : (spiRead n s).2.tapAt .shiftDR := by
  induction n generalizing s with
  | zero => exact h
  | succ n ih => exact ih (bulkByte_tapAt _ h)

/-- A burst goes from ShiftDR to Exit1DR (spec 10_state R31). -/
theorem burstWrite_tapAt {s : State} (lead bulk : List Byte) (finalByte : Byte) (h : s.tapAt .shiftDR) :
    (burstWrite lead bulk finalByte s).tapAt .exit1DR := by
  simp only [burstWrite]
  refine shiftByte_tapAt (st := .shiftDR) finalByte true ?_ rfl
  exact (spiWrite_tapAt _ (h.of_eq (toBurst_tap s))).of_eq (toBitBang_tap _)

theorem burstRead_tapAt {s : State} (lead : List Byte) (n : Nat) (h : s.tapAt .shiftDR) :
    (burstRead lead n s).2.tapAt .exit1DR := by
  simp only [burstRead]
  refine shiftByte_tapAt (st := .shiftDR) 0#8 true ?_ rfl
  exact (spiRead_tapAt n (spiWrite_tapAt _ (h.of_eq (toBurst_tap s)))).of_eq (toBitBang_tap _)

/-! ### Scripts -/

theorem sirOp_tapAt {s : State} (op : Byte) (idleAfter : Option IdleWait) (h : s.tapAt .selectDRScan) :
    (sirOp op idleAfter s).tapAt .selectDRScan :=
  sir_tapAt _ _ h (List.ne_nil_of_length_pos (by simp [Config.irBits]))

/-- A script's start leads from every state, known or not, to SelectDRScan. -/
theorem scriptStart_tapAt (s : State) : (scriptStart s).tapAt .selectDRScan :=
  idle_tapAt _ (tapReset_tapAt s) rfl (.inr (by decide))

theorem check_tapAt {s : State} {st : TapState} (r e m : Word) (h : s.tapAt st) : (check r e m s).2.tapAt st :=
  h.of_eq (by simp only [check]; split <;> simp)

theorem checkStatus_tapAt {s : State} (mask : Word) (h : s.tapAt .selectDRScan) :
    (checkStatus mask s).2.tapAt .selectDRScan := by
  simp only [checkStatus, readStatus]
  refine check_tapAt _ _ _ ?_
  exact sdr_tapAt _ _ _ (sirOp_tapAt _ _ h) (List.ne_nil_of_length_pos (by
    rw [List.length_replicate]; simp [StatusBits.count_eq]))

theorem openForConfiguration_tapAt (s : State) : (openForConfiguration s).2.tapAt .selectDRScan := by
  simp only [openForConfiguration]
  refine State.tapAt.setMode _ ?_
  refine checkStatus_tapAt _ (sirOp_tapAt _ _ (checkStatus_tapAt _ (sirOp_tapAt _ _ ?_)))
  refine sdr_tapAt _ _ _ (sirOp_tapAt _ _ (scriptStart_tapAt s)) (List.ne_nil_of_length_pos ?_)
  rw [List.length_replicate]; exact (by decide : 0 < Config.preloadBits)

theorem openForFlash_tapAt (s : State) (hw : 0 < s.cfg.progSpiBits) : (openForFlash s).2.tapAt .selectDRScan := by
  simp only [openForFlash]
  refine State.tapAt.setMode _ ?_
  refine sdr_tapAt _ _ _ (sirOp_tapAt _ _ (sirOp_tapAt _ _ (scriptStart_tapAt _))) (List.ne_nil_of_length_pos ?_)
  rw [numberBits_length]
  exact hw

theorem identifyScan_tapAt (s : State) : (identifyScan s).2.tapAt .selectDRScan := by
  simp only [identifyScan]
  refine sdr_tapAt _ _ _ (sirOp_tapAt _ _ (scriptStart_tapAt s)) (List.ne_nil_of_length_pos ?_)
  rw [List.length_replicate]
  exact (by decide : 0 < Config.idcodeBits)

/-! ### Flash operations: all begin and end in SelectDRScan -/

theorem frameBB_tapAt {s : State} (frame : List Byte) (h : s.tapAt .selectDRScan) (hf : frame ≠ []) :
    (frameBB frame s).2.tapAt .selectDRScan := by
  simp only [frameBB]
  refine sdr_tapAt _ _ _ h (List.ne_nil_of_length_pos ?_)
  have := List.length_pos_iff.2 hf
  rw [bitsOf_length, List.length_map]
  omega

theorem readFlashStatus_tapAt {s : State} (h : s.tapAt .selectDRScan) :
    (readFlashStatus s).2.tapAt .selectDRScan := by
  simp only [readFlashStatus, statusFrame_eq]
  exact State.tapAt.setFsr _ (frameBB_tapAt _ h (by simp))

theorem pollLoop_tapAt {s : State} (delay n : Nat) (before : Byte) (h : s.tapAt .selectDRScan) :
    (pollLoop delay n before s).2.tapAt .selectDRScan := by
  induction n generalizing before s with
  | zero => exact h.of_eq rfl
  | succ n ih =>
    simp only [pollLoop]
    have h1 := readFlashStatus_tapAt h
    split
    · exact h1
    · exact ih _ (h1.of_eq (by simp [pauseFor]))

theorem pollStatus_tapAt {s : State} (attempts delay : Nat) (h : s.tapAt .selectDRScan) :
    (pollStatus attempts delay s).2.tapAt .selectDRScan :=
  pollLoop_tapAt _ _ _ (h.of_eq rfl)

theorem eraseBlock_tapAt {s : State} (a : Nat) (h : s.tapAt .selectDRScan) :
    (eraseBlock a s).2.tapAt .selectDRScan := by
  simp only [eraseBlock]
  refine pollStatus_tapAt _ _ ?_
  refine frameBB_tapAt _ ?_ (by simp)
  refine check_tapAt _ _ _ ?_
  refine readFlashStatus_tapAt ?_
  exact frameBB_tapAt _ h (by simp)

theorem writeBlock_tapAt {s : State} (data : List Byte) (a : Nat) (h : s.tapAt .selectDRScan) :
    (writeBlock data a s).2.tapAt .selectDRScan := by
  simp only [writeBlock]
  refine pollStatus_tapAt _ _ ?_
  refine walk_tapAt (st := .exit1DR) [false, true, true, true] ?_
  refine burstWrite_tapAt _ _ _ ?_
  refine walk_tapAt (st := .selectDRScan) [false, false] ?_
  exact frameBB_tapAt _ h (by simp)

theorem readBlock_tapAt {s : State} (a n : Nat) (h : s.tapAt .selectDRScan) :
    (readBlock a n s).2.tapAt .selectDRScan := by
  simp only [readBlock]
  refine walk_tapAt (st := .exit1DR) [false, true, true, true] ?_
  refine burstRead_tapAt _ _ ?_
  exact walk_tapAt (st := .selectDRScan) [false, false] h

/-! ### The upload -/

theorem writePieces_tapAt {s : State} (n off : Nat) (h : s.tapAt .selectDRScan) :
    (writePieces n off s).tapAt .selectDRScan := by
  induction n generalizing off s with
  | zero => exact h
  | succ n ih =>
    simp only [writePieces]
    split
    · have h1 := writeBlock_tapAt ((s.chunkBytes.drop off).take (min s.cfg.writeBlock (s.work.chunklen - off)))
        (s.work.faddr + off) h
      split
      · exact h1
      · exact ih _ h1
    · exact h

theorem programAttempt_tapAt {s : State} (h : s.tapAt .selectDRScan) : (programAttempt s).tapAt .selectDRScan := by
  have hw : ∀ x : State, x.tapAt .selectDRScan → (writeChunk x).tapAt .selectDRScan := by
    intro x hx
    simp only [writeChunk]
    exact writePieces_tapAt _ _ (State.tapAt.setWork _ hx)
  unfold programAttempt
  split
  · simp only
    have h1 : (eraseBlock s.work.faddr { s with work.didErase := true }).2.tapAt .selectDRScan :=
      eraseBlock_tapAt _ (State.tapAt.setWork _ h)
    split
    · exact h1
    · exact hw _ h1
  · exact hw _ h

theorem compareChunk_tapAt {s : State} (h : s.tapAt .selectDRScan) : (compareChunk s).tapAt .selectDRScan := by
  have := readBlock_tapAt s.work.faddr s.work.chunklen h
  simp only [compareChunk]
  generalize readBlock s.work.faddr s.work.chunklen s = r at *
  exact this

theorem retryLoop_tapAt {s : State} (left : Nat) (h : s.tapAt .selectDRScan) :
    (retryLoop left s).2.tapAt .selectDRScan := by
  induction left generalizing s with
  | zero =>
    have h1 := compareChunk_tapAt h
    unfold retryLoop
    simp only
    split <;> exact h1
  | succ n ih =>
    have h1 := compareChunk_tapAt h
    unfold retryLoop
    simp only
    split
    · exact h1
    · exact h1
    · exact ih (programAttempt_tapAt (State.tapAt.setWork _ h1))
    · exact ih (programAttempt_tapAt (State.tapAt.setWork _ h1))

theorem runChunk_tapAt {s : State} (h : s.tapAt .selectDRScan) : (runChunk s).2.tapAt .selectDRScan := by
  have h1 := retryLoop_tapAt (s := { s with work.retry := 0, work.didErase := false, work.didWrite := false })
    Config.retryMax (h.of_eq rfl)
  unfold runChunk
  simp only
  split
  · exact h
  · split
    · exact h1
    · exact h1.of_eq (by simp [finishChunk, stampElapsed])

theorem fillChunk_tap (n : Nat) (s : State) : (fillChunk n s).2.tap = s.tap := by
  induction n generalizing s with
  | zero => rfl
  | succ n ih =>
    simp only [fillChunk]
    split
    · split
      · simp [srcNext]
      · rw [ih]; simp [srcNext]
    · rfl

theorem chunkLoop_tapAt {s : State} (n : Nat) (h : s.tapAt .selectDRScan) : (chunkLoop n s).2.tapAt .selectDRScan := by
  induction n generalizing s with
  | zero => exact h
  | succ n ih =>
    have h1 : (fillChunk s.cfg.eraseBlock { s with work.chunklen := 0 }).2.tapAt .selectDRScan :=
      h.of_eq (fillChunk_tap _ _)
    unfold chunkLoop
    simp only
    split
    · exact h1
    · have h2 := runChunk_tapAt h1
      split
      · exact h2
      · split
        · exact h2
        · exact ih (State.tapAt.setWork _ h2)

end Sys2Proof.Machine
end

