-- ==== Sys2Proof/Laws/Banks.lean ====
section
/-! SUPPORT. What the operations leave in IRSR, BITCNT and the counters: IRSR shifts in ShiftIR alone (spec 10_state
R33, R36), BITCNT restarts with each shift (R37), and only the idle wait counts in CYCCNT (R51). -/

namespace Sys2Proof.Machine

/-! ### The counters -/

/-- The counters after a scan: as before without an idle tail; with one CYCCNT has run out and DEADLINE is the
tail's. -/
structure TailCounters (idleAfter : Option IdleWait) (s t : State) : Prop where
  attempt : t.counters.attempt = s.counters.attempt
  none : idleAfter = .none → t.counters = s.counters
  some : idleAfter ≠ .none → t.counters.cyccnt = 0

theorem scanTail_counters (idleAfter : Option IdleWait) (s : State) : TailCounters idleAfter s (scanTail idleAfter s) := by
  cases idleAfter with
  | none => exact ⟨by simp [scanTail], fun _ => by simp [scanTail], fun h => absurd rfl h⟩
  | some w =>
    have h := idle_counters w s
    exact ⟨by simp only [scanTail]; rw [h], fun h => absurd h (by simp), fun _ => by simp only [scanTail]; rw [h]⟩

theorem TailCounters.of_eq {o : Option IdleWait} {s t u : State} (h : TailCounters o t u)
    (hc : t.counters = s.counters) : TailCounters o s u :=
  ⟨h.attempt.trans (by rw [hc]), fun hn => (h.none hn).trans hc, h.some⟩

theorem sir_counters (bits : List Bool) (idleAfter : Option IdleWait) (s : State) :
    TailCounters idleAfter s (sir bits idleAfter s) := by
  simp only [sir]
  exact (scanTail_counters _ _).of_eq (by simp)

@[simp] theorem pauseDr_none (s : State) : pauseDr none s = s := rfl

/-- A data scan with a pause also writes DEADLINE. -/
theorem sdr_counters (bits : List Bool) (pause : Option Nat) (idleAfter : Option IdleWait) (s : State) :
    (sdr bits pause idleAfter s).2.counters.attempt = s.counters.attempt ∧
      (pause = none → TailCounters idleAfter s (sdr bits pause idleAfter s).2) ∧
      (sdr bits pause idleAfter s).2.counters.cyccnt = (if idleAfter = none then s.counters.cyccnt else 0) := by
  simp only [sdr]
  generalize hs1 : ({ (shiftBits bits (walk [false, false] { s with banks.drbits := bits, banks.drlen := bits.length })).2 with
    banks.drcap := (shiftBits bits (walk [false, false] { s with banks.drbits := bits, banks.drlen := bits.length })).1 } : State)
    = s1
  have hc : s1.counters = s.counters := by rw [← hs1]; simp
  have h := scanTail_counters idleAfter (walk [true, true] (pauseDr pause (walk [false] s1)))
  have ha : (walk [true, true] (pauseDr pause (walk [false] s1))).counters.attempt = s.counters.attempt ∧
      (walk [true, true] (pauseDr pause (walk [false] s1))).counters.cyccnt = s.counters.cyccnt := by
    cases pause <;> simp [pauseDr, pauseFor, hc]
  refine ⟨h.attempt.trans ha.1, fun hp => h.of_eq ?_, ?_⟩
  · subst hp; simp [hc]
  · split
    · rename_i hn; rw [h.none hn]; exact ha.2
    · rename_i hn; exact h.some hn

/-- A scan with neither a pause nor an idle tail leaves the counters. -/
theorem sdr_none_counters (bits : List Bool) (s : State) : (sdr bits none none s).2.counters = s.counters :=
  ((sdr_counters bits none none s).2.1 rfl).none rfl

theorem burstWrite_counters (lead bulk : List Byte) (finalByte : Byte) (s : State) :
    (burstWrite lead bulk finalByte s).counters = s.counters := by
  obtain ⟨_, -, -, h⟩ := burstWrite_spec lead bulk finalByte s
  exact h.counters

theorem burstRead_counters (lead : List Byte) (n : Nat) (s : State) :
    (burstRead lead n s).2.counters = s.counters := by
  obtain ⟨_, -, -, -, -, -, h⟩ := burstRead_spec lead n s
  exact h.counters

theorem frameBB_counters (frame : List Byte) (s : State) : (frameBB frame s).2.counters = s.counters :=
  sdr_none_counters _ _

theorem readFlashStatus_counters (s : State) : (readFlashStatus s).2.counters = s.counters := by
  simp only [readFlashStatus, statusFrame_eq]
  exact frameBB_counters _ _

theorem pollLoop_cyccnt (delay n : Nat) (before : Byte) (s : State) :
    (pollLoop delay n before s).2.counters.cyccnt = s.counters.cyccnt := by
  induction n generalizing before s with
  | zero => rfl
  | succ n ih =>
    have h := readFlashStatus_counters s
    simp only [pollLoop]
    generalize readFlashStatus s = r at *
    split
    · rw [h]
    · rw [ih]; simp [pauseFor, h]

theorem pollStatus_cyccnt (attempts delay : Nat) (s : State) :
    (pollStatus attempts delay s).2.counters.cyccnt = s.counters.cyccnt := pollLoop_cyccnt _ _ _ _

theorem eraseBlock_cyccnt (a : Nat) (s : State) :
    (eraseBlock a s).2.counters.cyccnt = s.counters.cyccnt := by
  simp only [eraseBlock]
  rw [pollStatus_cyccnt, frameBB_counters, check_counters, readFlashStatus_counters, frameBB_counters]

theorem writeBlock_cyccnt (data : List Byte) (a : Nat) (s : State) :
    (writeBlock data a s).2.counters.cyccnt = s.counters.cyccnt := by
  simp only [writeBlock]
  rw [pollStatus_cyccnt, walk_counters, burstWrite_counters, walk_counters, frameBB_counters]

theorem readBlock_counters (a n : Nat) (s : State) : (readBlock a n s).2.counters = s.counters := by
  simp only [readBlock]
  rw [walk_counters, burstRead_counters, walk_counters]

/-- The scripts leave ATTEMPT. -/
theorem sirOp_attempt (op : Byte) (idleAfter : Option IdleWait) (s : State) :
    (sirOp op idleAfter s).counters.attempt = s.counters.attempt := (sir_counters _ _ _).attempt

theorem scriptStart_attempt (s : State) : (scriptStart s).counters.attempt = s.counters.attempt := by
  simp only [scriptStart]
  rw [idle_counters]
  simp

theorem sdr_attempt (bits : List Bool) (pause : Option Nat) (idleAfter : Option IdleWait) (s : State) :
    (sdr bits pause idleAfter s).2.counters.attempt = s.counters.attempt := (sdr_counters _ _ _ _).1

theorem checkStatus_attempt (mask : Word) (s : State) :
    (checkStatus mask s).2.counters.attempt = s.counters.attempt := by
  simp only [checkStatus, readStatus]
  rw [check_counters, sdr_attempt, sirOp_attempt]

theorem openForConfiguration_attempt (s : State) :
    (openForConfiguration s).2.counters.attempt = s.counters.attempt := by
  simp only [openForConfiguration]
  rw [checkStatus_attempt, sirOp_attempt, checkStatus_attempt, sirOp_attempt, sdr_attempt, sirOp_attempt,
    scriptStart_attempt]

theorem openForFlash_attempt (s : State) : (openForFlash s).2.counters.attempt = s.counters.attempt := by
  simp only [openForFlash]
  rw [sdr_attempt, sirOp_attempt, sirOp_attempt, scriptStart_attempt, openForConfiguration_attempt]

theorem identifyScan_attempt (s : State) : (identifyScan s).2.counters.attempt = s.counters.attempt := by
  simp only [identifyScan]
  rw [sdr_attempt, sirOp_attempt, scriptStart_attempt]

theorem closeScans_attempt (s : State) : (closeScans s).counters.attempt = s.counters.attempt := by
  simp only [closeScans]
  rw [tapReset_counters, sirOp_attempt, sirOp_attempt, sirOp_attempt, sirOp_attempt, sdr_attempt]

/-! ### IRSR -/

theorem shiftOne_irsr (tms bit : Bool) (s : State) : (shiftOne tms bit s).2.banks.irsr =
    (if s.tap.state = .shiftIR then s.banks.irsr >>> 1 else s.banks.irsr) := by
  simp only [shiftOne]
  split <;> simp

/-- Outside ShiftIR a shift leaves IRSR. -/
theorem shiftLoop_irsr {s : State} {st : TapState} (last : Bool) (bits : List Bool) (h : s.tapAt st)
    (hs : delta st false = st) (hi : st ≠ .shiftIR) : (shiftLoop last bits s).2.banks.irsr = s.banks.irsr := by
  induction bits generalizing s with
  | nil => rfl
  | cons b bs ih =>
    have h1 : (shiftOne (last && bs.isEmpty) b s).2.banks.irsr = s.banks.irsr := by
      rw [shiftOne_irsr, if_neg (by rw [h.2.1]; exact hi)]
    simp only [shiftLoop]
    cases bs with
    | nil => exact h1
    | cons c cs =>
      have h2 := shiftOne_tapAt (last && (c :: cs).isEmpty) b h
      rw [List.isEmpty_cons, Bool.and_false, hs] at h2
      rw [List.isEmpty_cons, Bool.and_false] at h1
      rw [List.isEmpty_cons, Bool.and_false, ih h2, h1]

/-- In ShiftIR every bit shifts it down. -/
theorem shiftLoop_irsr_shiftIR {s : State} (last : Bool) (bits : List Bool) (h : s.tapAt .shiftIR) :
    (shiftLoop last bits s).2.banks.irsr = s.banks.irsr >>> bits.length := by
  induction bits generalizing s with
  | nil => simp [shiftLoop]
  | cons b bs ih =>
    have h1 : (shiftOne (last && bs.isEmpty) b s).2.banks.irsr = s.banks.irsr >>> 1 := by
      rw [shiftOne_irsr, if_pos h.2.1]
    simp only [shiftLoop]
    cases bs with
    | nil => exact h1
    | cons c cs =>
      have h2 := shiftOne_tapAt (last && (c :: cs).isEmpty) b h
      rw [List.isEmpty_cons, Bool.and_false] at h1 h2 ⊢
      rw [ih h2, h1, List.length_cons (a := b), Nat.add_comm, BitVec.shiftRight_add]

theorem shiftBits_irsr {s : State} {st : TapState} (bits : List Bool) (h : s.tapAt st) (hs : delta st false = st)
    (hi : st ≠ .shiftIR) : (shiftBits bits s).2.banks.irsr = s.banks.irsr :=
  shiftLoop_irsr (s := { s with banks.bitcnt := 0 }) true bits (h.of_eq rfl) hs hi

theorem shiftByte_irsr {s : State} (b : Byte) (last : Bool) (h : s.tapAt .shiftDR) :
    (shiftByte b last s).2.banks.irsr = s.banks.irsr := by
  have h0 : ({ s with banks.bitcnt := 0 } : State).tapAt .shiftDR := h.of_eq rfl
  unfold shiftByte
  generalize byteBits b = bits
  exact shiftLoop_irsr last bits h0 rfl (by decide)

/-- An instruction scan has shifted all of its bits out of IRSR (spec 10_state R33). -/
theorem sir_irsr {s : State} (bits : List Bool) (idleAfter : Option IdleWait) (h : s.tapAt .selectDRScan) :
    (sir bits idleAfter s).banks.irsr = 0#32 := by
  have h1 : (walk [true, false, false] { s with banks.irsr := BitVec.ofNat 32 (wordOf bits) }).tapAt .shiftIR :=
    walk_tapAt (st := .selectDRScan) [true, false, false] (h.of_eq rfl)
  have h2 := shiftLoop_irsr_shiftIR true bits (State.tapAt.of_eq (t :=
    { (walk [true, false, false] { s with banks.irsr := BitVec.ofNat 32 (wordOf bits) }) with banks.bitcnt := 0 }) h1 rfl)
  simp only [walk_banks] at h2
  simp only [sir, scanTail_banks, walk_banks, shiftBits]
  rw [h2]
  apply BitVec.eq_of_toNat_eq
  have hw := wordOf_lt bits
  have : (BitVec.ofNat 32 (wordOf bits)).toNat < 2 ^ bits.length :=
    Nat.lt_of_le_of_lt (by rw [BitVec.toNat_ofNat]; exact Nat.mod_le _ _) hw
  simp [BitVec.toNat_ushiftRight, Nat.shiftRight_eq_div_pow, Nat.div_eq_of_lt (Nat.lt_of_le_of_lt (Nat.mod_le _ _) hw)]

/-- A data scan leaves IRSR. -/
theorem sdr_irsr {s : State} (bits : List Bool) (pause : Option Nat) (idleAfter : Option IdleWait)
    (h : s.tapAt .selectDRScan) : (sdr bits pause idleAfter s).2.banks.irsr = s.banks.irsr := by
  have h1 : (walk [false, false] { s with banks.drbits := bits, banks.drlen := bits.length }).tapAt .shiftDR :=
    walk_tapAt (st := .selectDRScan) [false, false] (h.of_eq rfl)
  have h2 := shiftBits_irsr bits h1 rfl (by decide)
  simp only [sdr, scanTail_banks, walk_banks, pauseDr_banks]
  rw [h2, walk_banks]

/-! ### Bursts: IRSR and BITCNT -/

theorem bulkByte_irsr {s : State} (b : Byte) (h : s.tapAt .shiftDR) :
    (bulkByte b s).2.banks.irsr = s.banks.irsr := by
  unfold bulkByte
  split
  · obtain ⟨_, -, -, -, -, -, h6, -⟩ := spiBits_spec (byteBits b).reverse s
    rw [h6]
  · have := shiftByte_irsr (rev8 b) false h
    generalize shiftByte (rev8 b) false s = r at *
    exact this

theorem spiWrite_irsr {s : State} (bytes : List Byte) (h : s.tapAt .shiftDR) :
    (spiWrite bytes s).banks.irsr = s.banks.irsr := by
  induction bytes generalizing s with
  | nil => rfl
  | cons b bs ih =>
    simp only [spiWrite]
    rw [ih (bulkByte_tapAt b h), bulkByte_irsr b h]

theorem spiRead_irsr {s : State} (n : Nat) (h : s.tapAt .shiftDR) :
    (spiRead n s).2.banks.irsr = s.banks.irsr := by
  induction n generalizing s with
  | zero => rfl
  | succ n ih =>
    simp only [spiRead]
    rw [ih (bulkByte_tapAt _ h), bulkByte_irsr _ h]

theorem toBurst_banks (s : State) : (toBurst s).banks = s.banks := by
  obtain ⟨_, -, -, -, h, -⟩ := toBurst_spec s
  exact h

theorem toBitBang_banks (s : State) : (toBitBang s).banks = s.banks := by
  obtain ⟨_, -, -, -, h, -⟩ := toBitBang_spec s
  exact h

theorem shiftByte_bitcnt (b : Byte) (last : Bool) (s : State) : (shiftByte b last s).2.banks.bitcnt = 8 := by
  obtain ⟨_, -, -, -, h⟩ := shiftByte_spec b last s
  rw [h.bitcnt]

/-- A burst keeps the shift banks; BITCNT is left by its last, bit-banged byte. -/
theorem burstWrite_banks {s : State} (lead bulk : List Byte) (finalByte : Byte) (h : s.tapAt .shiftDR) :
    (burstWrite lead bulk finalByte s).banks = { s.banks with bitcnt := 8 } := by
  obtain ⟨_, -, -, hd⟩ := burstWrite_spec lead bulk finalByte s
  have hw : (spiWrite (lead ++ bulk) (toBurst s)).tapAt .shiftDR := spiWrite_tapAt _ (h.of_eq (toBurst_tap s))
  have hi : (burstWrite lead bulk finalByte s).banks.irsr = s.banks.irsr := by
    simp only [burstWrite]
    rw [shiftByte_irsr _ _ (hw.of_eq (toBitBang_tap _)), toBitBang_banks, spiWrite_irsr _ (h.of_eq (toBurst_tap s)),
      toBurst_banks]
  have hb : (burstWrite lead bulk finalByte s).banks.bitcnt = 8 := shiftByte_bitcnt _ _ _
  have h1 := hd.drbits
  have h2 := hd.drcap
  have h3 := hd.drlen
  generalize (burstWrite lead bulk finalByte s).banks = b at *
  obtain ⟨b1, b2, b3, b4, b5⟩ := b
  simp_all

theorem burstRead_banks {s : State} (lead : List Byte) (n : Nat) (h : s.tapAt .shiftDR) :
    (burstRead lead n s).2.banks = { s.banks with bitcnt := 8 } := by
  obtain ⟨_, -, -, -, -, -, hd⟩ := burstRead_spec lead n s
  have hw : (spiWrite (lead ++ List.replicate s.cfg.dummyBytes 0#8) (toBurst s)).tapAt .shiftDR :=
    spiWrite_tapAt _ (h.of_eq (toBurst_tap s))
  have hi : (burstRead lead n s).2.banks.irsr = s.banks.irsr := by
    simp only [burstRead]
    rw [shiftByte_irsr _ _ ((spiRead_tapAt n hw).of_eq (toBitBang_tap _)), toBitBang_banks, spiRead_irsr n hw,
      spiWrite_irsr _ (h.of_eq (toBurst_tap s)), toBurst_banks]
  have hb : (burstRead lead n s).2.banks.bitcnt = 8 := by
    simp only [burstRead]; exact shiftByte_bitcnt _ _ _
  have h1 := hd.drbits
  have h2 := hd.drcap
  have h3 := hd.drlen
  generalize (burstRead lead n s).2.banks = b at *
  obtain ⟨b1, b2, b3, b4, b5⟩ := b
  simp_all

/-! ### Flash operations leave IRSR -/

theorem frameBB_irsr {s : State} (frame : List Byte) (h : s.tapAt .selectDRScan) :
    (frameBB frame s).2.banks.irsr = s.banks.irsr := sdr_irsr _ _ _ h

theorem readFlashStatus_irsr {s : State} (h : s.tapAt .selectDRScan) :
    (readFlashStatus s).2.banks.irsr = s.banks.irsr := by
  simp only [readFlashStatus, statusFrame_eq]
  exact frameBB_irsr _ h

theorem pollLoop_irsr {s : State} (delay n : Nat) (before : Byte) (h : s.tapAt .selectDRScan) :
    (pollLoop delay n before s).2.banks.irsr = s.banks.irsr := by
  induction n generalizing before s with
  | zero => rfl
  | succ n ih =>
    have h1 := readFlashStatus_irsr h
    have h2 := readFlashStatus_tapAt h
    simp only [pollLoop]
    generalize readFlashStatus s = r at *
    split
    · exact h1
    · rw [ih _ (h2.of_eq (by simp [pauseFor])), pauseFor_banks, h1]

theorem pollStatus_irsr {s : State} (attempts delay : Nat) (h : s.tapAt .selectDRScan) :
    (pollStatus attempts delay s).2.banks.irsr = s.banks.irsr :=
  pollLoop_irsr (s := { s with counters.attempt := attempts }) _ _ _ (h.of_eq rfl)

theorem eraseBlock_irsr {s : State} (a : Nat) (h : s.tapAt .selectDRScan) :
    (eraseBlock a s).2.banks.irsr = s.banks.irsr := by
  have h1 := frameBB_tapAt [s.cfg.fc.wren] h (by simp)
  have h2 := readFlashStatus_tapAt h1
  have h3 := check_tapAt ((readFlashStatus (frameBB [s.cfg.fc.wren] s).2).1.setWidth 32) (s.cfg.srWel.setWidth 32)
    (s.cfg.srWel.setWidth 32) h2
  have h4 := frameBB_tapAt (s.cfg.fc.erase :: addressBytes a) h3 (by simp)
  simp only [eraseBlock]
  rw [pollStatus_irsr _ _ h4, frameBB_irsr _ h3, check_banks, readFlashStatus_irsr h1, frameBB_irsr _ h]

theorem writeBlock_irsr {s : State} (data : List Byte) (a : Nat) (h : s.tapAt .selectDRScan) :
    (writeBlock data a s).2.banks.irsr = s.banks.irsr := by
  have h1 := frameBB_tapAt [s.cfg.fc.wren] h (by simp)
  have h2 := walk_tapAt [false, false] h1
  have h3 := burstWrite_tapAt (s.cfg.fc.pageProgram :: addressBytes a) data.dropLast (rev8 (data.getLastD 0#8)) h2
  have h4 := walk_tapAt [false, true, true, true] h3
  simp only [writeBlock]
  rw [pollStatus_irsr _ _ h4, walk_banks, burstWrite_banks _ _ _ h2]
  simp only
  rw [walk_banks, frameBB_irsr _ h]

theorem readBlock_banks {s : State} (a n : Nat) (h : s.tapAt .selectDRScan) :
    (readBlock a n s).2.banks = { s.banks with bitcnt := 8 } := by
  have h1 := walk_tapAt [false, false] h
  simp only [readBlock]
  rw [walk_banks, burstRead_banks _ _ h1, walk_banks]

/-! ### The clock -/

/-- The time an optional idle tail asks for. -/
def tailTicks : Option IdleWait → Nat
  | none => 0
  | some w => w.ticks

theorem scanTail_time (idleAfter : Option IdleWait) (s : State) :
    s.env.clock.time + tailTicks idleAfter ≤ (scanTail idleAfter s).env.clock.time := by
  cases idleAfter with
  | none => exact (setTms_lines true s).time
  | some w =>
    obtain ⟨_, _, -, -, -, h⟩ := idle_spec w s
    exact h

/-- A scan with an idle tail takes at least the tail's time (spec 41 R178). -/
theorem sir_time (bits : List Bool) (idleAfter : Option IdleWait) (s : State) :
    s.env.clock.time + tailTicks idleAfter ≤ (sir bits idleAfter s).env.clock.time := by
  obtain ⟨_, l1, -⟩ := walk_spec [true, false, false] { s with banks.irsr := BitVec.ofNat 32 (wordOf bits) }
  have t1 := l1.time
  obtain ⟨_, l2, -⟩ := shiftBits_spec bits (walk [true, false, false] { s with banks.irsr := BitVec.ofNat 32 (wordOf bits) })
  have t2 := l2.time
  simp only [sir]
  generalize walk [true, false, false] { s with banks.irsr := BitVec.ofNat 32 (wordOf bits) } = s1 at *
  generalize shiftBits bits s1 = r at *
  obtain ⟨_, l3, -⟩ := walk_spec [false, true, true] r.2
  have t3 := l3.time
  have t4 := scanTail_time idleAfter (walk [false, true, true] r.2)
  have t0 : s.env.clock.time = ({ s with banks.irsr := BitVec.ofNat 32 (wordOf bits) } : State).env.clock.time := rfl
  omega

theorem pauseDr_time (pause : Option Nat) (s : State) :
    s.env.clock.time + pause.getD 0 ≤ (pauseDr pause s).env.clock.time := by
  cases pause with
  | none => exact Nat.le_refl _
  | some p =>
    obtain ⟨-, -, h⟩ := pauseFor_spec p s
    exact h

/-- A data scan takes at least its pause and its tail (spec 41 R180). -/
theorem sdr_time (bits : List Bool) (pause : Option Nat) (idleAfter : Option IdleWait) (s : State) :
    s.env.clock.time + pause.getD 0 + tailTicks idleAfter ≤ (sdr bits pause idleAfter s).2.env.clock.time := by
  have t0 : s.env.clock.time =
      ({ s with banks.drbits := bits, banks.drlen := bits.length } : State).env.clock.time := rfl
  obtain ⟨_, l1, -⟩ := walk_spec [false, false] { s with banks.drbits := bits, banks.drlen := bits.length }
  have t1 := l1.time
  simp only [sdr]
  generalize walk [false, false] { s with banks.drbits := bits, banks.drlen := bits.length } = s1 at *
  obtain ⟨_, l2, -⟩ := shiftBits_spec bits s1
  have t2 := l2.time
  generalize shiftBits bits s1 = r at *
  have t2' : r.2.env.clock.time = ({ r.2 with banks.drcap := r.1 } : State).env.clock.time := rfl
  generalize ({ r.2 with banks.drcap := r.1 } : State) = s2 at *
  obtain ⟨_, l3, -⟩ := walk_spec [false] s2
  have t3 := l3.time
  generalize walk [false] s2 = s3 at *
  have t4 := pauseDr_time pause s3
  generalize pauseDr pause s3 = s4 at *
  obtain ⟨_, l5, -⟩ := walk_spec [true, true] s4
  have t5 := l5.time
  have t6 := scanTail_time idleAfter (walk [true, true] s4)
  omega

theorem sirOp_time (op : Byte) (idleAfter : Option IdleWait) (s : State) :
    s.env.clock.time + tailTicks idleAfter ≤ (sirOp op idleAfter s).env.clock.time := sir_time _ _ _

/-- `openForConfiguration()` waits CFG_WAIT twice (spec 43 R224). -/
theorem openForConfiguration_time (s : State) :
    s.env.clock.time + 2 * s.cfg.cfgWait.ticks ≤ (openForConfiguration s).2.env.clock.time := by
  simp only [openForConfiguration]
  obtain ⟨_, l1, -⟩ := scriptStart_spec s
  have t1 := l1.time
  generalize scriptStart s = s1 at *
  have t2 := sirOp_time s.cfg.op.preload none s1
  generalize sirOp s.cfg.op.preload none s1 = s2 at *
  obtain ⟨_, l3, -⟩ := sdr_none_spec (List.replicate Config.preloadBits true) s2
  have t3 := l3.time
  generalize (sdr (List.replicate Config.preloadBits true) none none s2).2 = s3 at *
  have t4 := sirOp_time s.cfg.op.iscEnable (some s.cfg.cfgWait) s3
  generalize sirOp s.cfg.op.iscEnable (some s.cfg.cfgWait) s3 = s4 at *
  obtain ⟨_, _, l5, -⟩ := checkStatus_spec Config.maskStatusA s4
  have t5 := l5.time
  generalize checkStatus Config.maskStatusA s4 = r5 at *
  have t6 := sirOp_time s.cfg.op.iscErase (some s.cfg.cfgWait) r5.2
  generalize sirOp s.cfg.op.iscErase (some s.cfg.cfgWait) r5.2 = s6 at *
  obtain ⟨_, _, l7, -⟩ := checkStatus_spec Config.maskStatusB s6
  have t7 := l7.time
  simp only [tailTicks] at t4 t6
  omega

theorem openForFlash_time (s : State) :
    s.env.clock.time + 2 * s.cfg.cfgWait.ticks ≤ (openForFlash s).2.env.clock.time := by
  obtain ⟨_, _, _, l, -⟩ := openForFlash_spec s
  have t1 := l.time
  have t2 := openForConfiguration_time s
  omega

/-- The scans of CLOSE wait REFRESH_WAIT (spec 43 R228). -/
theorem closeScans_time (s : State) :
    s.env.clock.time + s.cfg.refreshWait.ticks ≤ (closeScans s).env.clock.time := by
  simp only [closeScans]
  obtain ⟨_, l1, -⟩ := sdr_none_spec (bitsOf [rev8 s.cfg.fc.wrdi] 8) s
  have t1 := l1.time
  generalize (sdr (bitsOf [rev8 s.cfg.fc.wrdi] 8) none none s).2 = s1 at *
  have t2 := sirOp_time s.cfg.op.bypass (some longIdle) s1
  generalize sirOp s.cfg.op.bypass (some longIdle) s1 = s2 at *
  have t3 := sirOp_time s.cfg.op.iscDisable (some longIdle) s2
  generalize sirOp s.cfg.op.iscDisable (some longIdle) s2 = s3 at *
  have t4 := sirOp_time s.cfg.op.bypass none s3
  generalize sirOp s.cfg.op.bypass none s3 = s4 at *
  have t5 := sirOp_time s.cfg.op.lscRefresh (some s.cfg.refreshWait) s4
  generalize sirOp s.cfg.op.lscRefresh (some s.cfg.refreshWait) s4 = s5 at *
  obtain ⟨_, l6, -⟩ := tapReset_spec s5
  have t6 := l6.time
  simp only [tailTicks] at *
  omega

/-! ### A capture in place -/

/-- Each captured bit takes its place in the buffer, the other bits of its bytes stay (spec 10_state R35). -/
theorem captureBytes_getLsbD (old : List Byte) (cap : List Bool) (h : cap.length ≤ 8 * old.length) (j : Nat)
    (hj : j < old.length) (k : Nat) (hk : k < 8) :
    ((captureBytes old cap).getD j 0#8).getLsbD k = cap.getD (8 * j + k) ((old.getD j 0#8).getLsbD k) := by
  have hl := flatMap_byteBits_length old
  have ho := flatMap_byteBits_getD old j hj k hk
  unfold captureBytes
  rw [packBytes_getLsbD _ _ (by rw [List.length_append, List.length_drop, hl]; omega) j hj k hk, ← ho]
  generalize old.flatMap byteBits = bits at *
  by_cases hc : 8 * j + k < cap.length
  · rw [List.getD_append _ _ _ _ hc, List.getD_eq_getElem _ _ hc, List.getD_eq_getElem _ _ hc]
  · rw [List.getD_append_right _ _ _ _ (by omega), List.getD_eq_getElem _ _ (by rw [List.length_drop]; omega),
      List.getElem_drop, List.getD_eq_default (l := cap) _ (by omega), List.getD_eq_getElem _ _ (by omega)]
    congr 1
    omega

end Sys2Proof.Machine
end

