-- ==== Sys2Proof/Laws/Commands.lean ====
section
/-! SUPPORT. The start and the end of a command, its entry checks, and how an operation's lemma becomes the command's:
one lemma each. -/

namespace Sys2Proof.Machine

/-! ### The start -/

theorem beginCommand_eq (i : Instr) (s : State) :
    beginCommand i s = { s with ctl := { s.ctl with busy := true, seq := some i }, port := (beginCommand i s).port } := by
  unfold beginCommand
  exact dueAccesses_eq _ _

theorem beginCommand_undisturbed (i : Instr) (s : State) (h : s.undisturbed) : (beginCommand i s).undisturbed :=
  dueAccesses_undisturbed _ _ h.1 h.2

/-- The start of a command changes nothing an entry check reads. -/
theorem entryChecks_beginCommand (i j : Instr) (s : State) : entryChecks j (beginCommand i s) = entryChecks j s := by
  rw [beginCommand_eq]
  cases j <;> rfl

theorem command_refused (i : Instr) (checks : State → List EntryCheck)
    (run : State → Host.Outcome State Fault Refusal) (s : State) (e : ErrorKind) (info : Nat)
    (h : firstRefusal (checks (beginCommand i s)) = some (e, info)) :
    command i checks run s = raise e info (beginCommand i s) := by
  simp only [command, h]

/-- A command whose entry checks fail is refused with the first that does, whatever it is. -/
theorem exec_refused (i : Instr) (s : State) (e : ErrorKind) (info : Nat)
    (h : firstRefusal (entryChecks i s) = some (e, info)) : exec i s = raise e info (beginCommand i s) := by
  rw [← entryChecks_beginCommand i i s] at h
  cases i <;> simp only [exec] <;> (apply command_refused; exact h)

/-- A command whose entry checks pass runs. -/
theorem command_runs (i : Instr) (checks : State → List EntryCheck) (run : State → Host.Outcome State Fault Refusal)
    (s : State) (h : firstRefusal (checks (beginCommand i s)) = none) : command i checks run s = run (beginCommand i s) := by
  simp only [command, h]

/-! ### The end -/

/-- The end of an undisturbed command: `Done` in the trace, the code and the information in ERR, BUSY 0; beside that
only the host port. -/
theorem endCommand_eq (e : ErrorKind) (info : Nat) (s : State) (h : s.undisturbed) :
    endCommand e info s = { s with
      ctl := { busy := false, seq := none, err := e, info := BitVec.ofNat 24 info }
      trace := .done e.code (BitVec.ofNat 24 info) :: s.trace
      port := (endCommand e info s).port } ∧
    (endCommand e info s).port.inputs = s.port.inputs ∧ (endCommand e info s).port.resets = s.port.resets ∧
    (endCommand e info s).undisturbed := by
  have hu := emit_undisturbed (.done e.code (BitVec.ofNat 24 info))
    { s with ctl.err := e, ctl.info := BitVec.ofNat 24 info } h
  have hm : emit (.done e.code (BitVec.ofNat 24 info)) { s with ctl.err := e, ctl.info := BitVec.ofNat 24 info } =
      { s with
        ctl.err := e, ctl.info := BitVec.ofNat 24 info
        trace := .done e.code (BitVec.ofNat 24 info) :: s.trace
        port := (emit (.done e.code (BitVec.ofNat 24 info))
          { s with ctl.err := e, ctl.info := BitVec.ofNat 24 info }).port } := dueAccesses_eq _ _
  have hi := emit_inputs (.done e.code (BitVec.ofNat 24 info)) { s with ctl.err := e, ctl.info := BitVec.ofNat 24 info }
  have hr := emit_resets (.done e.code (BitVec.ofNat 24 info)) { s with ctl.err := e, ctl.info := BitVec.ofNat 24 info }
  have hc : endCommand e info s =
      { (emit (.done e.code (BitVec.ofNat 24 info)) { s with ctl.err := e, ctl.info := BitVec.ofNat 24 info }) with
        ctl.busy := false, ctl.seq := none } := by
    simp only [endCommand, applyCut]
    rw [hu.1]
  generalize emit (.done e.code (BitVec.ofNat 24 info)) { s with ctl.err := e, ctl.info := BitVec.ofNat 24 info } = m at *
  refine ⟨?_, ?_, ?_, ?_⟩
  · rw [hc, hm]
  · rw [hc]; exact hi
  · rw [hc]; exact hr
  · rw [hc]; exact hu

/-- An operation and the end after it are a command's `EndsWith`. -/
theorem endsWith {s u : State} {evs : List Event} (e : ErrorKind) (info : Nat) (hu : u.undisturbed)
    (ht : newEvents s u evs) (hi : u.port.inputs = s.port.inputs) (hr : u.port.resets = s.port.resets)
    (hc : u.cfg = s.cfg) (hg : u.regs = s.regs) : EndsWith s (endCommand e info u) e info evs := by
  obtain ⟨h1, h2, h3, -⟩ := endCommand_eq e info u hu
  refine ⟨?_, by rw [h1], by rw [h1], by rw [h1], by rw [h1], h2.trans hi, h3.trans hr, by rw [h1]; exact hc,
    by rw [h1]; exact hg⟩
  rw [newEvents, h1, List.reverse_append]
  simp only [newEvents] at ht
  rw [ht]
  rfl

/-- The same for an operation that `Moves`, from the start of the command. -/
theorem Moves.endsWith {s u : State} {evs : List Event} {i : Instr} (h : Moves (beginCommand i s) u evs)
    (hu : s.undisturbed) (e : ErrorKind) (info : Nat) : EndsWith s (endCommand e info u) e info evs :=
  Machine.endsWith e info (h.undisturbed (beginCommand_undisturbed i s hu))
    (by have := h.trace; simpa [newEvents] using this) (h.inputs.trans (by simp)) (h.resets.trans (by simp))
    (h.cfg.trans (by simp)) (h.regs.trans (by simp))

theorem sameBuf_of_eq {s t : State} (h : t.buf = s.buf) : sameBuf s t := fun a => by rw [h]

/-- The frame of an operation that works the lines, and of the end after it. -/
theorem Lines.onlyLines {s u : State} {evs : List Event} {i : Instr} (h : Lines (beginCommand i s) u evs)
    (hu : s.undisturbed) (e : ErrorKind) (info : Nat) : onlyLines s (endCommand e info u) := by
  obtain ⟨h1, -⟩ := endCommand_eq e info u (h.undisturbed (beginCommand_undisturbed i s hu))
  have a1 := h.cfg.trans (beginCommand_cfg i s)
  have a2 := h.devmode.trans (beginCommand_devmode i s)
  have a3 := h.regs.trans (beginCommand_regs i s)
  have a4 := h.res.trans (beginCommand_res i s)
  have a5 := h.flags.trans (beginCommand_flags i s)
  have a6 := h.fsr.trans (beginCommand_fsr i s)
  have a7 := h.stats.trans (beginCommand_stats i s)
  have a8 := h.work.trans (beginCommand_work i s)
  have a9 := h.buf.trans (beginCommand_buf i s)
  have b1 : u.env.source = s.env.source := h.source.trans (by simp)
  unfold Machine.onlyLines
  rw [h1]
  simp only [← a1, ← a2, ← a3, ← a4, ← a5, ← a6, ← a7, ← a8, ← a9, ← b1]

end Sys2Proof.Machine
end

