-- ==== Sys2Proof/Laws/Counts.lean ====
section
/-! SUPPORT. How many pulses a wave has (spec 30_encoding R120, R121, 70 R350): one lemma for each piece. -/

namespace Sys2Proof.Machine

/-- The pulses of a wave. -/
def Wave.pulses (w : Wave) : Nat := pulseCount w.events

@[simp] theorem Wave.start_pulses (tdi : Bool) : (Wave.start tdi).pulses = 0 := rfl

/-- Events of which each is a pulse. -/
theorem pulseCount_all {α : Type} (l : List α) (f : α → Event) (h : ∀ x, (f x).isPulse = true) :
    pulseCount (l.map f) = l.length := by
  induction l with
  | nil => rfl
  | cons x xs ih =>
    simp only [pulseCount, List.map_cons, List.countP_cons, h, if_true, List.length_cons] at *
    omega

@[simp] theorem Wave.tms_pulses (l : List Bool) (w : Wave) : (w.tms l).pulses = w.pulses + l.length := by
  simp only [Wave.pulses, Wave.tms, pulseCount_append]
  rw [pulseCount_all l (fun b => .pulse .bb b w.tdi false) fun _ => rfl]

theorem shiftEvents_pulses (exit : Bool) (bits : List Bool) : pulseCount (shiftEvents exit bits) = bits.length := by
  induction bits with
  | nil => rfl
  | cons b bs ih =>
    simp only [shiftEvents, pulseCount, List.countP_cons, Event.isPulse, if_true, List.length_cons] at *
    omega

@[simp] theorem Wave.shift_pulses (exit : Bool) (bits : List Bool) (w : Wave) :
    (w.shift exit bits).pulses = w.pulses + bits.length := by
  simp only [Wave.pulses, Wave.shift, pulseCount_append, shiftEvents_pulses]

theorem Wave.mark_pulses (e : Event) (w : Wave) (h : e.isPulse = false) : (w.mark e).pulses = w.pulses := by
  simp [Wave.pulses, Wave.mark, pulseCount, h]

@[simp] theorem Wave.mark_path_pulses (p : Path) (w : Wave) : (w.mark (.path p)).pulses = w.pulses :=
  w.mark_pulses _ rfl

@[simp] theorem Wave.mark_wait_pulses (d : Nat) (w : Wave) : (w.mark (.wait d)).pulses = w.pulses :=
  w.mark_pulses _ rfl

@[simp] theorem Wave.idle_pulses (n : Nat) (w : Wave) : (w.idle n).pulses = w.pulses + n + 1 := by
  simp only [Wave.idle, Wave.tms_pulses, List.length_append, List.length_replicate, List.length_cons, List.length_nil]
  omega

/-- The pulses of the tail of a scan. -/
def tailPulses : Option Nat → Nat
  | none => 1
  | some n => n + 1

@[simp] theorem Wave.tail_pulses (k : Option Nat) (w : Wave) : (w.tail k).pulses = w.pulses + tailPulses k := by
  cases k with
  | none => simp [Wave.tail, tailPulses]
  | some n => simp [Wave.tail, tailPulses]; omega

@[simp] theorem Wave.reset_pulses (w : Wave) : w.reset.pulses = w.pulses + 6 := by
  simp [Wave.reset, Config.resetClocks]

@[simp] theorem Wave.sir_pulses (bits : List Bool) (k : Option Nat) (w : Wave) :
    (w.sir bits k).pulses = w.pulses + bits.length + 6 + tailPulses k := by
  simp only [Wave.sir, Wave.tail_pulses, Wave.tms_pulses, Wave.shift_pulses, List.length_cons, List.length_nil]
  omega

@[simp] theorem Wave.sdr_pulses (bits : List Bool) (pause k : Option Nat) (w : Wave) :
    (w.sdr bits pause k).pulses = w.pulses + bits.length + 5 + tailPulses k := by
  cases pause <;>
  · simp only [Wave.sdr, Wave.tail_pulses, Wave.tms_pulses, Wave.shift_pulses, Wave.mark_wait_pulses,
      List.length_cons, List.length_nil]
    omega

@[simp] theorem Wave.sirOp_pulses (op : Byte) (k : Option Nat) (w : Wave) :
    (w.sirOp op k).pulses = w.pulses + 14 + tailPulses k := by
  simp only [Wave.sirOp, Wave.sir_pulses]
  have : (bitsOf [op] Config.irBits).length = 8 := by
    simp [bitsOf, byteBits, Config.irBits]
  omega

@[simp] theorem Wave.scriptStart_pulses (w : Wave) : w.scriptStart.pulses = w.pulses + 8 := by
  simp [Wave.scriptStart, Config.identIdleCycles]

@[simp] theorem Wave.bulkByte_pulses (useBurst : Bool) (b : Byte) (w : Wave) :
    (w.bulkByte useBurst b).pulses = w.pulses + 8 := by
  unfold Wave.bulkByte
  have h : (byteBits b).reverse.length = 8 := by simp [byteBits]
  have h2 : (byteBits (rev8 b)).length = 8 := by simp [byteBits]
  split
  · simp only [Wave.pulses, pulseCount_append]
    rw [pulseCount_all _ (fun x => .pulse .spi false x false) fun _ => rfl, h]
  · rw [Wave.shift_pulses, h2]

@[simp] theorem Wave.bulk_pulses (useBurst : Bool) (bytes : List Byte) (w : Wave) :
    (Wave.bulk useBurst bytes w).pulses = w.pulses + 8 * bytes.length := by
  induction bytes generalizing w with
  | nil => rfl
  | cons b bs ih =>
    simp only [Wave.bulk, List.length_cons]
    rw [ih, Wave.bulkByte_pulses]
    omega

@[simp] theorem Wave.burst_pulses (useBurst : Bool) (bytes : List Byte) (finalByte : Byte) (w : Wave) :
    (Wave.burst useBurst bytes finalByte w).pulses = w.pulses + 8 * (bytes.length + 1) := by
  have h : (byteBits finalByte).length = 8 := by simp [byteBits]
  cases useBurst <;>
  · simp only [Wave.burst, Wave.shift_pulses, h, Bool.false_eq_true, if_false, if_true, Wave.mark_path_pulses,
      Wave.bulk_pulses]
    omega

/-- The pulses of events that play a wave. -/
theorem plays_pulses {s t : State} {evs : List Event} {f : Wave → Wave} (h : plays s t evs f) :
    pulseCount evs = (f (Wave.start s.pins.tdi)).pulses := by
  unfold plays at h
  rw [h]
  exact (pulseCount_blind evs).symm

theorem segment_pulses {before after : Bool} {evs : List Event} {f : Wave → Wave} (h : segment before evs f after) :
    pulseCount evs = (f (Wave.start before)).pulses := by
  unfold segment at h
  rw [h]
  exact (pulseCount_blind evs).symm

end Sys2Proof.Machine
end

