-- ==== Sys2Proof/Laws/Meanwhile.lean ====
section
/-! SUPPORT. What the host's accesses during a command do: `Served` says how they were answered, and where a reset among
them cut the command; `Twin` relates a state inside a command to the same state of the command that nobody disturbs. -/

namespace Sys2Proof.Machine

/-! ### The environment that events reach -/

theorem bytesTaken_append (e1 e2 : List Event) : bytesTaken (e1 ++ e2) = bytesTaken e1 ++ bytesTaken e2 :=
  List.flatMap_append

theorem ByteStream.gave_nil (b : ByteStream) : b.gave [] b := ⟨b.peek_zero, b.skip_zero.symm⟩

theorem ByteStream.gave_append {x y z : ByteStream} {b1 b2 : List Byte} (h1 : x.gave b1 y) (h2 : y.gave b2 z) :
    x.gave (b1 ++ b2) z := by
  obtain ⟨h1, rfl⟩ := h1
  obtain ⟨h2, rfl⟩ := h2
  exact ⟨by rw [List.length_append, peek_add, h1, h2], by rw [List.length_append, skip_add]⟩

/-- The next bytes, when they are given, as many as there are. -/
theorem ByteStream.gave_peek (n : Nat) (b : ByteStream) : b.gave (b.peek n) (b.skip n) :=
  ⟨b.peek_peek_length n, (b.skip_peek_length n).symm⟩

theorem ReachedEnv.refl (p : Params) (x : Env) : ReachedEnv p x [] x := ⟨rfl, Nat.le_refl _, ByteStream.gave_nil _⟩

theorem ReachedEnv.trans {p : Params} {x y z : Env} {e1 e2 : List Event} (h1 : ReachedEnv p x e1 y)
    (h2 : ReachedEnv p y e2 z) : ReachedEnv p x (e1 ++ e2) z :=
  ⟨answeredBy_append h1.target h2.target, by have := h1.clock; have := h2.clock; rw [waited_append]; omega,
   by rw [bytesTaken_append]; exact ByteStream.gave_append h1.source h2.source⟩

/-! ### Lists of accesses -/

/-- The next access of the list waits for an event. -/
def waiting : List (Nat × Access) → Prop
  | (0, _) :: _ => False
  | _ => True

theorem passEvent_snd (l : List (Nat × Access)) : (passEvent l).map Prod.snd = l.map Prod.snd := by
  cases l with
  | nil => rfl
  | cons x rest => obtain ⟨_ | n, a⟩ := x <;> rfl

theorem cutPoint_passEvent {l : List (Nat × Access)} (h : waiting l) :
    cutPoint l = (cutPoint (passEvent l)).map (1 + ·) := by
  cases l with
  | nil => rfl
  | cons x rest =>
    obtain ⟨_ | n, a⟩ := x
    · exact h.elim
    · have hf : (n + 1 + ·) = (1 + ·) ∘ (n + ·) := by funext k; simp only [Function.comp]; omega
      cases a with
      | reset => simp [passEvent, cutPoint, Nat.add_comm]
      | read width off => simp only [passEvent, cutPoint, Option.map_map, hf]
      | write width off v => simp only [passEvent, cutPoint, Option.map_map, hf]

theorem busyAnswered_append {l1 l2 : List Access} {d1 d2 d3 : Nat} {r1 r2 : List (Nat × Word)}
    (h1 : busyAnswered l1 d1 r1 d2) (h2 : busyAnswered l2 d2 r2 d3) : busyAnswered (l1 ++ l2) d1 (r1 ++ r2) d3 := by
  induction l1 generalizing d1 r1 with
  | nil => obtain ⟨rfl, rfl⟩ := h1; exact h2
  | cons a l1 ih =>
    cases a with
    | read width off =>
      obtain ⟨v, more, rfl, h⟩ := h1
      refine ⟨v, more ++ r2, rfl, ?_⟩
      split at h
      · rename_i hs; rw [if_pos hs]; exact ⟨h.1, ih h.2⟩
      · rename_i hs; rw [if_neg hs]; exact ⟨h.1, ih h.2⟩
    | write width off v => exact ih (r1 := r1) h1
    | reset => exact ih (r1 := r1) h1

theorem statWord_busy (s : State) : s.statWord.getLsbD 0 = s.ctl.busy := by
  rw [State.statWord, BitVec.getLsbD_append, if_pos (by decide)]
  cases s.ctl.busy <;> rfl

/-- Serving the accesses that are due while BUSY = 1: each is answered as such, up to the first reset, which is noted
with the environment as it is. -/
theorem dueAccesses_serves (l : List (Nat × Access)) (s : State) (hb : s.ctl.busy = true) :
    let p := (dueAccesses l s).port
    ∃ served new, busyAnswered served s.port.draws new p.draws ∧ p.reads = new.reverse ++ s.port.reads ∧
      ((p.cut = s.port.cut ∧ l.map Prod.snd = served ++ p.during.map Prod.snd ∧ cutPoint p.during = cutPoint l ∧
          waiting p.during) ∨
        (∃ c, p.cut = some c ∧ c.env = s.env ∧ cutPoint l = some 0 ∧
          l.map Prod.snd = served ++ .reset :: c.during.map Prod.snd ∧ p.during = [])) := by
  induction l generalizing s with
  | nil => exact ⟨[], [], ⟨rfl, rfl⟩, rfl, .inl ⟨rfl, rfl, rfl, trivial⟩⟩
  | cons x rest ih =>
    obtain ⟨_ | n, a⟩ := x
    · cases a with
      | reset => exact ⟨[], [], ⟨rfl, rfl⟩, rfl, .inr ⟨_, rfl, rfl, rfl, rfl, rfl⟩⟩
      | write width off v =>
        obtain ⟨served, new, h1, h2, h3⟩ := ih s hb
        refine ⟨.write width off v :: served, new, h1, h2, ?_⟩
        obtain ⟨a1, a2, a3, a4⟩ | ⟨c, a1, a2, a3, a4, a5⟩ := h3
        · exact .inl ⟨a1, congrArg (Access.write width off v :: ·) a2, a3.trans (by simp [cutPoint]), a4⟩
        · exact .inr ⟨c, a1, a2, by simp [cutPoint, a3], congrArg (Access.write width off v :: ·) a4, a5⟩
      | read width off =>
        have he := congrArg State.env (busyAccess_eq (.read width off) s)
        have hc := congrArg State.ctl (busyAccess_eq (.read width off) s)
        simp only at he hc
        have hcut := busyAccess_cut (.read width off) s
        obtain ⟨served, new, h1, h2, h3⟩ := ih (busyAccess (.read width off) s) (by rw [hc]; exact hb)
        have hr : ∃ v, (busyAccess (.read width off) s).port.reads = (off, v) :: s.port.reads ∧
            busyAnswered (.read width off :: served) s.port.draws ((off, v) :: new)
              (dueAccesses rest (busyAccess (.read width off) s)).port.draws := by
          simp only [busyAccess] at h1 ⊢
          split
          · rename_i hs
            rw [if_pos hs] at h1
            exact ⟨_, rfl, _, _, rfl, by rw [if_pos (by simpa using hs)]; exact ⟨by rw [statWord_busy]; exact hb, h1⟩⟩
          · rename_i hs
            rw [if_neg hs] at h1
            exact ⟨_, rfl, _, _, rfl, by rw [if_neg (by simpa using hs)]; exact ⟨rfl, h1⟩⟩
        obtain ⟨v, hv, ha⟩ := hr
        refine ⟨.read width off :: served, (off, v) :: new, ha, ?_, ?_⟩
        · simp only [dueAccesses, h2, hv, List.reverse_cons, List.append_assoc, List.singleton_append]
        · obtain ⟨a1, a2, a3, a4⟩ | ⟨c, a1, a2, a3, a4, a5⟩ := h3
          · exact .inl ⟨a1.trans hcut, by simpa [dueAccesses] using a2, a3.trans (by simp [cutPoint]), a4⟩
          · exact .inr ⟨c, a1, a2.trans he, by simp [cutPoint, a3], by simpa using a4, a5⟩
    · refine ⟨[], [], ⟨rfl, rfl⟩, rfl, .inl ⟨rfl, rfl, rfl, trivial⟩⟩

/-! ### `Served` -/

/-- From s0, inside a command, to s the events `evs` passed: the accesses that were due have been answered, and a reset
among them is noted with the environment its events reach. -/
structure Served (s0 s : State) (evs : List Event) : Prop where
  trace : newEvents s0 s evs
  cfg : s.cfg = s0.cfg
  busy : s.ctl.busy = true
  env : ReachedEnv s0.cfg s0.env evs s.env
  inputs : s.port.inputs = s0.port.inputs
  resets : s.port.resets = s0.port.resets
  host : ∃ served new, busyAnswered served s0.port.draws new s.port.draws ∧
    s.port.reads = new.reverse ++ s0.port.reads ∧
    ((s.port.cut = none ∧ s0.port.during.map Prod.snd = served ++ s.port.during.map Prod.snd ∧
        waiting s.port.during ∧ cutPoint s0.port.during = (cutPoint s.port.during).map (evs.length + ·)) ∨
      (∃ c m, s.port.cut = some c ∧ s.port.during = [] ∧
        s0.port.during.map Prod.snd = served ++ .reset :: c.during.map Prod.snd ∧
        cutPoint s0.port.during = some m ∧ m ≤ evs.length ∧ ReachedEnv s0.cfg s0.env (evs.take m) c.env ∧
        c.env.clock.time ≤ s.env.clock.time ∧ (m = 0 → c.env = s0.env)))

/-- The start of a command serves what is due before its first event. -/
theorem beginCommand_served (i : Instr) (s : State) (h : s.port.cut = none) : Served s (beginCommand i s) [] := by
  obtain ⟨served, new, h1, h2, h3⟩ := dueAccesses_serves s.port.during { s with ctl.busy := true, ctl.seq := some i } rfl
  have he : beginCommand i s = { s with
      ctl.busy := true, ctl.seq := some i, port := (beginCommand i s).port } := dueAccesses_eq _ _
  have hi : (beginCommand i s).port.inputs = s.port.inputs := by simp [beginCommand]
  have hr : (beginCommand i s).port.resets = s.port.resets := by simp [beginCommand]
  change busyAnswered served s.port.draws new (beginCommand i s).port.draws at h1
  change (beginCommand i s).port.reads = _ at h2
  refine ⟨?_, by rw [he], by rw [he], ?_, hi, hr, served, new, h1, h2, ?_⟩
  · rw [he]; rfl
  · rw [he]; exact ReachedEnv.refl _ _
  · obtain ⟨a1, a2, a3, a4⟩ | ⟨c, a1, a2, a3, a4, a5⟩ := h3
    · refine .inl ⟨a1.trans h, a2, a4, ?_⟩
      change cutPoint (beginCommand i s).port.during = _ at a3
      rw [a3]
      cases cutPoint s.port.during <;> simp
    · refine .inr ⟨c, 0, a1, a5, a4, a3, Nat.le_refl _, ?_, ?_, fun _ => a2⟩
      · rw [a2]; exact ReachedEnv.refl _ _
      · rw [a2, he]

/-- An operation that emits nothing and leaves the host port alone. -/
theorem Served.silent {s0 s t : State} {evs : List Event} (h : Served s0 s evs) (ht : t.trace = s.trace)
    (hc : t.cfg = s.cfg) (hb : t.ctl.busy = s.ctl.busy) (hp : t.port = s.port)
    (he : ReachedEnv s.cfg s.env [] t.env) : Served s0 t evs := by
  obtain ⟨served, new, h1, h2, h3⟩ := h.host
  refine ⟨by have := h.trace; simp only [newEvents] at *; rw [ht, this], hc.trans h.cfg, hb.trans h.busy, ?_,
    by rw [hp]; exact h.inputs, by rw [hp]; exact h.resets, served, new, by rw [hp]; exact h1, by rw [hp]; exact h2, ?_⟩
  · rw [h.cfg] at he
    simpa using h.env.trans he
  · rw [hp]
    obtain a | ⟨c, m, a1, a2, a3, a4, a5, a6, a7, a8⟩ := h3
    · exact .inl a
    · exact .inr ⟨c, m, a1, a2, a3, a4, a5, a6, Nat.le_trans a7 he.clock, a8⟩

/-- An event, and the accesses that come after it. -/
theorem Served.step {s0 s s1 : State} {evs : List Event} (e : Event) (h : Served s0 s evs) (ht : s1.trace = e :: s.trace)
    (hc : s1.cfg = s.cfg) (hb : s1.ctl.busy = s.ctl.busy) (hp : s1.port = s.port)
    (he : ReachedEnv s.cfg s.env [e] s1.env) : Served s0 (serveDuring s1) (evs ++ [e]) := by
  obtain ⟨served, new, h1, h2, h3⟩ := h.host
  obtain ⟨served', new', g1, g2, g3⟩ := dueAccesses_serves (passEvent s1.port.during) s1 (hb.trans h.busy)
  have hq : serveDuring s1 = { s1 with port := (serveDuring s1).port } := dueAccesses_eq _ _
  change busyAnswered served' s1.port.draws new' (serveDuring s1).port.draws at g1
  change (serveDuring s1).port.reads = _ at g2
  rw [hp] at g1 g2
  rw [h.cfg] at he
  refine ⟨?_, by rw [hq]; exact hc.trans h.cfg, by rw [hq]; exact hb.trans h.busy, ?_, ?_, ?_, served ++ served',
    new ++ new', busyAnswered_append h1 g1, ?_, ?_⟩
  · have := h.trace
    simp only [newEvents] at *
    rw [hq]
    simp [ht, this]
  · rw [hq]; exact h.env.trans he
  · simp only [serveDuring, dueAccesses_inputs, hp]; exact h.inputs
  · simp only [serveDuring, dueAccesses_resets, hp]; exact h.resets
  · rw [g2, h2, List.reverse_append, List.append_assoc]
  · obtain ⟨b1, b2, b3, b4⟩ | ⟨c, m, b1, b2, b3, b4, b5, b6, b7, b8⟩ := h3
    · have hs := passEvent_snd s.port.during
      have hcp := cutPoint_passEvent b3
      have hd : dueAccesses (passEvent s.port.during) s1 = serveDuring s1 := by rw [serveDuring, hp]
      rw [hp, hd] at g3
      obtain ⟨a1, a2, a3, a4⟩ | ⟨c, a1, a2, a3, a4, a5⟩ := g3
      · refine .inl ⟨a1.trans b1, ?_, a4, ?_⟩
        · rw [b2, ← hs, a2, List.append_assoc]
        · rw [b4, hcp, a3, Option.map_map]
          congr 1
          funext k
          simp only [Function.comp, List.length_append, List.length_singleton]
          omega
      · refine .inr ⟨c, evs.length + 1, a1, a5, ?_, ?_, by simp, ?_, ?_, nofun⟩
        · rw [b2, ← hs, a4, List.append_assoc]
        · rw [b4, hcp, a3]; rfl
        · rw [List.take_of_length_le (by simp), a2]; exact h.env.trans he
        · rw [a2, hq]
    · have hd : passEvent s1.port.during = [] := by rw [hp, b2]; rfl
      have hs : serveDuring s1 = { s1 with port := { s1.port with during := [] } } := by rw [serveDuring, hd]; rfl
      rw [hd] at g3
      have hn : served' = [] := by
        obtain ⟨-, a2, -⟩ | ⟨-, -, -, a3, -⟩ := g3
        · exact (List.append_eq_nil_iff.1 a2.symm).1
        · cases a3
      subst hn
      refine .inr ⟨c, m, ?_, by rw [hs], by rw [List.append_nil]; exact b3, b4, by simp; omega, ?_, ?_, b8⟩
      · rw [hs, ← b1, ← hp]
      · rw [List.take_append_of_le_length b5]; exact b6
      · rw [hs]; exact Nat.le_trans b7 (Nat.le_trans (Nat.le_add_right _ _) he.clock)

/-! ### `Twin` -/

/-- u is the state s with the port of the command that nobody disturbs, both on their way from s0. -/
structure Twin (s0 s u : State) : Prop where
  same : u = { s with port := { s0.port with during := [] } }
  served : ∃ evs, Served s0 s evs

/-- The same for two results. -/
def Twins {α : Type} (s0 : State) (r r' : α × State) : Prop := r'.1 = r.1 ∧ Twin s0 r.2 r'.2

theorem Twin.pins {s0 s u : State} (h : Twin s0 s u) : u.pins = s.pins := by rw [h.same]
theorem Twin.cfg {s0 s u : State} (h : Twin s0 s u) : u.cfg = s.cfg := by rw [h.same]
theorem Twin.env {s0 s u : State} (h : Twin s0 s u) : u.env = s.env := by rw [h.same]
theorem Twin.work {s0 s u : State} (h : Twin s0 s u) : u.work = s.work := by rw [h.same]
theorem Twin.regs {s0 s u : State} (h : Twin s0 s u) : u.regs = s.regs := by rw [h.same]
theorem Twin.buf {s0 s u : State} (h : Twin s0 s u) : u.buf = s.buf := by rw [h.same]
theorem Twin.fsr {s0 s u : State} (h : Twin s0 s u) : u.fsr = s.fsr := by rw [h.same]
theorem Twin.counters {s0 s u : State} (h : Twin s0 s u) : u.counters = s.counters := by rw [h.same]

theorem beginCommand_twin (i : Instr) (s : State) (h : s.port.cut = none) :
    Twin s (beginCommand i s) (beginCommand i { s with port.during := [] }) := by
  refine ⟨?_, _, beginCommand_served i s h⟩
  have he : beginCommand i s = { s with
      ctl.busy := true, ctl.seq := some i, port := (beginCommand i s).port } := dueAccesses_eq _ _
  rw [he]
  rfl

/-- An update that emits nothing and does not look at the host port. -/
theorem Twin.map {s0 s u : State} (h : Twin s0 s u) (g : State → State)
    (hg : ∀ s q, g { s with port := q } = { g s with port := q } := by intros; rfl)
    (hk : ∀ s, (g s).trace = s.trace ∧ (g s).cfg = s.cfg ∧ (g s).ctl.busy = s.ctl.busy ∧ (g s).port = s.port ∧
      (g s).env = s.env := by intros; exact ⟨rfl, rfl, rfl, rfl, rfl⟩) : Twin s0 (g s) (g u) := by
  obtain ⟨h1, evs, h2⟩ := h
  obtain ⟨k1, k2, k3, k4, k5⟩ := hk s
  exact ⟨by rw [h1, hg], evs, h2.silent k1 k2 k3 k4 (by rw [k5]; exact ReachedEnv.refl _ _)⟩

theorem now_twin {s0 s u : State} (h : Twin s0 s u) : Twins s0 (now s) (now u) := by
  obtain ⟨rfl, evs, h2⟩ := h
  refine ⟨rfl, rfl, evs, h2.silent rfl rfl rfl rfl ⟨rfl, ?_, ByteStream.gave_nil _⟩⟩
  rw [now_env, Clock.now_snd_time]
  exact Clock.time_le_now _

theorem serveDuring_quiet (s : State) (h : s.port.during = []) : serveDuring s = s := by
  obtain ⟨⟩ := s
  simp only at h
  simp only [serveDuring, h, passEvent, dueAccesses]
  congr 1
  rename_i p
  obtain ⟨⟩ := p
  simp_all

/-- An event that is no pulse and no wait, and takes nothing from the source. -/
theorem emit_twin {s0 s u : State} (e : Event) (h : Twin s0 s u) (hp : e.isPulse = false) (hb : bytesTaken [e] = [])
    (hw : waited [e] = 0 := by rfl) :
    Twin s0 (emit e s) (emit e u) := by
  obtain ⟨rfl, evs, h2⟩ := h
  refine ⟨?_, _, h2.step (s1 := log e s) e rfl rfl rfl rfl ⟨?_, by rw [hw]; exact Nat.le_refl _, by rw [hb]; exact ByteStream.gave_nil _⟩⟩
  · have h1 : serveDuring (log e { s with port := { s0.port with during := [] } }) = _ := serveDuring_quiet _ rfl
    have h3 : emit e s = { log e s with port := (emit e s).port } := dueAccesses_eq _ _
    rw [emit, h1, h3]
    rfl
  · cases e with
    | pulse => cases hp
    | _ => rfl

theorem tckPulse_twin {s0 s u : State} (d : Driver) (tms tdi : Bool) (h : Twin s0 s u) :
    Twins s0 (tckPulse d tms tdi s) (tckPulse d tms tdi u) := by
  obtain ⟨rfl, evs, h2⟩ := h
  refine ⟨rfl, ?_, _, h2.step (.pulse d tms tdi (s.env.target.pulse s.cfg tms tdi).1) rfl rfl rfl rfl
    ⟨⟨rfl, rfl⟩, Clock.time_le_onPulse _, ByteStream.gave_nil _⟩⟩
  have h3 : (tckPulse d tms tdi s).2 = { (tckPulse d tms tdi s).2 with port := (tckPulse d tms tdi s).2.port } := rfl
  simp only [tckPulse]
  rw [serveDuring_quiet _ (by rfl), serveDuring, dueAccesses_eq]
  rfl

end Sys2Proof.Machine
end

