-- ==== Sys2Proof/Laws/Twins.lean ====
section
/-! SUPPORT. Every operation keeps `Twin`: what the host does meanwhile changes no operation's result. One lemma each. -/

namespace Sys2Proof.Machine

variable {s0 s u : State}

/-- The update of a result's state. -/
theorem Twins.map {α : Type} {r r' : α × State} (h : Twins s0 r r') (g : α → State → State)
    (hg : ∀ a s q, g a { s with port := q } = { g a s with port := q } := by intros; rfl)
    (hk : ∀ a s, (g a s).trace = s.trace ∧ (g a s).cfg = s.cfg ∧ (g a s).ctl.busy = s.ctl.busy ∧
      (g a s).port = s.port ∧ (g a s).env = s.env := by intros; exact ⟨rfl, rfl, rfl, rfl, rfl⟩) :
    Twin s0 (g r.1 r.2) (g r'.1 r'.2) := by
  rw [h.1]
  exact h.2.map (g r.1) (hg r.1) (hk r.1)

/-! ### Pulses, walks, shifts -/

theorem pulse_twin (tms tdi : Bool) (h : Twin s0 s u) : Twins s0 (pulse tms tdi s) (pulse tms tdi u) :=
  tckPulse_twin .bb tms tdi (h.map fun s => { s with pins := { s.pins with tck := true, tms := tms, tdi := tdi } })

theorem spiPulse_twin (tdi : Bool) (h : Twin s0 s u) : Twins s0 (spiPulse tdi s) (spiPulse tdi u) :=
  tckPulse_twin .spi false tdi h

theorem setTms_twin (tms : Bool) (h : Twin s0 s u) : Twin s0 (setTms tms s) (setTms tms u) := by
  simp only [setTms, h.pins]
  exact (pulse_twin tms s.pins.tdi h).2

theorem walk_twin (l : List Bool) (h : Twin s0 s u) : Twin s0 (walk l s) (walk l u) := by
  induction l generalizing s u with
  | nil => exact h
  | cons b bs ih => exact ih (setTms_twin b h)

theorem shiftOne_twin (tms bit : Bool) (h : Twin s0 s u) : Twins s0 (shiftOne tms bit s) (shiftOne tms bit u) := by
  have hp := pulse_twin tms bit h
  have ht : u.tap = s.tap := by rw [h.same]
  refine ⟨hp.1, ?_⟩
  simp only [shiftOne, ht]
  exact hp.2.map fun r => { r with
    banks.irsr := if s.tap.state = .shiftIR then r.banks.irsr >>> 1 else r.banks.irsr
    banks.bitcnt := r.banks.bitcnt + 1 }

theorem shiftLoop_twin (last : Bool) (bits : List Bool) (h : Twin s0 s u) :
    Twins s0 (shiftLoop last bits s) (shiftLoop last bits u) := by
  induction bits generalizing s u with
  | nil => exact ⟨rfl, h⟩
  | cons b bs ih =>
    have h1 := shiftOne_twin (last && bs.isEmpty) b h
    have h2 := ih h1.2
    exact ⟨by simp only [shiftLoop, h1.1, h2.1], h2.2⟩

theorem shiftBits_twin (bits : List Bool) (h : Twin s0 s u) : Twins s0 (shiftBits bits s) (shiftBits bits u) :=
  shiftLoop_twin true bits (h.map fun s => { s with banks.bitcnt := 0 })

theorem shiftByte_twin (b : Byte) (last : Bool) (h : Twin s0 s u) :
    Twins s0 (shiftByte b last s) (shiftByte b last u) := by
  have h1 := shiftLoop_twin last (byteBits b) (h.map fun s => { s with banks.bitcnt := 0 })
  simp only [shiftByte]
  generalize shiftLoop last (byteBits b) { s with banks.bitcnt := 0 } = r at *
  generalize shiftLoop last (byteBits b) { u with banks.bitcnt := 0 } = r' at *
  exact ⟨congrArg byteOf h1.1, h1.2⟩

/-! ### Waits and comparisons -/

theorem pauseFor_twin (d : Nat) (h : Twin s0 s u) : Twin s0 (pauseFor d s) (pauseFor d u) := by
  obtain ⟨rfl, evs, h2⟩ := h
  refine ⟨?_, _, h2.step (s1 := log (.wait d) { (now s).2 with
    counters.deadline := (now s).1 + d, env.clock := (now s).2.env.clock.waitUntil ((now s).1 + d) })
    (.wait d) rfl rfl rfl rfl ⟨rfl, ?_, ByteStream.gave_nil _⟩⟩
  · simp only [pauseFor, emit]
    rw [serveDuring_quiet _ (by rfl), serveDuring, dueAccesses_eq]
    rfl
  · have := pauseFor_time d s
    simpa [pauseFor, waited] using this

theorem check_twin (r e m : Word) (h : Twin s0 s u) : Twins s0 (check r e m s) (check r e m u) := by
  refine ⟨rfl, ?_⟩
  simp only [check]
  have h1 := h.map fun s => { s with flags := s.flags.afterCheck (maskedMismatch r e m) }
  split
  · exact emit_twin (.mismatch r e m) h1 rfl rfl
  · exact h1

/-! ### TapController -/

theorem tapReset_twin (h : Twin s0 s u) : Twin s0 (tapReset s) (tapReset u) := walk_twin _ h

theorem idleCycles_twin (n : Nat) (h : Twin s0 s u) : Twin s0 (idleCycles n s) (idleCycles n u) := by
  induction n generalizing s u with
  | zero => exact h
  | succ n ih => exact ih ((setTms_twin false h).map fun s => { s with counters.cyccnt := n })

theorem idleUntilDeadline_twin (n : Nat) (h : Twin s0 s u) :
    Twin s0 (idleUntilDeadline n s) (idleUntilDeadline n u) := by
  induction n generalizing s u with
  | zero => exact h
  | succ n ih =>
    have h1 := now_twin h
    simp only [idleUntilDeadline, h1.1, h.counters]
    split
    · exact ih (setTms_twin false h1.2)
    · exact h1.2

theorem idle_twin (w : IdleWait) (h : Twin s0 s u) : Twin s0 (idle w s) (idle w u) := by
  have h1 := now_twin h
  have h2 := idleCycles_twin w.cycles (h1.2.map fun r => { r with
    counters.deadline := (now s).1 + w.ticks, counters.cyccnt := w.cycles })
  simp only [idle, h1.1, h2.env, h2.counters]
  exact setTms_twin true (idleUntilDeadline_twin _ h2)

theorem scanTail_twin (w : Option IdleWait) (h : Twin s0 s u) : Twin s0 (scanTail w s) (scanTail w u) := by
  cases w with
  | none => exact setTms_twin true h
  | some w => exact idle_twin w h

theorem sir_twin (bits : List Bool) (w : Option IdleWait) (h : Twin s0 s u) : Twin s0 (sir bits w s) (sir bits w u) :=
  scanTail_twin w (walk_twin _ (shiftBits_twin bits (walk_twin _
    (h.map fun s => { s with banks.irsr := BitVec.ofNat 32 (wordOf bits) }))).2)

theorem pauseDr_twin (p : Option Nat) (h : Twin s0 s u) : Twin s0 (pauseDr p s) (pauseDr p u) := by
  cases p with
  | none => exact h
  | some p => exact pauseFor_twin p h

theorem sdr_twin (bits : List Bool) (p : Option Nat) (w : Option IdleWait) (h : Twin s0 s u) :
    Twins s0 (sdr bits p w s) (sdr bits p w u) := by
  have h1 := shiftBits_twin bits (walk_twin [false, false]
    (h.map fun s => { s with banks.drbits := bits, banks.drlen := bits.length }))
  exact ⟨h1.1, scanTail_twin w (walk_twin _ (pauseDr_twin p (walk_twin _
    (h1.map fun a s => { s with banks.drcap := a }))))⟩

/-! ### DeviceProtocol -/

theorem sirOp_twin (op : Byte) (w : Option IdleWait) (h : Twin s0 s u) : Twin s0 (sirOp op w s) (sirOp op w u) :=
  sir_twin _ w h

theorem scriptStart_twin (h : Twin s0 s u) : Twin s0 (scriptStart s) (scriptStart u) := idle_twin _ (tapReset_twin h)

theorem readStatus_twin (h : Twin s0 s u) : Twins s0 (readStatus s) (readStatus u) := by
  simp only [readStatus, h.cfg]
  have h1 := sdr_twin (List.replicate s.cfg.statusBits.count false) none none
    (sirOp_twin s.cfg.op.lscReadStatus none h)
  generalize sdr (List.replicate s.cfg.statusBits.count false) none none (sirOp s.cfg.op.lscReadStatus none s) = r at *
  generalize sdr (List.replicate s.cfg.statusBits.count false) none none (sirOp s.cfg.op.lscReadStatus none u) = r' at *
  exact ⟨congrArg capturedWord h1.1, h1.2⟩

theorem checkStatus_twin (mask : Word) (h : Twin s0 s u) : Twins s0 (checkStatus mask s) (checkStatus mask u) := by
  have h1 := readStatus_twin h
  simp only [checkStatus, h1.1]
  exact check_twin _ _ _ h1.2

theorem openForConfiguration_twin (h : Twin s0 s u) :
    Twins s0 (openForConfiguration s) (openForConfiguration u) := by
  have a := sirOp_twin s.cfg.op.preload none (scriptStart_twin h)
  have b := (sdr_twin (List.replicate Config.preloadBits true) none none a).2
  have c := checkStatus_twin Config.maskStatusA (sirOp_twin s.cfg.op.iscEnable (some s.cfg.cfgWait) b)
  have d := checkStatus_twin Config.maskStatusB (sirOp_twin s.cfg.op.iscErase (some s.cfg.cfgWait) c.2)
  simp only [openForConfiguration, h.cfg]
  exact ⟨by simp only [c.1, d.1], d.2.map fun s => { s with devmode := .configuredForSRAM }⟩

theorem openForFlash_twin (h : Twin s0 s u) : Twins s0 (openForFlash s) (openForFlash u) := by
  have a := openForConfiguration_twin h
  have b := sirOp_twin s.cfg.op.bypass (some longIdle) (scriptStart_twin a.2)
  have c := sirOp_twin s.cfg.op.lscProgSpi none b
  have d := (sdr_twin (numberBits s.cfg.progSpiBits s.cfg.progSpiWord) none (some longIdle) c).2
  simp only [openForFlash, h.cfg]
  exact ⟨a.1, d.map fun s => { s with devmode := .configuredForFlash }⟩

theorem identifyScan_twin (h : Twin s0 s u) : Twins s0 (identifyScan s) (identifyScan u) := by
  simp only [identifyScan, h.cfg]
  have h1 := sdr_twin (List.replicate Config.idcodeBits false) none none
    (sirOp_twin s.cfg.op.readIdcode none (scriptStart_twin h))
  generalize sdr (List.replicate Config.idcodeBits false) none none
    (sirOp s.cfg.op.readIdcode none (scriptStart s)) = r at *
  generalize sdr (List.replicate Config.idcodeBits false) none none
    (sirOp s.cfg.op.readIdcode none (scriptStart u)) = r' at *
  exact ⟨congrArg capturedWord h1.1, h1.2⟩

theorem closeScans_twin (h : Twin s0 s u) : Twin s0 (closeScans s) (closeScans u) := by
  simp only [closeScans, h.cfg]
  exact tapReset_twin (sirOp_twin _ _ (sirOp_twin _ _ (sirOp_twin _ _ (sirOp_twin _ _ (sdr_twin _ _ _ h).2))))

theorem acquire_twin (h : Twin s0 s u) : Twin s0 (acquire s) (acquire u) :=
  emit_twin (.path .bitBang) (h.map fun s => { s with pins := { s.pins with path := .bitBang, tck := true } }) rfl rfl

theorem acquireIfReleased_twin (h : Twin s0 s u) : Twin s0 (acquireIfReleased s) (acquireIfReleased u) := by
  simp only [acquireIfReleased, h.pins]
  split
  · exact acquire_twin h
  · exact h

theorem release_twin (h : Twin s0 s u) : Twin s0 (release s) (release u) :=
  emit_twin (.path .released) (h.map fun s => { s with
    pins := { s.pins with path := .released }, tap := { s.tap with known := false, ones := 0#3 } }) rfl rfl

/-! ### BurstTransport -/

theorem toBurst_twin (h : Twin s0 s u) : Twin s0 (toBurst s) (toBurst u) := by
  have hc : u.cfg.useBurst = s.cfg.useBurst := by rw [h.cfg]
  unfold toBurst
  cases hb : s.cfg.useBurst with
  | true =>
    rw [if_pos rfl, if_pos (hc.trans hb)]
    exact emit_twin (.path .burst) (h.map fun s => { s with pins := { s.pins with tms := false, path := .burst } }) rfl rfl
  | false =>
    rw [if_neg (by decide), if_neg (by rw [hc, hb]; decide)]
    exact h

theorem toBitBang_twin (h : Twin s0 s u) : Twin s0 (toBitBang s) (toBitBang u) := by
  have hc : u.cfg.useBurst = s.cfg.useBurst := by rw [h.cfg]
  unfold toBitBang
  cases hb : s.cfg.useBurst with
  | true =>
    rw [if_pos rfl, if_pos (hc.trans hb)]
    exact emit_twin (.path .bitBang) (h.map fun s => { s with pins := { s.pins with path := .bitBang } }) rfl rfl
  | false =>
    rw [if_neg (by decide), if_neg (by rw [hc, hb]; decide)]
    exact h

theorem spiBits_twin (bits : List Bool) (h : Twin s0 s u) : Twins s0 (spiBits bits s) (spiBits bits u) := by
  induction bits generalizing s u with
  | nil => exact ⟨rfl, h⟩
  | cons b bs ih =>
    have h1 := spiPulse_twin b h
    have h2 := ih h1.2
    exact ⟨by simp only [spiBits, h1.1, h2.1], h2.2⟩

theorem bulkByte_twin (b : Byte) (h : Twin s0 s u) : Twins s0 (bulkByte b s) (bulkByte b u) := by
  simp only [bulkByte, h.cfg]
  split
  · have h1 := spiBits_twin (byteBits b).reverse h
    exact ⟨by simp only [h1.1], h1.2⟩
  · have h1 := shiftByte_twin (rev8 b) false h
    exact ⟨by simp only [h1.1], h1.2⟩

theorem spiWrite_twin (bytes : List Byte) (h : Twin s0 s u) : Twin s0 (spiWrite bytes s) (spiWrite bytes u) := by
  induction bytes generalizing s u with
  | nil => exact h
  | cons b bs ih => exact ih (bulkByte_twin b h).2

theorem spiRead_twin (n : Nat) (h : Twin s0 s u) : Twins s0 (spiRead n s) (spiRead n u) := by
  induction n generalizing s u with
  | zero => exact ⟨rfl, h⟩
  | succ n ih =>
    have h1 := bulkByte_twin 0#8 h
    have h2 := ih h1.2
    exact ⟨by simp only [spiRead, h1.1, h2.1], h2.2⟩

theorem burstWrite_twin (lead bulk : List Byte) (d : Byte) (h : Twin s0 s u) :
    Twin s0 (burstWrite lead bulk d s) (burstWrite lead bulk d u) :=
  (shiftByte_twin d true (toBitBang_twin (spiWrite_twin _ (toBurst_twin h)))).2

theorem burstRead_twin (lead : List Byte) (n : Nat) (h : Twin s0 s u) :
    Twins s0 (burstRead lead n s) (burstRead lead n u) := by
  simp only [burstRead, h.cfg]
  have h1 := spiRead_twin n (spiWrite_twin (lead ++ List.replicate s.cfg.dummyBytes 0#8) (toBurst_twin h))
  exact ⟨h1.1, (shiftByte_twin 0#8 true (toBitBang_twin h1.2)).2⟩

/-! ### FlashEngine -/

theorem frameBB_twin (frame : List Byte) (h : Twin s0 s u) : Twins s0 (frameBB frame s) (frameBB frame u) := by
  have h1 := sdr_twin (bitsOf (frame.map rev8) (8 * frame.length)) none none h
  exact ⟨by simp only [frameBB, h1.1], h1.2⟩

theorem readFlashStatus_twin (h : Twin s0 s u) : Twins s0 (readFlashStatus s) (readFlashStatus u) := by
  simp only [readFlashStatus, h.cfg]
  have h1 := frameBB_twin (statusFrame s.cfg) h
  exact ⟨by simp only [h1.1], h1.map fun a s => { s with fsr := a.getD 1 0#8 }⟩

theorem pollLoop_twin (delay n : Nat) (sr : Byte) (h : Twin s0 s u) :
    Twins s0 (pollLoop delay n sr s) (pollLoop delay n sr u) := by
  induction n generalizing sr s u with
  | zero => exact ⟨rfl, h.map fun s => { s with flags := s.flags.setTimeout }⟩
  | succ n ih =>
    have h1 := readFlashStatus_twin h
    simp only [pollLoop, h1.1, h.cfg]
    split
    · exact ⟨rfl, h1.2⟩
    · exact ih _ (pauseFor_twin delay (h1.2.map fun s => { s with counters.attempt := n }))

theorem pollStatus_twin (attempts delay : Nat) (h : Twin s0 s u) :
    Twins s0 (pollStatus attempts delay s) (pollStatus attempts delay u) := by
  obtain ⟨rfl, hs⟩ := h
  exact pollLoop_twin delay attempts s.fsr ((Twin.mk rfl hs).map fun s => { s with counters.attempt := attempts })

theorem eraseBlock_twin (a : Nat) (h : Twin s0 s u) : Twins s0 (eraseBlock a s) (eraseBlock a u) := by
  have a1 := readFlashStatus_twin (frameBB_twin [s.cfg.fc.wren] h).2
  have a2 := (check_twin ((readFlashStatus (frameBB [s.cfg.fc.wren] s).2).1.setWidth 32) (s.cfg.srWel.setWidth 32)
    (s.cfg.srWel.setWidth 32) a1.2).2
  have a3 := (frameBB_twin (s.cfg.fc.erase :: addressBytes a) a2).2
  have a4 := pollStatus_twin s.cfg.erasePoll.attempts s.cfg.erasePoll.delay a3
  simp only [eraseBlock, h.cfg, a1.1]
  exact ⟨by simp only [a4.1], a4.2⟩

theorem writeBlock_twin (data : List Byte) (a : Nat) (h : Twin s0 s u) :
    Twins s0 (writeBlock data a s) (writeBlock data a u) := by
  simp only [writeBlock, h.cfg]
  have h1 := pollStatus_twin s.cfg.writePoll.attempts s.cfg.writePoll.delay (walk_twin [false, true, true, true]
    (burstWrite_twin (s.cfg.fc.pageProgram :: addressBytes a) data.dropLast (rev8 (data.getLastD 0#8))
      (walk_twin [false, false] (frameBB_twin [s.cfg.fc.wren] h).2)))
  exact ⟨by simp only [h1.1], h1.2⟩

theorem readBlock_twin (a n : Nat) (h : Twin s0 s u) : Twins s0 (readBlock a n s) (readBlock a n u) := by
  simp only [readBlock, h.cfg]
  have h1 := burstRead_twin (s.cfg.fc.fastRead :: addressBytes a) n (walk_twin [false, false] h)
  exact ⟨h1.1, walk_twin _ h1.2⟩

/-! ### The upload -/

theorem srcNext_twin (n : Nat) (h : Twin s0 s u) : Twins s0 (srcNext n s) (srcNext n u) := by
  refine ⟨by simp only [srcNext, h.env], ?_⟩
  obtain ⟨rfl, evs, h2⟩ := h
  refine ⟨?_, _, h2.step (s1 := log (.src n (s.env.source.next n).1) { s with env.source := (s.env.source.next n).2 })
    (.src n (s.env.source.next n).1) rfl rfl rfl rfl ⟨rfl, Nat.le_refl _, ?_⟩⟩
  · simp only [srcNext, emit]
    rw [serveDuring_quiet _ (by rfl), serveDuring, dueAccesses_eq]
    rfl
  · obtain ⟨-, h1, h2⟩ | ⟨k, -, h1, h2, -⟩ := Source.next_cases n s.env.source
    · simpa [h1, h2, bytesTaken] using ByteStream.gave_nil _
    · simpa [h1, h2, bytesTaken] using ByteStream.gave_peek k _

theorem fillChunk_twin (n : Nat) (h : Twin s0 s u) : Twins s0 (fillChunk n s) (fillChunk n u) := by
  induction n generalizing s u with
  | zero => exact ⟨rfl, h⟩
  | succ n ih =>
    have h1 := srcNext_twin (s.cfg.eraseBlock - s.work.chunklen) h
    simp only [fillChunk, h.cfg, h.work, h1.1]
    split
    · split
      · exact ⟨rfl, h1.2⟩
      · rename_i bytes _
        exact ih (h1.2.map fun s => { s with
          work.chunk := splice s.work.chunklen bytes s.work.chunk
          work.chunklen := s.work.chunklen + bytes.length })
    · exact ⟨rfl, h⟩

theorem Twin.chunkBytes (h : Twin s0 s u) : u.chunkBytes = s.chunkBytes := by
  simp only [State.chunkBytes, h.work]

theorem writePieces_twin (n off : Nat) (h : Twin s0 s u) : Twin s0 (writePieces n off s) (writePieces n off u) := by
  induction n generalizing off s u with
  | zero => exact h
  | succ n ih =>
    have h1 := writeBlock_twin ((s.chunkBytes.drop off).take (min s.cfg.writeBlock (s.work.chunklen - off)))
      (s.work.faddr + off) h
    simp only [writePieces, h.cfg, h.work, h.chunkBytes, h1.1]
    split
    · split
      · exact h1.2
      · exact ih _ h1.2
    · exact h

theorem writeChunk_twin (h : Twin s0 s u) : Twin s0 (writeChunk s) (writeChunk u) := by
  obtain ⟨rfl, hs⟩ := h
  exact writePieces_twin _ 0 ((Twin.mk rfl hs).map fun s => { s with work.didWrite := true })

theorem programAttempt_twin (h : Twin s0 s u) : Twin s0 (programAttempt s) (programAttempt u) := by
  have h1 := eraseBlock_twin s.work.faddr (h.map fun s => { s with work.didErase := true })
  have hw := h.work
  simp only [programAttempt, hw] at h1 ⊢
  split
  · rw [show (eraseBlock s.work.faddr { u with work := { s.work with didErase := true } }).1 =
      (eraseBlock s.work.faddr { s with work.didErase := true }).1 from h1.1]
    split
    · exact h1.2
    · exact writeChunk_twin h1.2
  · exact writeChunk_twin h

theorem compareChunk_twin (h : Twin s0 s u) : Twin s0 (compareChunk s) (compareChunk u) := by
  have h1 := readBlock_twin s.work.faddr s.work.chunklen h
  simp only [compareChunk, h.work, h.cfg, h.chunkBytes]
  exact h1.map fun a r => { r with
    work.scratch := splice 0 a r.work.scratch, work.cls := classify s.cfg.eraseSafe a s.chunkBytes }

theorem retryLoop_twin (n : Nat) (h : Twin s0 s u) : Twins s0 (retryLoop n s) (retryLoop n u) := by
  induction n generalizing s u with
  | zero =>
    have h1 := compareChunk_twin h
    have hw := congrArg Work.cls h1.work
    unfold retryLoop
    generalize compareChunk s = a at *
    generalize compareChunk u = b at *
    simp only [hw]
    split <;> exact ⟨rfl, h1⟩
  | succ n ih =>
    have h1 := compareChunk_twin h
    have hw := congrArg Work.cls h1.work
    have h2 := ih (programAttempt_twin (h1.map fun s => { s with work.retry := s.work.retry + 1 }))
    unfold retryLoop
    generalize compareChunk s = a at *
    generalize compareChunk u = b at *
    cases hc : a.work.cls <;> simp only [hc, hw] at h2 ⊢ <;> first | exact ⟨rfl, h1⟩ | exact h2

theorem stampElapsed_twin (h : Twin s0 s u) : Twin s0 (stampElapsed s) (stampElapsed u) := by
  obtain ⟨rfl, hs⟩ := h
  exact (now_twin (Twin.mk rfl hs)).map fun a r => { r with stats.elapsed := elapsedWord a s.work.tStart }

theorem finishChunk_twin (h : Twin s0 s u) : Twin s0 (finishChunk s) (finishChunk u) := by
  have h1 := stampElapsed_twin (h.map fun s => { s with
    stats := s.stats.afterChunk s.work.chunklen s.work.didErase s.work.didWrite })
  have hs := congrArg State.stats h1.same
  simp only [finishChunk] at hs ⊢
  rw [hs]
  exact emit_twin _ h1 rfl rfl

theorem runChunk_twin (h : Twin s0 s u) : Twins s0 (runChunk s) (runChunk u) := by
  have h1 := retryLoop_twin Config.retryMax (h.map fun s => { s with
    work.retry := 0, work.didErase := false, work.didWrite := false })
  have hw := h.work
  simp only [runChunk, hw] at h1 ⊢
  split
  · exact ⟨rfl, h⟩
  · rw [h1.1]
    split
    · exact ⟨rfl, h1.2⟩
    · exact ⟨rfl, finishChunk_twin h1.2⟩

theorem chunkLoop_twin (n : Nat) (h : Twin s0 s u) : Twins s0 (chunkLoop n s) (chunkLoop n u) := by
  induction n generalizing s u with
  | zero => exact ⟨rfl, h⟩
  | succ n ih =>
    have hw := h.work
    have h1 := fillChunk_twin s.cfg.eraseBlock (h.map fun s => { s with work.chunklen := 0 })
    have h2 := runChunk_twin h1.2
    simp only [chunkLoop, h.cfg, hw] at h1 h2 ⊢
    rw [h1.2.work, h1.1, h2.1]
    split
    · exact ⟨rfl, h1.2⟩
    · split
      · exact ⟨rfl, h2.2⟩
      · split
        · exact ⟨rfl, h2.2⟩
        · exact ih (h2.2.map fun s => { s with work.faddr := s.work.faddr + s.cfg.eraseBlock })

theorem startUpload_twin (base : Nat) (h : Twin s0 s u) : Twin s0 (startUpload base s) (startUpload base u) := by
  have h1 := now_twin (h.map fun s => { s with stats := Stats.zero })
  simp only [startUpload]
  generalize now { s with stats := Stats.zero } = r at *
  generalize now { u with stats := Stats.zero } = r' at *
  have h2 := h1.map fun a r => { r with work.tStart := a }
  simp only at h2
  generalize ({ r.2 with work.tStart := r.1 } : State) = x at *
  generalize ({ r'.2 with work.tStart := r'.1 } : State) = x' at *
  have h3 := (openForFlash_twin (acquireIfReleased_twin h2)).2
  generalize (openForFlash (acquireIfReleased x)).2 = y at *
  generalize (openForFlash (acquireIfReleased x')).2 = y' at *
  exact h3.map fun s => { s with work.faddr := base }

end Sys2Proof.Machine
end

