-- ==== Sys2Proof/Laws/Disturbed.lean ====
section
/-! SUPPORT. A command that the host disturbs beside the same command that it leaves alone: `exec_paired` says once, for
every command, how the two end. -/

namespace Sys2Proof.Machine

/-- How two runs of a command from s0 end, t with the host's accesses and t0 without: the accesses are answered as those
of BUSY = 1, and either t is t0 but for the host port, or a reset among them left the block as it leaves it, with the
environment of that moment. -/
structure Ended (s0 t t0 : State) : Prop where
  inputs : t.port.inputs = s0.port.inputs
  cut : t.port.cut = none
  host : ∃ evs served new, newEvents s0 t0 evs ∧ busyAnswered served s0.port.draws new t.port.draws ∧
    t.port.reads = new.reverse ++ s0.port.reads ∧
    ((t = { t0 with port := t.port } ∧ t.port.resets = s0.port.resets ∧
        s0.port.during.map Prod.snd = served ++ t.port.during.map Prod.snd ∧
        ∀ m, cutPoint s0.port.during = some m → evs.length < m) ∨
      (∃ m, cutPoint s0.port.during = some m ∧ m ≤ evs.length ∧ t = State.resetWith s0.cfg t.env t.port ∧
        t.port.resets = s0.port.resets + 1 ∧ ReachedEnv s0.cfg s0.env (evs.take m) t.env ∧
        (m = 0 → t.env = s0.env) ∧ t.env.clock.time ≤ t0.env.clock.time ∧
        s0.port.during.map Prod.snd = served ++ .reset :: t.port.during.map Prod.snd))

/-- The same for two outcomes. -/
inductive Paired (s0 : State) : Host.Outcome State Fault Refusal → Host.Outcome State Fault Refusal → Prop where
  | next (t t0 : State) (h : Ended s0 t t0) : Paired s0 (.next t) (.next t0)
  | fault (f : Fault) (h : cutPoint s0.port.during ≠ some 0) : Paired s0 (.fault f) (.fault f)
  | stopped (t : State) (f : Fault) (hp : cutPoint s0.port.during = some 0)
      (h : t = State.resetWith s0.cfg s0.env t.port) (hi : t.port.inputs = s0.port.inputs)
      (hr : t.port.resets = s0.port.resets + 1) (hc : t.port.cut = none) : Paired s0 (.next t) (.fault f)

variable {s0 s u : State}

theorem endCommand_ended (e : ErrorKind) (info : Nat) (hc : s0.port.cut = none) (h : Twin s0 s u) :
    Ended s0 (endCommand e info s) (endCommand e info u) := by
  have h1 := emit_twin (.done e.code (BitVec.ofNat 24 info))
    (h.map fun s => { s with ctl.err := e, ctl.info := BitVec.ofNat 24 info }) rfl rfl
  unfold endCommand
  generalize emit (.done e.code (BitVec.ofNat 24 info))
    { s with ctl.err := e, ctl.info := BitVec.ofNat 24 info } = a at *
  generalize emit (.done e.code (BitVec.ofNat 24 info))
    { u with ctl.err := e, ctl.info := BitVec.ofNat 24 info } = b at *
  obtain ⟨rfl, evs, hs⟩ := h1
  obtain ⟨served, new, g1, g2, g3⟩ := hs.host
  simp only [applyCut, hc]
  obtain ⟨b1, b2, b3, b4⟩ | ⟨c, m, b1, b2, b3, b4, b5, b6, b7, b8⟩ := g3
  · simp only [b1]
    refine ⟨hs.inputs, b1, evs, served, new, hs.trace, g1, g2, .inl ⟨rfl, hs.resets, b2, fun m hm => ?_⟩⟩
    rw [b4] at hm
    obtain ⟨k, hk, rfl⟩ := Option.map_eq_some_iff.1 hm
    have : k ≠ 0 := by
      rintro rfl
      cases hd : a.port.during with
      | nil => rw [hd] at hk; cases hk
      | cons x rest =>
        obtain ⟨_ | n, acc⟩ := x
        · rw [hd] at b3; exact b3
        · rw [hd] at hk
          cases acc <;> simp [cutPoint] at hk
    omega
  · simp only [b1, hardwareReset]
    exact ⟨hs.inputs, rfl, evs, served, new, hs.trace, g1, g2, .inr ⟨m, b4, b5, by rw [← hs.cfg]; rfl,
      congrArg (· + 1) hs.resets, b6, b8, b7, b3⟩⟩

theorem complete_paired (hc : s0.port.cut = none) (h : Twin s0 s u) : Paired s0 (complete s) (complete u) :=
  .next _ _ (endCommand_ended _ _ hc h)

theorem endPolled_paired {b b' : Bool} (info : Nat) (hb : b' = b) (hc : s0.port.cut = none) (h : Twin s0 s u) :
    Paired s0 (endPolled b info s) (endPolled b' info u) := by
  subst hb
  unfold endPolled
  cases b'
  · exact .next _ _ (endCommand_ended _ _ hc h)
  · exact .next _ _ (endCommand_ended _ _ hc h)

/-- A command: its checks do not look at the host port, and its effect runs from the state in which BUSY is 1. -/
theorem command_paired {i : Instr} {checks : State → List EntryCheck}
    {run : State → Host.Outcome State Fault Refusal} {s : State} (hc : s.port.cut = none)
    (hrun : ∀ b u, Twin s b u → Served s b [] → Paired s (run b) (run u))
    (hch : ∀ s q, checks { s with port := q } = checks s := by intros; rfl) :
    Paired s (command i checks run s) (command i checks run { s with port.during := [] }) := by
  have h := beginCommand_twin i s hc
  have h2 := beginCommand_served i s hc
  have hk : checks (beginCommand i { s with port.during := [] }) = checks (beginCommand i s) := by
    rw [h.same, hch]
  unfold command
  rw [hk]
  split
  · exact .next _ _ (endCommand_ended _ _ hc h)
  · exact hrun _ _ h h2

/-- A command that reads BUF before anything else. -/
theorem withBuf_paired {base n : Nat} {run run' : List Byte → Host.Outcome State Fault Refusal}
    (hc : s0.port.cut = none) (h : Twin s0 s u) (hs : Served s0 s [])
    (hrun : ∀ bytes, Paired s0 (run bytes) (run' bytes)) : Paired s0 (withBuf base n s run) (withBuf base n u run') := by
  have hb := h.buf
  have hu : u.port.cut = none := by rw [h.same]; exact hc
  unfold withBuf
  rw [hb]
  split
  · exact hrun _
  · rw [hu]
    obtain ⟨served, new, -, -, g3⟩ := hs.host
    obtain ⟨b1, b2, b3, b4⟩ | ⟨c, m, b1, b2, b3, b4, b5, b6, b7, b8⟩ := g3
    · rw [b1]
      refine .fault _ fun hz => ?_
      rw [b4] at hz
      obtain ⟨k, hk, hz⟩ := Option.map_eq_some_iff.1 hz
      have : k = 0 := by simpa using hz
      subst this
      cases hd : s.port.during with
      | nil => rw [hd] at hk; cases hk
      | cons x rest =>
        obtain ⟨_ | n, acc⟩ := x
        · rw [hd] at b3; exact b3
        · rw [hd] at hk
          cases acc <;> simp [cutPoint] at hk
    · rw [b1]
      have hm : m = 0 := by simpa using b5
      subst hm
      obtain ⟨e1, e2, evs, _, _, -, -, -, e3⟩ := endCommand_ended .ok 0 hc h
      obtain ⟨-, -, -, e4⟩ | ⟨m, e4, -, e5, e6, -, e7, -⟩ := e3
      · have := e4 0 b4; omega
      · rw [b4] at e4
        cases e4
        refine .stopped _ _ b4 ?_ e1 e6 e2
        rw [e7 rfl] at e5
        exact e5

theorem execAcquire_paired (s : State) (hc : s.port.cut = none) :
    Paired s (execAcquire s) (execAcquire { s with port.during := [] }) := by
  unfold execAcquire
  exact command_paired hc fun b u h _ => complete_paired hc (acquire_twin h)

theorem execRelease_paired (s : State) (hc : s.port.cut = none) :
    Paired s (execRelease s) (execRelease { s with port.during := [] }) := by
  unfold execRelease
  exact command_paired hc fun b u h _ => complete_paired hc (release_twin h)

theorem execShiftbit_paired (tdi tms : Bool) (s : State) (hc : s.port.cut = none) :
    Paired s (execShiftbit tdi tms s) (execShiftbit tdi tms { s with port.during := [] }) := by
  unfold execShiftbit
  exact command_paired hc fun b u h _ => complete_paired hc
    ((pulse_twin tms tdi h).map fun a s => { s with res := boolWord a })

theorem execSettms_paired (tms : Bool) (s : State) (hc : s.port.cut = none) :
    Paired s (execSettms tms s) (execSettms tms { s with port.during := [] }) := by
  unfold execSettms
  exact command_paired hc fun b u h _ => complete_paired hc (setTms_twin tms h)

theorem execRev8_paired (s : State) (hc : s.port.cut = none) :
    Paired s (execRev8 s) (execRev8 { s with port.during := [] }) := by
  unfold execRev8
  refine command_paired hc fun b u h hs => ?_
  obtain ⟨rfl, he⟩ := h
  exact withBuf_paired hc ⟨rfl, he⟩ hs fun bytes => complete_paired hc ((Twin.mk rfl he).map fun s => { s with
    buf := s.buf.writeRange s.bufOperand (bytes.map rev8) })

theorem execReset_paired (s : State) (hc : s.port.cut = none) :
    Paired s (execReset s) (execReset { s with port.during := [] }) := by
  unfold execReset
  exact command_paired hc fun b u h _ => complete_paired hc (tapReset_twin h)

theorem execIdle_paired (s : State) (hc : s.port.cut = none) :
    Paired s (execIdle s) (execIdle { s with port.during := [] }) := by
  unfold execIdle
  refine command_paired hc fun b u h _ => ?_
  obtain ⟨rfl, he⟩ := h
  exact complete_paired hc (idle_twin b.idleOperand ⟨rfl, he⟩)

theorem execSir_paired (f : Bool) (s : State) (hc : s.port.cut = none) :
    Paired s (execSir f s) (execSir f { s with port.during := [] }) := by
  unfold execSir
  refine command_paired hc fun b u h _ => ?_
  obtain ⟨rfl, he⟩ := h
  exact complete_paired hc (sir_twin b.instructionBits (b.idleTail f) ⟨rfl, he⟩)

theorem execSdr_paired (c d p : Bool) (s : State) (hc : s.port.cut = none) :
    Paired s (execSdr c d p s) (execSdr c d p { s with port.during := [] }) := by
  unfold execSdr
  refine command_paired hc fun b u h hs => ?_
  obtain ⟨rfl, he⟩ := h
  refine withBuf_paired hc ⟨rfl, he⟩ hs fun old => ?_
  have h1 := sdr_twin (bitsOf old b.lenOperand) (b.pauseOperand p) (b.idleTail d) (Twin.mk rfl he)
  cases c
  · exact complete_paired hc h1.2
  · exact complete_paired hc (h1.map fun a s => { s with buf := s.buf.writeRange b.bufOperand (captureBytes old a) })

theorem execCheck_paired (s : State) (hc : s.port.cut = none) :
    Paired s (execCheck s) (execCheck { s with port.during := [] }) := by
  unfold execCheck
  refine command_paired hc fun b u h _ => ?_
  obtain ⟨rfl, he⟩ := h
  exact complete_paired hc ((check_twin b.regs.val b.regs.exp b.regs.mask (Twin.mk rfl he)).map
    fun a s => { s with res := boolWord a })

theorem execBurstwr_paired (s : State) (hc : s.port.cut = none) :
    Paired s (execBurstwr s) (execBurstwr { s with port.during := [] }) := by
  unfold execBurstwr
  refine command_paired hc fun b u h hs => ?_
  obtain ⟨rfl, he⟩ := h
  exact withBuf_paired hc ⟨rfl, he⟩ hs fun bytes => complete_paired hc
    (burstWrite_twin (prefixBytes b.regs.val) bytes.dropLast (bytes.getLastD 0#8) ⟨rfl, he⟩)

theorem execBurstrd_paired (s : State) (hc : s.port.cut = none) :
    Paired s (execBurstrd s) (execBurstrd { s with port.during := [] }) := by
  unfold execBurstrd
  refine command_paired hc fun b u h _ => ?_
  have hl : u.lenOperand = b.lenOperand := by rw [h.same]; rfl
  have ha : u.bufOperand = b.bufOperand := by rw [h.same]; rfl
  have h1 := burstRead_twin (prefixBytes b.regs.val) b.lenOperand h
  simp only [hl, ha, h.regs]
  generalize burstRead (prefixBytes b.regs.val) b.lenOperand b = r at *
  generalize burstRead (prefixBytes b.regs.val) b.lenOperand u = r' at *
  exact complete_paired hc (h1.map fun a s => { s with buf := s.buf.writeRange b.bufOperand a })

theorem execIdentify_paired (s : State) (hc : s.port.cut = none) :
    Paired s (execIdentify s) (execIdentify { s with port.during := [] }) := by
  unfold execIdentify
  refine command_paired hc fun b u h _ => ?_
  simp only
  have hp := h.pins
  have h1 := (identifyScan_twin (acquireIfReleased_twin h)).map fun a s => { s with res := a }
  simp only [hp]
  generalize identifyScan (acquireIfReleased b) = r at *
  generalize identifyScan (acquireIfReleased u) = r' at *
  split
  · exact complete_paired hc (release_twin h1)
  · exact complete_paired hc h1

theorem execOpencfg_paired (s : State) (hc : s.port.cut = none) :
    Paired s (execOpencfg s) (execOpencfg { s with port.during := [] }) := by
  unfold execOpencfg
  refine command_paired hc fun b u h _ => ?_
  simp only
  have h1 := openForConfiguration_twin (acquireIfReleased_twin h)
  generalize openForConfiguration (acquireIfReleased b) = r at *
  generalize openForConfiguration (acquireIfReleased u) = r' at *
  exact complete_paired hc (h1.map fun a s => { s with res := boolWord a })

theorem execOpenflash_paired (s : State) (hc : s.port.cut = none) :
    Paired s (execOpenflash s) (execOpenflash { s with port.during := [] }) := by
  unfold execOpenflash
  refine command_paired hc fun b u h _ => ?_
  simp only
  have h1 := openForFlash_twin (acquireIfReleased_twin h)
  generalize openForFlash (acquireIfReleased b) = r at *
  generalize openForFlash (acquireIfReleased u) = r' at *
  exact complete_paired hc (h1.map fun a s => { s with res := boolWord a })

theorem execClose_paired (s : State) (hc : s.port.cut = none) :
    Paired s (execClose s) (execClose { s with port.during := [] }) := by
  unfold execClose
  exact command_paired hc fun b u h _ => complete_paired hc
    (release_twin ((closeScans_twin h).map fun s => { s with devmode := .idle }))

theorem execPoll_paired (s : State) (hc : s.port.cut = none) :
    Paired s (execPoll s) (execPoll { s with port.during := [] }) := by
  unfold execPoll
  refine command_paired hc fun b u h _ => ?_
  obtain ⟨rfl, he⟩ := h
  have h1 := pollStatus_twin b.regs.att.toNat b.regs.dly.toNat (Twin.mk rfl he)
  simp only [h1.1]
  refine endPolled_paired _ rfl hc ?_
  split
  · exact h1.2
  · have h2 := h1.map fun a s => { s with res := a.1.setWidth 32 }
    simpa only [h1.1] using h2

theorem execErase_paired (s : State) (hc : s.port.cut = none) :
    Paired s (execErase s) (execErase { s with port.during := [] }) := by
  unfold execErase
  refine command_paired hc fun b u h _ => ?_
  obtain ⟨rfl, he⟩ := h
  have h1 := eraseBlock_twin b.addrOperand (Twin.mk rfl he)
  exact endPolled_paired _ h1.1 hc h1.2

theorem execWrite_paired (s : State) (hc : s.port.cut = none) :
    Paired s (execWrite s) (execWrite { s with port.during := [] }) := by
  unfold execWrite
  refine command_paired hc fun b u h hs => ?_
  obtain ⟨rfl, he⟩ := h
  refine withBuf_paired hc ⟨rfl, he⟩ hs fun data => ?_
  have h1 := writeBlock_twin data b.addrOperand (Twin.mk rfl he)
  exact endPolled_paired _ h1.1 hc h1.2

theorem execRead_paired (s : State) (hc : s.port.cut = none) :
    Paired s (execRead s) (execRead { s with port.during := [] }) := by
  unfold execRead
  refine command_paired hc fun b u h _ => ?_
  obtain ⟨rfl, he⟩ := h
  exact complete_paired hc ((readBlock_twin b.addrOperand b.lenOperand (Twin.mk rfl he)).map
    fun a s => { s with buf := s.buf.writeRange b.bufOperand a })

theorem execUpload_paired (s : State) (hc : s.port.cut = none) :
    Paired s (execUpload s) (execUpload { s with port.during := [] }) := by
  unfold execUpload
  refine command_paired hc fun b u h _ => ?_
  have ha : u.addrOperand = b.addrOperand := by rw [h.same]; rfl
  have h1 := startUpload_twin b.addrOperand h
  have h2 := chunkLoop_twin (chunkRounds (startUpload b.addrOperand b).cfg) h1
  simp only [ha, h1.cfg]
  generalize chunkLoop (chunkRounds (startUpload b.addrOperand b).cfg) (startUpload b.addrOperand b) = r
    at *
  generalize chunkLoop (chunkRounds (startUpload b.addrOperand b).cfg) (startUpload b.addrOperand u) = r'
    at *
  rw [h2.1]
  cases r.1 with
  | none => exact .next _ _ (endCommand_ended _ _ hc (stampElapsed_twin h2.2))
  | some e =>
    have hw := h2.2.work
    simp only [endUpload, hw]
    exact .next _ _ (endCommand_ended _ _ hc h2.2)

/-- Every command, beside the same command that the host leaves alone. -/
theorem exec_paired (i : Instr) (s : State) (hc : s.port.cut = none) :
    Paired s (exec i s) (exec i { s with port.during := [] }) := by
  cases i with
  | acquire => exact execAcquire_paired s hc
  | release => exact execRelease_paired s hc
  | shiftbit tdi tms => exact execShiftbit_paired tdi tms s hc
  | settms tms => exact execSettms_paired tms s hc
  | rev8 => exact execRev8_paired s hc
  | reset => exact execReset_paired s hc
  | idle => exact execIdle_paired s hc
  | sir f => exact execSir_paired f s hc
  | sdr c d p => exact execSdr_paired c d p s hc
  | check => exact execCheck_paired s hc
  | burstwr => exact execBurstwr_paired s hc
  | burstrd => exact execBurstrd_paired s hc
  | identify => exact execIdentify_paired s hc
  | opencfg => exact execOpencfg_paired s hc
  | openflash => exact execOpenflash_paired s hc
  | close => exact execClose_paired s hc
  | poll => exact execPoll_paired s hc
  | erase => exact execErase_paired s hc
  | write => exact execWrite_paired s hc
  | read => exact execRead_paired s hc
  | upload => exact execUpload_paired s hc

end Sys2Proof.Machine
end

