-- ==== Sys2Proof/Laws/Exec.lean ====
section
/-! SUPPORT. What a whole command can do, said once for all of them: a command that gives a next state has acted (`Acts`)
from its start to some state, written there only what its rule lets it write (`Wrote`), and then ended. -/

namespace Sys2Proof.Machine

/-- `Moves` without the claims on R_RES and BUF: what a command may do before its end. -/
structure Acts (s t : State) (evs : List Event) : Prop where
  trace : newEvents s t evs
  cfg : t.cfg = s.cfg
  regs : t.regs = s.regs
  ctl : t.ctl = s.ctl
  inputs : t.port.inputs = s.port.inputs
  resets : t.port.resets = s.port.resets
  tap : t.tap = trackEvents s.tap evs
  path : t.pins.path = pathAfter s.pins.path evs
  tck : s.pins.tck = true → t.pins.tck = true
  undisturbed : s.undisturbed → t.undisturbed
  time : s.env.clock.time + waited evs ≤ t.env.clock.time
  mismatch : t.flags.mismatch = (s.flags.mismatch || evs.any Event.isMismatch)
  timeout : s.flags.timeout = true → t.flags.timeout = true
  target : answeredBy s.cfg s.env.target evs t.env.target
  noDone : evs.any Event.isDone = false
  levels : (t.pins.tms, t.pins.tdi) = levelsAfter (s.pins.tms, s.pins.tdi) evs

theorem Moves.acts {s t : State} {evs : List Event} (h : Moves s t evs) : Acts s t evs :=
  ⟨h.trace, h.cfg, h.regs, h.ctl, h.inputs, h.resets, h.tap, h.path, h.tck, h.undisturbed, h.time, h.mismatch,
   h.timeout, h.target, h.noDone, h.levels⟩

theorem Acts.setRes {s t : State} {evs : List Event} (h : Acts s t evs) (r : Word) : Acts s { t with res := r } evs :=
  ⟨h.trace, h.cfg, h.regs, h.ctl, h.inputs, h.resets, h.tap, h.path, h.tck, h.undisturbed, h.time, h.mismatch,
   h.timeout, h.target, h.noDone, h.levels⟩

theorem Acts.setBuf {s t : State} {evs : List Event} (h : Acts s t evs) (b : Memory) : Acts s { t with buf := b } evs :=
  ⟨h.trace, h.cfg, h.regs, h.ctl, h.inputs, h.resets, h.tap, h.path, h.tck, h.undisturbed, h.time, h.mismatch,
   h.timeout, h.target, h.noDone, h.levels⟩

theorem Acts.setMode {s t : State} {evs : List Event} (h : Acts s t evs) (m : DevMode) :
    Acts s { t with devmode := m } evs :=
  ⟨h.trace, h.cfg, h.regs, h.ctl, h.inputs, h.resets, h.tap, h.path, h.tck, h.undisturbed, h.time, h.mismatch,
   h.timeout, h.target, h.noDone, h.levels⟩

theorem Acts.setWork {s t : State} {evs : List Event} (h : Acts s t evs) (st : Stats) (w : Work) :
    Acts s { t with stats := st, work := w } evs :=
  ⟨h.trace, h.cfg, h.regs, h.ctl, h.inputs, h.resets, h.tap, h.path, h.tck, h.undisturbed, h.time, h.mismatch,
   h.timeout, h.target, h.noDone, h.levels⟩

theorem Acts.trans {s t u : State} {e1 e2 : List Event} (h1 : Acts s t e1) (h2 : Acts t u e2) :
    Acts s u (e1 ++ e2) where
  trace := by
    have a := h1.trace; have b := h2.trace
    simp only [newEvents] at *
    rw [b, a, List.reverse_append, List.append_assoc]
  cfg := h2.cfg.trans h1.cfg
  regs := h2.regs.trans h1.regs
  ctl := h2.ctl.trans h1.ctl
  inputs := h2.inputs.trans h1.inputs
  resets := h2.resets.trans h1.resets
  tap := by rw [trackEvents_append, ← h1.tap]; exact h2.tap
  path := by rw [pathAfter_append, ← h1.path]; exact h2.path
  tck := fun h => h2.tck (h1.tck h)
  undisturbed := fun h => h2.undisturbed (h1.undisturbed h)
  time := by have := h1.time; have := h2.time; rw [waited_append]; omega
  mismatch := by rw [h2.mismatch, h1.mismatch, List.any_append, Bool.or_assoc]
  timeout := fun h => h2.timeout (h1.timeout h)
  target := answeredBy_append h1.target (by rw [← h1.cfg]; exact h2.target)
  noDone := by rw [List.any_append, h1.noDone, h2.noDone]; rfl
  levels := by rw [levelsAfter_append, ← h1.levels]; exact h2.levels

/-- What a command may have written when it ends (spec 10_state R25, R32, R46, R47, R49, 20_memory R73). -/
structure Wrote (i : Instr) (s u : State) : Prop where
  res : writesRes i = false → u.res = s.res
  buf : writesBuf i = false → u.buf = s.buf
  range : ∃ base bytes, u.buf = s.buf.writeRange base bytes ∧ (bytes = [] ∨ base + bytes.length ≤ s.cfg.bufBytes)
  devmode : u.devmode ≠ s.devmode → setsMode i = some u.devmode
  fsr : writesFsr i = false → u.fsr = s.fsr
  upload : i ≠ .upload → u.stats = s.stats ∧ u.work = s.work ∧ u.env.source = s.env.source
  mismatch : mayMismatch i = false → u.flags.mismatch = s.flags.mismatch
  timeout : writesFsr i = false → u.flags.timeout = s.flags.timeout

theorem Wrote.same {s u : State} (i : Instr) (h1 : u.res = s.res) (h2 : u.buf = s.buf) (h3 : u.devmode = s.devmode)
    (h4 : u.fsr = s.fsr) (h5 : u.stats = s.stats) (h6 : u.work = s.work) (h7 : u.env.source = s.env.source)
    (h8 : u.flags = s.flags) : Wrote i s u :=
  ⟨fun _ => h1, fun _ => h2, ⟨0, [], h2, .inl rfl⟩, fun h => absurd h3 h, fun _ => h4, fun _ => ⟨h5, h6, h7⟩,
   fun _ => by rw [h8], fun _ => by rw [h8]⟩

theorem Lines.wrote {s u : State} {evs : List Event} (i : Instr) (h : Lines s u evs) : Wrote i s u :=
  .same i h.res h.buf h.devmode h.fsr h.stats h.work h.source h.flags

/-- R_RES written on top. -/
theorem Wrote.setRes {i : Instr} {s u : State} (h : Wrote i s u) (hi : writesRes i = true) (r : Word) :
    Wrote i s { u with res := r } :=
  ⟨fun h' => absurd (hi.symm.trans h') (by decide), h.buf, h.range, h.devmode, h.fsr, h.upload, h.mismatch, h.timeout⟩

/-- A range of BUF written on top. -/
theorem Wrote.setBuf {i : Instr} {s u : State} (h : Wrote i s u) (hb : u.buf = s.buf) (hi : writesBuf i = true)
    (base : Nat) (bytes : List Byte) (hr : base + bytes.length ≤ s.cfg.bufBytes) :
    Wrote i s { u with buf := u.buf.writeRange base bytes } :=
  ⟨h.res, fun h' => absurd (hi.symm.trans h') (by decide), ⟨base, bytes, by rw [hb], .inr hr⟩, h.devmode, h.fsr, h.upload,
   h.mismatch, h.timeout⟩

/-- A script's command. -/
theorem Script.wrote {s u : State} {evs : List Event} {i : Instr} (h : Script s u evs) (r : Word)
    (hr : writesRes i = true) (hm : u.devmode ≠ s.devmode → setsMode i = some u.devmode)
    (hc : mayMismatch i = true) : Wrote i s { u with res := r } :=
  ⟨fun h' => absurd (hr.symm.trans h') (by decide), fun _ => h.buf, ⟨0, [], h.buf, .inl rfl⟩, hm, fun _ => h.fsr,
   fun _ => ⟨h.stats, h.work, h.source⟩, fun h' => absurd (hc.symm.trans h') (by decide), fun _ => h.sameTimeout⟩

/-- A flash command. -/
theorem FlashOp.wrote {s u : State} {evs : List Event} {i : Instr} (h : FlashOp s u evs) (hf : writesFsr i = true)
    (hc : mayMismatch i = false → u.flags.mismatch = s.flags.mismatch) : Wrote i s u :=
  ⟨fun _ => h.res, fun _ => h.buf, ⟨0, [], h.buf, .inl rfl⟩, fun h' => absurd h.devmode h',
   fun h' => absurd (hf.symm.trans h') (by decide), fun _ => ⟨h.stats, h.work, h.source⟩, hc,
   fun h' => absurd (hf.symm.trans h') (by decide)⟩

/-- How a command that gives a next state came to it. -/
def Acted (i : Instr) (s t : State) : Prop :=
  ∃ u evs e info, Acts (beginCommand i s) u evs ∧ Wrote i (beginCommand i s) u ∧ t = endCommand e info u

/-! ### The command, refused or run -/

theorem command_next {i : Instr} {checks : State → List EntryCheck} {run : State → Host.Outcome State Fault Refusal}
    {s t : State} (h : command i checks run s = .next t)
    (hrun : firstRefusal (checks (beginCommand i s)) = none → run (beginCommand i s) = .next t → Acted i s t) :
    Acted i s t := by
  unfold command at h
  split at h
  · rename_i e info _
    simp only [raise, Host.Outcome.next.injEq] at h
    exact ⟨_, [], e, info, (Moves.refl _).acts, (Lines.refl _).wrote i, h.symm⟩
  · rename_i hn
    exact hrun hn h

/-- A command that reads BUF and gives a next state has read it, or a reset stopped it before. -/
theorem withBuf_next {base n : Nat} {s t : State} {run : List Byte → Host.Outcome State Fault Refusal}
    (h : withBuf base n s run = .next t) :
    (∃ bytes, s.buf.readRange base n = some bytes ∧ run bytes = .next t) ∨ complete s = .next t := by
  unfold withBuf at h
  split at h
  · rename_i bytes hb; exact .inl ⟨bytes, hb, h⟩
  · split at h
    · exact .inr h
    · cases h

theorem complete_next {s t : State} (h : complete s = .next t) : t = endCommand .ok 0 s := by
  simp only [complete, Host.Outcome.next.injEq] at h
  exact h.symm

theorem endPolled_next {b : Bool} {info : Nat} {s t : State} (h : endPolled b info s = .next t) :
    ∃ e n, t = endCommand e n s := by
  simp only [endPolled, Host.Outcome.next.injEq] at h
  subst h
  split <;> exact ⟨_, _, rfl⟩

/-- A command that a reset stopped before its first event. -/
theorem acted_of_stopped {i : Instr} {s t : State} (h : complete (beginCommand i s) = .next t) : Acted i s t :=
  ⟨_, [], _, _, (Moves.refl _).acts, (Lines.refl _).wrote i, complete_next h⟩

/-- A command that only works the lines. -/
theorem acted_of_lines {i : Instr} {s u t : State} {evs : List Event} (h : Lines (beginCommand i s) u evs)
    (ht : t = endCommand .ok 0 u) : Acted i s t := ⟨u, evs, _, _, h.toMoves.acts, h.wrote i, ht⟩

/-- BUF's range is inside where the check of the range passed. -/
theorem requireBuf_range {s : State} {n : Nat} {l : List EntryCheck}
    (h : firstRefusal (l ++ requireBuf s n) = none) : s.bufOperand + n ≤ s.cfg.bufBytes ∧ s.lenOperand ≠ 0 := by
  induction l with
  | nil =>
    simp only [List.nil_append, requireBuf, firstRefusal] at h
    split at h
    · cases h
    · rename_i hb
      simp only [State.leavesBuf, Bool.or_eq_true, beq_iff_eq, decide_eq_true_eq, not_or] at hb
      omega
  | cons c l ih =>
    obtain ⟨b, e, k⟩ := c
    simp only [List.cons_append, firstRefusal] at h
    split at h
    · cases h
    · exact ih h

theorem requireLength_range {s : State} {most : Nat} {l r : List EntryCheck}
    (h : firstRefusal (l ++ requireLength s most ++ r) = none) :
    s.bufOperand + s.lenOperand ≤ s.cfg.bufBytes ∧ s.lenOperand ≠ 0 ∧ s.lenOperand ≤ most := by
  induction l with
  | nil =>
    simp only [List.nil_append, requireLength, List.cons_append, firstRefusal] at h
    split at h
    · cases h
    · rename_i hb
      simp only [State.leavesBuf, Bool.or_eq_true, beq_iff_eq, decide_eq_true_eq, not_or] at hb
      omega
  | cons c l ih =>
    obtain ⟨b, e, k⟩ := c
    simp only [List.cons_append, firstRefusal] at h
    split at h
    · cases h
    · exact ih h

/-! ### The twenty-one commands -/

theorem execAcquire_acted {s t : State} (h : execAcquire s = .next t) : Acted .acquire s t := by
  unfold execAcquire at h
  exact command_next h fun _ hr => acted_of_lines (acquire_spec _).1 (complete_next hr)

theorem execRelease_acted {s t : State} (h : execRelease s = .next t) : Acted .release s t := by
  unfold execRelease at h
  exact command_next h fun _ hr => acted_of_lines (release_spec _).1 (complete_next hr)

theorem execShiftbit_acted {tdi tms : Bool} {s t : State} (h : execShiftbit tdi tms s = .next t) :
    Acted (.shiftbit tdi tms) s t := by
  unfold execShiftbit at h
  refine command_next h fun _ hr => ?_
  have l := pulse_lines tms tdi (beginCommand (.shiftbit tdi tms) s)
  exact ⟨_, _, _, _, l.toMoves.acts.setRes _, (l.wrote _).setRes rfl _, complete_next hr⟩

theorem execSettms_acted {tms : Bool} {s t : State} (h : execSettms tms s = .next t) : Acted (.settms tms) s t := by
  unfold execSettms at h
  exact command_next h fun _ hr => acted_of_lines (setTms_lines tms _) (complete_next hr)

theorem execRev8_acted {s t : State} (h : execRev8 s = .next t) : Acted .rev8 s t := by
  unfold execRev8 at h
  refine command_next h fun hc hr => ?_
  obtain ⟨bytes, hb, hr⟩ | hr := withBuf_next hr
  case inr => exact acted_of_stopped hr
  have hl := (Memory.readRange_some _ _ _ _ hb).1
  have hin := (requireBuf_range (l := []) hc).1
  exact ⟨_, [], _, _, (Moves.refl _).acts.setBuf _,
    ((Lines.refl _).wrote .rev8).setBuf rfl rfl _ _ (by rw [List.length_map, hl]; exact hin), complete_next hr⟩

theorem execReset_acted {s t : State} (h : execReset s = .next t) : Acted .reset s t := by
  unfold execReset at h
  refine command_next h fun _ hr => ?_
  obtain ⟨_, l, -⟩ := tapReset_spec (beginCommand .reset s)
  exact acted_of_lines l (complete_next hr)

theorem execIdle_acted {s t : State} (h : execIdle s = .next t) : Acted .idle s t := by
  unfold execIdle at h
  refine command_next h fun _ hr => ?_
  obtain ⟨_, _, l, -⟩ := idle_spec (beginCommand .idle s).idleOperand (beginCommand .idle s)
  exact acted_of_lines l (complete_next hr)

theorem execSir_acted {f : Bool} {s t : State} (h : execSir f s = .next t) : Acted (.sir f) s t := by
  unfold execSir at h
  refine command_next h fun _ hr => ?_
  obtain ⟨_, _, l, -⟩ := sir_spec (beginCommand (.sir f) s).instructionBits ((beginCommand (.sir f) s).idleTail f)
    (beginCommand (.sir f) s)
  exact acted_of_lines l (complete_next hr)

theorem captureBytes_length (old : List Byte) (cap : List Bool) : (captureBytes old cap).length = old.length := by
  simp only [captureBytes, packBytes_length]

theorem execSdr_acted {c d p : Bool} {s t : State} (h : execSdr c d p s = .next t) : Acted (.sdr c d p) s t := by
  unfold execSdr at h
  refine command_next h fun hc hr => ?_
  obtain ⟨bytes, hb, hr⟩ | hr := withBuf_next hr
  case inr => exact acted_of_stopped hr
  have hl := (Memory.readRange_some _ _ _ _ hb).1
  have hin := (requireBuf_range hc).1
  simp only at hr
  unfold Acted
  generalize beginCommand (.sdr c d p) s = b at *
  obtain ⟨_, _, l, -⟩ := sdr_spec (bitsOf bytes b.lenOperand) (b.pauseOperand p) (b.idleTail d) b
  generalize sdr (bitsOf bytes b.lenOperand) (b.pauseOperand p) (b.idleTail d) b = r at *
  have ht := complete_next hr
  cases c with
  | true =>
    exact ⟨_, _, _, _, l.toMoves.acts.setBuf _,
      (l.wrote (.sdr true d p)).setBuf l.buf rfl _ _ (by rw [captureBytes_length, hl]; exact hin), ht⟩
  | false => exact ⟨_, _, _, _, l.toMoves.acts, l.wrote _, ht⟩

theorem execCheck_acted {s t : State} (h : execCheck s = .next t) : Acted .check s t := by
  unfold execCheck at h
  refine command_next h fun _ hr => ?_
  have hm := check_moves (beginCommand .check s).regs.val (beginCommand .check s).regs.exp
    (beginCommand .check s).regs.mask (beginCommand .check s)
  refine ⟨_, _, _, _, hm.acts.setRes _, ?_, complete_next hr⟩
  refine ⟨fun h => absurd h (by decide), fun _ => hm.buf, ⟨0, [], hm.buf, .inl rfl⟩, fun h => ?_, fun _ => ?_,
    fun _ => ?_, fun h => absurd h (by decide), fun _ => ?_⟩ <;> simp_all [Flags.afterCheck]

theorem execBurstwr_acted {s t : State} (h : execBurstwr s = .next t) : Acted .burstwr s t := by
  unfold execBurstwr at h
  refine command_next h fun _ hr => ?_
  obtain ⟨bytes, -, hr⟩ | hr := withBuf_next hr
  case inr => exact acted_of_stopped hr
  obtain ⟨_, l, -⟩ := burstWrite_spec (prefixBytes (beginCommand .burstwr s).regs.val) bytes.dropLast
    (bytes.getLastD 0#8) (beginCommand .burstwr s)
  exact acted_of_lines l (complete_next hr)

theorem execBurstrd_acted {s t : State} (h : execBurstrd s = .next t) : Acted .burstrd s t := by
  unfold execBurstrd at h
  refine command_next h fun hc hr => ?_
  have hin := (requireBuf_range hc).1
  simp only at hr
  unfold Acted
  generalize beginCommand .burstrd s = b at *
  obtain ⟨_, l, -, -, -, hl, -⟩ := burstRead_spec (prefixBytes b.regs.val) b.lenOperand b
  generalize burstRead (prefixBytes b.regs.val) b.lenOperand b = r at *
  exact ⟨_, _, _, _, l.toMoves.acts.setBuf _,
    (l.wrote .burstrd).setBuf l.buf rfl _ _ (by rw [hl]; exact hin), complete_next hr⟩

/-- The end of IDENTIFY: the result, and the release of lines it acquired. -/
theorem release_setRes_acts (r : Word) (s : State) :
    Acts s (release { s with res := r }) [.path .released] :=
  have h := (release_spec { s with res := r }).1
  ⟨h.trace, h.cfg, h.regs, h.ctl, h.inputs, h.resets, h.tap, h.path, h.tck, h.undisturbed, h.time, h.mismatch,
   h.timeout, h.target, h.noDone, h.levels⟩

theorem execIdentify_acted {s t : State} (h : execIdentify s = .next t) : Acted .identify s t := by
  unfold execIdentify at h
  refine command_next h fun _ hr => ?_
  simp only at hr
  unfold Acted
  generalize beginCommand .identify s = b at *
  have ha := (acquireIfReleased_spec b).1
  obtain ⟨_, _, _, l, -⟩ := identifyScan_spec (acquireIfReleased b)
  generalize identifyScan (acquireIfReleased b) = r at *
  have l2 := ha.trans l
  split at hr
  · refine ⟨_, _, _, _, l2.toMoves.acts.trans (release_setRes_acts r.1 r.2), ?_, complete_next hr⟩
    have h := (release_spec { r.2 with res := r.1 }).1
    exact ⟨fun h' => absurd h' (by decide), fun _ => h.buf.trans l2.buf, ⟨0, [], h.buf.trans l2.buf, .inl rfl⟩,
      fun h' => absurd (h.devmode.trans l2.devmode) h', fun _ => h.fsr.trans l2.fsr,
      fun _ => ⟨h.stats.trans l2.stats, h.work.trans l2.work, h.source.trans l2.source⟩,
      fun _ => congrArg Flags.mismatch (h.flags.trans l2.flags),
      fun _ => congrArg Flags.timeout (h.flags.trans l2.flags)⟩
  · exact ⟨_, _, _, _, l2.toMoves.acts.setRes _, (l2.wrote .identify).setRes rfl _, complete_next hr⟩

theorem execOpencfg_acted {s t : State} (h : execOpencfg s = .next t) : Acted .opencfg s t := by
  unfold execOpencfg at h
  refine command_next h fun _ hr => ?_
  simp only at hr
  unfold Acted
  generalize beginCommand .opencfg s = b at *
  have ha := (acquireIfReleased_spec b).1
  obtain ⟨_, _, _, _, _, _, _, _, l, -, -, -, -, -, -, -, hm⟩ := openForConfiguration_spec (acquireIfReleased b)
  generalize openForConfiguration (acquireIfReleased b) = r at *
  have l2 := ha.script.trans l
  exact ⟨_, _, _, _, l2.toMoves.acts.setRes _, l2.wrote _ rfl (fun _ => by rw [hm]; rfl) rfl, complete_next hr⟩

theorem openForFlash_script (s : State) : ∃ evs, Script s (openForFlash s).2 evs ∧
    (openForFlash s).2.devmode = .configuredForFlash := by
  obtain ⟨_, _, _, _, _, _, _, _, l1, -⟩ := openForConfiguration_spec s
  obtain ⟨_, _, _, l2, -, -, -, -, hm⟩ := openForFlash_spec s
  exact ⟨_, l1.trans l2, hm⟩

theorem execOpenflash_acted {s t : State} (h : execOpenflash s = .next t) : Acted .openflash s t := by
  unfold execOpenflash at h
  refine command_next h fun _ hr => ?_
  simp only at hr
  unfold Acted
  generalize beginCommand .openflash s = b at *
  have ha := (acquireIfReleased_spec b).1
  obtain ⟨_, l, hm⟩ := openForFlash_script (acquireIfReleased b)
  generalize openForFlash (acquireIfReleased b) = r at *
  have l2 := ha.script.trans l
  exact ⟨_, _, _, _, l2.toMoves.acts.setRes _, l2.wrote _ rfl (fun _ => by rw [hm]; rfl) rfl, complete_next hr⟩

theorem execClose_acted {s t : State} (h : execClose s = .next t) : Acted .close s t := by
  unfold execClose at h
  refine command_next h fun _ hr => ?_
  simp only at hr
  unfold Acted
  generalize beginCommand .close s = b at *
  obtain ⟨_, _, l, -⟩ := closeScans_spec b
  generalize closeScans b = r at *
  have h2 := (release_spec { r with devmode := .idle }).1
  refine ⟨_, _, _, _, (l.toMoves.acts.setMode .idle).trans h2.toMoves.acts, ?_, complete_next hr⟩
  exact ⟨fun _ => h2.res.trans l.res, fun _ => h2.buf.trans l.buf, ⟨0, [], h2.buf.trans l.buf, .inl rfl⟩,
    fun _ => by rw [h2.devmode]; rfl, fun _ => h2.fsr.trans l.fsr,
    fun _ => ⟨h2.stats.trans l.stats, h2.work.trans l.work, h2.source.trans l.source⟩,
    fun _ => congrArg Flags.mismatch (h2.flags.trans l.flags),
    fun _ => congrArg Flags.timeout (h2.flags.trans l.flags)⟩

theorem execPoll_acted {s t : State} (h : execPoll s = .next t) : Acted .poll s t := by
  unfold execPoll at h
  refine command_next h fun _ hr => ?_
  simp only at hr
  unfold Acted
  generalize beginCommand .poll s = b at *
  obtain ⟨_, l, -, -, -, hm⟩ := pollStatus_spec b.regs.att.toNat b.regs.dly.toNat b
  generalize pollStatus b.regs.att.toNat b.regs.dly.toNat b = r at *
  obtain ⟨e, n, ht⟩ := endPolled_next hr
  have hw := l.wrote (i := .poll) rfl (fun _ => hm)
  split at ht
  · exact ⟨_, _, _, _, l.toMoves.acts, hw, ht⟩
  · exact ⟨_, _, _, _, l.toMoves.acts.setRes _, hw.setRes rfl _, ht⟩

theorem execErase_acted {s t : State} (h : execErase s = .next t) : Acted .erase s t := by
  unfold execErase at h
  refine command_next h fun _ hr => ?_
  simp only at hr
  unfold Acted
  generalize beginCommand .erase s = b at *
  obtain ⟨_, _, l, -⟩ := eraseBlock_spec b.addrOperand b
  generalize eraseBlock b.addrOperand b = r at *
  obtain ⟨e, n, ht⟩ := endPolled_next hr
  exact ⟨_, _, _, _, l.toMoves.acts, l.wrote rfl (fun h => absurd h (by decide)), ht⟩

theorem execWrite_acted {s t : State} (h : execWrite s = .next t) : Acted .write s t := by
  unfold execWrite at h
  refine command_next h fun _ hr => ?_
  obtain ⟨data, -, hr⟩ | hr := withBuf_next hr
  case inr => exact acted_of_stopped hr
  simp only at hr
  unfold Acted
  generalize beginCommand .write s = b at *
  obtain ⟨_, _, l, -, -, -, hm⟩ := writeBlock_spec data b.addrOperand b
  generalize writeBlock data b.addrOperand b = r at *
  obtain ⟨e, n, ht⟩ := endPolled_next hr
  exact ⟨_, _, _, _, l.toMoves.acts, l.wrote rfl (fun _ => hm), ht⟩

theorem execRead_acted {s t : State} (h : execRead s = .next t) : Acted .read s t := by
  unfold execRead at h
  refine command_next h fun hc hr => ?_
  have hin := (requireLength_range hc).1
  simp only at hr
  unfold Acted
  generalize beginCommand .read s = b at *
  obtain ⟨_, l, -, -, hl⟩ := readBlock_spec b.addrOperand b.lenOperand b
  generalize readBlock b.addrOperand b.lenOperand b = r at *
  exact ⟨_, _, _, _, l.toMoves.acts.setBuf _,
    (l.wrote .read).setBuf l.buf rfl _ _ (by rw [hl]; exact hin), complete_next hr⟩

/-- UPLOAD up to the chunk loop (spec 44 R255): the statistics restart, the start time is noted, the flash mode is
opened, FADDR takes the base. -/
theorem startUpload_spec (base : Nat) (s : State) :
    ∃ evs, Acts s (startUpload base s) evs ∧ (startUpload base s).res = s.res ∧ (startUpload base s).buf = s.buf ∧
      (startUpload base s).devmode = .configuredForFlash ∧ (startUpload base s).stats = Stats.zero ∧
      (startUpload base s).env.source = s.env.source ∧
      (startUpload base s).work = { s.work with tStart := (now s).1, faddr := base } ∧ reportsOf evs = [] := by
  have h1 : Moves { s with stats := Stats.zero } (now { s with stats := Stats.zero }).2 [] :=
    (now_lines { s with stats := Stats.zero }).toMoves
  have h2 : Moves s { (now { s with stats := Stats.zero }).2 with work.tStart := (now s).1 } [] :=
    ⟨h1.trace, h1.cfg, h1.regs, h1.res, h1.buf, h1.ctl, h1.inputs, h1.resets, h1.tap, h1.path, h1.tck, h1.undisturbed,
     h1.time, h1.mismatch, h1.timeout, h1.target, h1.noDone, h1.levels⟩
  have ha := (acquireIfReleased_spec { (now { s with stats := Stats.zero }).2 with work.tStart := (now s).1 }).1
  obtain ⟨_, l, hm⟩ := openForFlash_script
    (acquireIfReleased { (now { s with stats := Stats.zero }).2 with work.tStart := (now s).1 })
  have he : startUpload base s =
      { (openForFlash (acquireIfReleased
          { (now { s with stats := Stats.zero }).2 with work.tStart := (now s).1 })).2 with work.faddr := base } := by
    simp only [startUpload, now_fst]
  have l2 := ha.script.trans l
  have hwk := l2.work
  rw [he]
  generalize (openForFlash (acquireIfReleased
    { (now { s with stats := Stats.zero }).2 with work.tStart := (now s).1 })).2 = r at *
  exact ⟨_, (h2.trans l2.toMoves).acts.setWork _ _, l2.res, l2.buf, hm, l2.stats, l2.source,
    congrArg (fun w : Work => { w with faddr := base }) hwk, l2.quiet⟩

theorem stampElapsed_acts (s : State) : Acts s (stampElapsed s) [] := (stampElapsed_moves s).acts

theorem BetweenCommands.workOk {s : State} (h : BetweenCommands s) : WorkOk s :=
  ⟨h.faddrBound, h.chunklenBound, h.retryBound, h.chunkBound, h.scratchBound⟩

/-- The bounds a legal configuration record has. -/
theorem Params.valid_bounds {p : Params} (h : p.valid = true) :
    0 < p.eraseBlock ∧ Config.flashBytes % p.eraseBlock = 0 ∧ 0 < p.writeBlock ∧ p.eraseBlock % p.writeBlock = 0 ∧
      1 ≤ p.progSpiBits ∧ p.progSpiBits < 2 ^ 32 ∧ p.cfgWait.cycles < 2 ^ 32 ∧ p.refreshWait.cycles < 2 ^ 32 ∧
      1 ≤ p.erasePoll.attempts ∧ p.erasePoll.attempts < 2 ^ 32 ∧ 1 ≤ p.writePoll.attempts ∧
      p.writePoll.attempts < 2 ^ 32 := by
  simp only [Params.valid, Params.blocksFit, Bool.and_eq_true, decide_eq_true_eq] at h
  omega

/-- UPLOAD, once its address is accepted. -/
theorem runUpload_spec (base : Nat) (s : State) (hv : s.cfg.valid = true) (hw : WorkOk s) (hb : base ≤ Config.flashBytes) :
    ∃ evs, Acts s (chunkLoop (chunkRounds (startUpload base s).cfg) (startUpload base s)).2 evs ∧
      (chunkLoop (chunkRounds (startUpload base s).cfg) (startUpload base s)).2.res = s.res ∧
      (chunkLoop (chunkRounds (startUpload base s).cfg) (startUpload base s)).2.buf = s.buf ∧
      (chunkLoop (chunkRounds (startUpload base s).cfg) (startUpload base s)).2.devmode =
        .configuredForFlash ∧
      WorkOk (chunkLoop (chunkRounds (startUpload base s).cfg) (startUpload base s)).2 ∧
      Steady (startUpload base s) (chunkLoop (chunkRounds (startUpload base s).cfg)
        (startUpload base s)).2 ∧
      ElapsedOk (chunkLoop (chunkRounds (startUpload base s).cfg) (startUpload base s)).2 ∧
      (chunkLoop (chunkRounds (startUpload base s).cfg) (startUpload base s)).2.work.tStart =
        s.env.clock.now.1 ∧
      LoopAnswer (startUpload base s)
        (chunkLoop (chunkRounds (startUpload base s).cfg) (startUpload base s)).2 evs
        (chunkLoop (chunkRounds (startUpload base s).cfg) (startUpload base s)).1 := by
  obtain ⟨e1, a1, a2, a3, a4, a5, a6, a7, a8⟩ := startUpload_spec base s
  generalize startUpload base s = u at *
  obtain ⟨b1, -, -, -, -, -, -, -, -, b2, -, b3⟩ := Params.valid_bounds hv
  rw [← a1.cfg] at b1 b2 b3
  obtain ⟨e2, h1, h2, h4, h3⟩ := chunkLoop_spec (chunkRounds u.cfg) u (chunkRounds_enough _ _ b1) b1 b2 b3
    ⟨by rw [a7]; exact hb, by rw [a7, a1.cfg]; exact hw.chunklen, by rw [a7]; exact hw.retry,
     by rw [a7, a1.cfg]; exact hw.chunk, by rw [a7, a1.cfg]; exact hw.scratch⟩
    (by unfold ElapsedOk; rw [a5, BitVec.le_def]; exact Nat.zero_le _)
  refine ⟨_, a1.trans h1.toMoves.acts, h1.res.trans a2, h1.buf.trans a3, h1.devmode.trans a4, h2, h1.steady, h4,
    h1.tStart.trans (by rw [a7]; rfl), ?_⟩
  have hq : reportsOf (e1 ++ e2) = reportsOf e2 := by rw [reportsOf_append, a8]; rfl
  cases hr : (chunkLoop (chunkRounds u.cfg) u).1 <;> rw [hr] at h3 <;> simpa only [LoopAnswer, hq] using h3

theorem requireEraseAddress_none {s : State} (h : firstRefusal (requireEraseAddress s) = none) :
    s.addrOperand < Config.flashBytes ∧ s.addrOperand % s.cfg.eraseBlock = 0 := by
  simp only [requireEraseAddress, firstRefusal, beyondFlash, misaligned, decide_eq_true_eq, bne_iff_ne, ne_eq] at h
  split at h
  · cases h
  · split at h
    · cases h
    · omega

theorem execUpload_acted {s t : State} (hb : BetweenCommands s) (h : execUpload s = .next t) : Acted .upload s t := by
  unfold execUpload at h
  refine command_next h fun hc hr => ?_
  simp only [Host.Outcome.next.injEq] at hr
  have hw : WorkOk (beginCommand .upload s) := ⟨by simpa using hb.faddrBound, by simpa using hb.chunklenBound,
    by simpa using hb.retryBound, by simpa using hb.chunkBound, by simpa using hb.scratchBound⟩
  have hv : (beginCommand .upload s).cfg.valid = true := by simpa using hb.cfgValid
  unfold Acted
  generalize beginCommand .upload s = b at *
  obtain ⟨evs, h1, h2, h3, h4, -⟩ := runUpload_spec b.addrOperand b hv hw (Nat.le_of_lt (requireEraseAddress_none hc).1)
  generalize chunkLoop (chunkRounds (startUpload b.addrOperand b).cfg) (startUpload b.addrOperand b) = r
    at *
  have hwr : ∀ x : State, x.res = r.2.res → x.buf = r.2.buf → x.devmode = r.2.devmode → Wrote .upload b x :=
    fun x e1 e2 e3 => ⟨fun _ => e1.trans h2, fun _ => e2.trans h3, ⟨0, [], e2.trans h3, .inl rfl⟩,
      fun _ => by rw [e3, h4]; rfl, fun h => absurd h (by decide), fun h => absurd rfl h,
      fun h => absurd h (by decide), fun h => absurd h (by decide)⟩
  cases hf : r.1 with
  | some e =>
    rw [hf] at hr
    exact ⟨r.2, evs, e, r.2.work.faddr, h1, hwr _ rfl rfl rfl, hr.symm⟩
  | none =>
    rw [hf] at hr
    refine ⟨stampElapsed r.2, evs, .ok, 0, ?_, hwr _ rfl rfl rfl, hr.symm⟩
    have := h1.trans (stampElapsed_acts r.2)
    rwa [List.append_nil] at this

/-! ### All of them -/

/-- A command that gives a next state has acted and ended. -/
theorem exec_acted (i : Instr) {s t : State} (hb : BetweenCommands s) (h : exec i s = .next t) : Acted i s t := by
  cases i <;> simp only [exec] at h
  · exact execAcquire_acted h
  · exact execRelease_acted h
  · exact execShiftbit_acted h
  · exact execSettms_acted h
  · exact execRev8_acted h
  · exact execReset_acted h
  · exact execIdle_acted h
  · exact execSir_acted h
  · exact execSdr_acted h
  · exact execCheck_acted h
  · exact execBurstwr_acted h
  · exact execBurstrd_acted h
  · exact execIdentify_acted h
  · exact execOpencfg_acted h
  · exact execOpenflash_acted h
  · exact execClose_acted h
  · exact execPoll_acted h
  · exact execErase_acted h
  · exact execWrite_acted h
  · exact execRead_acted h
  · exact execUpload_acted hb h

end Sys2Proof.Machine
end

