-- ==== Sys2Proof/Laws/Kept.lean ====
section
/-! SUPPORT. The end of a command, cut or not, and what a command keeps of the invariant between commands. -/

namespace Sys2Proof.Machine

/-! ### The end of a command, whatever the outside does -/

/-- The end of a command: `Done` and ERR, or the reset that arrived during the command. -/
theorem endCommand_cases (e : ErrorKind) (info : Nat) (s : State) :
    (∃ port, endCommand e info s = { s with
        ctl := { busy := false, seq := none, err := e, info := BitVec.ofNat 24 info }
        trace := .done e.code (BitVec.ofNat 24 info) :: s.trace
        port := port } ∧ port.inputs = s.port.inputs ∧ port.resets = s.port.resets ∧ port.cut = none) ∨
    (∃ env port, endCommand e info s = State.resetWith s.cfg env port ∧ port.inputs = s.port.inputs ∧
      port.resets = s.port.resets + 1 ∧ port.cut = none) := by
  have hm : emit (.done e.code (BitVec.ofNat 24 info)) { s with ctl.err := e, ctl.info := BitVec.ofNat 24 info } =
      { s with
        ctl.err := e, ctl.info := BitVec.ofNat 24 info
        trace := .done e.code (BitVec.ofNat 24 info) :: s.trace
        port := (emit (.done e.code (BitVec.ofNat 24 info))
          { s with ctl.err := e, ctl.info := BitVec.ofNat 24 info }).port } := dueAccesses_eq _ _
  have hi := emit_inputs (.done e.code (BitVec.ofNat 24 info)) { s with ctl.err := e, ctl.info := BitVec.ofNat 24 info }
  have hr := emit_resets (.done e.code (BitVec.ofNat 24 info)) { s with ctl.err := e, ctl.info := BitVec.ofNat 24 info }
  unfold endCommand
  generalize emit (.done e.code (BitVec.ofNat 24 info)) { s with ctl.err := e, ctl.info := BitVec.ofNat 24 info } = m at *
  cases hc : m.port.cut with
  | none =>
    left
    refine ⟨m.port, ?_, hi, hr, hc⟩
    simp only [applyCut, hc]
    rw [hm]
  | some c =>
    right
    refine ⟨c.env, { m.port with during := c.during, resets := m.port.resets + 1, cut := none }, ?_, hi,
      congrArg (· + 1) hr, rfl⟩
    simp only [applyCut, hc, hardwareReset]
    rw [hm]

/-! ### What a command keeps -/

/-- What a command keeps: where it leaves the lines, and the bounds of the banks, the counters and UPLOAD's
registers. -/
structure Kept (s u : State) : Prop where
  lines : u.pins.path = .bitBang ∨
    (u.pins.path = .released ∧ u.tap.known = false ∧ u.tap.ones = 0#3 ∧ u.devmode = .idle) ∨
    (u.pins.path = s.pins.path ∧ u.tap = s.tap ∧ u.devmode = s.devmode)
  counters : CountersOk s → CountersOk u
  work : WorkOk s → WorkOk u

theorem WorkOk.congr {s t : State} (h : WorkOk s) (hw : t.work = s.work) (hc : t.cfg = s.cfg) : WorkOk t :=
  ⟨hw ▸ h.1, by rw [hw, hc]; exact h.2, hw ▸ h.3, by rw [hw, hc]; exact h.4, by rw [hw, hc]; exact h.5⟩

/-- An operation on acquired lines. -/
theorem Steady.kept {s u : State} (h : Steady s u) (hp : s.pins.path = .bitBang) (hw : u.work = s.work)
    (hc : u.cfg = s.cfg) : Kept s u := ⟨.inl (h.path hp), h.counters, fun k => k.congr hw hc⟩

theorem Kept.refl (s : State) : Kept s s := ⟨.inr (.inr ⟨rfl, rfl, rfl⟩), id, id⟩

theorem Kept.setRes {s u : State} (h : Kept s u) (r : Word) : Kept s { u with res := r } :=
  ⟨h.lines, fun k => (h.counters k).congr rfl rfl, fun k => (h.work k).congr rfl rfl⟩

theorem Kept.setBuf {s u : State} (h : Kept s u) (m : Memory) : Kept s { u with buf := m } :=
  ⟨h.lines, fun k => (h.counters k).congr rfl rfl, fun k => (h.work k).congr rfl rfl⟩

theorem firstRefusal_none {l : List EntryCheck} (h : firstRefusal l = none) : ∀ c ∈ l, c.1 = false := by
  induction l with
  | nil => simp
  | cons c l ih =>
    obtain ⟨b, e, k⟩ := c
    simp only [firstRefusal] at h
    split at h
    · cases h
    · rename_i hb
      intro c hc
      rcases List.mem_cons.1 hc with rfl | hc
      · simpa using hb
      · exact ih h c hc

/-- Where the check of the lines passed, they are acquired. -/
theorem lines_of_checks {s : State} {l : List EntryCheck} (h : firstRefusal l = none)
    (hl : (s.pins.path != .bitBang, .sessionError, 0) ∈ l) : s.pins.path = .bitBang := by
  have := firstRefusal_none h _ hl
  simpa using this

/-- How a command that gives a next state came to it, from what it keeps. -/
def KeptBy (i : Instr) (s t : State) : Prop := ∃ u e info, Kept (beginCommand i s) u ∧ t = endCommand e info u

theorem command_kept {i : Instr} {checks : State → List EntryCheck} {run : State → Host.Outcome State Fault Refusal}
    {s t : State} (h : command i checks run s = .next t)
    (hrun : firstRefusal (checks (beginCommand i s)) = none → run (beginCommand i s) = .next t → KeptBy i s t) :
    KeptBy i s t := by
  unfold command at h
  split at h
  · rename_i e info _
    simp only [raise, Host.Outcome.next.injEq] at h
    exact ⟨_, e, info, Kept.refl _, h.symm⟩
  · rename_i hn
    exact hrun hn h

/-- A command that a reset stopped before its first event. -/
theorem keptBy_of_stopped {i : Instr} {s t : State} (h : complete (beginCommand i s) = .next t) : KeptBy i s t :=
  ⟨_, _, _, Kept.refl _, complete_next h⟩

theorem execAcquire_kept {s t : State} (h : execAcquire s = .next t) : KeptBy .acquire s t := by
  unfold execAcquire at h
  refine command_kept h fun _ hr => ⟨_, _, _, ?_, complete_next hr⟩
  generalize beginCommand .acquire s = b at *
  have l := (acquire_spec b).1
  exact ⟨.inl (by simp), fun k => k.congr (by simp) (by simp), fun k => k.congr l.work l.cfg⟩

theorem execRelease_kept {s t : State} (h : execRelease s = .next t) : KeptBy .release s t := by
  unfold execRelease at h
  refine command_kept h fun hc hr => ⟨_, _, _, ?_, complete_next hr⟩
  generalize beginCommand .release s = b at *
  have l := (release_spec b).1
  have hd := firstRefusal_none hc (b.devmode != .idle, .sessionError, 0) (by simp [releaseChecks])
  exact ⟨.inr (.inl ⟨by simp, by simp, by simp, l.devmode.trans (by simpa using hd)⟩),
    fun k => k.congr (by simp) (by simp), fun k => k.congr l.work l.cfg⟩

theorem execShiftbit_kept {tdi tms : Bool} {s t : State} (h : execShiftbit tdi tms s = .next t) :
    KeptBy (.shiftbit tdi tms) s t := by
  unfold execShiftbit at h
  refine command_kept h fun hc hr => ⟨_, _, _, ?_, complete_next hr⟩
  generalize beginCommand (.shiftbit tdi tms) s = b at *
  have hp : b.pins.path = .bitBang := lines_of_checks hc (by simp [requireKnown, requireLines])
  have l := pulse_lines tms tdi b
  exact ⟨.inl (by simpa using hp), fun k => k.congr (by simp) (by simp), fun k => k.congr l.work l.cfg⟩

theorem execSettms_kept {tms : Bool} {s t : State} (h : execSettms tms s = .next t) : KeptBy (.settms tms) s t := by
  unfold execSettms at h
  refine command_kept h fun hc hr => ⟨_, _, _, ?_, complete_next hr⟩
  generalize beginCommand (.settms tms) s = b at *
  have hp : b.pins.path = .bitBang := lines_of_checks hc (by simp [requireKnown, requireLines])
  have l := setTms_lines tms b
  exact (walk_steady [tms] b).kept hp l.work l.cfg

theorem execRev8_kept {s t : State} (h : execRev8 s = .next t) : KeptBy .rev8 s t := by
  unfold execRev8 at h
  refine command_kept h fun _ hr => ?_
  obtain ⟨bytes, -, hr⟩ | hr := withBuf_next hr
  case inr => exact keptBy_of_stopped hr
  exact ⟨_, _, _, (Kept.refl _).setBuf _, complete_next hr⟩

theorem execReset_kept {s t : State} (h : execReset s = .next t) : KeptBy .reset s t := by
  unfold execReset at h
  refine command_kept h fun hc hr => ⟨_, _, _, ?_, complete_next hr⟩
  generalize beginCommand .reset s = b at *
  have hp : b.pins.path = .bitBang := lines_of_checks hc (by simp [requireLines])
  obtain ⟨_, l, -⟩ := tapReset_spec b
  exact (tapReset_steady b).kept hp l.work l.cfg

theorem execIdle_kept {s t : State} (h : execIdle s = .next t) : KeptBy .idle s t := by
  unfold execIdle at h
  refine command_kept h fun hc hr => ⟨_, _, _, ?_, complete_next hr⟩
  generalize beginCommand .idle s = b at *
  have hp : b.pins.path = .bitBang := lines_of_checks hc (by simp [idleChecks, requireTap, requireLines])
  obtain ⟨_, _, l, -⟩ := idle_spec b.idleOperand b
  exact (idle_steady _ b).kept hp l.work l.cfg

theorem execSir_kept {f : Bool} {s t : State} (h : execSir f s = .next t) : KeptBy (.sir f) s t := by
  unfold execSir at h
  refine command_kept h fun hc hr => ⟨_, _, _, ?_, complete_next hr⟩
  generalize beginCommand (.sir f) s = b at *
  have hp : b.pins.path = .bitBang := lines_of_checks hc (by simp [sirChecks, requireTap, requireLines])
  obtain ⟨_, _, l, -⟩ := sir_spec b.instructionBits (b.idleTail f) b
  refine (sir_steady _ _ b ?_).kept hp l.work l.cfg
  rw [State.instructionBits, numberBits_length]
  exact b.regs.len.isLt

theorem execSdr_kept {c d p : Bool} {s t : State} (h : execSdr c d p s = .next t) : KeptBy (.sdr c d p) s t := by
  unfold execSdr at h
  refine command_kept h fun hc hr => ?_
  obtain ⟨bytes, -, hr⟩ | hr := withBuf_next hr
  case inr => exact keptBy_of_stopped hr
  simp only at hr
  unfold KeptBy
  generalize beginCommand (.sdr c d p) s = b at *
  have hp : b.pins.path = .bitBang := lines_of_checks hc (by simp [sdrChecks, requireTap, requireLines])
  obtain ⟨_, _, l, -⟩ := sdr_spec (bitsOf bytes b.lenOperand) (b.pauseOperand p) (b.idleTail d) b
  have hs := sdr_steady (bitsOf bytes b.lenOperand) (b.pauseOperand p) (b.idleTail d) b (by
    rw [bitsOf_length]
    exact Nat.lt_of_le_of_lt (Nat.min_le_left _ _) b.regs.len.isLt)
  generalize sdr (bitsOf bytes b.lenOperand) (b.pauseOperand p) (b.idleTail d) b = r at *
  have k := hs.kept hp l.work l.cfg
  have ht := complete_next hr
  cases c with
  | true => exact ⟨_, _, _, k.setBuf _, ht⟩
  | false => exact ⟨_, _, _, k, ht⟩

theorem execCheck_kept {s t : State} (h : execCheck s = .next t) : KeptBy .check s t := by
  unfold execCheck at h
  refine command_kept h fun _ hr => ⟨_, _, _, Kept.setRes ?_ _, complete_next hr⟩
  generalize beginCommand .check s = b at *
  exact ⟨.inr (.inr ⟨by simp, (check_moves _ _ _ b).tap.trans (by
    unfold checkEvents; split <;> rfl), by simp⟩), fun k => k.congr (by simp) (by simp), fun k => k.congr (by simp)
      (check_moves _ _ _ b).cfg⟩

theorem execBurstwr_kept {s t : State} (h : execBurstwr s = .next t) : KeptBy .burstwr s t := by
  unfold execBurstwr at h
  refine command_kept h fun hc hr => ?_
  obtain ⟨bytes, -, hr⟩ | hr := withBuf_next hr
  case inr => exact keptBy_of_stopped hr
  refine ⟨_, _, _, ?_, complete_next hr⟩
  generalize beginCommand .burstwr s = b at *
  have hp : b.pins.path = .bitBang := lines_of_checks hc (by simp [burstChecks, requireTap, requireLines])
  obtain ⟨_, l, -⟩ := burstWrite_spec (prefixBytes b.regs.val) bytes.dropLast (bytes.getLastD 0#8) b
  exact (burstWrite_steady _ _ _ b).kept hp l.work l.cfg

theorem execBurstrd_kept {s t : State} (h : execBurstrd s = .next t) : KeptBy .burstrd s t := by
  unfold execBurstrd at h
  refine command_kept h fun hc hr => ?_
  simp only at hr
  unfold KeptBy
  generalize beginCommand .burstrd s = b at *
  have hp : b.pins.path = .bitBang := lines_of_checks hc (by simp [burstChecks, requireTap, requireLines])
  obtain ⟨_, l, -⟩ := burstRead_spec (prefixBytes b.regs.val) b.lenOperand b
  have hs := burstRead_steady (prefixBytes b.regs.val) b.lenOperand b
  generalize burstRead (prefixBytes b.regs.val) b.lenOperand b = r at *
  exact ⟨_, _, _, (hs.kept hp l.work l.cfg).setBuf _, complete_next hr⟩

/-! ### Scripts: they take the lines if nobody has them -/

theorem acquireIfReleased_path (s : State) (h : s.pins.path ≠ .burst) :
    (acquireIfReleased s).pins.path = .bitBang := by
  unfold acquireIfReleased
  split
  · simp
  · rename_i hn
    cases hp : s.pins.path <;> simp_all

theorem acquireIfReleased_kept {s u : State} (h : Steady (acquireIfReleased s) u) (hp : s.pins.path ≠ .burst)
    (hw : u.work = s.work) (hc : u.cfg = s.cfg) : Kept s u := by
  obtain ⟨l, -, hb, hn⟩ := acquireIfReleased_spec s
  exact ⟨.inl (h.path (acquireIfReleased_path s hp)), fun k => h.counters (k.congr hb hn), fun k => k.congr hw hc⟩

theorem execIdentify_kept {s t : State} (hb : BetweenCommands s) (h : execIdentify s = .next t) :
    KeptBy .identify s t := by
  unfold execIdentify at h
  refine command_kept h fun _ hr => ?_
  simp only at hr
  unfold KeptBy
  have hp : (beginCommand .identify s).pins.path ≠ .burst := by simpa using hb.noBurst
  have hm : (beginCommand .identify s).pins.path = .released → (beginCommand .identify s).devmode = .idle := by
    intro hr
    rw [beginCommand_pins] at hr
    rw [beginCommand_devmode]
    refine Decidable.byContradiction fun hn => ?_
    have := hb.modeHoldsLines hn
    rw [hr] at this
    cases this
  generalize beginCommand .identify s = b at *
  have ha := (acquireIfReleased_spec b).1
  obtain ⟨_, _, _, l, -⟩ := identifyScan_spec (acquireIfReleased b)
  have hs := identifyScan_steady (acquireIfReleased b)
  generalize identifyScan (acquireIfReleased b) = r at *
  have k := acquireIfReleased_kept hs hp (l.work.trans ha.work) (l.cfg.trans ha.cfg)
  split at hr
  · rename_i hrel
    have l2 := (release_spec { r.2 with res := r.1 }).1
    refine ⟨_, _, _, ?_, complete_next hr⟩
    exact ⟨.inr (.inl ⟨by simp, by simp, by simp, l2.devmode.trans (l.devmode.trans (ha.devmode.trans (hm hrel)))⟩),
      fun j => (k.counters j).congr (by simp) (by simp), fun j => (k.work j).congr l2.work l2.cfg⟩
  · exact ⟨_, _, _, k.setRes _, complete_next hr⟩

theorem execOpencfg_kept {s t : State} (hb : BetweenCommands s) (h : execOpencfg s = .next t) :
    KeptBy .opencfg s t := by
  unfold execOpencfg at h
  refine command_kept h fun _ hr => ?_
  simp only at hr
  unfold KeptBy
  have hp : (beginCommand .opencfg s).pins.path ≠ .burst := by simpa using hb.noBurst
  generalize beginCommand .opencfg s = b at *
  have ha := (acquireIfReleased_spec b).1
  obtain ⟨_, _, _, _, _, _, _, _, l, -⟩ := openForConfiguration_spec (acquireIfReleased b)
  have hs := openForConfiguration_steady (acquireIfReleased b)
  generalize openForConfiguration (acquireIfReleased b) = r at *
  exact ⟨_, _, _, (acquireIfReleased_kept hs hp (l.work.trans ha.work) (l.cfg.trans ha.cfg)).setRes _, complete_next hr⟩

theorem execOpenflash_kept {s t : State} (hb : BetweenCommands s) (h : execOpenflash s = .next t) :
    KeptBy .openflash s t := by
  unfold execOpenflash at h
  refine command_kept h fun _ hr => ?_
  simp only at hr
  unfold KeptBy
  have hp : (beginCommand .openflash s).pins.path ≠ .burst := by simpa using hb.noBurst
  have hv : (beginCommand .openflash s).cfg.progSpiBits < 2 ^ 32 := by
    obtain ⟨-, -, -, -, -, h, -⟩ := Params.valid_bounds hb.cfgValid
    simpa using h
  generalize beginCommand .openflash s = b at *
  have ha := (acquireIfReleased_spec b).1
  obtain ⟨_, l, -⟩ := openForFlash_script (acquireIfReleased b)
  have hs := openForFlash_steady (acquireIfReleased b) (by rw [ha.cfg]; exact hv)
  generalize openForFlash (acquireIfReleased b) = r at *
  exact ⟨_, _, _, (acquireIfReleased_kept hs hp (l.work.trans ha.work) (l.cfg.trans ha.cfg)).setRes _, complete_next hr⟩

theorem execClose_kept {s t : State} (h : execClose s = .next t) : KeptBy .close s t := by
  unfold execClose at h
  refine command_kept h fun _ hr => ?_
  simp only at hr
  unfold KeptBy
  generalize beginCommand .close s = b at *
  obtain ⟨_, _, l, -⟩ := closeScans_spec b
  have hs := closeScans_steady b
  generalize closeScans b = r at *
  have h2 := (release_spec { r with devmode := .idle }).1
  refine ⟨_, _, _, ?_, complete_next hr⟩
  exact ⟨.inr (.inl ⟨by simp, by simp, by simp, h2.devmode⟩), fun j => (hs.counters j).congr (by simp) (by simp),
    fun j => j.congr (h2.work.trans l.work) (h2.cfg.trans l.cfg)⟩

/-! ### Flash commands -/

theorem execPoll_kept {s t : State} (h : execPoll s = .next t) : KeptBy .poll s t := by
  unfold execPoll at h
  refine command_kept h fun hc hr => ?_
  simp only at hr
  unfold KeptBy
  generalize beginCommand .poll s = b at *
  have hp : b.pins.path = .bitBang := lines_of_checks hc (by simp [requireFlash, requireTap, requireLines])
  obtain ⟨_, l, -⟩ := pollStatus_spec b.regs.att.toNat b.regs.dly.toNat b
  have hs := pollStatus_steady b.regs.att.toNat b.regs.dly.toNat b b.regs.att.isLt
  generalize pollStatus b.regs.att.toNat b.regs.dly.toNat b = r at *
  obtain ⟨e, n, ht⟩ := endPolled_next hr
  have k := hs.kept hp l.work l.cfg
  split at ht
  · exact ⟨_, _, _, k, ht⟩
  · exact ⟨_, _, _, k.setRes _, ht⟩

theorem execErase_kept {s t : State} (hb : BetweenCommands s) (h : execErase s = .next t) : KeptBy .erase s t := by
  unfold execErase at h
  refine command_kept h fun hc hr => ?_
  simp only at hr
  unfold KeptBy
  have hv : (beginCommand .erase s).cfg.erasePoll.attempts < 2 ^ 32 := by
    have := Params.valid_bounds hb.cfgValid
    rw [beginCommand_cfg]
    omega
  generalize beginCommand .erase s = b at *
  have hp : b.pins.path = .bitBang := lines_of_checks hc (by simp [eraseChecks, requireFlash, requireTap, requireLines])
  obtain ⟨_, _, l, -⟩ := eraseBlock_spec b.addrOperand b
  have hs := eraseBlock_steady b.addrOperand b hv
  generalize eraseBlock b.addrOperand b = r at *
  obtain ⟨e, n, ht⟩ := endPolled_next hr
  exact ⟨_, _, _, hs.kept hp l.work l.cfg, ht⟩

theorem execWrite_kept {s t : State} (hb : BetweenCommands s) (h : execWrite s = .next t) : KeptBy .write s t := by
  unfold execWrite at h
  refine command_kept h fun hc hr => ?_
  obtain ⟨data, -, hr⟩ | hr := withBuf_next hr
  case inr => exact keptBy_of_stopped hr
  simp only at hr
  unfold KeptBy
  have hv : (beginCommand .write s).cfg.writePoll.attempts < 2 ^ 32 := by
    have := Params.valid_bounds hb.cfgValid
    rw [beginCommand_cfg]
    omega
  generalize beginCommand .write s = b at *
  have hp : b.pins.path = .bitBang := lines_of_checks hc (by simp [writeChecks, requireFlash, requireTap, requireLines])
  obtain ⟨_, _, l, -⟩ := writeBlock_spec data b.addrOperand b
  have hs := writeBlock_steady data b.addrOperand b hv
  generalize writeBlock data b.addrOperand b = r at *
  obtain ⟨e, n, ht⟩ := endPolled_next hr
  exact ⟨_, _, _, hs.kept hp l.work l.cfg, ht⟩

theorem execRead_kept {s t : State} (h : execRead s = .next t) : KeptBy .read s t := by
  unfold execRead at h
  refine command_kept h fun hc hr => ?_
  simp only at hr
  unfold KeptBy
  generalize beginCommand .read s = b at *
  have hp : b.pins.path = .bitBang := lines_of_checks hc (by simp [readChecks, requireFlash, requireTap, requireLines])
  obtain ⟨_, l, -⟩ := readBlock_spec b.addrOperand b.lenOperand b
  have hs := readBlock_steady b.addrOperand b.lenOperand b
  generalize readBlock b.addrOperand b.lenOperand b = r at *
  exact ⟨_, _, _, (hs.kept hp l.work l.cfg).setBuf _, complete_next hr⟩

/-- UPLOAD up to the chunk loop. -/
theorem startUpload_steady (base : Nat) (s : State) (hp : s.pins.path ≠ .burst) (hw : s.cfg.progSpiBits < 2 ^ 32) :
    (startUpload base s).pins.path = .bitBang ∧ (CountersOk s → CountersOk (startUpload base s)) := by
  have he : startUpload base s =
      { (openForFlash (acquireIfReleased
          { (now { s with stats := Stats.zero }).2 with work.tStart := (now s).1 })).2 with work.faddr := base } := by
    simp only [startUpload, now_fst]
  rw [he]
  generalize hx : ({ (now { s with stats := Stats.zero }).2 with work.tStart := (now s).1 } : State) = x
  have hxp : x.pins = s.pins := by rw [← hx]; rfl
  have hxb : x.banks = s.banks := by rw [← hx]; rfl
  have hxc : x.counters = s.counters := by rw [← hx]; rfl
  have hxg : x.cfg = s.cfg := by rw [← hx]; rfl
  obtain ⟨l, -, hb, hn⟩ := acquireIfReleased_spec x
  have hs := openForFlash_steady (acquireIfReleased x) (by rw [l.cfg, hxg]; exact hw)
  have ha := acquireIfReleased_path x (by rw [hxp]; exact hp)
  generalize openForFlash (acquireIfReleased x) = r at *
  exact ⟨hs.path ha, fun k => ((hs.counters (k.congr (hb.trans hxb) (hn.trans hxc)))).congr rfl rfl⟩

theorem execUpload_kept {s t : State} (hb : BetweenCommands s) (h : execUpload s = .next t) : KeptBy .upload s t := by
  unfold execUpload at h
  refine command_kept h fun hc hr => ?_
  simp only [Host.Outcome.next.injEq] at hr
  have hw : WorkOk (beginCommand .upload s) := ⟨by simpa using hb.faddrBound, by simpa using hb.chunklenBound,
    by simpa using hb.retryBound, by simpa using hb.chunkBound, by simpa using hb.scratchBound⟩
  have hv : (beginCommand .upload s).cfg.valid = true := by simpa using hb.cfgValid
  have hp : (beginCommand .upload s).pins.path ≠ .burst := by simpa using hb.noBurst
  unfold KeptBy
  generalize beginCommand .upload s = b at *
  obtain ⟨evs, -, -, -, -, h4, h5, -⟩ := runUpload_spec b.addrOperand b hv hw
    (Nat.le_of_lt (requireEraseAddress_none hc).1)
  obtain ⟨s1, s2⟩ := startUpload_steady b.addrOperand b hp (by have := Params.valid_bounds hv; omega)
  generalize chunkLoop (chunkRounds (startUpload b.addrOperand b).cfg) (startUpload b.addrOperand b) = r
    at *
  have k : Kept b r.2 := ⟨.inl (h5.path s1), fun j => h5.counters (s2 j), fun _ => h4⟩
  cases hf : r.1 with
  | some e =>
    rw [hf] at hr
    exact ⟨r.2, e, r.2.work.faddr, k, hr.symm⟩
  | none =>
    rw [hf] at hr
    exact ⟨stampElapsed r.2, .ok, 0, ⟨.inl (h5.path s1), fun j => (k.counters j).congr rfl rfl,
      fun j => (k.work j).congr rfl rfl⟩, hr.symm⟩

/-- A command that gives a next state has kept the bounds, and has left the lines as the invariant wants them. -/
theorem exec_kept (i : Instr) {s t : State} (hb : BetweenCommands s) (h : exec i s = .next t) : KeptBy i s t := by
  cases i <;> simp only [exec] at h
  · exact execAcquire_kept h
  · exact execRelease_kept h
  · exact execShiftbit_kept h
  · exact execSettms_kept h
  · exact execRev8_kept h
  · exact execReset_kept h
  · exact execIdle_kept h
  · exact execSir_kept h
  · exact execSdr_kept h
  · exact execCheck_kept h
  · exact execBurstwr_kept h
  · exact execBurstrd_kept h
  · exact execIdentify_kept hb h
  · exact execOpencfg_kept hb h
  · exact execOpenflash_kept hb h
  · exact execClose_kept h
  · exact execPoll_kept h
  · exact execErase_kept hb h
  · exact execWrite_kept hb h
  · exact execRead_kept h
  · exact execUpload_kept hb h

/-! ### The invariant between commands -/

/-- It holds right after every reset of a legally configured block. -/
theorem BetweenCommands.resetWith (p : Params) (env : Env) (port : HostPort) (hv : p.valid = true) (hc : port.cut = none) :
    BetweenCommands (State.resetWith p env port) := by
  constructor <;> first | exact hv | exact hc | simp [State.resetWith, Tracker.consistent, Memory.wf]

/-- It holds wherever the fields it speaks of are as in a state where it holds. -/
theorem BetweenCommands.of_fields {s t : State} (h : BetweenCommands s) (h1 : t.cfg = s.cfg) (h2 : t.pins = s.pins) (h3 : t.tap = s.tap)
  (h4 : t.devmode = s.devmode) (h5 : t.banks = s.banks) (h6 : t.ctl.busy = false) (h7 : t.ctl.seq = none) (h8 : t.port.cut = none)
  (h9 : t.work = s.work) (h10 : t.counters = s.counters) (h11 : Memory.wf t.buf = true) (h12 : ∀ c ∈ t.buf, c.1 < t.cfg.bufBytes) : BetweenCommands t where
  cfgValid := h1 ▸ h.cfgValid
  notBusy := h6
  noSeq := h7
  noCut := h8
  noBurst := h2 ▸ h.noBurst
  tckHigh := h2 ▸ h.tckHigh
  releasedUnknown := by rw [h2, h3]; exact h.releasedUnknown
  modeHoldsLines := by rw [h2, h4]; exact h.modeHoldsLines
  onesBound := h3 ▸ h.onesBound
  onesReset := by rw [h3]; exact h.onesReset
  tapConsistent := h3 ▸ h.tapConsistent
  bufCanonical := h11
  bufInside := h12
  faddrBound := h9 ▸ h.faddrBound
  chunklenBound := by rw [h1, h9]; exact h.chunklenBound
  retryBound := h9 ▸ h.retryBound
  chunkBound := by rw [h1, h9]; exact h.chunkBound
  scratchBound := by rw [h1, h9]; exact h.scratchBound
  drbitsLength := by rw [h5]; exact h.drbitsLength
  drcapLength := by rw [h5]; exact h.drcapLength
  drlenWidth := by rw [h5]; exact h.drlenWidth
  bitcntWidth := by rw [h5]; exact h.bitcntWidth
  cyccntWidth := by rw [h10]; exact h.cyccntWidth
  attemptWidth := by rw [h10]; exact h.attemptWidth

/-- It holds after a command that has acted and kept. -/
theorem BetweenCommands.afterCommand {s u1 u2 t : State} {i : Instr} {evs e1 e2 n1 n2} (h : BetweenCommands s) (ha : Acts (beginCommand i s) u1 evs) (hw : Wrote i (beginCommand i s) u1)
   (hk : Kept (beginCommand i s) u2) (h1 : t = endCommand e1 n1 u1) (h2 : t = endCommand e2 n2 u2) : BetweenCommands t := by
  rcases endCommand_cases e1 n1 u1 with ⟨p1, c1, -, r1, k1⟩ | ⟨env, p1, c1, -, r1, k1⟩
  · rcases endCommand_cases e2 n2 u2 with ⟨p2, c2, -, r2, k2⟩ | ⟨env, p2, c2, -, r2, k2⟩
    · rw [c1] at h1
      rw [c2] at h2
      have hp : t.pins = u2.pins := by rw [h2]
      have ht : t.tap = u2.tap := by rw [h2]
      have hd : t.devmode = u2.devmode := by rw [h2]
      have hcf : t.cfg = s.cfg := by rw [h1]; simpa using ha.cfg
      have htap : t.tap = trackEvents s.tap evs := by rw [h1]; simpa using ha.tap
      have hco : CountersOk t := by rw [h2]; exact (hk.counters ⟨by simpa using h.drbitsLength, by simpa using h.drcapLength, by simpa using h.drlenWidth,by simpa using h.bitcntWidth,by simpa using h.cyccntWidth,by simpa using h.attemptWidth⟩).congr rfl rfl
      have hwo : WorkOk t := by rw [h2]; exact (hk.work ⟨by simpa using h.faddrBound, by simpa using h.chunklenBound,by simpa using h.retryBound,by simpa using h.chunkBound,by simpa using h.scratchBound⟩).congr rfl rfl
      have hl := hk.lines
      rw [← hp, ← ht, ← hd, beginCommand_pins, beginCommand_tap, beginCommand_devmode] at hl
      have hsnd := trackEvents_sound evs s.tap ⟨h.onesBound, h.onesReset⟩
      rw [← htap] at hsnd
      obtain ⟨base, bytes, hb, hin⟩ := hw.range
      have hbuf : t.buf = s.buf.writeRange base bytes := by rw [h1]; simpa using hb
      refine ⟨hcf ▸ h.cfgValid, by rw [h2], by rw [h2], by rw [h2]; exact k2, ?_, ?_, ?_, ?_, hsnd.1, hsnd.2, ?_, ?_, ?_, hwo.1,hwo.2,hwo.3,hwo.4,hwo.5,hco.1,hco.2,hco.3,hco.4,hco.5,hco.6⟩
      · rcases hl with a | ⟨a, -⟩ | ⟨a, -⟩ <;> rw [a]
        · decide
        · decide
        · exact h.noBurst
      · rw [h1]; exact ha.tck (by simpa using h.tckHigh)
      · intro hr
        rcases hl with a | ⟨-, a, b, -⟩ | ⟨a, b, -⟩
        · rw [a] at hr; cases hr
        · exact ⟨a, b⟩
        · rw [b]; exact h.releasedUnknown (a ▸ hr)
      · intro hm
        rcases hl with a | ⟨-, -, -, a⟩ | ⟨a, -, c⟩
        · exact a
        · exact absurd a hm
        · rw [a]; exact h.modeHoldsLines (c ▸ hm)
      · rw [htap]; exact trackEvents_consistent evs s.tap h.tapConsistent
      · rw [hbuf]; exact Memory.wf_writeRange _ _ _ h.bufCanonical
      · intro c hc
        rw [hbuf] at hc
        rw [hcf]
        rcases Memory.mem_writeRange _ _ _ _ hc with h1 | ⟨h1, h2⟩
        · exact h.bufInside c h1
        · simp at hin
          rcases hin with rfl | hin
          · simp at h2; omega
          · omega
    · rw [h2, c2]
      exact BetweenCommands.resetWith _ _ _ (by
        have : t.cfg = u2.cfg := by rw [h2, c2]; rfl
        rw [← this, h1, c1]; have := ha.cfg; rw [this]; simpa using h.cfgValid) k2
  · rw [h1, c1]
    exact BetweenCommands.resetWith _ _ _ (by rw [ha.cfg]; simpa using h.cfgValid) k1

end Sys2Proof.Machine
end

