-- ==== Sys2Proof/Laws/Polls.lean ====
section
/-! SUPPORT. What a status poll counts: its pulses, its waits and ATTEMPT (spec 44 R243, R244). -/

namespace Sys2Proof.Machine

/-- A command's events are determined by its trace. -/
theorem newEvents_unique {s t : State} {e1 e2 : List Event} (h1 : newEvents s t e1) (h2 : newEvents s t e2) : e1 = e2 := by
  unfold newEvents at h1 h2
  rw [h1] at h2
  exact List.reverse_injective (List.append_cancel_right h2)

theorem waitCount_append (e1 e2 : List Event) : waitCount (e1 ++ e2) = waitCount e1 + waitCount e2 := List.countP_append

/-- Events that are all pulses hold no wait. -/
theorem waitCount_pulses {evs : List Event} (h : pulseCount evs = evs.length) : waitCount evs = 0 := by
  have h1 : ∀ e ∈ evs, e.isPulse = true := List.countP_eq_length.1 h
  refine List.countP_eq_zero.2 fun e he => ?_
  have := h1 e he
  cases e <;> simp_all [Event.isPulse]

/-- How many events a bit-banged data scan has. -/
theorem Wave.sdr_none_length (bits : List Bool) (w : Wave) :
    (w.sdr bits none none).events.length = w.events.length + bits.length + 6 := by
  have h : ∀ l : List Bool, (shiftEvents true l).length = l.length := by
    intro l
    induction l with
    | nil => rfl
    | cons b bs ih => simp [shiftEvents, ih]
  simp [Wave.sdr, Wave.tms, Wave.shift, Wave.tail, h]
  omega

/-- A frame is pulses only, eight a byte and six around them. -/
theorem frame_counts {before after : Bool} {evs : List Event} {bytes : List Byte}
    (h : segment before evs (Wave.frame bytes) after) :
    pulseCount evs = 8 * bytes.length + 6 ∧ waitCount evs = 0 := by
  have h1 := segment_pulses h
  have h2 := congrArg (fun w : Wave => w.events.length) h
  have hb : (bitsOf (bytes.map rev8) (8 * bytes.length)).length = 8 * bytes.length := by simp [bitsOf_length]
  simp only [Wave.frame, Wave.sdr_pulses, Wave.start_pulses, tailPulses, hb] at h1
  simp only [Wave.frame, Wave.sdr_none_length, Wave.start, List.length_nil, List.length_map, hb] at h2
  refine ⟨by omega, waitCount_pulses ?_⟩
  omega

/-- The pulses and waits of a poll: with m reads, a wait after each but the one that ends it. -/
theorem pollTrace_counts {p : Params} {delay n : Nat} {tdi : Bool} {before : Byte} {evs : List Event} {sr : Byte}
    {timedOut : Bool} (h : PollTrace p delay n tdi before evs sr timedOut) :
    ∃ m ≤ n, pulseCount evs = 22 * m ∧ (timedOut = true → m = n ∧ waitCount evs = n) ∧
      (timedOut = false → 0 < m ∧ waitCount evs = m - 1) := by
  induction n generalizing tdi before evs with
  | zero =>
    obtain ⟨rfl, -, rfl⟩ := h
    exact ⟨0, Nat.le_refl _, rfl, fun _ => ⟨rfl, rfl⟩, nofun⟩
  | succ n ih =>
    obtain ⟨scan, h1, h2⟩ := h
    obtain ⟨c1, c2⟩ := frame_counts h1
    split at h2
    · obtain ⟨rfl, -, rfl⟩ := h2
      exact ⟨1, by omega, c1, nofun, fun _ => ⟨by omega, c2⟩⟩
    · obtain ⟨rest, rfl, h3⟩ := h2
      obtain ⟨m, hm, d1, d2, d3⟩ := ih h3
      have e1 : pulseCount (.wait delay :: rest) = pulseCount rest := by simp [pulseCount, Event.isPulse]
      have e2 : waitCount (.wait delay :: rest) = waitCount rest + 1 := by simp [waitCount]
      refine ⟨m + 1, by omega, ?_, fun ht => ?_, fun ht => ?_⟩
      · rw [pulseCount_append, e1, d1, c1]; simp; omega
      · obtain ⟨rfl, hw⟩ := d2 ht
        refine ⟨rfl, ?_⟩
        rw [waitCount_append, e2, c2, hw]; omega
      · obtain ⟨hp, hw⟩ := d3 ht
        refine ⟨by omega, ?_⟩
        rw [waitCount_append, e2, c2, hw]; omega

/-- ATTEMPT after the loop of a poll: one less for each wait. -/
theorem pollLoop_attempt (delay n : Nat) (before : Byte) (s : State) (hs : s.counters.attempt = n) {evs : List Event}
    (h : newEvents s (pollLoop delay n before s).2 evs) :
    (pollLoop delay n before s).2.counters.attempt = n - waitCount evs := by
  induction n generalizing before s evs with
  | zero => simpa [pollLoop] using hs
  | succ n ih =>
    obtain ⟨scan, a1, a2, -, -, -, -⟩ := readFlashStatus_spec s
    have hc := readFlashStatus_counters s
    have hw := (frame_counts a2).2
    simp only [pollLoop] at h ⊢
    generalize readFlashStatus s = r at *
    by_cases hd : pollDone s.cfg r.1 = true
    · rw [if_pos hd] at h ⊢
      rw [newEvents_unique h a1.trace, hw, hc]
      exact hs
    · rw [if_neg hd] at h ⊢
      obtain ⟨p1, -, -⟩ := pauseFor_spec delay { r.2 with counters.attempt := n }
      obtain ⟨rest, g1, -⟩ := pollLoop_spec delay n r.1 (pauseFor delay { r.2 with counters.attempt := n })
      have ht : newEvents s (pollLoop delay n r.1 (pauseFor delay { r.2 with counters.attempt := n })).2
          (scan ++ ([.wait delay] ++ rest)) := by
        have x1 := a1.trace; have x2 := p1.trace; have x3 := g1.trace
        simp only [newEvents] at x1 x2 x3 ⊢
        rw [x3, x2, x1]
        simp
      rw [newEvents_unique h ht, waitCount_append, waitCount_append, hw]
      rw [ih _ _ (by simp [pauseFor]) g1.trace]
      have : waitCount [Event.wait delay] = 1 := rfl
      omega

/-- ATTEMPT after a poll. -/
theorem pollStatus_attempt (attempts delay : Nat) (s : State) {evs : List Event}
    (h : newEvents s (pollStatus attempts delay s).2 evs) :
    (pollStatus attempts delay s).2.counters.attempt = attempts - waitCount evs :=
  pollLoop_attempt delay attempts s.fsr { s with counters.attempt := attempts } rfl h

end Sys2Proof.Machine
end

