-- ==== Sys2Proof/Laws/Runs.lean ====
section
/-! SUPPORT. What each command does once its entry checks have passed: one lemma each. -/

namespace Sys2Proof.Machine

/-- A command whose checks pass runs its effect, from the state in which BUSY is 1. -/
theorem command_passed {i : Instr} {checks : State → List EntryCheck}
    {run : State → Host.Outcome State Fault Refusal} {s : State} (hc : checks = entryChecks i)
    (h : firstRefusal (entryChecks i s) = none) : command i checks run s = run (beginCommand i s) := by
  subst hc
  exact command_runs i _ run s (by rw [entryChecks_beginCommand]; exact h)

/-- The bytes a command reads, where all of them have been written. -/
theorem withBuf_some {base n : Nat} {s : State} {run : List Byte → Host.Outcome State Fault Refusal}
    {bytes : List Byte} (hl : bytes.length = n) (h : bufHolds s base bytes) : withBuf base n s run = run bytes := by
  subst hl
  unfold withBuf
  rw [Memory.readRange_of_read _ _ _ h]

theorem bufHolds_beginCommand {i : Instr} {s : State} {base : Nat} {bytes : List Byte} (h : bufHolds s base bytes) :
    bufHolds (beginCommand i s) base bytes := by
  intro j hj
  rw [beginCommand_buf]
  exact h j hj

theorem execAcquire_runs {s : State} (h : firstRefusal (entryChecks .acquire s) = none) :
    exec .acquire s = complete (acquire (beginCommand .acquire s)) := by
  simp only [exec, execAcquire]
  rw [command_passed (by rfl) h]

theorem execRelease_runs {s : State} (h : firstRefusal (entryChecks .release s) = none) :
    exec .release s = complete (release (beginCommand .release s)) := by
  simp only [exec, execRelease]
  rw [command_passed (by rfl) h]

theorem execShiftbit_runs {s : State} (tdi tms : Bool)
    (h : firstRefusal (entryChecks (.shiftbit tdi tms) s) = none) :
    exec (.shiftbit tdi tms) s = complete
      { (pulse tms tdi (beginCommand (.shiftbit tdi tms) s)).2 with
        res := boolWord (s.env.target.pulse s.cfg tms tdi).1 } := by
  simp only [exec, execShiftbit]
  rw [command_passed (by rfl) h]
  have hp : (pulse tms tdi (beginCommand (.shiftbit tdi tms) s)).1 = (s.env.target.pulse s.cfg tms tdi).1 := by
    rw [pulse_fst, beginCommand_env, beginCommand_cfg]
  rw [hp]

theorem execSettms_runs {s : State} (tms : Bool) (h : firstRefusal (entryChecks (.settms tms) s) = none) :
    exec (.settms tms) s = complete (setTms tms (beginCommand (.settms tms) s)) := by
  simp only [exec, execSettms]
  rw [command_passed (by rfl) h]

theorem execRev8_runs {s : State} {bytes : List Byte} (h : firstRefusal (entryChecks .rev8 s) = none)
    (hl : bytes.length = s.regs.len.toNat) (hb : bufHolds s s.regs.buf.toNat bytes) :
    exec .rev8 s = complete { (beginCommand .rev8 s) with
      buf := s.buf.writeRange s.regs.buf.toNat (bytes.map rev8) } := by
  simp only [exec, execRev8]
  rw [command_passed (by rfl) h]
  have hr := beginCommand_regs .rev8 s
  have hm := beginCommand_buf .rev8 s
  have h2 := bufHolds_beginCommand (i := .rev8) hb
  clear h hb
  generalize beginCommand .rev8 s = b at *
  simp only [State.lenOperand, State.bufOperand]
  rw [← hr] at hl h2 ⊢
  rw [← hm]
  rw [withBuf_some hl h2]

theorem execReset_runs {s : State} (h : firstRefusal (entryChecks .reset s) = none) :
    exec .reset s = complete (tapReset (beginCommand .reset s)) := by
  simp only [exec, execReset]
  rw [command_passed (by rfl) h]

theorem execIdle_runs {s : State} (h : firstRefusal (entryChecks .idle s) = none) :
    exec .idle s = complete (idle s.idleOperand (beginCommand .idle s)) := by
  simp only [exec, execIdle]
  rw [command_passed (by rfl) h]
  have hr := beginCommand_regs .idle s
  clear h
  generalize beginCommand .idle s = b at *
  simp only [State.idleOperand]
  rw [← hr]

theorem execSir_runs {s : State} (f : Bool) (h : firstRefusal (entryChecks (.sir f) s) = none) :
    exec (.sir f) s = complete (sir s.instructionBits (s.idleTail f) (beginCommand (.sir f) s)) := by
  simp only [exec, execSir]
  rw [command_passed (by rfl) h]
  have hr := beginCommand_regs (.sir f) s
  clear h
  generalize beginCommand (.sir f) s = b at *
  simp only [State.instructionBits, State.idleTail, State.idleOperand, State.lenOperand]
  rw [← hr]

theorem execSdr_runs {s : State} (c d p : Bool) {bytes : List Byte}
    (h : firstRefusal (entryChecks (.sdr c d p) s) = none) (hl : bytes.length = (s.regs.len.toNat + 7) / 8)
    (hb : bufHolds s s.regs.buf.toNat bytes) :
    exec (.sdr c d p) s =
      (let r := sdr (bitsOf bytes s.regs.len.toNat) (s.pauseOperand p) (s.idleTail d) (beginCommand (.sdr c d p) s)
       complete (if c then { r.2 with buf := r.2.buf.writeRange s.regs.buf.toNat (captureBytes bytes r.1) } else r.2)) := by
  simp only [exec, execSdr]
  rw [command_passed (by rfl) h]
  have hr := beginCommand_regs (.sdr c d p) s
  have h2 := bufHolds_beginCommand (i := (.sdr c d p)) hb
  clear h hb
  generalize beginCommand (.sdr c d p) s = b at *
  simp only [State.pauseOperand, State.idleTail, State.idleOperand, bytesForBits, State.lenOperand, State.bufOperand]
  rw [← hr] at hl h2 ⊢
  rw [withBuf_some hl h2]

theorem execCheck_runs (s : State) :
    exec .check s = complete { (check s.regs.val s.regs.exp s.regs.mask (beginCommand .check s)).2 with
      res := boolWord (maskedMismatch s.regs.val s.regs.exp s.regs.mask) } := by
  simp only [exec, execCheck]
  rw [command_passed (by rfl) rfl]
  have hr := beginCommand_regs .check s
  generalize beginCommand .check s = b at *
  simp only [check_fst]
  rw [← hr]

theorem execBurstwr_runs {s : State} {bytes : List Byte} (h : firstRefusal (entryChecks .burstwr s) = none)
    (hl : bytes.length = s.regs.len.toNat) (hb : bufHolds s s.regs.buf.toNat bytes) :
    exec .burstwr s = complete
      (burstWrite (prefixBytes s.regs.val) bytes.dropLast (bytes.getLastD 0#8) (beginCommand .burstwr s)) := by
  simp only [exec, execBurstwr]
  rw [command_passed (by rfl) h]
  have hr := beginCommand_regs .burstwr s
  have h2 := bufHolds_beginCommand (i := .burstwr) hb
  clear h hb
  generalize beginCommand .burstwr s = b at *
  simp only [State.lenOperand, State.bufOperand]
  rw [← hr] at hl h2 ⊢
  rw [withBuf_some hl h2]

theorem execBurstrd_runs {s : State} (h : firstRefusal (entryChecks .burstrd s) = none) :
    exec .burstrd s =
      (let r := burstRead (prefixBytes s.regs.val) s.regs.len.toNat (beginCommand .burstrd s)
       complete { r.2 with buf := r.2.buf.writeRange s.regs.buf.toNat r.1 }) := by
  simp only [exec, execBurstrd]
  rw [command_passed (by rfl) h]
  have hr := beginCommand_regs .burstrd s
  clear h
  generalize beginCommand .burstrd s = b at *
  simp only [State.lenOperand, State.bufOperand]
  rw [← hr]

theorem execIdentify_runs (s : State) :
    exec .identify s =
      (let r := identifyScan (acquireIfReleased (beginCommand .identify s))
       complete (if s.pins.path = .released then release { r.2 with res := r.1 } else { r.2 with res := r.1 })) := by
  simp only [exec, execIdentify]
  rw [command_passed (by rfl) rfl]
  have hr := beginCommand_pins .identify s
  generalize beginCommand .identify s = b at *
  rw [← hr]

theorem execOpencfg_runs (s : State) :
    exec .opencfg s =
      (let r := openForConfiguration (acquireIfReleased (beginCommand .opencfg s))
       complete { r.2 with res := boolWord r.1 }) := by
  simp only [exec, execOpencfg]
  rw [command_passed (by rfl) rfl]

theorem execOpenflash_runs (s : State) :
    exec .openflash s =
      (let r := openForFlash (acquireIfReleased (beginCommand .openflash s))
       complete { r.2 with res := boolWord r.1 }) := by
  simp only [exec, execOpenflash]
  rw [command_passed (by rfl) rfl]

theorem execClose_runs {s : State} (h : firstRefusal (entryChecks .close s) = none) :
    exec .close s = complete (release { (closeScans (beginCommand .close s)) with devmode := .idle }) := by
  simp only [exec, execClose]
  rw [command_passed (by rfl) h]

theorem execPoll_runs {s : State} (h : firstRefusal (entryChecks .poll s) = none) :
    exec .poll s =
      (let p := pollStatus s.regs.att.toNat s.regs.dly.toNat (beginCommand .poll s)
       endPolled p.1.2 0 (if s.regs.att = 0#32 then p.2 else { p.2 with res := p.1.1.setWidth 32 })) := by
  simp only [exec, execPoll]
  rw [command_passed (by rfl) h]
  have hr := beginCommand_regs .poll s
  clear h
  generalize beginCommand .poll s = b at *
  rw [← hr]

theorem execErase_runs {s : State} (h : firstRefusal (entryChecks .erase s) = none) :
    exec .erase s =
      (let r := eraseBlock s.regs.addr.toNat (beginCommand .erase s)
       endPolled r.1 s.regs.addr.toNat r.2) := by
  simp only [exec, execErase]
  rw [command_passed (by rfl) h]
  have hr := beginCommand_regs .erase s
  clear h
  generalize beginCommand .erase s = b at *
  simp only [State.addrOperand]
  rw [← hr]

theorem execWrite_runs {s : State} {data : List Byte} (h : firstRefusal (entryChecks .write s) = none)
    (hl : data.length = s.regs.len.toNat) (hb : bufHolds s s.regs.buf.toNat data) :
    exec .write s =
      (let r := writeBlock data s.regs.addr.toNat (beginCommand .write s)
       endPolled r.1 s.regs.addr.toNat r.2) := by
  simp only [exec, execWrite]
  rw [command_passed (by rfl) h]
  have hr := beginCommand_regs .write s
  have h2 := bufHolds_beginCommand (i := .write) hb
  clear h hb
  generalize beginCommand .write s = b at *
  simp only [State.lenOperand, State.bufOperand, State.addrOperand]
  rw [← hr] at hl h2 ⊢
  rw [withBuf_some hl h2]

theorem execRead_runs {s : State} (h : firstRefusal (entryChecks .read s) = none) :
    exec .read s =
      (let r := readBlock s.regs.addr.toNat s.regs.len.toNat (beginCommand .read s)
       complete { r.2 with buf := r.2.buf.writeRange s.regs.buf.toNat r.1 }) := by
  simp only [exec, execRead]
  rw [command_passed (by rfl) h]
  have hr := beginCommand_regs .read s
  clear h
  generalize beginCommand .read s = b at *
  simp only [State.lenOperand, State.bufOperand, State.addrOperand]
  rw [← hr]

theorem execUpload_runs {s : State} (h : firstRefusal (entryChecks .upload s) = none) :
    exec .upload s =
      (let u := startUpload s.regs.addr.toNat (beginCommand .upload s)
       let r := chunkLoop (chunkRounds u.cfg) u
       .next (endUpload r.1 r.2)) := by
  simp only [exec, execUpload]
  rw [command_passed (by rfl) h]
  have hr := beginCommand_regs .upload s
  clear h
  generalize beginCommand .upload s = b at *
  simp only [State.addrOperand]
  rw [← hr]

end Sys2Proof.Machine
end

