-- ==== Sys2Proof/Laws/UploadTrace.lean ====
section
/-! SUPPORT. The events of UPLOAD: filling a chunk, one round over a chunk, the chunk loop, and what stands before it
(spec 44 R255, R256, R257, R262). -/

namespace Sys2Proof.Machine

theorem newEvents.trans {s t u : State} {e1 e2 : List Event} (h1 : newEvents s t e1) (h2 : newEvents t u e2) :
    newEvents s u (e1 ++ e2) := by
  simp only [newEvents] at *
  rw [h2, h1, List.reverse_append, List.append_assoc]

/-! ### Filling a chunk (spec 44 R256, 20_memory R79) -/

theorem fillChunk_trace (n : Nat) (s : State) (hn : s.cfg.eraseBlock ≤ s.work.chunklen + n)
    (hb : s.work.chunklen ≤ s.cfg.eraseBlock) :
    ∃ evs, newEvents s (fillChunk n s).2 evs ∧
      FillTrace s.cfg.eraseBlock s.work.chunklen evs
        (s.env.source.stream.peek (s.cfg.eraseBlock - s.work.chunklen)) (fillChunk n s).1 := by
  induction n generalizing s with
  | zero =>
    rw [Nat.sub_eq_zero_of_le (by omega), ByteStream.peek_zero]
    exact ⟨[], rfl, hn, rfl, rfl⟩
  | succ n ih =>
    simp only [fillChunk]
    by_cases hlt : s.work.chunklen < s.cfg.eraseBlock
    · rw [if_pos hlt]
      have hm := (srcNext_moves (s.cfg.eraseBlock - s.work.chunklen) s).trace
      have hf := srcNext_fst (s.cfg.eraseBlock - s.work.chunklen) s
      have hs := srcNext_source (s.cfg.eraseBlock - s.work.chunklen) s
      have hw := srcNext_work (s.cfg.eraseBlock - s.work.chunklen) s
      have hc := srcNext_cfg (s.cfg.eraseBlock - s.work.chunklen) s
      generalize srcNext (s.cfg.eraseBlock - s.work.chunklen) s = r at *
      obtain ⟨a, r⟩ := r
      simp only at hm hf hs hw hc ⊢
      rcases Source.next_cases (s.cfg.eraseBlock - s.work.chunklen) s.env.source with ⟨h0, h1, -⟩ | ⟨k, -, h1, h2, h3, h4⟩
      · rw [h1] at hf hm
        subst hf
        exact ⟨_, hm, hlt, rfl, rfl, (ByteStream.peek_eq_nil _ (by omega)).2 h0, rfl⟩
      · have h4 := h4 (by omega)
        have hpp := ByteStream.peek_peek_length k s.env.source.stream
        have hle := ByteStream.peek_length_le k s.env.source.stream
        rw [h1] at hf hm
        rw [← ByteStream.skip_peek_length, ← hs] at h2
        generalize s.env.source.stream.peek k = bytes at *
        subst hf
        have hpos : 0 < bytes.length := List.length_pos_iff.2 h4
        have hi := ih { r with work.chunk := splice r.work.chunklen bytes r.work.chunk
                               work.chunklen := r.work.chunklen + bytes.length }
          (by simp only [hw, hc]; omega) (by simp only [hw, hc]; omega)
        simp only [h2, hw, hc] at hi ⊢
        generalize fillChunk n { r with
          work.chunk := splice s.work.chunklen bytes s.work.chunk
          work.chunklen := s.work.chunklen + bytes.length } = f at *
        obtain ⟨evs, g1, g2⟩ := hi
        refine ⟨_, hm.trans g1, hlt, rfl, h4, by omega, _, ?_, g2⟩
        have hadd := ByteStream.peek_add bytes.length (s.cfg.eraseBlock - (s.work.chunklen + bytes.length))
          s.env.source.stream
        rw [hpp, show bytes.length + (s.cfg.eraseBlock - (s.work.chunklen + bytes.length)) =
          s.cfg.eraseBlock - s.work.chunklen by omega] at hadd
        exact hadd
    · rw [if_neg hlt]
      refine ⟨[], rfl, by omega, ?_, rfl⟩
      rw [Nat.sub_eq_zero_of_le (by omega), ByteStream.peek_zero]

/-! ### One round over a chunk -/

/-- A chunk read back leaves TDI low: the last byte of the burst is zero (spec 42 R209). -/
theorem compareChunk_tdi (s : State) : (compareChunk s).pins.tdi = false := by
  obtain ⟨evs, -, -, -, -, -, h, -⟩ := compareChunk_spec s
  have := congrArg Wave.tdi h
  simp only [Wave.readBlock, Wave.burstFrame, Wave.burst, Wave.tms, Wave.shift] at this
  rw [← this]
  rfl

theorem retryLoop_tdi (left : Nat) (s : State) : (retryLoop left s).2.pins.tdi = false := by
  induction left generalizing s with
  | zero =>
    have h := compareChunk_tdi s
    unfold retryLoop
    simp only
    generalize compareChunk s = c at *
    cases c.work.cls <;> exact h
  | succ n ih =>
    by_cases hq : (compareChunk s).work.cls = .noOp ∨ (compareChunk s).work.cls = .unerasable
    · rw [retryLoop_ends n s hq]
      exact compareChunk_tdi s
    · rw [retryLoop_attempts n s hq]
      exact ih _

@[simp] theorem finishChunk_pins (s : State) : (finishChunk s).pins = s.pins := by simp [finishChunk]
@[simp] theorem finishChunk_flags (s : State) : (finishChunk s).flags = s.flags := by simp [finishChunk]
@[simp] theorem finishChunk_fsr (s : State) : (finishChunk s).fsr = s.fsr := by simp [finishChunk]

/-- The two ways of counting a finished chunk agree. -/
theorem afterChunk_finished (st : Stats) (n : Nat) (e w : Bool) (t : Word) :
    { st.afterChunk n e w with elapsed := t } = st.finished n e w t := by
  cases e <;> cases w <;> rfl

/-- The bounds a legal configuration sets for an upload. -/
structure UploadParams (p : Params) : Prop where
  eraseBlock : 0 < p.eraseBlock
  writeBlock : 0 < p.writeBlock
  erase : 0 < p.erasePoll.attempts
  write : 0 < p.writePoll.attempts
  eraseWidth : p.erasePoll.attempts < 2 ^ 32
  writeWidth : p.writePoll.attempts < 2 ^ 32

theorem Params.uploadParams {p : Params} (h : p.valid = true) : UploadParams p := by
  have := Params.valid_bounds h
  exact ⟨by omega, by omega, by omega, by omega, by omega, by omega⟩

/-- One round over a filled chunk: the retry loop, and, if it ends well, the count and the report (spec 44 R256). -/
theorem runChunk_trace (s : State) (hv : UploadParams s.cfg) (hl : s.chunkBytes.length = s.work.chunklen)
    (hp : 0 < s.work.chunklen) (hr : ¬2 ^ 24 < s.work.faddr + s.work.chunklen) (ho : ElapsedOk s) :
    ∃ tries timedOut erased wrote,
      RetryTrace s.cfg s.chunkBytes s.work.faddr 3 s.pins.tdi s.fsr tries (runChunk s).1 (runChunk s).2.fsr timedOut
        erased wrote ∧
      (runChunk s).2.pins.tdi = false ∧ (runChunk s).2.flags.timeout = (s.flags.timeout || timedOut) ∧
      match (runChunk s).1 with
      | some _ => newEvents s (runChunk s).2 tries ∧ (runChunk s).2.stats = s.stats
      | none => ∃ elapsed, s.stats.elapsed ≤ elapsed ∧
          (runChunk s).2.stats = s.stats.finished s.work.chunklen erased wrote elapsed ∧
          newEvents s (runChunk s).2 (tries ++ [.progress (runChunk s).2.stats]) := by
  have hn : ¬runsPastFlash s.work.faddr s.work.chunklen = true := by
    rw [runsPastFlash, decide_eq_true_eq]
    exact hr
  unfold runChunk
  rw [if_neg hn]
  obtain ⟨evs, timedOut, erased, wrote, ⟨h1, -, h6⟩, h2, h3, h4⟩ := retryLoop_trace Config.retryMax
    { s with work.retry := 0, work.didErase := false, work.didWrite := false } hl hp
    ⟨hv.writeBlock, hv.erase, hv.write⟩ ⟨hv.eraseWidth, hv.writeWidth⟩
  have h5 := retryLoop_tdi Config.retryMax
    { s with work.retry := 0, work.didErase := false, work.didWrite := false }
  obtain ⟨_, o, -⟩ := retryLoop_spec Config.retryMax
    { s with work.retry := 0, work.didErase := false, work.didWrite := false } hv.eraseWidth hv.writeWidth
  have o1 := o.stats
  have o2 := o.tStart
  have o3 := o.chunklen
  have o4 := o.time
  simp only at h2 h3 h4 o1 o2 o3 o4 ⊢
  generalize retryLoop Config.retryMax
    { s with work.retry := 0, work.didErase := false, work.didWrite := false } = r at *
  rw [Bool.false_or] at h3 h4
  cases hf : r.1 with
  | some e =>
    rw [hf] at h2
    exact ⟨evs, timedOut, erased, wrote, h2, h5, h6, h1, o1⟩
  | none =>
    rw [hf] at h2
    obtain ⟨_, g1, rfl, -, -, -, -, g2⟩ := finishChunk_spec r.2
    rw [o1, o2, o3, h3, h4, afterChunk_finished] at g2
    refine ⟨evs, timedOut, erased, wrote, by rw [finishChunk_fsr]; exact h2, by rw [finishChunk_pins]; exact h5,
      by rw [finishChunk_flags]; exact h6, _, ?_, g2, newEvents.trans (t := r.2) h1 g1.trace⟩
    refine BitVec.le_trans ho (elapsedWord_mono _ (Nat.le_trans ?_ (Nat.le_trans (Nat.le_add_right _ _) g1.time)))
    exact Nat.le_trans (Nat.le_add_right _ _) o4

/-! ### The chunk loop -/

theorem chunkLoop_trace (n : Nat) (s : State) (hn : Config.flashBytes < s.work.faddr + n * s.cfg.eraseBlock)
    (hv : UploadParams s.cfg)
    (hw : WorkOk s) (ho : ElapsedOk s) :
    ∃ evs timedOut, newEvents s (chunkLoop n s).2 evs ∧
      (chunkLoop n s).2.flags.timeout = (s.flags.timeout || timedOut) ∧
      ChunksTrace s.cfg n s.env.source.stream s.work.faddr s.pins.tdi s.fsr s.stats evs
        ((chunkLoop n s).1.map fun e => (e, (chunkLoop n s).2.work.faddr)) (chunkLoop n s).2.fsr timedOut
        (chunkLoop n s).2.stats := by
  induction n generalizing s with
  | zero => have := hw.faddr; omega
  | succ n ih =>
    have hf := fillChunk_spec s.cfg.eraseBlock { s with work.chunklen := 0 } (by simp) (by simp) (by simp)
    obtain ⟨ef, t1, t2⟩ := fillChunk_trace s.cfg.eraseBlock { s with work.chunklen := 0 } (by simp) (by simp)
    simp only [Nat.sub_zero] at t2
    unfold chunkLoop
    simp only
    generalize fillChunk s.cfg.eraseBlock { s with work.chunklen := 0 } = f at *
    obtain ⟨_, f1, -⟩ := hf.moves
    obtain ⟨-, m2, m3, m4, -, -, m7, -⟩ := hf.same
    have fcfg : f.2.cfg = s.cfg := f1.cfg
    have fst : f.2.stats = s.stats := m7
    have fflags : f.2.flags = s.flags := m2
    have ffsr : f.2.fsr = s.fsr := m3
    have fpins : f.2.pins = s.pins := m4
    have hlen := hf.chunklen
    have hcont := hf.stream
    have heos := hf.eos
    have hbytes := hf.bytes
    simp only [Nat.sub_zero, Nat.zero_add, State.chunkBytes, List.take_zero, List.nil_append] at hlen hcont heos hbytes
    have fw := hf.work
    have ffaddr := congrArg Work.faddr fw
    have ftst := congrArg Work.tStart fw
    simp only at ffaddr ftst
    have t1' : newEvents s f.2 ef := t1
    have hple := ByteStream.peek_length_le s.cfg.eraseBlock s.env.source.stream
    have hcl := hlen.symm
    by_cases h0 : f.2.work.chunklen = 0
    · rw [if_pos h0]
      have hnil : s.env.source.stream.peek s.cfg.eraseBlock = [] := List.eq_nil_of_length_eq_zero (hcl.trans h0)
      refine ⟨ef, false, t1', by rw [fflags, Bool.or_false], ef, [], f.1, by simp, t2, ?_⟩
      rw [if_pos hnil]
      exact ⟨rfl, rfl, ffsr, rfl, fst⟩
    · rw [if_neg h0]
      have hne : s.env.source.stream.peek s.cfg.eraseBlock ≠ [] := fun h => h0 (by rw [hlen, h]; rfl)
      have fW : WorkOk f.2 := by
        refine ⟨by rw [ffaddr]; exact hw.faddr, by rw [fcfg, hlen]; exact hple, ?_, ?_, ?_⟩
        · have := congrArg Work.retry fw; simp only at this; rw [this]; exact hw.retry
        · rw [fcfg]; exact hf.bound hw.chunk
        · have := congrArg Work.scratch fw; simp only at this; rw [this, fcfg]; exact hw.scratch
      have fo : ElapsedOk f.2 := ho.later fst ftst (Nat.le_trans (Nat.le_add_right _ _) f1.time)
      obtain ⟨_, r1, r2, ro, r3, -, r5, -⟩ := runChunk_spec f.2 (by rw [fcfg]; exact hv.eraseWidth)
        (by rw [fcfg]; exact hv.writeWidth) fW fo
      by_cases hpast : 2 ^ 24 < s.work.faddr + f.2.work.chunklen
      · have hrun : runChunk f.2 = (some .addressRangeError, f.2) := by
          unfold runChunk
          rw [if_pos (by rw [runsPastFlash, ffaddr, decide_eq_true_eq]; exact hpast)]
        rw [hrun]
        refine ⟨ef, false, t1', by rw [fflags, Bool.or_false], ef, [], f.1, by simp, t2, ?_⟩
        rw [if_neg hne, hcl, if_pos hpast]
        exact ⟨rfl, by simp [ffaddr], ffsr, rfl, fst⟩
      · have hfl : f.2.chunkBytes.length = f.2.work.chunklen := by
          rw [State.chunkBytes, hbytes, hcl]
        obtain ⟨tries, out, erased, wrote, q1, q2, qt, q3⟩ := runChunk_trace f.2 (by rw [fcfg]; exact hv) hfl
          (Nat.pos_of_ne_zero h0) (by rw [ffaddr]; exact hpast) fo
        rw [State.chunkBytes, hbytes, fcfg, ffaddr, fpins, ffsr] at q1
        rw [fst] at q3
        rw [fflags] at qt
        have rcfg : (runChunk f.2).2.cfg = s.cfg := r1.cfg.trans fcfg
        generalize runChunk f.2 = r at *
        cases hr : r.1 with
        | some e =>
          rw [hr] at q1 q3
          refine ⟨ef ++ tries, out, t1'.trans q3.1, qt, ef, tries, f.1, rfl, t2, ?_⟩
          rw [if_neg hne, hcl, if_neg hpast]
          exact ⟨tries, [], some e, r.2.fsr, out, erased, wrote, by simp, q1, rfl, by simp [r3, ffaddr], rfl, rfl, q3.2⟩
        | none =>
          rw [hr] at q1 q3
          obtain ⟨elapsed, q4, q5, q6⟩ := q3
          simp only
          by_cases hE : f.1 = true
          · rw [if_pos hE]
            refine ⟨ef ++ (tries ++ [.progress r.2.stats]), out, t1'.trans q6, qt, ef, tries ++ [.progress r.2.stats], f.1, rfl,
              t2, ?_⟩
            rw [if_neg hne, hcl, if_neg hpast]
            refine ⟨tries, [.progress r.2.stats], none, r.2.fsr, out, erased, wrote, rfl, q1, elapsed, [], r.2.stats, q4, q5,
              rfl, ?_⟩
            rw [if_pos hE]
            exact ⟨rfl, rfl, rfl, rfl, rfl⟩
          · rw [if_neg hE]
            have rs : r.2.env.source.stream = s.env.source.stream.skip s.cfg.eraseBlock := by rw [r5, hcont]
            have hge : f.2.work.chunklen = s.cfg.eraseBlock := by
              have hE' : f.1 = false := by simpa using hE
              rw [hE'] at heos
              have : ¬f.2.work.chunklen < s.cfg.eraseBlock := by simpa using heos.symm
              omega
            have hW : WorkOk { r.2 with work.faddr := r.2.work.faddr + r.2.cfg.eraseBlock } := by
              refine ⟨?_, r2.chunklen, r2.retry, r2.chunk, r2.scratch⟩
              have : Config.flashBytes = 2 ^ 24 := rfl
              simp only [r3, ffaddr, rcfg]
              omega
            obtain ⟨e2, out2, g1, gt, g2⟩ := ih { r.2 with work.faddr := r.2.work.faddr + r.2.cfg.eraseBlock }
              (by simp only [r3, ffaddr, rcfg]; rw [Nat.succ_mul] at hn; omega) (by simp only [rcfg]; exact hv) hW ro
            generalize chunkLoop n { r.2 with work.faddr := r.2.work.faddr + r.2.cfg.eraseBlock } = g at *
            simp only [rs, r3, ffaddr, rcfg, q2] at g2 gt
            have g1' : newEvents r.2 g.2 e2 := g1
            refine ⟨_, out || out2, t1'.trans (q6.trans g1'), by rw [gt, qt, Bool.or_assoc], ef, _, f.1, rfl, t2, ?_⟩
            rw [if_neg hne, hcl, if_neg hpast]
            refine ⟨tries, .progress r.2.stats :: e2, none, r.2.fsr, out, erased, wrote, by simp, q1, elapsed, e2,
              r.2.stats, q4, q5, rfl, ?_⟩
            rw [if_neg hE]
            exact ⟨out2, rfl, g2⟩

/-! ### What stands before it -/

/-- UPLOAD up to the chunk loop (spec 44 R255): the lines are acquired if they are released, then the flash mode is
opened, whatever the mode was. -/
theorem startUpload_trace (base : Nat) (s : State) :
    ∃ opening, newEvents s (startUpload base s) (acquireEvents s.pins.path ++ opening) ∧
      OpenFlashTrace s.cfg s.pins.tdi opening (startUpload base s).pins.tdi ∧
      (startUpload base s).fsr = s.fsr ∧ (startUpload base s).flags.timeout = s.flags.timeout ∧
      s.env.clock.time + 2 * s.cfg.cfgWait.ticks ≤ (startUpload base s).env.clock.time := by
  have he : startUpload base s =
      { (openForFlash (acquireIfReleased
          { (now { s with stats := Stats.zero }).2 with work.tStart := (now s).1 })).2 with work.faddr := base } := by
    simp only [startUpload, now_fst]
  rw [he]
  generalize hs1 : ({ (now { s with stats := Stats.zero }).2 with work.tStart := (now s).1 } : State) = s1
  have hp : s1.pins = s.pins := by rw [← hs1]; rfl
  have hc : s1.cfg = s.cfg := by rw [← hs1]; rfl
  have hf : s1.fsr = s.fsr := by rw [← hs1]; rfl
  have hfl : s1.flags = s.flags := by rw [← hs1]; rfl
  have htr : s1.trace = s.trace := by rw [← hs1]; rfl
  have hck : s.env.clock.time ≤ s1.env.clock.time := by
    rw [← hs1]
    show s.env.clock.time ≤ s.env.clock.now.2.time
    rw [Clock.now_snd_time]
    exact Clock.time_le_now s.env.clock
  obtain ⟨a1, a2, -, -⟩ := acquireIfReleased_spec s1
  rw [hp] at a1 a2
  generalize acquireIfReleased s1 = s2 at *
  have hc2 : s2.cfg = s.cfg := a1.cfg.trans hc
  obtain ⟨e1, scan1, e2, scan2, k1, k2, x1, x2, b1, b2, b3, b4, b5, b6, b7, -⟩ := openForConfiguration_spec s2
  obtain ⟨e3, _, _, c1, c2, rfl, rfl, -⟩ := openForFlash_spec s2
  have ht := openForFlash_time s2
  have hb := b1.trans c1
  rw [hc2] at b2 b4 b6 b7 c2 ht
  rw [a2] at b2
  generalize (openForFlash s2).2 = s3 at *
  refine ⟨_, ?_, ⟨e1, scan1, e2, scan2, e3, k1, k2, x1, x2, _, rfl, b2, b3, b4, b5, c2, b6, b7⟩, ?_, ?_, ?_⟩
  · have h := newEvents.trans a1.trace hb.trace
    simp only [newEvents, htr] at h ⊢
    exact h
  · exact hb.fsr.trans (a1.fsr.trans hf)
  · exact hb.sameTimeout.trans (by rw [a1.flags, hfl])
  · have := a1.time
    simp only
    omega

/-- UPLOAD up to its end, once its address is accepted: the acquisition, the script, the chunks of the stream. -/
theorem runUpload_trace (base : Nat) (s : State) (hv : s.cfg.valid = true) (hw : WorkOk s) (hb : base ≤ Config.flashBytes) :
    let u := startUpload base s
    let r := chunkLoop (chunkRounds u.cfg) u
    ∃ opening chunks timedOut x, newEvents s r.2 (acquireEvents s.pins.path ++ opening ++ chunks) ∧
      OpenFlashTrace s.cfg s.pins.tdi opening x ∧
      ChunksTrace s.cfg (chunkRounds s.cfg) s.env.source.stream base x s.fsr Stats.zero chunks
        (r.1.map fun e => (e, r.2.work.faddr)) r.2.fsr timedOut r.2.stats ∧
      r.2.flags.timeout = (s.flags.timeout || timedOut) ∧
      s.env.clock.time + 2 * s.cfg.cfgWait.ticks + waited chunks ≤ r.2.env.clock.time := by
  obtain ⟨_, a1, -, -, -, a5, a6, a7, -⟩ := startUpload_spec base s
  obtain ⟨opening, b1, b2, b3, b4, b5⟩ := startUpload_trace base s
  simp only
  generalize startUpload base s = u at *
  have hp := Params.uploadParams hv
  rw [← a1.cfg] at hp
  have hwu : WorkOk u := ⟨by rw [a7]; exact hb, by rw [a7, a1.cfg]; exact hw.chunklen, by rw [a7]; exact hw.retry,
    by rw [a7, a1.cfg]; exact hw.chunk, by rw [a7, a1.cfg]; exact hw.scratch⟩
  have hou : ElapsedOk u := by unfold ElapsedOk; rw [a5, BitVec.le_def]; exact Nat.zero_le _
  obtain ⟨chunks, timedOut, c1, c2, c3⟩ := chunkLoop_trace (chunkRounds u.cfg) u (chunkRounds_enough _ _ hp.eraseBlock) hp hwu hou
  obtain ⟨_, d1, -⟩ := chunkLoop_spec (chunkRounds u.cfg) u (chunkRounds_enough _ _ hp.eraseBlock) hp.eraseBlock
    hp.eraseWidth hp.writeWidth hwu hou
  have hd := newEvents_unique d1.trace c1
  subst hd
  have ht := d1.time
  have hf : u.work.faddr = base := by rw [a7]
  generalize chunkLoop (chunkRounds u.cfg) u = r at *
  rw [a1.cfg, a6, hf, b3, a5] at c3
  rw [b4] at c2
  exact ⟨opening, _, timedOut, u.pins.tdi, b1.trans c1, b2, c3, c2, by omega⟩

end Sys2Proof.Machine
end

