-- ==== Sys2Proof/Tests/Slice0.lean ====
section
/-! SUPPORT. Tests: ill-formed words and records are refused, words written out from the encoding decode, one small
step of each command gives what spec/95_test_vectors.md works out, and every statement's hypotheses are met somewhere
(the `witness_` theorems). -/

namespace Sys2Proof.Tests

open Sys2Proof Sys2Proof.Machine

/-! ### Ill-formed words, one for each check (95_test_vectors 2.1) -/

theorem test_unlisted_op_refused : CommandWord.opListed 0x00000045#32 = false ∧
    decode 0x00000045#32 = .error (.unlistedOp 0x45) := by decide

theorem test_zero_word_refused : decode 0x00000000#32 = .error (.unlistedOp 0) := by decide

theorem test_reserved_bit_refused : CommandWord.reservedClear 0x00002001#32 = false ∧
    decode 0x00002001#32 = .error .reservedBit := by decide

theorem test_reserved_top_bit_refused : decode 0x80000010#32 = .error .reservedBit := by decide

theorem test_unused_flag_refused : CommandWord.unusedFlagsClear 0x00000112#32 = false ∧
    decode 0x00000112#32 = .error (.unusedFlag 0x12) := by decide

theorem test_unused_flag_settms_refused : decode 0x00001004#32 = .error (.unusedFlag 0x04) := by decide

/-! ### Ill-formed configuration records, one for each check (00_scope R10) -/

theorem test_tc0_legal : Config.tc0.valid = true := by decide

theorem test_erase_block_zero : { Config.tc0 with eraseBlock := 0 }.valid = false := by decide

theorem test_erase_block_no_divisor : { Config.tc0 with eraseBlock := 768 }.valid = false := by decide

theorem test_write_block_zero : { Config.tc0 with writeBlock := 0 }.valid = false := by decide

theorem test_write_block_no_divisor : { Config.tc0 with writeBlock := 8192 }.valid = false := by decide

theorem test_buffer_small : { Config.tc0 with bufBytes := 7 }.valid = false := by decide

theorem test_ops_equal : { Config.tc0 with op.bypass := 0x26#8 }.valid = false := by decide

theorem test_flash_ops_equal : { Config.tc0 with fc.wrdi := 0x06#8 }.valid = false := by decide

theorem test_wip_two_bits : { Config.tc0 with srWip := 0x05#8 }.valid = false := by decide

theorem test_wel_no_bit : { Config.tc0 with srWel := 0x00#8 }.valid = false := by decide

theorem test_masks_meet : { Config.tc0 with srWel := 0x01#8 }.valid = false := by decide

theorem test_prog_spi_empty : { Config.tc0 with progSpiBits := 0 }.valid = false := by decide

theorem test_wait_too_wide : { Config.tc0 with cfgWait.cycles := 2 ^ 32 }.valid = false ∧
    { Config.tc0 with refreshWait.cycles := 2 ^ 32 }.valid = false ∧
    { Config.tc0 with progSpiBits := 2 ^ 32 }.valid = false := by decide

theorem test_no_attempts : { Config.tc0 with erasePoll.attempts := 0 }.valid = false ∧
    { Config.tc0 with writePoll.attempts := 0 }.valid = false := by decide

theorem test_attempts_too_wide : { Config.tc0 with erasePoll.attempts := 2 ^ 32 }.valid = false ∧
    { Config.tc0 with writePoll.attempts := 2 ^ 32 }.valid = false := by decide

/-! ### Every command's word, written out from 30_encoding R111 and R113:
bits 31:13 reserved, F_TDI 12, F_TMS 11, F_PAUSE 10, F_IDLE 9, F_CAPTURE 8, OP 7:0 -/

theorem test_decode_acquire : decode 0b0000000000000000000_0_0_0_0_0_00000001#32 = .ok .acquire := by decide

theorem test_decode_release : decode 0b0000000000000000000_0_0_0_0_0_00000010#32 = .ok .release := by decide

theorem test_decode_shiftbit :
    decode 0b0000000000000000000_1_0_0_0_0_00000011#32 = .ok (.shiftbit true false) ∧
    decode 0b0000000000000000000_0_1_0_0_0_00000011#32 = .ok (.shiftbit false true) := by decide

theorem test_decode_settms :
    decode 0b0000000000000000000_0_1_0_0_0_00000100#32 = .ok (.settms true) ∧
    decode 0b0000000000000000000_0_0_0_0_0_00000100#32 = .ok (.settms false) := by decide

theorem test_decode_rev8 : decode 0b0000000000000000000_0_0_0_0_0_00000101#32 = .ok .rev8 := by decide

theorem test_decode_reset : decode 0b0000000000000000000_0_0_0_0_0_00010000#32 = .ok .reset := by decide

theorem test_decode_idle : decode 0b0000000000000000000_0_0_0_0_0_00010001#32 = .ok .idle := by decide

theorem test_decode_sir :
    decode 0b0000000000000000000_0_0_0_1_0_00010010#32 = .ok (.sir true) ∧
    decode 0b0000000000000000000_0_0_0_0_0_00010010#32 = .ok (.sir false) := by decide

theorem test_decode_sdr :
    decode 0b0000000000000000000_0_0_0_0_1_00010011#32 = .ok (.sdr true false false) ∧
    decode 0b0000000000000000000_0_0_0_1_0_00010011#32 = .ok (.sdr false true false) ∧
    decode 0b0000000000000000000_0_0_1_0_0_00010011#32 = .ok (.sdr false false true) := by decide

theorem test_decode_check : decode 0b0000000000000000000_0_0_0_0_0_00010100#32 = .ok .check := by decide

theorem test_decode_burstwr : decode 0b0000000000000000000_0_0_0_0_0_00100000#32 = .ok .burstwr := by decide

theorem test_decode_burstrd : decode 0b0000000000000000000_0_0_0_0_0_00100001#32 = .ok .burstrd := by decide

theorem test_decode_identify : decode 0b0000000000000000000_0_0_0_0_0_00110000#32 = .ok .identify := by decide

theorem test_decode_opencfg : decode 0b0000000000000000000_0_0_0_0_0_00110001#32 = .ok .opencfg := by decide

theorem test_decode_openflash : decode 0b0000000000000000000_0_0_0_0_0_00110010#32 = .ok .openflash := by decide

theorem test_decode_close : decode 0b0000000000000000000_0_0_0_0_0_00110011#32 = .ok .close := by decide

theorem test_decode_poll : decode 0b0000000000000000000_0_0_0_0_0_01000000#32 = .ok .poll := by decide

theorem test_decode_erase : decode 0b0000000000000000000_0_0_0_0_0_01000001#32 = .ok .erase := by decide

theorem test_decode_write : decode 0b0000000000000000000_0_0_0_0_0_01000010#32 = .ok .write := by decide

theorem test_decode_read : decode 0b0000000000000000000_0_0_0_0_0_01000011#32 = .ok .read := by decide

theorem test_decode_upload : decode 0b0000000000000000000_0_0_0_0_0_01000100#32 = .ok .upload := by decide

theorem test_table_word : decodeTableWord 32 0x1803 = some (.shiftbit true true) ∧ decodeTableWord 32 0x45 = none := by
  decide

/-! ### Small states -/

/-- The reference flash, blank, one busy read after a program or erase (95_test_vectors 0.2). -/
def blankFlash : RefFlash where
  mem := []
  wel := false
  wip := false
  busyReads := 0
  refBusy := some 1
  dropWren := false
  dropPrograms := 0

/-- The reference target in a TAP state, an instruction selected (95_test_vectors 0.2). -/
def target (ts : TapState) (ir : Byte) : RefTarget where
  ts := ts
  ir := ir
  isr := 0#8
  dsr := []
  preload := []
  progSpi := []
  through := ir == 0x3A#8
  frame := []
  flash := blankFlash
  refId := 0x41111043#32
  refStatus := 0#32

/-- Right after reset, with the test configuration TC0, the reference target and the test clock. -/
def cold : State :=
  State.resetWith Config.tc0
    { target := .reference (target .pauseIR 0xE0#8), clock := .test 0, source := { stream := { content := [], endless := false, drawn := 0 }, offers := [], asked := 0 } }
    HostPort.quiet

/-- The lines acquired, the TAP state not known. -/
def acquired : State := { cold with pins.path := .bitBang }

/-- The lines acquired, tracker and target in the same TAP state. -/
def inState (st : TapState) : State :=
  { acquired with tap := { state := st, known := true, ones := 0#3 }, env.target := .reference (target st 0xE0#8) }

/-- As FRESH of 95_test_vectors 0.4. -/
def fresh : State := inState .selectDRScan

/-- The passthrough open (95_test_vectors 0.4, `FLASHMODE`), over a flash with these bytes. -/
def flashOpen (mem : Memory) : State :=
  { fresh with
    devmode := .configuredForFlash
    env.target := .reference { target .selectDRScan 0x3A#8 with flash := { blankFlash with mem := mem } } }

/-- BUF holds these bytes from address 0 on, and R_LEN is this. -/
def withBuf (bytes : List Byte) (len : Word) (s : State) : State :=
  { s with buf := s.buf.writeRange 0 bytes, regs.len := len }

/-- The state after the command with this word, if the step gives one. -/
def after (w : Nat) (s : State) : Option State :=
  match step (s.withFetchWord 32 w) with
  | .next t => some t
  | .fault _ => none
  | .refused _ => none

/-- The code and the information the command with this word ends with. -/
def errAfter (w : Nat) (s : State) : Option Word := (after w s).map fun t => t.ctl.errWord

/-- The levels of TMS of the pulses of the command, in time order, as one number, the first pulse highest; and how many
pulses. -/
def tmsAfter (w : Nat) (s : State) : Option (Nat × Nat) :=
  (after w s).map fun t =>
    let bits := (wires t.trace.reverse).map (·.1)
    (bits.length, bits.foldl (fun n b => 2 * n + b.toNat) 0)

/-- The same for TDI. -/
def tdiAfter (w : Nat) (s : State) : Option (Nat × Nat) :=
  (after w s).map fun t =>
    let bits := (wires t.trace.reverse).map (·.2)
    (bits.length, bits.foldl (fun n b => 2 * n + b.toNat) 0)

/-! ### One small step of each command -/

set_option maxRecDepth 20000

/-- 95_test_vectors 2.7: from reset STAT is then 0x100; a second ACQUIRE is a SessionError. -/
theorem test_acquire : (after 0x01 cold).map State.statWord = some 0x100#32 ∧ errAfter 0x01 acquired = some 8#32 := by
  decide

/-- 95_test_vectors 2.7: the tracker's state stays in STAT, TAPKNOWN is 0; an open mode refuses it. -/
theorem test_release : (after 0x02 fresh).map State.statWord = some 0x004#32 ∧
    errAfter 0x02 (flashOpen []) = some 8#32 := by decide

/-- 95_test_vectors 2.2.3: from ShiftDR with TMS=1 the state is Exit1DR and R_RES is the sample, bit 0 of the id. -/
theorem test_shiftbit :
    (after 0x1803 { inState .shiftDR with env.target := .samples [true] 0 }).map
      (fun t => (t.tap.state, t.res, t.pins.tdi, t.pins.tms)) = some (.exit1DR, 1#32, true, true) := by decide

theorem test_shiftbit_unknown : errAfter 0x1803 acquired = some 7#32 := by decide

/-- 40 R153: in SelectDRScan, TDI keeps its level. -/
theorem test_settms :
    (after 0x804 fresh).map (fun t => (t.tap.state, t.pins.tdi, wires t.trace)) =
      some (.selectIRScan, false, [(true, false)]) := by decide

/-- 95_test_vectors 2.2.2. -/
theorem test_rev8 :
    (after 0x05 (withBuf [0x06#8, 0xAB#8, 0xFF#8] 3#32 cold)).map (fun t => t.buf.readRange 0 3) =
      some (some [0x60#8, 0xD5#8, 0xFF#8]) := by decide

theorem test_rev8_len_zero : errAfter 0x05 (withBuf [0x06#8] 0#32 cold) = some 9#32 := by decide

/-- 95_test_vectors 2.3.1: six pulses, STAT 0x120. -/
theorem test_reset : tmsAfter 0x10 acquired = some (6, 0b111111) ∧
    (after 0x10 acquired).map State.statWord = some 0x120#32 := by decide

/-- 95_test_vectors 2.3.2: two cycles and five ticks under the test clock: five pulses, then one. -/
theorem test_idle : tmsAfter 0x11 { inState .reset with regs.cyc := 2#32, regs.dur := 5#32 } = some (6, 0b000001) := by
  decide

/-- 41 R176, by hand: the clock answers 1, so the deadline is 3; after the one cycle it answers 2, a pulse, and 3. -/
theorem test_idle_takes :
    idleTakes { cycles := 1, ticks := 2 } 1 (.free 0 [1, 1, 1] 0) (.free 3 [] 0) ∧
      (idle { cycles := 1, ticks := 2 } { fresh with env.clock := .free 0 [1, 1, 1] 0 }).trace.length =
        fresh.trace.length + 3 :=
  ⟨⟨_, ⟨by decide, by decide, rfl⟩, rfl⟩, by decide⟩

theorem test_idle_no_cycles_from_reset : errAfter 0x11 { inState .reset with regs.dur := 3#32 } = some 7#32 := by decide

/-- 95_test_vectors 2.3.3: `100 00000001 0111`, TDI `000 00000111 1111`. -/
theorem test_sir : tmsAfter 0x12 { fresh with regs.val := 0xE0#32, regs.len := 8#32 } = some (15, 0b100000000010111) ∧
    tdiAfter 0x12 { fresh with regs.val := 0xE0#32, regs.len := 8#32 } = some (15, 0b000000001111111) := by decide

/-- 95_test_vectors 2.3.3: with an idle tail of two cycles, `100 00000001 011 001`. -/
theorem test_sir_idle :
    tmsAfter 0x212 { fresh with regs.val := 0x3C#32, regs.len := 8#32, regs.cyc := 2#32 } =
      some (17, 0b10000000001011001) := by decide

/-- 95_test_vectors 2.3.4: the id in bit-transport order. -/
theorem test_sdr_capture :
    (after 0x113 (withBuf [0#8, 0#8, 0#8, 0#8] 32#32 fresh)).map (fun t => t.buf.readRange 0 4) =
      some (some [0x43#8, 0x10#8, 0x11#8, 0x41#8]) := by decide

/-- 95_test_vectors 2.3.4: a pause of 7 and an idle tail of one cycle: `00 00000001 0 W(7) 11 01`, at time 22 of the
test clock when it started at 0. -/
theorem test_sdr_pause :
    tmsAfter 0x613 { withBuf [0x0F#8] 8#32 fresh with regs.pause := 7#32, regs.cyc := 1#32 } =
      some (15, 0b000000000101101) ∧
    (after 0x613 { withBuf [0x0F#8] 8#32 fresh with regs.pause := 7#32, regs.cyc := 1#32 }).map
      (fun t => t.env.clock.time) = some 22 := by decide

/-- 95_test_vectors 2.3.5. -/
theorem test_check_mismatch :
    (after 0x14 { cold with regs.val := 0x24000#32, regs.mask := 0x24040#32 }).map
      (fun t => (t.res, t.flags.toWord, t.ctl.errWord)) = some (1#32, 1#32, 0#32) := by decide

theorem test_check_match :
    (after 0x14 { cold with regs.val := 0x100#32, regs.mask := 0x24040#32 }).map
      (fun t => (t.res, t.flags.toWord, t.ctl.errWord)) = some (0#32, 0#32, 0#32) := by decide

/-- 95_test_vectors 2.4 B1: 02 00 01 00 AB then CD, the highest bit first; 48 pulses, TMS=1 on the last. -/
theorem test_burstwr :
    tdiAfter 0x20 { withBuf [0xAB#8, 0xB3#8] 2#32 (inState .shiftDR) with regs.val := 0x02000100#32 } =
      some (48, 0x02000100ABCD) ∧
    tmsAfter 0x20 { withBuf [0xAB#8, 0xB3#8] 2#32 (inState .shiftDR) with regs.val := 0x02000100#32 } =
      some (48, 1) := by decide

/-- 95_test_vectors 2.4: the two backends make the same levels. -/
theorem test_burstwr_no_peripheral :
    tdiAfter 0x20 { withBuf [0xAB#8, 0xB3#8] 2#32 (inState .shiftDR) with
      regs.val := 0x02000100#32, cfg.useBurst := false } = some (48, 0x02000100ABCD) := by decide

/-- 42 R209: the target answers 0x12 0x34 after the 32 prefix pulses. -/
theorem test_burstrd :
    (after 0x21 { withBuf [] 2#32 (inState .shiftDR) with
      regs.val := 0x0B000000#32
      env.target := .samples (List.replicate 32 false ++
        [false, false, false, true, false, false, true, false, false, false, true, true, false, true, false, false] ++
        List.replicate 8 true) 0 }).map (fun t => t.buf.readRange 0 2) = some (some [0x12#8, 0x34#8]) := by decide

/-- 95_test_vectors 2.5.1: the id, 61 pulses, the lines released again. -/
theorem test_identify :
    (after 0x30 cold).map (fun t => (t.res, pulseCount t.trace, t.pins.path, t.tap.known)) =
      some (0x41111043#32, 61, .released, false) := by decide

/-- 95_test_vectors 2.5.2: 233 pulses with CFG_WAIT = (2, 0), STAT 0x164, both checks passed. -/
theorem test_opencfg :
    (after 0x31 cold).map (fun t => (t.res, pulseCount t.trace, t.statWord)) = some (1#32, 233, 0x164#32) := by decide

/-- 95_test_vectors 2.5.2: status 0x1000 fails the second check only: 229 + 4 pulses still, R_RES 0, MISMATCH. -/
theorem test_opencfg_mismatch :
    (after 0x31 { cold with env.target := .reference { target .pauseIR 0xE0#8 with refStatus := 0x1000#32 } }).map
      (fun t => (t.res, pulseCount t.trace, t.flags.toWord, t.devmode)) =
      some (0#32, 233, 1#32, .configuredForSRAM) := by decide

/-- 95_test_vectors 2.5.3: 357 pulses, STAT 0x1A4. -/
theorem test_openflash :
    (after 0x32 cold).map (fun t => (t.res, pulseCount t.trace, t.statWord)) = some (1#32, 357, 0x1A4#32) := by decide

/-- 95_test_vectors 2.5.4: 146 pulses with REFRESH_WAIT = (2, 0), the lines released. -/
theorem test_close :
    (after 0x33 (flashOpen [])).map (fun t => (pulseCount t.trace, t.devmode, t.pins.path, t.tap.known)) =
      some (146, .idle, .released, false) := by decide

theorem test_close_idle_mode : errAfter 0x33 fresh = some 8#32 := by decide

/-- 44 R243: a flash that answers 0x03, then 0x01, then 0x00: three reads, two waits, R_RES 0. -/
theorem test_poll :
    (after 0x40 { flashOpen [] with
      regs.att := 5#32
      regs.dly := 2#32
      env.target := .samples
        (List.replicate 16 false ++ [true, true] ++ List.replicate 4 false ++
         List.replicate 17 false ++ [true] ++ List.replicate 4 false ++ List.replicate 22 false) 0 }).map
      (fun t => (t.res, t.ctl.errWord, pulseCount t.trace, waitCount t.trace)) = some (0#32, 0#32, 66, 2) := by decide

/-- 95_test_vectors 2.6.1: no attempts: StatusTimeout(0), R_RES kept. -/
theorem test_poll_no_attempts :
    (after 0x40 { flashOpen [] with res := 1#32 }).map (fun t => (t.ctl.errWord, t.res, t.flags.toWord, pulseCount t.trace)) =
      some (3#32, 1#32, 2#32, 0) := by decide

/-- 95_test_vectors 2.6.2: the block is 0xFF, its neighbours are kept, 118 pulses with one busy read. -/
theorem test_erase :
    (after 0x41 { flashOpen [(0x11FFF, 0x55#8), (0x12000, 0x00#8), (0x13000, 0x77#8)] with regs.addr := 0x12000#32 }).map
      (fun t => (t.ctl.errWord, pulseCount t.trace,
        match t.env.target with | .reference r => r.flash.mem | .samples _ _ => [])) =
      some (0#32, 118, [(0x11FFF, 0x55#8), (0x13000, 0x77#8)]) := by decide

/-- A misaligned address; one in the last block, whose range is checked first (20_memory R84, 60 R285). -/
theorem test_erase_misaligned : errAfter 0x41 { flashOpen [] with regs.addr := 0x12345#32 } = some 0x01234502#32 ∧
    errAfter 0x41 { flashOpen [] with regs.addr := 0xFFF001#32 } = some 0xFFF0010A#32 := by decide

/-- 95_test_vectors 2.6.3: 112 pulses with one busy read; the flash holds AB CD. -/
theorem test_write :
    (after 0x42 { withBuf [0xAB#8, 0xCD#8] 2#32 (flashOpen []) with regs.addr := 0x100#32 }).map
      (fun t => (t.ctl.errWord, pulseCount t.trace,
        match t.env.target with | .reference r => r.flash.mem | .samples _ _ => [])) =
      some (0#32, 112, [(0x100, 0xAB#8), (0x101, 0xCD#8)]) := by decide

theorem test_write_order : errAfter 0x42 { cold with regs.addr := 0x101#32 } = some 0x00010102#32 ∧
    errAfter 0x42 { cold with regs.addr := 0x100#32 } = some 9#32 := by decide

/-- 95_test_vectors 2.6.4: 62 pulses, BUF gets 12 34. -/
theorem test_read :
    (after 0x43 (withBuf [] 2#32 (flashOpen [(0, 0x12#8), (1, 0x34#8), (2, 0x56#8)]))).map
      (fun t => (t.buf.readRange 0 2, pulseCount t.trace)) = some (some [0x12#8, 0x34#8], 62) := by decide

/-- 95_test_vectors 2.6.4: address plus length beyond 2^24. -/
theorem test_read_beyond : errAfter 0x43 { withBuf [] 2#32 (flashOpen []) with regs.addr := 0xFFFFFF#32 } =
    some 0xFFFFFF0A#32 := by decide

/-- 95_test_vectors 2.6.6 U6: an empty source opens flash mode and ends with all statistics 0. -/
theorem test_upload_empty :
    (after 0x44 cold).map (fun t => (t.ctl.errWord, pulseCount t.trace, t.devmode, t.stats.blocks)) =
      some (0#32, 357, .configuredForFlash, 0#32) := by decide

/-- 20_memory R78: a source that is endless gives what is asked after its listed bytes too. -/
theorem test_endless_next :
    let b : ByteStream := { content := [0xA5#8], endless := true, drawn := 7 }
    b.peek 3 = [0xA5#8, Config.sourceByte 7, Config.sourceByte 8] ∧ b.skip 3 = { content := [], endless := true, drawn := 9 } ∧
      { b with endless := false }.peek 3 = [0xA5#8] := ⟨rfl, rfl, rfl⟩

/-- 70 R337, 44 R256: under TC1 the next chunk of an endless source would start at 2^24: AddressRangeError, the chunk
filled, nothing counted. -/
theorem test_endless_past_flash :
    let s : State := { flashOpen [] with
      cfg := Config.tc1, work.faddr := 2 ^ 24
      env.source := { stream := { content := [], endless := true, drawn := 3 }, offers := [10, 9], asked := 0 } }
    let r := chunkLoop (chunkRounds s.cfg) s
    r.1 = some .addressRangeError ∧ r.2.work.faddr = 2 ^ 24 ∧ r.2.stats = s.stats ∧
      r.2.env.source.stream = { content := [], endless := true, drawn := 19 } := by decide

/-- 95_test_vectors 2.6.6 U11: a misaligned base under TC1. -/
theorem test_upload_misaligned : errAfter 0x44 { cold with cfg := Config.tc1, regs.addr := 0x18#32 } =
    some 0x00001802#32 := by decide

/-! ### Witnesses: for each statement, a state and operands that meet its hypotheses, clause by clause -/

/-- The state a next outcome holds; else the given one. -/
def nextOr (s : State) : Host.Outcome State Fault Refusal → State
  | .next t => t
  | .fault _ => s
  | .refused _ => s

/-- The state after a command, where it has one. -/
def ranTo (i : Instr) (s : State) : State := nextOr s (exec i s)

/-- The events a state has beyond those of an earlier one, in time order. -/
def since (s t : State) : List Event := (t.trace.take (t.trace.length - s.trace.length)).reverse

/-- The next thing the host does is this access. -/
def host (a : Access) (s : State) : State := { s with port.inputs := [.access a] }

/-- A target that answers 0 to every listed pulse. -/
def zeros (n : Nat) (s : State) : State := { s with env.target := .samples (List.replicate n false) 0 }

theorem undisturbed_of_quiet {s : State} (hc : s.port.cut = none) (hd : s.port.during = []) : s.undisturbed :=
  ⟨hc, by simp [hd]⟩

theorem inState_inTap (st : TapState) : (inState st).inTap st :=
  ⟨rfl, rfl, rfl, fun _ => by cases st <;> rfl⟩

theorem flashOpen_inTap (mem : Memory) : (flashOpen mem).inTap .selectDRScan := inState_inTap .selectDRScan

theorem cold_between : BetweenCommands cold :=
  BetweenCommands.resetWith _ _ _ (by decide) rfl

theorem acquired_between : BetweenCommands acquired :=
  { cold_between with noBurst := by decide, releasedUnknown := by decide, modeHoldsLines := by decide }

theorem fresh_between : BetweenCommands fresh :=
  { acquired_between with
    releasedUnknown := by decide, onesBound := by decide, onesReset := by decide, tapConsistent := fun _ => rfl }

theorem flashOpen_between (mem : Memory) : BetweenCommands (flashOpen mem) :=
  { fresh_between with modeHoldsLines := fun _ => rfl }

theorem witness_IllegalWordRefused :
    let s := host (.write 32 0x00 0x112#32) cold
    s.undisturbed ∧ s.ctl.busy = false ∧ s.port.inputs = .access (.write 32 0x00 0x112#32) :: [] ∧
      (∀ i, decode 0x112#32 ≠ .ok i) :=
  ⟨undisturbed_of_quiet rfl rfl, rfl, rfl, fun i h => by
    rw [show decode 0x112#32 = .error (.unusedFlag 0x12) by decide] at h; exact nomatch h⟩

theorem witness_StepRunsDecodedCommand :
    let s := host (.write 32 0x00 0x10#32) cold
    s.ctl.busy = false ∧ s.port.inputs = .access (.write 32 0x00 0x10#32) :: [] ∧ decode 0x10#32 = .ok .reset := by
  decide

theorem witness_StepWaitsWithoutInput : cold.port.inputs = [] := rfl

/-- The first, the last and a middle register of the map. -/
theorem witness_HostReadsRegisters :
    ∀ off ∈ [0x00, 0x04, 0x48, 0x64], (host (.read 32 off) cold).ctl.busy = false ∧
      (host (.read 32 off) cold).port.inputs = .access (.read 32 off) :: [] ∧
      ∃ v, (off, v) ∈ [(0x00, 0#32), (0x04, cold.statWord), (0x48, cold.regs.dly), (0x64, cold.stats.elapsed)] := by
  intro off h
  refine ⟨rfl, rfl, ?_⟩
  rcases List.mem_cons.mp h with rfl | h
  · exact ⟨_, .head _⟩
  rcases List.mem_cons.mp h with rfl | h
  · exact ⟨_, .tail _ (.head _)⟩
  rcases List.mem_cons.mp h with rfl | h
  · exact ⟨_, .tail _ (.tail _ (.head _))⟩
  · rw [List.mem_singleton.mp h]; exact ⟨_, .tail _ (.tail _ (.tail _ (.head _)))⟩

/-- Each clause: another width, FLAGS, the first and the last operand register, the ends of the BUF window, and offsets no
clause takes just beside them. -/
theorem witness_HostWritesRegisters :
    ∀ x ∈ [(16, 0x00), (32, 0x0C), (32, 0x20), (32, 0x24), (32, 0x28), (32, 0x2C), (32, 0x30), (32, 0x34), (32, 0x38),
        (32, 0x3C), (32, 0x40), (32, 0x44), (32, 0x48), (32, 0x1000), (32, 0x2FFC), (32, 0x3000), (32, 0x1002),
        (32, 0x4C), (32, 0x04)],
      (host (.write x.1 x.2 5#32) cold).ctl.busy = false ∧
      (host (.write x.1 x.2 5#32) cold).port.inputs = .access (.write x.1 x.2 5#32) :: [] ∧ x ≠ (32, 0x00) := by
  decide

/-- The first and the last word of BUF. -/
theorem witness_BufWindowReadsBack :
    ∀ a ∈ [0, 8188],
      let s : State := { cold with port.inputs := [.access (.write 32 (0x1000 + a) 7#32), .access (.read 32 (0x1000 + a))] }
      s.ctl.busy = false ∧ a % 4 = 0 ∧ a + 4 ≤ s.cfg.bufBytes ∧
        s.port.inputs = .access (.write 32 (0x1000 + a) 7#32) :: .access (.read 32 (0x1000 + a)) :: [] := by
  decide

/-- The state with accesses of the host to come while the next command runs. -/
def meanwhile (l : List (Nat × Access)) (s : State) : State := { s with port.during := l }

/-- Accesses of every kind, at once and after an event; a command beside them; and a step that finds BUSY = 1. -/
theorem witness_BusyHostAccess :
    let l : List (Nat × Access) := [(0, .read 32 0x04), (0, .write 32 0x20 5#32), (0, .read 32 0x20), (1, .read 8 0x04)]
    let s := meanwhile l acquired
    let u := meanwhile [(1, .read 32 0x04)] acquired
    (∀ x ∈ l, x.2 ≠ .reset) ∧ s.undisturbed ∧ exec .reset s = .next (ranTo .reset s) ∧
    (u.undisturbed ∧ u.port.during = (0 + 1, .read 32 0x04) :: []) ∧
    ∀ a ∈ [Access.read 32 0x04, .read 32 0x20, .write 32 0x00 1#32],
      let s := host a { cold with ctl.busy := true }
      s.ctl.busy = true ∧ a ≠ .reset ∧ s.port.inputs = .access a :: [] :=
  ⟨by decide, ⟨rfl, by decide⟩, rfl, ⟨⟨rfl, by decide⟩, rfl⟩, by decide⟩

/-- A command that completes, and one that faults. -/
theorem witness_HostCannotDisturb :
    let s := meanwhile [(1, .write 32 0x20 5#32)] acquired
    let u := meanwhile [(0, .read 32 0x04)] { cold with regs.len := 1#32 }
    (s.undisturbed ∧ exec .reset (meanwhile [] s) = .next (ranTo .reset (meanwhile [] s))) ∧
    (u.undisturbed ∧ exec .rev8 (meanwhile [] u) = .fault .bufNeverWritten) :=
  ⟨⟨⟨rfl, by decide⟩, rfl⟩, ⟨rfl, by decide⟩, rfl⟩

theorem witness_HardwareResetStep : (host .reset fresh).port.inputs = .access .reset :: [] := rfl

/-- A reset before the first event of a command that could not go on; and of RESET, whose seven events are six pulses and
`Done`, a reset after the second, after the last, and one too late. -/
theorem witness_HardwareResetInCommand :
    let u := meanwhile [(0, .reset)] { cold with regs.len := 1#32 }
    let s (m : Nat) := meanwhile [(m, .reset)] acquired
    let t0 := ranTo .reset acquired
    (u.port.cut = none ∧ cutPoint u.port.during = some 0) ∧
    (∀ m ∈ [2, 7, 8], (s m).port.cut = none ∧ cutPoint (s m).port.during = some m) ∧
    (exec .reset (meanwhile [] (s 2)) = .next t0 ∧ newEvents (s 2) t0 (since (s 2) t0) ∧ (since (s 2) t0).length = 7) ∧
    (exec .reset (s 2) = .next (ranTo .reset (s 2)) ∧ (ranTo .reset (s 2)).port.resets ≠ (s 2).port.resets) :=
  ⟨⟨rfl, rfl⟩, by decide, ⟨rfl, by unfold newEvents; decide⟩, rfl, by decide⟩

theorem witness_BetweenCommandsKept :
    let s := cold.withFetchWord 32 0x01
    BetweenCommands s ∧ step s = .next (nextOr s (step s)) :=
  ⟨BetweenCommands.resetWith _ _ _ (by decide) rfl, rfl⟩

/-- Both clauses, with ONES at 4 and the fifth pulse with TMS=1 to come. -/
theorem witness_TrackerUpdate :
    acquired.port.during = [] ∧
    ({ state := .selectIRScan, known := true, ones := 4#3 } : Tracker).known = true ∧
    ({ state := .selectIRScan, known := true, ones := 4#3 } : Tracker).consistent :=
  ⟨rfl, rfl, fun _ => rfl⟩

theorem witness_TraceTellsAll :
    BetweenCommands fresh ∧ fresh.undisturbed ∧
      exec (.settms true) fresh = .next (ranTo (.settms true) fresh) :=
  ⟨fresh_between, undisturbed_of_quiet rfl rfl, rfl⟩

theorem witness_Rev8Law : 0 < 8 ∧ 7 < 8 := by decide

theorem witness_BitOrders :
    (15 < 16 ∧ 15 < 8 * [0x01#8, 0x80#8].length) ∧ 15 < 8 * [0x0B#8, 0x00#8].length ∧
    (1 < 2 ∧ (List.replicate 16 true).length = 8 * 2 ∧ 7 < 8) := by decide

theorem witness_AcquireCommand : cold.undisturbed ∧ acquired.undisturbed ∧
    acquired.pins.path ≠ .released ∧ cold.pins.path = .released :=
  ⟨undisturbed_of_quiet rfl rfl, undisturbed_of_quiet rfl rfl, by decide, rfl⟩

theorem witness_ReleaseCommand : cold.undisturbed ∧ fresh.undisturbed ∧ (flashOpen []).undisturbed ∧
    cold.pins.path ≠ .bitBang ∧
    (¬(flashOpen []).pins.path ≠ .bitBang ∧ (flashOpen []).devmode ≠ .idle) ∧
    (fresh.pins.path = .bitBang ∧ fresh.devmode = .idle) :=
  ⟨undisturbed_of_quiet rfl rfl, undisturbed_of_quiet rfl rfl, undisturbed_of_quiet rfl rfl, by decide⟩

/-- Released lines, an unknown state, a known and consistent one. -/
theorem witness_ShiftbitCommand : cold.undisturbed ∧ acquired.undisturbed ∧ fresh.undisturbed ∧
    cold.pins.path ≠ .bitBang ∧ (¬acquired.pins.path ≠ .bitBang ∧ acquired.tap.known = false) ∧
    (fresh.pins.path = .bitBang ∧ fresh.tap.known = true) ∧ fresh.tap.consistent :=
  ⟨undisturbed_of_quiet rfl rfl, undisturbed_of_quiet rfl rfl, undisturbed_of_quiet rfl rfl, by decide, by decide,
    by decide, fun _ => rfl⟩

/-- Released lines, an unknown state, a known and consistent one. -/
theorem witness_SettmsCommand : cold.undisturbed ∧ acquired.undisturbed ∧ fresh.undisturbed ∧
    cold.pins.path ≠ .bitBang ∧ (¬acquired.pins.path ≠ .bitBang ∧ acquired.tap.known = false) ∧
    (fresh.pins.path = .bitBang ∧ fresh.tap.known = true) ∧ fresh.tap.consistent :=
  witness_ShiftbitCommand

/-- Length 0; a range that leaves BUF by one byte; the last byte of BUF. -/
theorem witness_Rev8Command :
    let s (len at' : Word) : State := { withBuf [] len cold with buf := [(8191, 0x06#8)], regs.buf := at' }
    (s 0#32 0#32).undisturbed ∧ (s 0#32 0#32).regs.len = 0#32 ∧ ¬(s 2#32 8191#32).inBuf (s 2#32 8191#32).regs.len.toNat ∧
    (s 1#32 8191#32).undisturbed ∧ (s 1#32 8191#32).regs.len ≠ 0#32 ∧
    (s 1#32 8191#32).inBuf (s 1#32 8191#32).regs.len.toNat ∧ [0x06#8].length = (s 1#32 8191#32).regs.len.toNat ∧
    bufHolds (s 1#32 8191#32) (s 1#32 8191#32).regs.buf.toNat [0x06#8] :=
  ⟨undisturbed_of_quiet rfl rfl, by decide, by unfold State.inBuf; decide, undisturbed_of_quiet rfl rfl, by decide,
    by unfold State.inBuf; decide, by decide, by unfold bufHolds; decide⟩

theorem witness_ResetCommand : cold.undisturbed ∧ cold.pins.path ≠ .bitBang ∧ acquired.undisturbed ∧
    acquired.pins.path = .bitBang :=
  ⟨undisturbed_of_quiet rfl rfl, by decide, undisturbed_of_quiet rfl rfl, rfl⟩

/-- The three refusals, and each of the four entry states, Reset with one cycle. -/
theorem witness_IdleCommand :
    (cold.undisturbed ∧ cold.pins.path ≠ .bitBang) ∧
    (fresh.undisturbed ∧ ¬fresh.pins.path ≠ .bitBang ∧ fresh.notIn [.reset, .idle, .updateDR, .updateIR]) ∧
    ((inState .reset).undisturbed ∧ ¬(inState .reset).pins.path ≠ .bitBang ∧
      ¬(inState .reset).notIn [.reset, .idle, .updateDR, .updateIR] ∧
      ((inState .reset).tap.state = .reset ∧ (inState .reset).regs.cyc = 0#32)) ∧
    (∀ st ∈ [TapState.idle, .updateDR, .updateIR], (inState st).inTap st ∧ ¬(st = .reset ∧ (inState st).regs.cyc = 0#32)) ∧
    ((inState .reset).inTap .reset ∧ ¬(TapState.reset = .reset ∧ { inState .reset with regs.cyc := 1#32 }.regs.cyc = 0#32)) :=
  ⟨⟨undisturbed_of_quiet rfl rfl, by decide⟩,
    ⟨undisturbed_of_quiet rfl rfl, by decide, by unfold State.notIn; decide⟩,
    ⟨undisturbed_of_quiet rfl rfl, by decide, by unfold State.notIn; decide, by decide⟩,
    fun st h => ⟨inState_inTap st, by revert st; decide⟩, inState_inTap .reset, by decide⟩

/-- SelectDRScan, an instruction of so many bits. -/
def sirAt (n : Word) : State := { fresh with regs.len := n }

/-- The first two refusals; the lengths 0 and 33, refused; the lengths 1 and 32. -/
theorem witness_SirCommand :
    (cold.undisturbed ∧ cold.pins.path ≠ .bitBang) ∧
    (acquired.undisturbed ∧ ¬acquired.pins.path ≠ .bitBang ∧ acquired.notIn [.selectDRScan]) ∧
    (∀ n, (sirAt n).undisturbed ∧ (sirAt n).inTap .selectDRScan) ∧
    ((sirAt 0#32).regs.len = 0#32 ∧ 32 < (sirAt 33#32).regs.len.toNat) ∧
    ((sirAt 1#32).regs.len ≠ 0#32 ∧ (sirAt 1#32).regs.len.toNat ≤ 32) ∧
    ((sirAt 32#32).regs.len ≠ 0#32 ∧ (sirAt 32#32).regs.len.toNat ≤ 32) :=
  ⟨⟨undisturbed_of_quiet rfl rfl, by decide⟩,
    ⟨undisturbed_of_quiet rfl rfl, by decide, by unfold State.notIn; decide⟩,
    fun _ => ⟨undisturbed_of_quiet rfl rfl, inState_inTap .selectDRScan⟩, by decide, by decide, by decide⟩

/-- Length 0; a range one byte too long; one bit in the last byte of BUF. -/
theorem witness_SdrCommand :
    let s (len at' : Word) : State := { fresh with buf := [(8191, 0x01#8)], regs.len := len, regs.buf := at' }
    (cold.undisturbed ∧ cold.pins.path ≠ .bitBang) ∧
    (acquired.undisturbed ∧ ¬acquired.pins.path ≠ .bitBang ∧ acquired.notIn [.selectDRScan]) ∧
    ((s 0#32 0#32).undisturbed ∧ ¬(s 0#32 0#32).notIn [.selectDRScan] ∧ (s 0#32 0#32).regs.len.toNat = 0) ∧
    (¬(s 9#32 8191#32).inBuf (((s 9#32 8191#32).regs.len.toNat + 7) / 8)) ∧
    ((s 1#32 8191#32).undisturbed ∧ (s 1#32 8191#32).inTap .selectDRScan ∧ (s 1#32 8191#32).regs.len.toNat ≠ 0 ∧
      (s 1#32 8191#32).inBuf (((s 1#32 8191#32).regs.len.toNat + 7) / 8) ∧
      [0x01#8].length = ((s 1#32 8191#32).regs.len.toNat + 7) / 8 ∧
      bufHolds (s 1#32 8191#32) (s 1#32 8191#32).regs.buf.toNat [0x01#8]) :=
  ⟨⟨undisturbed_of_quiet rfl rfl, by decide⟩,
    ⟨undisturbed_of_quiet rfl rfl, by decide, by unfold State.notIn; decide⟩,
    ⟨undisturbed_of_quiet rfl rfl, by unfold State.notIn; decide, by decide⟩,
    by unfold State.inBuf; decide,
    ⟨undisturbed_of_quiet rfl rfl, inState_inTap .selectDRScan, by decide, by unfold State.inBuf; decide, by decide,
      by unfold bufHolds; decide⟩⟩

theorem witness_CheckCommand : cold.undisturbed ∧
    ((0x24000#32 ^^^ 0#32) &&& 0x24040#32) ≠ 0#32 ∧ ¬((0x100#32 ^^^ 0#32) &&& 0x24040#32) ≠ 0#32 :=
  ⟨undisturbed_of_quiet rfl rfl, by decide⟩

/-- The refusals, and a range of one byte, the last of BUF. -/
theorem witness_BurstwrCommand :
    let s (len at' : Word) : State := { inState .shiftDR with buf := [(8191, 0x01#8)], regs.len := len, regs.buf := at' }
    (cold.undisturbed ∧ cold.pins.path ≠ .bitBang) ∧
    (fresh.undisturbed ∧ ¬fresh.pins.path ≠ .bitBang ∧ fresh.notIn [.shiftDR]) ∧
    ((s 0#32 0#32).undisturbed ∧ ¬(s 0#32 0#32).notIn [.shiftDR] ∧ (s 0#32 0#32).regs.len = 0#32) ∧
    (¬(s 2#32 8191#32).inBuf (s 2#32 8191#32).regs.len.toNat) ∧
    ((s 1#32 8191#32).undisturbed ∧ (s 1#32 8191#32).inTap .shiftDR ∧
      (s 1#32 8191#32).inBuf (s 1#32 8191#32).regs.len.toNat ∧
      ([] : List Byte).length + 1 = (s 1#32 8191#32).regs.len.toNat ∧
      bufHolds (s 1#32 8191#32) (s 1#32 8191#32).regs.buf.toNat ([] ++ [0x01#8])) :=
  ⟨⟨undisturbed_of_quiet rfl rfl, by decide⟩,
    ⟨undisturbed_of_quiet rfl rfl, by decide, by unfold State.notIn; decide⟩,
    ⟨undisturbed_of_quiet rfl rfl, by unfold State.notIn; decide, by decide⟩,
    by unfold State.inBuf; decide,
    ⟨undisturbed_of_quiet rfl rfl, inState_inTap .shiftDR, by unfold State.inBuf; decide, by decide,
      by unfold bufHolds; decide⟩⟩

/-- The refusals, and a range of one byte, the last of BUF. -/
theorem witness_BurstrdCommand :
    let s (len at' : Word) : State := { inState .shiftDR with regs.len := len, regs.buf := at' }
    (cold.undisturbed ∧ cold.pins.path ≠ .bitBang) ∧
    (fresh.undisturbed ∧ ¬fresh.pins.path ≠ .bitBang ∧ fresh.notIn [.shiftDR]) ∧
    ((s 0#32 0#32).undisturbed ∧ ¬(s 0#32 0#32).notIn [.shiftDR] ∧ (s 0#32 0#32).regs.len.toNat = 0) ∧
    (¬(s 2#32 8191#32).inBuf (s 2#32 8191#32).regs.len.toNat) ∧
    ((s 1#32 8191#32).undisturbed ∧ (s 1#32 8191#32).inTap .shiftDR ∧ (s 1#32 8191#32).regs.len.toNat ≠ 0 ∧
      (s 1#32 8191#32).inBuf (s 1#32 8191#32).regs.len.toNat) :=
  ⟨⟨undisturbed_of_quiet rfl rfl, by decide⟩,
    ⟨undisturbed_of_quiet rfl rfl, by decide, by unfold State.notIn; decide⟩,
    ⟨undisturbed_of_quiet rfl rfl, by unfold State.notIn; decide, by decide⟩,
    by unfold State.inBuf; decide,
    ⟨undisturbed_of_quiet rfl rfl, inState_inTap .shiftDR, by decide, by unfold State.inBuf; decide⟩⟩

theorem witness_BurstEqualsShift :
    let s := zeros 20 (inState .shiftDR)
    let t := burstWrite [0x02#8] [] (rev8 0xCD#8) s
    let u := (shiftBits (bitsOf (([0x02#8] ++ [] ++ [0xCD#8]).map rev8) (8 * (1 + 0 + 1))) s).2
    newEvents s t (since s t) ∧ newEvents s u (since s u) := by
  unfold newEvents; decide

theorem witness_BackendsAgree :
    let s := zeros 60 (flashOpen [])
    let bb : State := { s with cfg.useBurst := false }
    newEvents s (readBlock 0 1 s).2 (since s (readBlock 0 1 s).2) ∧
      newEvents bb (readBlock 0 1 bb).2 (since bb (readBlock 0 1 bb).2) := by
  unfold newEvents; decide

theorem witness_IdentifyCommand : cold.undisturbed ∧ fresh.undisturbed :=
  ⟨undisturbed_of_quiet rfl rfl, undisturbed_of_quiet rfl rfl⟩

theorem witness_IdentifyReturnsReferenceId :
    cold.undisturbed ∧ cold.env.target = .reference (target .pauseIR 0xE0#8) :=
  ⟨undisturbed_of_quiet rfl rfl, rfl⟩

theorem witness_OpencfgCommand : cold.undisturbed ∧ cold.pins.path ≠ .burst :=
  ⟨undisturbed_of_quiet rfl rfl, by decide⟩

theorem witness_OpenflashCommand : cold.undisturbed ∧ 0 < cold.cfg.progSpiBits ∧ cold.pins.path ≠ .burst :=
  ⟨undisturbed_of_quiet rfl rfl, by decide⟩

theorem witness_CloseCommand :
    (cold.undisturbed ∧ cold.devmode = .idle) ∧
    (let s : State := { cold with devmode := .configuredForSRAM }
     s.undisturbed ∧ ¬s.devmode = .idle ∧ s.pins.path ≠ .bitBang) ∧
    (let s : State := { acquired with devmode := .configuredForSRAM }
     s.undisturbed ∧ ¬s.devmode = .idle ∧ ¬s.pins.path ≠ .bitBang ∧ s.notIn [.selectDRScan]) ∧
    ((flashOpen []).undisturbed ∧ (flashOpen []).devmode ≠ .idle ∧ (flashOpen []).inTap .selectDRScan) :=
  ⟨⟨undisturbed_of_quiet rfl rfl, rfl⟩, ⟨undisturbed_of_quiet rfl rfl, by decide⟩,
    ⟨undisturbed_of_quiet rfl rfl, by decide, by decide, by unfold State.notIn; decide⟩,
    ⟨undisturbed_of_quiet rfl rfl, by decide, flashOpen_inTap []⟩⟩

/-- The three refusals every flash command shares, once the address and the length are right, and its completion. -/
theorem witness_PollCommand :
    (fresh.undisturbed ∧ fresh.devmode ≠ .configuredForFlash) ∧
    (let s : State := { cold with devmode := .configuredForFlash }
     s.undisturbed ∧ ¬s.devmode ≠ .configuredForFlash ∧ s.pins.path ≠ .bitBang) ∧
    (let s : State := { acquired with devmode := .configuredForFlash }
     s.undisturbed ∧ ¬s.devmode ≠ .configuredForFlash ∧ ¬s.pins.path ≠ .bitBang ∧ s.notIn [.selectDRScan]) ∧
    ((flashOpen []).undisturbed ∧ (flashOpen []).devmode = .configuredForFlash ∧ (flashOpen []).inTap .selectDRScan) :=
  ⟨⟨undisturbed_of_quiet rfl rfl, by decide⟩, ⟨undisturbed_of_quiet rfl rfl, by decide⟩,
    ⟨undisturbed_of_quiet rfl rfl, by decide, by decide, by unfold State.notIn; decide⟩,
    ⟨undisturbed_of_quiet rfl rfl, rfl, flashOpen_inTap []⟩⟩

/-- With no attempt, and with one against a target that answers 1 to every pulse. -/
theorem witness_PollNeverHangs :
    let s : State := { flashOpen [] with
      regs.att := 1#32, env.target := .samples (List.replicate (22 * (1#32 : Word).toNat) true) 0 }
    ((flashOpen []).undisturbed ∧ (flashOpen []).devmode = .configuredForFlash ∧ (flashOpen []).inTap .selectDRScan ∧
      (flashOpen []).regs.att.toNat = 0) ∧
    (s.undisturbed ∧ s.devmode = .configuredForFlash ∧ s.inTap .selectDRScan ∧ s.cfg.srWip ≠ 0#8 ∧
      s.env.target = .samples (List.replicate (22 * s.regs.att.toNat) true) 0) :=
  ⟨⟨undisturbed_of_quiet rfl rfl, rfl, flashOpen_inTap [], rfl⟩,
    ⟨undisturbed_of_quiet rfl rfl, rfl, flashOpen_inTap [], by decide, rfl⟩⟩

/-- An address just beyond the flash, one whose block would run past it, a misaligned one; the last erase block. The
refusals after them are those of POLL's witness, whose states have address 0. -/
theorem witness_EraseCommand :
    let s (a : Word) : State := { flashOpen [] with regs.addr := a }
    ((s 0x1000000#32).undisturbed ∧ 2 ^ 24 ≤ (s 0x1000000#32).regs.addr.toNat) ∧
    2 ^ 24 < (s 0xFFF001#32).regs.addr.toNat + (s 0xFFF001#32).cfg.eraseBlock ∧
    ((s 0x000001#32).undisturbed ∧ ¬(2 ^ 24 ≤ (s 0x000001#32).regs.addr.toNat ∨
        2 ^ 24 < (s 0x000001#32).regs.addr.toNat + (s 0x000001#32).cfg.eraseBlock) ∧
      (s 0x000001#32).regs.addr.toNat % (s 0x000001#32).cfg.eraseBlock ≠ 0) ∧
    (¬(2 ^ 24 ≤ fresh.regs.addr.toNat ∨ 2 ^ 24 < fresh.regs.addr.toNat + fresh.cfg.eraseBlock) ∧
      ¬fresh.regs.addr.toNat % fresh.cfg.eraseBlock ≠ 0 ∧ fresh.devmode ≠ .configuredForFlash) ∧
    ((s 0xFFF000#32).undisturbed ∧ (s 0xFFF000#32).regs.addr.toNat < 2 ^ 24 ∧
      (s 0xFFF000#32).regs.addr.toNat + (s 0xFFF000#32).cfg.eraseBlock ≤ 2 ^ 24 ∧
      (s 0xFFF000#32).regs.addr.toNat % (s 0xFFF000#32).cfg.eraseBlock = 0 ∧
      (s 0xFFF000#32).devmode = .configuredForFlash ∧ (s 0xFFF000#32).inTap .selectDRScan) :=
  ⟨⟨undisturbed_of_quiet rfl rfl, by decide⟩, by decide, ⟨undisturbed_of_quiet rfl rfl, by decide⟩, by decide,
    ⟨undisturbed_of_quiet rfl rfl, by decide, by decide, by decide, rfl, flashOpen_inTap []⟩⟩

/-- Beyond the flash by one byte, a misaligned address, lengths 0 and one more than a block, another mode; the last
block of the flash, one byte. -/
theorem witness_WriteCommand :
    let s (a n : Word) : State := { withBuf [0x7E#8] n (flashOpen []) with regs.addr := a }
    ((s 0xFFFF00#32 257#32).undisturbed ∧
      2 ^ 24 < (s 0xFFFF00#32 257#32).regs.addr.toNat + (s 0xFFFF00#32 257#32).regs.len.toNat) ∧
    ((s 1#32 1#32).undisturbed ∧ ¬(2 ^ 24 ≤ (s 1#32 1#32).regs.addr.toNat ∨
        2 ^ 24 < (s 1#32 1#32).regs.addr.toNat + (s 1#32 1#32).regs.len.toNat) ∧
      (s 1#32 1#32).regs.addr.toNat % (s 1#32 1#32).cfg.writeBlock ≠ 0) ∧
    ((s 0#32 0#32).undisturbed ∧ (s 0#32 0#32).regs.len.toNat = 0) ∧
    ((s 0#32 257#32).undisturbed ∧ (s 0#32 257#32).cfg.writeBlock < (s 0#32 257#32).regs.len.toNat) ∧
    (withBuf [0x7E#8] 1#32 fresh).devmode ≠ .configuredForFlash ∧
    ((s 0xFFFF00#32 1#32).undisturbed ∧ (s 0xFFFF00#32 1#32).regs.addr.toNat < 2 ^ 24 ∧
      (s 0xFFFF00#32 1#32).regs.addr.toNat + (s 0xFFFF00#32 1#32).regs.len.toNat ≤ 2 ^ 24 ∧
      (s 0xFFFF00#32 1#32).regs.addr.toNat % (s 0xFFFF00#32 1#32).cfg.writeBlock = 0 ∧
      (s 0xFFFF00#32 1#32).regs.len.toNat ≠ 0 ∧
      (s 0xFFFF00#32 1#32).regs.len.toNat ≤ (s 0xFFFF00#32 1#32).cfg.writeBlock ∧
      (s 0xFFFF00#32 1#32).inBuf (s 0xFFFF00#32 1#32).regs.len.toNat ∧
      (s 0xFFFF00#32 1#32).devmode = .configuredForFlash ∧ (s 0xFFFF00#32 1#32).inTap .selectDRScan ∧
      [0x7E#8].length = (s 0xFFFF00#32 1#32).regs.len.toNat ∧
      bufHolds (s 0xFFFF00#32 1#32) (s 0xFFFF00#32 1#32).regs.buf.toNat [0x7E#8]) :=
  ⟨⟨undisturbed_of_quiet rfl rfl, by decide⟩, ⟨undisturbed_of_quiet rfl rfl, by decide⟩,
    ⟨undisturbed_of_quiet rfl rfl, by decide⟩, ⟨undisturbed_of_quiet rfl rfl, by decide⟩, by decide,
    ⟨undisturbed_of_quiet rfl rfl, by decide, by decide, by decide, by decide, by decide, by unfold State.inBuf; decide, rfl,
      flashOpen_inTap [], by decide, by unfold bufHolds; decide⟩⟩

/-- Beyond the flash by one byte, lengths 0 and one more than a block; the last byte of the flash. -/
theorem witness_ReadCommand :
    let s (a n : Word) : State := { flashOpen [] with regs.addr := a, regs.len := n }
    ((s 0xFFFFFF#32 2#32).undisturbed ∧
      2 ^ 24 < (s 0xFFFFFF#32 2#32).regs.addr.toNat + (s 0xFFFFFF#32 2#32).regs.len.toNat) ∧
    ((s 0#32 0#32).undisturbed ∧ ¬(2 ^ 24 ≤ (s 0#32 0#32).regs.addr.toNat) ∧ (s 0#32 0#32).regs.len.toNat = 0) ∧
    ((s 0#32 4097#32).undisturbed ∧ (s 0#32 4097#32).cfg.eraseBlock < (s 0#32 4097#32).regs.len.toNat) ∧
    ((s 0xFFFFFF#32 1#32).undisturbed ∧ (s 0xFFFFFF#32 1#32).regs.addr.toNat < 2 ^ 24 ∧
      (s 0xFFFFFF#32 1#32).regs.addr.toNat + (s 0xFFFFFF#32 1#32).regs.len.toNat ≤ 2 ^ 24 ∧
      (s 0xFFFFFF#32 1#32).regs.len.toNat ≠ 0 ∧
      (s 0xFFFFFF#32 1#32).regs.len.toNat ≤ (s 0xFFFFFF#32 1#32).cfg.eraseBlock ∧
      (s 0xFFFFFF#32 1#32).inBuf (s 0xFFFFFF#32 1#32).regs.len.toNat ∧
      (s 0xFFFFFF#32 1#32).devmode = .configuredForFlash ∧ (s 0xFFFFFF#32 1#32).inTap .selectDRScan) :=
  ⟨⟨undisturbed_of_quiet rfl rfl, by decide⟩, ⟨undisturbed_of_quiet rfl rfl, by decide⟩,
    ⟨undisturbed_of_quiet rfl rfl, by decide⟩,
    ⟨undisturbed_of_quiet rfl rfl, by decide, by decide, by decide, by decide, by unfold State.inBuf; decide, rfl,
      flashOpen_inTap []⟩⟩

/-- Just beyond the flash; misaligned; the last erase block. -/
theorem witness_UploadCommand :
    let s (a : Word) : State := { cold with regs.addr := a }
    (∀ a, BetweenCommands (s a) ∧ (s a).undisturbed) ∧
    2 ^ 24 ≤ (s 0x1000000#32).regs.addr.toNat ∧
    (¬2 ^ 24 ≤ (s 1#32).regs.addr.toNat ∧ (s 1#32).regs.addr.toNat % (s 1#32).cfg.eraseBlock ≠ 0) ∧
    ((s 0xFFF000#32).regs.addr.toNat < 2 ^ 24 ∧
      (s 0xFFF000#32).regs.addr.toNat % (s 0xFFF000#32).cfg.eraseBlock = 0) :=
  ⟨fun _ => ⟨{ cold_between with }, undisturbed_of_quiet rfl rfl⟩, by decide⟩

/-- The last erase block, with a source that has an end and with one that has none. -/
theorem witness_UploadTerminates :
    let s (endless : Bool) : State := { cold with regs.addr := 0xFFF000#32, env.source.stream.endless := endless }
    (∀ endless, BetweenCommands (s endless) ∧ (s endless).undisturbed ∧ (s endless).env.source.stream.endless = endless) ∧
    (∀ endless, (s endless).regs.addr.toNat < 2 ^ 24 ∧
      (s endless).regs.addr.toNat % (s endless).cfg.eraseBlock = 0) :=
  ⟨fun _ => ⟨{ cold_between with }, undisturbed_of_quiet rfl rfl, rfl⟩, by decide⟩

/-- A bit to set; a bit to clear; no difference. -/
theorem witness_ClassifyOutcomes :
    ([0x0F#8].length = [0xF0#8].length ∧
      ∃ j < [0xF0#8].length, ([0x0F#8].getD j 0#8 &&& [0xF0#8].getD j 0#8) ≠ [0xF0#8].getD j 0#8) ∧
    ((¬∃ j < [0x30#8].length, ([0xF0#8].getD j 0#8 &&& [0x30#8].getD j 0#8) ≠ [0x30#8].getD j 0#8) ∧
      ∃ j < [0x30#8].length, [0xF0#8].getD j 0#8 ≠ [0x30#8].getD j 0#8) ∧
    (¬∃ j < [0x30#8].length, [0x30#8].getD j 0#8 ≠ [0x30#8].getD j 0#8) := by decide

theorem witness_ChunkAssembly : cold.work.chunklen = 0 := rfl

theorem witness_RetryLoopAnswers :
    let s : State := { flashOpen [] with work.chunk := [0xA5#8], work.chunklen := 1 }
    s.cfg.valid = true ∧ s.work.chunklen ≤ s.work.chunk.length ∧ s.work.retry = 0 := by decide

theorem witness_ProgramAttempt :
    let s : State := { flashOpen [] with work.chunk := [0xA5#8], work.chunklen := 1 }
    s.cfg.valid = true ∧ 0 < s.work.chunklen ∧ s.work.chunklen ≤ s.work.chunk.length ∧ s.inTap .selectDRScan :=
  ⟨by decide, by decide, by decide, flashOpen_inTap []⟩

/-- A chunk of so many zero bytes at the last address of the flash, which reads as zero. -/
def lastChunk (n : Nat) : State :=
  { zeros 60 (flashOpen []) with
    work.chunk := List.replicate n 0x00#8, work.chunklen := n, work.faddr := 0xFFFFFF }

/-- A chunk that stands at the end of the flash; one a byte too long. -/
theorem witness_ChunkRound :
    (∀ n ∈ [1, 2], (lastChunk n).cfg.valid = true ∧ 0 < (lastChunk n).work.chunklen ∧
      (lastChunk n).work.chunklen ≤ (lastChunk n).work.chunk.length) ∧
    (¬2 ^ 24 < (lastChunk 1).work.faddr + (lastChunk 1).work.chunklen ∧ (runChunk (lastChunk 1)).1 = none) ∧
    2 ^ 24 < (lastChunk 2).work.faddr + (lastChunk 2).work.chunklen := by
  refine ⟨by decide, ⟨by decide, ?_⟩, by decide⟩
  have h : (compareChunk { lastChunk 1 with work.retry := 0, work.didErase := false, work.didWrite := false }).work.cls =
      .noOp := by decide
  have hr := retryLoop_ends 2 { lastChunk 1 with work.retry := 0, work.didErase := false, work.didWrite := false } (.inl h)
  rw [if_pos h] at hr
  unfold runChunk
  rw [if_neg (by decide), show Config.retryMax = 2 + 1 from rfl]
  simp only [hr]

theorem witness_MatchingChunkUntouched :
    let s : State := { zeros 60 (flashOpen []) with work.chunk := [0x00#8], work.chunklen := 1 }
    s.work.chunklen ≤ s.work.chunk.length ∧ (readBlock s.work.faddr s.work.chunklen s).1 = s.chunkBytes := by decide

theorem witness_RefusalChangesNothing :
    cold.undisturbed ∧ firstRefusal (entryChecks .reset cold) = some (.sessionError, 0) :=
  ⟨undisturbed_of_quiet rfl rfl, by decide⟩

/-- A lacking PATH, a lacking DEVMODE, a lacking TAP state. -/
theorem witness_CommandNeeds :
    (cold.undisturbed ∧ ∃ p, pathNeed .reset = some p ∧ cold.pins.path ≠ p) ∧
    (fresh.undisturbed ∧ fresh.devmode ∉ modeNeed .poll) ∧ (acquired.undisturbed ∧ ¬tapNeed (.sir false) acquired.tap) :=
  ⟨⟨undisturbed_of_quiet rfl rfl, .bitBang, rfl, by decide⟩, ⟨undisturbed_of_quiet rfl rfl, by decide⟩,
    ⟨undisturbed_of_quiet rfl rfl, by unfold tapNeed; decide⟩⟩

/-- CHECK with a mismatch writes R_RES and sets the flag; REV8 writes BUF. -/
theorem witness_OnlyTheseWrite :
    let s : State := { cold with regs.val := 1#32, regs.mask := 1#32 }
    let t := ranTo .check s
    BetweenCommands s ∧ s.undisturbed ∧ exec .check s = .next t ∧ t.res ≠ s.res ∧ t.flags.mismatch ≠ s.flags.mismatch ∧
      newEvents s t (since s t) :=
  ⟨{ cold_between with }, undisturbed_of_quiet rfl rfl, rfl, by decide, by decide, by unfold newEvents; decide⟩

/-- POLL with no attempts. -/
theorem witness_RaisedErrorState :
    let s := flashOpen []
    BetweenCommands s ∧ s.undisturbed ∧ firstRefusal (entryChecks .poll s) = none ∧
      exec .poll s = .next (ranTo .poll s) ∧ (ranTo .poll s).ctl.err ≠ .ok :=
  ⟨flashOpen_between [], undisturbed_of_quiet rfl rfl, by decide, rfl, by decide⟩

theorem witness_PulseCounts :
    let t := ranTo .reset acquired
    acquired.undisturbed ∧ firstRefusal (entryChecks .reset acquired) = none ∧ exec .reset acquired = .next t ∧
      newEvents acquired t (since acquired t) :=
  ⟨undisturbed_of_quiet rfl rfl, by decide, rfl, by unfold newEvents; decide⟩

/-- The last byte of BUF, one byte for REV8 and one bit for SDR; the fault itself. -/
theorem witness_UnwrittenBufFaults :
    let s : State := { cold with regs.len := 1#32, regs.buf := 8191#32 }
    let u : State := { fresh with regs.len := 1#32, regs.buf := 8191#32 }
    (s.undisturbed ∧ firstRefusal (entryChecks .rev8 s) = none ∧ 1 = s.regs.len.toNat ∧ s.regs.buf.toNat ≤ 8191 ∧
      8191 < s.regs.buf.toNat + 1 ∧ Memory.read s.buf 8191 = none) ∧
    (u.undisturbed ∧ firstRefusal (entryChecks (.sdr true false false) u) = none ∧ 1 = (u.regs.len.toNat + 7) / 8 ∧
      u.regs.buf.toNat ≤ 8191 ∧ 8191 < u.regs.buf.toNat + 1 ∧ Memory.read u.buf 8191 = none) ∧
    exec .rev8 s = .fault .bufNeverWritten :=
  ⟨⟨undisturbed_of_quiet rfl rfl, by decide⟩, ⟨undisturbed_of_quiet rfl rfl, by decide⟩, rfl⟩

end Sys2Proof.Tests
end

section
/-! PROOFS. Bit orders of bytes, frames, addresses and words (spec 00_scope R12 to R14, 20_memory R81). -/

namespace Sys2Proof.Machine

/-- The transport order of `rev8 b` is that of `b` read backwards, so bit i is bit 7-i (spec 00_scope R13). -/
theorem rev8_getLsbD (b : Byte) (i : Nat) (hi : i < 8) : (rev8 b).getLsbD i = b.getLsbD (7 - i) := by
  calc (rev8 b).getLsbD i
      = (byteBits (rev8 b))[i]'(by simpa using hi) := (byteBits_getElem _ _ _).symm
    _ = (byteBits b).reverse[i]'(by simpa using hi) := by simp only [byteBits_rev8]
    _ = b.getLsbD (7 - i) := by rw [List.getElem_reverse, byteBits_getElem, byteBits_length]

/-- Settles O19: the bit law and the inverse hold of every byte; the examples of spec 00_scope R13 are evaluated. -/
theorem rev8Law : Obligations.Rev8Law :=
  ⟨rev8_getLsbD, rev8_rev8, by decide⟩

/-- Bit i of a byte list is bit `i mod 8` of byte `i div 8` (spec 00_scope R12). -/
theorem bitsOf_getElem? (bytes : List Byte) (n i : Nat) (hn : i < n) (hi : i < 8 * bytes.length) :
    (bitsOf bytes n)[i]? = some ((bytes.getD (i / 8) 0#8).getLsbD (i % 8)) := by
  have hbit := flatMap_byteBits_getD bytes (i / 8) (by omega) (i % 8) (by omega)
  have hlen : i < (bytes.flatMap byteBits).length := by rwa [flatMap_byteBits_length]
  rw [Nat.div_add_mod, List.getD_eq_getElem _ _ hlen] at hbit
  rw [bitsOf, List.getElem?_take_of_lt hn, List.getElem?_eq_getElem hlen, hbit]

theorem rev8_zero : rev8 0#8 = 0#8 := by decide

/-- Reading a byte of a list written with `rev8` is `rev8` of the byte read: the default 0 reads the same either way. -/
theorem getD_map_rev8 (bytes : List Byte) (j : Nat) : (bytes.map rev8).getD j 0#8 = rev8 (bytes.getD j 0#8) := by
  simpa only [rev8_zero] using List.getD_map (l := bytes) (n := j) (d := 0#8) rev8

/-- A frame goes out its bytes in order, the highest bit of each first (spec 20_memory R81, 30_encoding R127). -/
theorem bitsOf_map_rev8_getElem? (frame : List Byte) (i : Nat) (hi : i < 8 * frame.length) :
    (bitsOf (frame.map rev8) (8 * frame.length))[i]? = some ((frame.getD (i / 8) 0#8).getLsbD (7 - i % 8)) := by
  rw [bitsOf_getElem? _ _ _ hi (by rwa [List.length_map]), getD_map_rev8, rev8_getLsbD _ _ (by omega)]

/-- A quotient by a power of two, cut to a byte, is the byte that begins at that bit. -/
theorem ofNat_div_two_pow (a : BitVec 24) (k : Nat) : BitVec.ofNat 8 (a.toNat / 2 ^ k) = a.extractLsb' k 8 := by
  apply BitVec.eq_of_toNat_eq
  rw [BitVec.toNat_ofNat, BitVec.extractLsb'_toNat, Nat.shiftRight_eq_div_pow]

/-- The bytes of a flash address, the highest first (spec 20_memory R81, 30_encoding R131). -/
theorem addressBytes_toNat (a : BitVec 24) :
    addressBytes a.toNat = [a.extractLsb' 16 8, a.extractLsb' 8 8, a.extractLsb' 0 8] := by
  rw [← ofNat_div_two_pow, ← ofNat_div_two_pow, ← ofNat_div_two_pow, Nat.pow_zero, Nat.div_one]
  rfl

/-- A word is the sum of its bits' powers of two, the first bit being bit 0 (spec 00_scope R14). -/
theorem wordOf_eq_sum (bits : List Bool) :
    wordOf bits = ((List.range bits.length).map fun i => (bits.getD i false).toNat * 2 ^ i).sum := by
  induction bits with
  | nil => rfl
  | cons b bs ih =>
    have hshift : ∀ i, ((b :: bs).getD (i + 1) false).toNat * 2 ^ (i + 1) =
        2 * ((bs.getD i false).toNat * 2 ^ i) := fun i => by rw [List.getD_cons_succ, Nat.pow_succ]; ring
    rw [wordOf, ih, ← List.sum_map_mul_left, List.length_cons, List.range_succ_eq_map, List.map_cons, List.map_map,
      List.sum_cons]
    simp only [Function.comp_def, hshift, List.getD_cons_zero, Nat.pow_zero, Nat.mul_one]

/-- A flash byte is read the highest bit first: the k-th sample of byte i is its bit 7-k (spec 20_memory R81). -/
theorem flashBytesOf_getLsbD (n : Nat) (bits : List Bool) (i : Nat) (hi : i < n) (hlen : bits.length = 8 * n) (k : Nat)
    (hk : k < 8) : ((flashBytesOf n bits).getD i 0#8).getLsbD (7 - k) = bits.getD (8 * i + k) false := by
  have hback : 7 - (7 - k) = k := by omega
  rw [flashBytesOf, getD_map_rev8, rev8_getLsbD _ _ (by omega), hback, packBytes_getLsbD n bits hlen i hi k hk]

/-- Settles O20, one law for each order. -/
theorem bitOrders : Obligations.BitOrders :=
  ⟨bitsOf_getElem?, bitsOf_map_rev8_getElem?, addressBytes_toNat, wordOf_eq_sum, flashBytesOf_getLsbD⟩

end Sys2Proof.Machine
end

section
/-! PROOFS. One step, input by input (spec 10_state R39, R42, R43, R59, R60): what the next input makes of the state. -/

namespace Sys2Proof.Machine

/-! ### The next input is served -/

/-- An access at the head of the inputs is served from the state in which it has been taken. -/
theorem fetch_access {s : State} {a : Access} {rest : List Input} (hi : s.port.inputs = .access a :: rest) :
    fetch s = serveAccess a { s with port.inputs := rest } := by
  simp only [fetch, hi]

theorem step_of_served {s t : State} (h : fetch s = .served t) : step s = .next t := by
  simp only [step, h]

theorem step_of_command {s t : State} {w : Word} {i : Instr} (h : fetch s = .command w t) (hd : decode w = .ok i) :
    step s = exec i t := by
  simp only [step, h, hd]

theorem step_of_illegal {s t : State} {w : Word} {e : Illegal} (h : fetch s = .command w t)
    (hd : decode w = .error e) : step s = .next (illegalCommand t) := by
  simp only [step, h, hd]

/-- The reset input is served whether a command runs or not (spec 70 R320). -/
theorem step_reset {s : State} {rest : List Input} (hi : s.port.inputs = .access .reset :: rest) :
    step s = .next (hardwareReset { s with port.inputs := rest }) := by
  refine step_of_served ?_
  rw [fetch_access hi]
  cases hb : s.ctl.busy <;> simp [serveAccess, idleAccess, hb]

/-- While BUSY = 1 every other access is served as one during a command (spec 10_state R39). -/
theorem step_busy {s : State} {a : Access} {rest : List Input} (hb : s.ctl.busy = true) (ha : a ≠ .reset)
    (hi : s.port.inputs = .access a :: rest) : step s = .next (busyAccess a { s with port.inputs := rest }) := by
  refine step_of_served ?_
  rw [fetch_access hi]
  cases a with
  | reset => exact absurd rfl ha
  | read width off => simp [serveAccess, hb]
  | write width off v => simp [serveAccess, hb]

section Idle
variable {s : State} {rest : List Input} (hb : s.ctl.busy = false)
include hb

theorem fetch_idle {a : Access} (hi : s.port.inputs = .access a :: rest) :
    fetch s = idleAccess a { s with port.inputs := rest } := by
  simp [fetch_access hi, serveAccess, hb]

theorem step_read {width off : Nat} (hi : s.port.inputs = .access (.read width off) :: rest) :
    step s = .next (hostRead width off { s with port.inputs := rest }) :=
  step_of_served (fetch_idle hb hi)

theorem step_write {width off : Nat} {v : Word} (hi : s.port.inputs = .access (.write width off v) :: rest)
    (hn : (width, off) ≠ (32, 0x00)) : step s = .next (hostWrite width off v { s with port.inputs := rest }) := by
  refine step_of_served ?_
  rw [fetch_idle hb hi, idleAccess, if_neg fun h => hn (Prod.ext h.1 h.2)]

theorem fetch_cmd {w : Word} (hi : s.port.inputs = .access (.write 32 0x00 w) :: rest) :
    fetch s = .command w { s with port.inputs := rest } := by
  rw [fetch_idle hb hi, idleAccess, if_pos ⟨rfl, rfl⟩]

theorem step_cmd {w : Word} {i : Instr} (hi : s.port.inputs = .access (.write 32 0x00 w) :: rest)
    (hd : decode w = .ok i) : step s = exec i { s with port.inputs := rest } :=
  step_of_command (fetch_cmd hb hi) hd

theorem step_illegal {w : Word} {e : Illegal} (hi : s.port.inputs = .access (.write 32 0x00 w) :: rest)
    (hd : decode w = .error e) : step s = .next (illegalCommand { s with port.inputs := rest }) :=
  step_of_illegal (fetch_cmd hb hi) hd

end Idle

/-- The encoder's word spells the command (spec 30_encoding R113). -/
theorem decode_encode (i : Instr) : decode (encode i) = .ok i := by
  cases i with
  | shiftbit tdi tms => cases tdi <;> cases tms <;> rfl
  | settms tms => cases tms <;> rfl
  | sir idleTail => cases idleTail <;> rfl
  | sdr capture idleTail pause => cases capture <;> cases idleTail <;> cases pause <;> rfl
  | _ => rfl

/-- Settles O5: the write of CMD is fetched as a command and decoded; `withFetchWord` places such a write. -/
theorem stepRunsDecodedCommand : Obligations.StepRunsDecodedCommand := by
  refine ⟨fun s w rest i hb hi hd => step_cmd hb hi hd, fun s i => ?_⟩
  have hw : BitVec.ofNat 32 ((encode i).toNat % 2 ^ 32) = encode i := by
    rw [Nat.mod_eq_of_lt (encode i).isLt, BitVec.ofNat_toNat, BitVec.setWidth_eq]
  have hd : decode (BitVec.ofNat 32 ((encode i).toNat % 2 ^ 32)) = .ok i := by rw [hw, decode_encode]
  exact step_cmd (s := s.withFetchWord 32 (encode i).toNat) rfl rfl hd

/-! ### Host reads and writes between commands -/

/-- A defined read answers its value and takes no free one. -/
theorem hostRead_defined {width off : Nat} {s : State} {v : Word} (h : definedRead width off s = some v) :
    hostRead width off s = { s with port.reads := (off, v) :: s.port.reads } := by
  simp only [hostRead, h]

theorem definedRead_register {off : Nat} {s : State} {v : Word} (h : readRegister off s = some v) :
    definedRead 32 off s = some v := by
  simp [definedRead, h]

/-- A host read changes nothing but the host port. -/
theorem hostRead_eq (width off : Nat) (s : State) :
    hostRead width off s = { s with port := (hostRead width off s).port } ∧
      (hostRead width off s).port.cut = s.port.cut := by
  unfold hostRead
  split <;> exact ⟨rfl, rfl⟩

/-- The registers below the BUF window with their offsets, in the order of spec 10_state R42. -/
def registerMap (s : State) : List (Nat × Word) :=
  [(0x00, 0#32), (0x04, s.statWord), (0x08, s.ctl.errWord), (0x0C, s.flags.toWord), (0x10, s.res),
    (0x14, s.fsr.setWidth 32), (0x20, s.regs.addr), (0x24, s.regs.len), (0x28, s.regs.buf), (0x2C, s.regs.val),
    (0x30, s.regs.exp), (0x34, s.regs.mask), (0x38, s.regs.cyc), (0x3C, s.regs.dur), (0x40, s.regs.pause),
    (0x44, s.regs.att), (0x48, s.regs.dly), (0x50, s.stats.bytes), (0x54, s.stats.blocks), (0x58, s.stats.erased),
    (0x5C, s.stats.written), (0x60, s.stats.skipped), (0x64, s.stats.elapsed)]

theorem readRegister_of_mem_registerMap (s : State) : ∀ r ∈ registerMap s, readRegister r.1 s = some r.2 := by
  simp only [registerMap, List.forall_mem_cons]
  exact ⟨rfl, rfl, rfl, rfl, rfl, rfl, rfl, rfl, rfl, rfl, rfl, rfl, rfl, rfl, rfl, rfl, rfl, rfl, rfl, rfl, rfl, rfl,
    rfl, nofun⟩

/-- Settles O8: the offset is one of the map's, so the read is defined. -/
theorem hostReadsRegisters : Obligations.HostReadsRegisters := by
  intro s rest off v hb hi hv
  have hr : readRegister off { s with port.inputs := rest } = some v :=
    readRegister_of_mem_registerMap { s with port.inputs := rest } (off, v) hv
  rw [step_read hb hi, hostRead_defined (definedRead_register hr)]

theorem inBufWindow_iff (off : Nat) (s : State) :
    inBufWindow off s = true ↔ 0x1000 ≤ off ∧ off % 4 = 0 ∧ off < 0x1000 + s.cfg.bufBytes := by
  have hw : bufWindow = 0x1000 := rfl
  simp only [inBufWindow, Bool.and_eq_true, decide_eq_true_eq, beq_iff_eq]
  omega

/-- The bytes a word of the BUF window stores, low byte first (spec 10_state R42). -/
def wordBytes (v : Word) : List Byte := [v.extractLsb' 0 8, v.extractLsb' 8 8, v.extractLsb' 16 8, v.extractLsb' 24 8]

theorem writeBufWord_eq (a : Nat) (v : Word) (s : State) :
    writeBufWord a v s = { s with buf := s.buf.writeRange a ((wordBytes v).take (s.cfg.bufBytes - a)) } := rfl

/-- Settles O9: a register's offset, or one outside the registers, which is in the BUF window or is ignored. -/
theorem hostWritesRegisters : Obligations.HostWritesRegisters := by
  intro s rest width off v hb hi hn
  rw [step_write hb hi hn]
  by_cases hw : width = 32
  · subst hw
    simp only [hostWrite, ne_eq, not_true_eq_false, if_false, if_true]
    congr 1
    unfold writeRegister
    split
    case h_13 h1 h2 h3 h4 h5 h6 h7 h8 h9 h10 h11 h12 =>
      rw [if_neg h1, if_neg h2, if_neg h3, if_neg h4, if_neg h5, if_neg h6, if_neg h7, if_neg h8, if_neg h9, if_neg h10,
        if_neg h11, if_neg h12]
      by_cases hin : inBufWindow off { s with port.inputs := rest } = true
      · have hin' := (inBufWindow_iff _ _).1 hin
        rw [if_pos hin, if_pos hin', writeBufWord_eq]
        have ho : s.cfg.bufBytes - (off - bufWindow) = 0x1000 + s.cfg.bufBytes - off := by
          simp only [bufWindow]; omega
        simp only [ho]
        rfl
      · rw [if_neg hin, if_neg fun h => hin ((inBufWindow_iff _ _).2 h)]
    all_goals rfl
  · simp only [hostWrite, hw, if_false, ne_eq, not_false_eq_true, if_true]

/-! ### A word of the BUF window -/

/-- A word is its four bytes, the last one in the lowest bits. -/
theorem word_eq_bytes (v : Word) :
    v.extractLsb' 24 8 ++ v.extractLsb' 16 8 ++ v.extractLsb' 8 8 ++ v.extractLsb' 0 8 = v := by
  refine BitVec.eq_of_getLsbD_eq fun i hi => ?_
  simp only [BitVec.getLsbD_append, BitVec.getLsbD_extractLsb']
  grind

/-- Four bytes that hold a word are read by the host as that word. -/
theorem bufWord_of_bufHolds {s : State} {a : Nat} {v : Word} (h : bufHolds s a (wordBytes v)) : bufWord a s = v := by
  have hbyte (j : Nat) (hj : j < (wordBytes v).length) : hostByte (a + j) s = (wordBytes v)[j] := by
    rw [hostByte, h j hj, Option.getD_some]
  have h0 : hostByte a s = v.extractLsb' 0 8 := hbyte 0 (by simp [wordBytes])
  have h1 : hostByte (a + 1) s = v.extractLsb' 8 8 := hbyte 1 (by simp [wordBytes])
  have h2 : hostByte (a + 2) s = v.extractLsb' 16 8 := hbyte 2 (by simp [wordBytes])
  have h3 : hostByte (a + 3) s = v.extractLsb' 24 8 := hbyte 3 (by simp [wordBytes])
  rw [bufWord, h0, h1, h2, h3, word_eq_bytes]

section Window
variable {a : Nat} {s : State} (ha : a % 4 = 0) (hr : a + 4 ≤ s.cfg.bufBytes)
include ha hr

theorem inBufWindow_word : inBufWindow (0x1000 + a) s = true := (inBufWindow_iff _ _).2 (by omega)

/-- A host write of a word that lies in BUF as a whole. -/
theorem hostWrite_window (v : Word) :
    hostWrite 32 (0x1000 + a) v s = { s with buf := s.buf.writeRange a (wordBytes v) } := by
  have hw : bufWindow = 0x1000 := rfl
  have ho : 0x1000 + a - bufWindow = a := by omega
  have htake : (wordBytes v).take (s.cfg.bufBytes - a) = wordBytes v := List.take_of_length_le (by
    rw [show (wordBytes v).length = 4 from rfl]; omega)
  rw [hostWrite, if_pos rfl]
  unfold writeRegister
  split
  case h_13 => rw [if_pos (inBufWindow_word ha hr), writeBufWord_eq, ho, htake]
  all_goals omega

/-- A host read of a word that lies in BUF as a whole. -/
theorem hostRead_window :
    hostRead 32 (0x1000 + a) s = { s with port.reads := (0x1000 + a, bufWord a s) :: s.port.reads } := by
  have hw : bufWindow = 0x1000 := rfl
  have ho : 0x1000 + a - bufWindow = a := by omega
  have hnone : readRegister (0x1000 + a) s = none := by
    unfold readRegister
    split
    case h_24 => rfl
    all_goals omega
  refine hostRead_defined ?_
  simp only [definedRead, ne_eq, not_true_eq_false, if_false, hnone]
  rw [if_pos (inBufWindow_word ha hr), ho]

end Window

/-- Settles O10: the write stores the four bytes, and four stored bytes read as their word. -/
theorem bufWindowReadsBack : Obligations.BufWindowReadsBack := by
  intro s rest a v hb ha hr hi
  let next : List Input := .access (.read 32 (0x1000 + a)) :: rest
  let t : State := { s with buf := s.buf.writeRange a (wordBytes v), port.inputs := next }
  have hstored : bufHolds t a (wordBytes v) := fun j hj => Memory.read_writeRange_inside _ _ _ _ hj
  have hwrite : step s = .next t := by
    rw [step_write hb hi (by simp), hostWrite_window (s := { s with port.inputs := next }) ha hr v]
  have hread : step t =
      .next { t with port := { t.port with inputs := rest, reads := (0x1000 + a, v) :: s.port.reads } } := by
    rw [step_read (s := t) hb rfl, hostRead_window (s := { t with port.inputs := rest }) ha hr]
    rw [bufWord_of_bufHolds (s := { t with port.inputs := rest }) hstored]
  exact ⟨t, _, hwrite, hread, hstored, fun b hout => Memory.read_writeRange_outside _ _ _ _ hout, rfl, rfl⟩

end Sys2Proof.Machine
end

section
/-! PROOFS. Hardware reset (spec 10_state R59), and the invariant of the machine between commands: it holds after reset
and every step keeps it. -/

namespace Sys2Proof.Machine

/-! ### Reset -/

theorem resetWith_resetValues (p : Params) (env : Env) (port : HostPort) :
    ResetValues (State.resetWith p env port) := by
  have hroles : ∀ x, pinRole (State.resetWith p env port).pins.path x = .hiZ := fun x => by cases x <;> rfl
  have herr : (State.resetWith p env port).ctl.errWord = 0#32 := by
    simp [State.resetWith, Control.errWord, ErrorKind.code]
  have hflags : (State.resetWith p env port).flags.toWord = 0#32 := by simp [State.resetWith, Flags.toWord]
  refine ⟨rfl, hroles, ?_⟩
  rw [herr, hflags]
  and_intros <;> rfl

/-- Settles O12: both are `State.resetWith`. -/
theorem hardwareResetStep : Obligations.HardwareResetStep :=
  ⟨resetWith_resetValues _ _ _, fun _ _ hi => ⟨_, step_reset hi, resetWith_resetValues _ _ _, rfl, rfl, rfl⟩⟩

/-- The record a block is reset with is legal: where the opaque one is not, TC0 stands in its place (log entry 7). -/
theorem ofImplementation_valid : Config.ofImplementation.valid = true := by
  unfold Config.ofImplementation
  split
  · assumption
  · decide

/-- Settles O14. -/
theorem betweenCommandsAtReset : Obligations.BetweenCommandsAtReset :=
  BetweenCommands.resetWith _ _ _ ofImplementation_valid rfl

/-! ### What a host write can do -/

/-- Bytes inside BUF, or none. -/
def InsideBuf (p : Params) (base : Nat) (bytes : List Byte) : Prop := bytes = [] ∨ base + bytes.length ≤ p.bufBytes

/-- A host write changes FLAGS, an operand register, or bytes inside BUF. -/
theorem hostWrite_cases (width off : Nat) (v : Word) (s : State) :
    ∃ flags regs base bytes, InsideBuf s.cfg base bytes ∧
      hostWrite width off v s = { s with flags := flags, regs := regs, buf := s.buf.writeRange base bytes } := by
  unfold hostWrite writeRegister
  split
  · split
    case h_13 =>
      split
      · refine ⟨s.flags, s.regs, off - bufWindow, (wordBytes v).take (s.cfg.bufBytes - (off - bufWindow)), ?_, rfl⟩
        rename_i hin
        have hlt : off - bufWindow < s.cfg.bufBytes := by
          have := (inBufWindow_iff _ _).1 hin
          have : bufWindow = 0x1000 := rfl
          omega
        exact .inr (by rw [List.length_take]; omega)
      · exact ⟨_, _, 0, [], .inl rfl, rfl⟩
    all_goals exact ⟨_, _, 0, [], .inl rfl, rfl⟩
  · exact ⟨_, _, 0, [], .inl rfl, rfl⟩

/-! ### The invariant -/

namespace BetweenCommands
variable {s : State} (h : BetweenCommands s)
include h

/-- It speaks neither of the host port, a noted reset apart, nor of the environment. -/
theorem setPort (port : HostPort) (env : Env) (hc : port.cut = none) :
    BetweenCommands { s with port := port, env := env } :=
  h.of_fields rfl rfl rfl rfl rfl h.notBusy h.noSeq hc rfl rfl h.bufCanonical h.bufInside

theorem writeBuf (base : Nat) (bytes : List Byte) (flags : Flags) (regs : OperandRegs)
    (hin : InsideBuf s.cfg base bytes) :
    BetweenCommands { s with flags := flags, regs := regs, buf := s.buf.writeRange base bytes } := by
  refine h.of_fields rfl rfl rfl rfl rfl h.notBusy h.noSeq h.noCut rfl rfl
    (Memory.wf_writeRange _ _ _ h.bufCanonical) fun c hc => ?_
  rcases Memory.mem_writeRange _ _ _ _ hc with hold | ⟨hlo, hhi⟩
  · exact h.bufInside c hold
  · rcases hin with rfl | hin
    · simp only [List.length_nil] at hhi; omega
    · exact Nat.lt_of_lt_of_le hhi hin

theorem hostWrite (width off : Nat) (v : Word) : BetweenCommands (hostWrite width off v s) := by
  obtain ⟨flags, regs, base, bytes, hin, he⟩ := hostWrite_cases width off v s
  rw [he]
  exact h.writeBuf base bytes flags regs hin

theorem hostRead (width off : Nat) : BetweenCommands (hostRead width off s) := by
  obtain ⟨he, hc⟩ := hostRead_eq width off s
  rw [he]
  exact h.setPort _ _ (hc.trans h.noCut)

theorem hardwareReset : BetweenCommands (hardwareReset s) := resetWith _ _ _ h.cfgValid rfl

/-- A word that spells no command leaves it as the end of a command does, or as a reset that came meanwhile does. -/
theorem illegalCommand : BetweenCommands (illegalCommand s) := by
  rcases endCommand_cases .illegalCommand 0 (dueAccesses s.port.during { s with ctl.busy := true }) with
    ⟨port, he, -, -, hc⟩ | ⟨env, port, he, -, -, hc⟩
  · rw [Machine.illegalCommand, he]
    exact h.of_fields (by simp) (by simp) (by simp) (by simp) (by simp) rfl rfl hc (by simp) (by simp)
      (by simpa using h.bufCanonical) (by simpa using h.bufInside)
  · rw [Machine.illegalCommand, he]
    exact resetWith _ _ _ (by simpa using h.cfgValid) hc

/-- A command acts, keeps the bounds, and ends. -/
theorem exec {i : Instr} {t : State} (ht : exec i s = .next t) : BetweenCommands t := by
  obtain ⟨u, evs, e, info, hacts, hwrote, hend⟩ := exec_acted i h ht
  obtain ⟨u', e', info', hkept, hend'⟩ := exec_kept i h ht
  exact h.afterCommand hacts hwrote hkept hend hend'

/-- An access while no command runs. -/
theorem serveAccess {a : Access} {rest : List Input} {t : State} (hi : s.port.inputs = .access a :: rest)
    (ht : step s = .next t) : BetweenCommands t := by
  have htaken : BetweenCommands { s with port.inputs := rest } := h.setPort _ _ h.noCut
  cases a with
  | reset =>
    rw [step_reset hi, Host.Outcome.next.injEq] at ht
    exact ht ▸ htaken.hardwareReset
  | read width off =>
    rw [step_read h.notBusy hi, Host.Outcome.next.injEq] at ht
    exact ht ▸ htaken.hostRead width off
  | write width off v =>
    by_cases hcmd : (width, off) = (32, 0x00)
    · cases hcmd
      cases hd : decode v with
      | ok i => exact htaken.exec ((step_cmd h.notBusy hi hd).symm.trans ht)
      | error e =>
        rw [step_illegal h.notBusy hi hd, Host.Outcome.next.injEq] at ht
        exact ht ▸ htaken.illegalCommand
    · rw [step_write h.notBusy hi hcmd, Host.Outcome.next.injEq] at ht
      exact ht ▸ htaken.hostWrite width off v

end BetweenCommands

/-- Settles O15: the next input is none, a source, or an access. -/
theorem betweenCommandsKept : Obligations.BetweenCommandsKept := by
  intro s t h ht
  cases hi : s.port.inputs with
  | nil =>
    have hf : fetch s = .served s := by simp only [fetch, hi]
    rw [step_of_served hf, Host.Outcome.next.injEq] at ht
    exact ht ▸ h
  | cons input rest =>
    cases input with
    | attachSource content endless offers =>
      have hf : fetch s = .served (attachSource content endless offers { s with port.inputs := rest }) := by
        simp only [fetch, hi]
      rw [step_of_served hf, Host.Outcome.next.injEq] at ht
      exact ht ▸ h.setPort _ _ h.noCut
    | access a => exact h.serveAccess hi ht

end Sys2Proof.Machine
end

section
/-! PROOFS. What a whole command leaves behind: its events tell what it did on the lines (spec 10_state R22, R30, R58),
and it writes no register but those its rules name (spec 10_state R24, R25, R32, R46, R47, R49, 20_memory R73). -/

namespace Sys2Proof.Machine

/-- An undisturbed command that gives a next state has acted, written what its rule lets it, and ended: its events, and
how each register stands at its end. -/
structure Finished (i : Instr) (s t : State) (evs : List Event) (e : ErrorKind) (info : Nat) : Prop where
  ends : EndsWith s t e info evs
  acts : ∃ u, Acts (beginCommand i s) u evs ∧ Wrote i (beginCommand i s) u ∧ t = { u with
    ctl := t.ctl, trace := t.trace, port := t.port }

/-- An operation that acts, and the end of the command after it. -/
theorem Acts.endsWith {i : Instr} {s u : State} {evs : List Event} (h : Acts (beginCommand i s) u evs)
    (hu : s.undisturbed) (e : ErrorKind) (info : Nat) : EndsWith s (endCommand e info u) e info evs :=
  Machine.endsWith e info (h.undisturbed (beginCommand_undisturbed i s hu))
    (by simpa [newEvents] using h.trace) (h.inputs.trans (by simp)) (h.resets.trans (by simp))
    (h.cfg.trans (by simp)) (h.regs.trans (by simp))

theorem exec_finished {i : Instr} {s t : State} (hb : BetweenCommands s) (hu : s.undisturbed)
    (h : exec i s = .next t) : ∃ evs e info, Finished i s t evs e info := by
  obtain ⟨u, evs, e, info, hacts, hwrote, rfl⟩ := exec_acted i hb h
  refine ⟨evs, e, info, hacts.endsWith hu e info, u, hacts, hwrote, ?_⟩
  obtain ⟨heq, -⟩ := endCommand_eq e info u (hacts.undisturbed (beginCommand_undisturbed i s hu))
  generalize endCommand e info u = t at *
  rw [heq]

/-- Settles O18: what an operation's events tell, they tell of the whole command. -/
theorem traceTellsAll : Obligations.TraceTellsAll := by
  intro i s t hb hu h
  obtain ⟨evs, e, info, hends, u, hacts, -, heq⟩ := exec_finished hb hu h
  have htap : t.tap = u.tap := by rw [heq]
  have hpins : t.pins = u.pins := by rw [heq]
  have henv : t.env = u.env := by rw [heq]
  refine ⟨evs, e, info, hends, hacts.noDone, ?_, ?_, ?_, ?_, ?_⟩
  · rw [htap, hacts.tap, beginCommand_tap]
  · rw [hpins, hacts.path, beginCommand_pins]
  · rw [hpins, hacts.levels, beginCommand_pins]
  · simpa [henv] using hacts.target
  · simpa [henv] using hacts.time

/-- The mismatches of a command are those among its events before `Done`. -/
theorem any_isMismatch_done (evs : List Event) (c : BitVec 4) (info : BitVec 24) :
    (evs ++ [Event.done c info]).any Event.isMismatch = evs.any Event.isMismatch := by
  simp [Event.isMismatch]

/-- A write that a table rules out did not happen. -/
theorem eq_true_of_changed {α : Type} {x y : α} {b : Bool} (h : b = false → x = y) (hc : x ≠ y) : b = true := by
  cases b with
  | true => rfl
  | false => exact absurd (h rfl) hc

/-- A flag that is never cleared and has changed is set. -/
theorem eq_true_of_gained {x y : Bool} (h : x = true → y = true) (hc : y ≠ x) : y = true := by
  cases x with
  | true => exact h rfl
  | false => simpa using hc

/-- Settles O52: what `Wrote` lets the command write, and `Acts` of the flags, which it never clears. -/
theorem onlyTheseWrite : Obligations.OnlyTheseWrite := by
  intro i s t hb hu h
  obtain ⟨evs, e, info, hends, u, hacts, hwrote, heq⟩ := exec_finished hb hu h
  have hres : t.res = u.res := by rw [heq]
  have hbuf : t.buf = u.buf := by rw [heq]
  have hmode : t.devmode = u.devmode := by rw [heq]
  have hfsr : t.fsr = u.fsr := by rw [heq]
  have hstats : t.stats = u.stats := by rw [heq]
  have hwork : t.work = u.work := by rw [heq]
  have hsource : t.env.source = u.env.source := by rw [heq]
  have hflags : t.flags = u.flags := by rw [heq]
  have hmismatch : t.flags.mismatch = (s.flags.mismatch || evs.any Event.isMismatch) := by
    rw [hflags, hacts.mismatch, beginCommand_flags]
  have hmismatchKept : s.flags.mismatch = true → t.flags.mismatch = true := fun hs => by rw [hmismatch, hs]; rfl
  have htimeoutKept : s.flags.timeout = true → t.flags.timeout = true := fun hs => by
    rw [hflags]
    exact hacts.timeout (by simpa using hs)
  refine ⟨hends.regs, hends.cfg, hends.inputs, ?_, ?_, ?_, ?_, ?_, ?_, ?_, ?_⟩
  · rw [hres]
    exact eq_true_of_changed fun hi => (hwrote.res hi).trans (by simp)
  · rw [hbuf]
    exact eq_true_of_changed fun hi => (hwrote.buf hi).trans (by simp)
  · rw [hmode]
    simpa using hwrote.devmode
  · rw [hfsr]
    exact eq_true_of_changed fun hi => (hwrote.fsr hi).trans (by simp)
  · rw [hstats, hwork, hsource]
    intro hc
    by_contra hi
    obtain ⟨hsameStats, hsameWork, hsameSource⟩ := hwrote.upload hi
    simp [hsameStats, hsameWork, hsameSource] at hc
  · refine fun hc => ⟨eq_true_of_gained hmismatchKept hc, eq_true_of_changed (fun hi => ?_) hc⟩
    rw [hflags]
    exact (hwrote.mismatch hi).trans (by simp)
  · refine fun hc => ⟨eq_true_of_gained htimeoutKept hc, eq_true_of_changed (fun hi => ?_) hc⟩
    rw [hflags]
    exact (hwrote.timeout hi).trans (by simp)
  · intro evs' hevs
    rw [newEvents_unique hevs hends.events, any_isMismatch_done, hmismatch]

end Sys2Proof.Machine
end

section
/-! PROOFS. Status words and the TAP tracker (spec 10_state R27 to R30, R44 to R46). -/

namespace Sys2Proof.Machine

/-! ### Status words -/

/-- The fields of STAT are the pieces it is put together from (spec 10_state R44). -/
theorem statWord_fields (s : State) :
    s.statWord.getLsbD 0 = s.ctl.busy ∧ s.statWord.extractLsb' 1 4 = s.tap.state.code ∧
      s.statWord.getLsbD 5 = s.tap.known ∧ s.statWord.extractLsb' 6 2 = s.devmode.code ∧
      s.statWord.extractLsb' 8 2 = s.pins.path.code ∧ s.statWord.extractLsb' 10 22 = 0#22 := by
  refine ⟨statWord_busy s, ?_, ?_, ?_, ?_, ?_⟩ <;> unfold State.statWord
  · rw [BitVec.extractLsb'_append_eq_of_le (by decide), BitVec.extractLsb'_append_eq_right]
  · rw [BitVec.getLsbD_append, BitVec.getLsbD_append, BitVec.getLsbD_append]
    simp
  · iterate 3 rw [BitVec.extractLsb'_append_eq_of_le (by decide)]
    rw [BitVec.extractLsb'_append_eq_right]
  · iterate 4 rw [BitVec.extractLsb'_append_eq_of_le (by decide)]
    rw [BitVec.extractLsb'_append_eq_right]
  · iterate 5 rw [BitVec.extractLsb'_append_eq_of_le (by decide)]
    exact BitVec.extractLsb'_eq_self

/-- The fields of ERR (spec 10_state R45). -/
theorem errWord_fields (c : Control) : c.errWord.extractLsb' 0 4 = c.err.code ∧ c.errWord.extractLsb' 4 4 = 0#4 ∧
    c.errWord.extractLsb' 8 24 = c.info := by
  refine ⟨?_, ?_, ?_⟩ <;> unfold Control.errWord
  · rw [BitVec.extractLsb'_append_eq_right]
  · rw [BitVec.extractLsb'_append_eq_of_le (by decide), BitVec.extractLsb'_append_eq_right]
  · iterate 2 rw [BitVec.extractLsb'_append_eq_of_le (by decide)]
    exact BitVec.extractLsb'_eq_self

/-- The fields of FLAGS (spec 10_state R46). -/
theorem toWord_fields (f : Flags) : f.toWord.getLsbD 0 = f.mismatch ∧ f.toWord.getLsbD 1 = f.timeout ∧
    f.toWord.extractLsb' 2 30 = 0#30 := by
  refine ⟨?_, ?_, ?_⟩ <;> unfold Flags.toWord
  · rw [BitVec.getLsbD_append]
    simp
  · rw [BitVec.getLsbD_append, BitVec.getLsbD_append]
    simp
  · iterate 2 rw [BitVec.extractLsb'_append_eq_of_le (by decide)]
    exact BitVec.extractLsb'_eq_self

/-- Settles O7: the fields one by one; the codes are read off their tables. -/
theorem statusWordFields : Obligations.StatusWordFields :=
  ⟨statWord_fields, errWord_fields, toWord_fields, rfl, rfl, rfl, rfl, rfl, rfl⟩

/-! ### The TAP tracker -/

/-- Settles O16: an evaluation for each of the 32 entries, then the five ones. -/
theorem tapTable : Obligations.TapTable :=
  ⟨rfl, rfl, rfl, rfl, rfl, rfl, rfl, rfl, rfl, rfl, rfl, rfl, rfl, rfl, rfl, rfl, rfl, rfl, rfl, rfl, rfl, rfl,
    rfl, rfl, rfl, rfl, rfl, rfl, rfl, rfl, rfl, rfl, afterOnes_five, by decide, by decide⟩

/-- ONES after a pulse as a number: one more up to 5, or 0 (spec 10_state R30). -/
theorem onesAfter_eq (ones : BitVec 3) (tms : Bool) :
    onesAfter ones tms = BitVec.ofNat 3 (if tms then min (ones.toNat + 1) 5 else 0) := by
  revert ones tms
  decide

/-- The forcing at five ones, in numbers. -/
theorem onesAfter_eq_five (ones : BitVec 3) (tms : Bool) :
    onesAfter ones tms = 5#3 ↔ (if tms then min (ones.toNat + 1) 5 else 0) = 5 := by
  revert ones tms
  decide

/-- The tracker's update, field by field (spec 10_state R30). -/
theorem onPulse_fields (t : Tracker) (tms : Bool) :
    let ones := if tms then min (t.ones.toNat + 1) 5 else 0
    (t.onPulse tms).ones = BitVec.ofNat 3 ones ∧
      (t.onPulse tms).state = (if ones = 5 then .reset else if t.known then delta t.state tms else t.state) ∧
      (t.onPulse tms).known = (ones == 5 || t.known) := by
  have hones := onesAfter_eq t.ones tms
  have hfive := onesAfter_eq_five t.ones tms
  intro ones
  unfold Tracker.onPulse
  by_cases h5 : onesAfter t.ones tms = 5#3
  · rw [if_pos h5]
    have h5' : ones = 5 := hfive.1 h5
    simp [h5']
  · rw [if_neg h5]
    have h5' : ones ≠ 5 := fun h => h5 (hfive.2 h)
    simp [h5', hones, ones]

/-- Settles O17: by the event each pulse logs, the update field by field, and the table on a consistent tracker. -/
theorem trackerUpdate : Obligations.TrackerUpdate := by
  refine ⟨fun s tms tdi _ => ?_, fun t tms hk hc => ?_⟩
  · obtain ⟨hones, hstate, hknown⟩ := onPulse_fields s.tap tms
    refine ⟨⟨_, (pulse_lines tms tdi s).trace⟩, ⟨_, (spiPulse_lines tdi s).trace⟩, ?_, ?_, ?_, ?_⟩
    · rw [pulse_tap]; exact hones
    · rw [pulse_tap]; exact hstate
    · rw [pulse_tap]; exact hknown
    · rintro rfl
      rw [pulse_tap, spiPulse, tckPulse_tap]
  · obtain ⟨hknown, hstate, hcons⟩ := t.onPulse_consistent tms hk hc
    exact ⟨hstate, hknown, hcons⟩

end Sys2Proof.Machine
end

section
/-! PROOFS. The host while a command runs: how its accesses are served (spec 10_state R39, R43, R60), that they change
nothing of what the command does, and what the reset input leaves (spec 70 R323). -/

namespace Sys2Proof.Machine

/-! ### Accesses that are due -/

/-- An access served while BUSY = 1 leaves STAT as it is. -/
theorem busyAccess_statWord (a : Access) (s : State) : (busyAccess a s).statWord = s.statWord := by
  rw [busyAccess_eq]
  rfl

/-- One access served while BUSY = 1. -/
theorem busyAccess_serves {a : Access} (ha : a ≠ .reset) (s : State) :
    busyAccess a s = { s with port := { s.port with
      reads := (busyAnswers s.statWord s.port.draws [a]).reverse ++ s.port.reads
      draws := s.port.draws + freeReads [a] } } := by
  cases a with
  | reset => exact absurd rfl ha
  | write width off v => rfl
  | read width off =>
    simp only [busyAccess, busyAnswers, freeReads, Prod.mk.injEq]
    split <;> rfl

/-- The answers to a first access and to those after it. -/
theorem busyAnswers_cons {a : Access} (stat : Word) (draws : Nat) (rest : List Access) :
    busyAnswers stat draws (a :: rest) =
      busyAnswers stat draws [a] ++ busyAnswers stat (draws + freeReads [a]) rest := by
  cases a with
  | read width off => simp only [busyAnswers, freeReads]; split <;> rfl
  | write width off v => rfl
  | reset => rfl

theorem freeReads_cons (a : Access) (rest : List Access) : freeReads (a :: rest) = freeReads [a] + freeReads rest := by
  cases a with
  | read width off => simp only [freeReads]; split <;> omega
  | write width off v => simp only [freeReads]; omega
  | reset => simp only [freeReads]; omega

theorem dueAccesses_cons {a : Access} (ha : a ≠ .reset) (rest : List (Nat × Access)) (s : State) :
    dueAccesses ((0, a) :: rest) s = dueAccesses rest (busyAccess a s) := by
  cases a with
  | reset => exact absurd rfl ha
  | read width off => rfl
  | write width off v => rfl

/-- The accesses that are due are served in order, the free values counted on from one to the next. -/
theorem dueAccesses_servedTo (s : State) (l : List (Nat × Access)) (hl : ∀ x ∈ l, x.2 ≠ .reset) :
    servedTo s l (dueAccesses l s) := by
  induction l generalizing s with
  | nil => rfl
  | cons x rest ih =>
    obtain ⟨_ | n, a⟩ := x
    · obtain ⟨ha, hrest⟩ := List.forall_mem_cons.1 hl
      have hserved := ih (busyAccess a s) hrest
      rw [dueAccesses_cons ha]
      simp only [servedTo, busyAccess_statWord, dueNow, dueLater] at hserved ⊢
      rw [hserved, busyAnswers_cons, freeReads_cons a (dueNow rest), busyAccess_serves ha]
      simp only [List.reverse_append, List.append_assoc, Nat.add_assoc]
    · rfl

/-- The state before the accesses were served is the state after them with its old host port. -/
theorem servedTo.before {s t : State} {l : List (Nat × Access)} (h : servedTo s l t) :
    servedTo { t with port := s.port } l t := by
  obtain rfl := h
  rfl

/-- An event passes: those accesses that waited for it alone are due. -/
theorem serveDuring_servedTo {s : State} {n : Nat} {a : Access} {rest : List (Nat × Access)}
    (hu : ∀ x ∈ s.port.during, x.2 ≠ .reset) (hd : s.port.during = (n + 1, a) :: rest) :
    servedTo s ((n, a) :: rest) (serveDuring s) := by
  rw [serveDuring, hd]
  rw [hd] at hu
  exact dueAccesses_servedTo _ _ (List.forall_mem_cons.2 (List.forall_mem_cons.1 hu))

/-- A pulse, by either driver, serves them when the tracker has followed it. -/
theorem tckPulse_servedTo (d : Driver) (tms tdi : Bool) {s : State} {n : Nat} {a : Access} {rest : List (Nat × Access)}
    (hu : ∀ x ∈ s.port.during, x.2 ≠ .reset) (hd : s.port.during = (n + 1, a) :: rest) :
    servedTo { (tckPulse d tms tdi s).2 with port := s.port } ((n, a) :: rest) (tckPulse d tms tdi s).2 := by
  obtain ⟨x, hx, hp⟩ : ∃ x, (tckPulse d tms tdi s).2 = serveDuring x ∧ x.port = s.port := ⟨_, rfl, rfl⟩
  rw [hx, ← hp]
  rw [← hp] at hu hd
  exact (serveDuring_servedTo hu hd).before

/-! ### The whole command -/

/-- Where no reset is among the accesses, none cuts the command. -/
theorem cutPoint_eq_none {l : List (Nat × Access)} (h : ∀ x ∈ l, x.2 ≠ .reset) : cutPoint l = none := by
  induction l with
  | nil => rfl
  | cons x rest ih =>
    obtain ⟨n, a⟩ := x
    obtain ⟨ha, hrest⟩ := List.forall_mem_cons.1 h
    cases a with
    | reset => exact absurd rfl ha
    | read width off => simp [cutPoint, ih hrest]
    | write width off v => simp [cutPoint, ih hrest]

theorem State.undisturbed.cutPoint {s : State} (h : s.undisturbed) : cutPoint s.port.during = none :=
  cutPoint_eq_none h.2

/-- What a run that is left alone ends with, the disturbed one ends with in its way. -/
theorem Paired.of_next {s t0 : State} {o : Host.Outcome State Fault Refusal} (h : Paired s o (.next t0)) :
    ∃ t, o = .next t ∧ Ended s t t0 := by
  cases h with
  | next t t0 h => exact ⟨t, rfl, h⟩

/-- An undisturbed command that gives a next state gives one alone, beside which it ends. -/
theorem exec_ended {i : Instr} {s t : State} (hu : s.undisturbed) (h : exec i s = .next t) :
    ∃ t0, exec i { s with port.during := [] } = .next t0 ∧ Ended s t t0 := by
  have hp := exec_paired i s hu.1
  rw [h] at hp
  cases hp' : exec i { s with port.during := [] } with
  | next t0 =>
    rw [hp'] at hp
    obtain ⟨t', he, hended⟩ := hp.of_next
    cases he
    exact ⟨t0, rfl, hended⟩
  | fault f =>
    rw [hp'] at hp
    cases hp with
    | stopped _ _ hcut => rw [hu.cutPoint] at hcut; cases hcut
  | refused r => rw [hp'] at hp; cases hp

/-- An undisturbed command ends as it does alone but for the host port, its accesses answered as those of BUSY = 1. -/
theorem Ended.undisturbed {s t t0 : State} (hu : s.undisturbed) (h : Ended s t t0) :
    t = { t0 with port := t.port } ∧ t.port.resets = s.port.resets ∧
      ∃ served answers, s.port.during.map Prod.snd = served ++ t.port.during.map Prod.snd ∧
        busyAnswered served s.port.draws answers t.port.draws ∧ t.port.reads = answers.reverse ++ s.port.reads := by
  obtain ⟨evs, served, answers, -, hans, hreads, ⟨heq, hresets, hduring, -⟩ | ⟨m, hcut, -⟩⟩ := h.host
  · exact ⟨heq, hresets, served, answers, hduring, hans, hreads⟩
  · rw [hu.cutPoint] at hcut
    cases hcut

/-- Settles O11: the accesses due at the start, after an event, after a pulse; then the whole command, and BUSY = 1. -/
theorem busyHostAccess : Obligations.BusyHostAccess := by
  refine ⟨dueAccesses_servedTo, fun s i hu => dueAccesses_servedTo _ _ hu.2, fun s n a rest hu hd => ⟨fun e => ?_, ?_⟩,
    fun i s t hu h => ?_, fun s a rest hb ha hi => ?_⟩
  · exact serveDuring_servedTo (s := log e s) hu.2 hd
  · exact fun tms tdi => ⟨tckPulse_servedTo .bb tms tdi hu.2 hd, tckPulse_servedTo .spi false tdi hu.2 hd⟩
  · obtain ⟨t0, -, hended⟩ := exec_ended hu h
    exact (hended.undisturbed hu).2.2
  · rw [step_busy hb ha hi, busyAccess_serves ha]
    rfl

/-- Settles O56: both runs side by side, no reset among the accesses. -/
theorem hostCannotDisturb : Obligations.HostCannotDisturb := by
  intro i s hu
  have hp := exec_paired i s hu.1
  refine ⟨fun t0 h0 => ?_, fun f hf => ?_⟩
  · rw [h0] at hp
    obtain ⟨t, ht, hended⟩ := hp.of_next
    obtain ⟨heq, hresets, -⟩ := hended.undisturbed hu
    exact ⟨t, ht, heq, hended.inputs, hresets, hended.cut⟩
  · rw [hf] at hp
    generalize exec i s = o at hp ⊢
    cases hp with
    | fault => rfl
    | stopped _ _ hcut => rw [hu.cutPoint] at hcut; cases hcut

/-! ### A reset during a command -/

/-- t is what a reset that arrives during a command from s leaves: every register at its reset value, the configuration
and the host's coming inputs kept. -/
def ResetDuring (s t : State) : Prop :=
  t = State.resetWith s.cfg t.env t.port ∧ t.port.resets = s.port.resets + 1 ∧ t.port.cut = none ∧
    t.port.inputs = s.port.inputs

/-- A reset before the first event leaves the environment as it was. -/
theorem ResetDuring.of_stopped {s t : State} (heq : t = State.resetWith s.cfg s.env t.port)
    (hi : t.port.inputs = s.port.inputs) (hr : t.port.resets = s.port.resets + 1) (hc : t.port.cut = none) :
    ResetDuring s t ∧ t.env = s.env := by
  have henv : t.env = s.env := by rw [heq]; rfl
  exact ⟨⟨by rw [henv]; exact heq, hr, hc, hi⟩, henv⟩

/-- Where the reset comes among the events of the command left alone. -/
theorem Ended.of_cutPoint {s t t0 : State} {evs : List Event} {m : Nat} (h : Ended s t t0) (ht0 : newEvents s t0 evs)
    (hm : cutPoint s.port.during = some m) :
    if m ≤ evs.length then
      ResetDuring s t ∧ ReachedEnv s.cfg s.env (evs.take m) t.env ∧ t.env.clock.time ≤ t0.env.clock.time
    else t = { t0 with port := t.port } ∧ t.port.resets = s.port.resets := by
  obtain ⟨evs', served, answers, hevs, -, -, hc⟩ := h.host
  obtain rfl := newEvents_unique ht0 hevs
  rcases hc with ⟨heq, hresets, -, hlate⟩ | ⟨m', hm', hle, heq, hresets, henv, -, htime, -⟩
  · rw [if_neg (Nat.not_le.2 (hlate m hm))]
    exact ⟨heq, hresets⟩
  · obtain rfl := Option.some.inj (hm'.symm.trans hm)
    rw [if_pos hle]
    exact ⟨⟨heq, hresets, h.cut, h.inputs⟩, henv, htime⟩

/-- A reset before the first event, beside a run left alone that comes to an end. -/
theorem Ended.of_cutPoint_zero {s t t0 : State} (h : Ended s t t0) (h0 : cutPoint s.port.during = some 0) :
    ResetDuring s t ∧ t.env = s.env := by
  obtain ⟨evs, served, answers, -, -, -, ⟨-, -, -, hlate⟩ | ⟨m, hm, -, heq, hresets, -, henv, -⟩⟩ := h.host
  · exact absurd (hlate 0 h0) (Nat.not_lt_zero _)
  · obtain rfl := Option.some.inj (hm.symm.trans h0)
    exact ⟨⟨heq, hresets, h.cut, h.inputs⟩, henv rfl⟩

/-- A command that has counted a reset was stopped by one. -/
theorem Ended.of_resets {s t t0 : State} (h : Ended s t t0) (hne : t.port.resets ≠ s.port.resets) :
    ResetDuring s t := by
  obtain ⟨evs, served, answers, -, -, -, ⟨-, hsame, -⟩ | ⟨m, -, -, heq, hresets, -⟩⟩ := h.host
  · exact absurd hsame hne
  · exact ⟨heq, hresets, h.cut, h.inputs⟩

/-- Settles O13: the disturbed run beside the one left alone; a reset at its start also stops it where that one
faults. -/
theorem hardwareResetInCommand : Obligations.HardwareResetInCommand := by
  intro i s hc isReset
  have hp := exec_paired i s hc
  refine ⟨fun h0 => ?_, fun m t0 evs hm h0 hevs => ?_, fun t ht hne => ?_⟩
  · generalize exec i { s with port.during := [] } = o0 at hp
    generalize exec i s = o at hp ⊢
    cases hp with
    | next t t0 h => exact ⟨t, rfl, h.of_cutPoint_zero h0⟩
    | fault f h => exact absurd h0 h
    | stopped t f _ heq hi hr hcut => exact ⟨t, rfl, ResetDuring.of_stopped heq hi hr hcut⟩
  · rw [h0] at hp
    obtain ⟨t, ht, hended⟩ := hp.of_next
    exact ⟨t, ht, hended.of_cutPoint hevs hm⟩
  · rw [ht] at hp
    generalize exec i { s with port.during := [] } = o0 at hp
    cases hp with
    | next _ t0 h => exact h.of_resets hne
    | stopped _ f _ heq hi hr hcut => exact (ResetDuring.of_stopped heq hi hr hcut).1

end Sys2Proof.Machine
end

section
/-! PROOFS. UPLOAD (spec 44 R255 to R263): its refusals, the state its chunk loop leaves, and its end. -/

namespace Sys2Proof.Machine

/-! ### Refusals in order -/

/-- A refused command changes nothing but ERR and the host port. -/
theorem refuses_of_firstRefusal {i : Instr} {s : State} {e : ErrorKind} {info : Nat} (hu : s.undisturbed)
    (h : firstRefusal (entryChecks i s) = some (e, info)) : Refuses i s e info := by
  obtain ⟨heq, -⟩ := endCommand_eq e info _ (beginCommand_undisturbed i s hu)
  refine ⟨_, exec_refused i s e info h, (Moves.refl _).endsWith hu e info, ?_⟩
  unfold onlyEnd
  generalize endCommand e info (beginCommand i s) = t at *
  rw [heq, beginCommand_eq]

/-- An entry check tests the condition, and reports it with the same code and information. -/
def EntryCheck.Tests (c : EntryCheck) (p : Prop × ErrorKind × Nat) : Prop := (c.1 = true ↔ p.1) ∧ c.2 = p.2

/-- Checks that test the conditions one by one refuse in their order (spec 60 R285). -/
theorem refusesInOrder_of_tests {i : Instr} {s : State} {checks : List EntryCheck}
    {conds : List (Prop × ErrorKind × Nat)} (ht : List.Forall₂ EntryCheck.Tests checks conds)
    (h : ∀ e info, firstRefusal checks = some (e, info) → Refuses i s e info) : RefusesInOrder i s conds := by
  induction ht with
  | nil => trivial
  | @cons c p checks conds hc _ ih =>
    obtain ⟨bad, e, info⟩ := c
    obtain ⟨cond, _⟩ := p
    obtain ⟨hiff, rfl⟩ := hc
    refine ⟨fun hp => h e info ?_, fun hn => ih fun e' info' h' => h e' info' ?_⟩
    · rw [firstRefusal, if_pos (hiff.2 hp)]
    · rw [firstRefusal, if_neg (mt hiff.1 hn)]
      exact h'

theorem firstRefusal_eq_none {l : List EntryCheck} (h : ∀ c ∈ l, c.1 = false) : firstRefusal l = none := by
  induction l with
  | nil => rfl
  | cons c l ih =>
    obtain ⟨hc, hl⟩ := List.forall_mem_cons.1 h
    simp only [firstRefusal, hc, Bool.false_eq_true, if_false]
    exact ih hl

theorem beyondFlash_iff (a : Nat) : beyondFlash a = true ↔ 2 ^ 24 ≤ a := decide_eq_true_iff

theorem misaligned_iff (a b : Nat) : misaligned a b = true ↔ a % b ≠ 0 := bne_iff_ne

/-! ### From the start of UPLOAD to the answer of its chunk loop -/

theorem acquireIfReleased_cfg (s : State) : (acquireIfReleased s).cfg = s.cfg := (acquireIfReleased_spec s).1.cfg

/-- The flash mode is open when the chunk loop begins: the TAP is in SelectDRScan. -/
theorem startUpload_tapAt (base : Nat) (s : State) (hw : 0 < s.cfg.progSpiBits) :
    (startUpload base s).tapAt .selectDRScan :=
  State.tapAt.setWork _ (openForFlash_tapAt _ (by rw [acquireIfReleased_cfg]; exact hw))

/-- The answer of the chunk loop is about the source, the statistics, the record and the address it began with. -/
theorem LoopAnswer.congr {u u' t : State} {evs : List Event} {o : Option ErrorKind} (h : LoopAnswer u t evs o)
    (hsource : u.env.source = u'.env.source) (hstats : u.stats = u'.stats) (hcfg : u.cfg = u'.cfg)
    (haddr : u.work.faddr = u'.work.faddr) : LoopAnswer u' t evs o := by
  cases o <;> simpa only [LoopAnswer, hsource, hstats, hcfg, haddr] using h

/-- Where UPLOAD stands when its chunk loop has answered `failure`: in v, from the state s in which it began. -/
structure UploadRun (s v : State) (evs : List Event) (failure : Option ErrorKind) : Prop where
  acts : Acts s v evs
  res : v.res = s.res
  buf : v.buf = s.buf
  devmode : v.devmode = .configuredForFlash
  inTap : v.inTap .selectDRScan
  work : WorkOk v
  elapsed : ElapsedOk v
  tStart : v.work.tStart = s.env.clock.now.1
  answer : LoopAnswer { s with stats := Stats.zero, work.faddr := s.regs.addr.toNat } v evs failure
  trace : ∃ opening chunks timedOut x, evs = acquireEvents s.pins.path ++ opening ++ chunks ∧
    OpenFlashTrace s.cfg s.pins.tdi opening x ∧
    ChunksTrace s.cfg (chunkRounds s.cfg) s.env.source.stream s.regs.addr.toNat x s.fsr Stats.zero chunks
      (failure.map fun e => (e, v.work.faddr)) v.fsr timedOut v.stats ∧
    v.flags.timeout = (s.flags.timeout || timedOut) ∧
    s.env.clock.time + 2 * s.cfg.cfgWait.ticks + waited chunks ≤ v.env.clock.time

/-- The upload from an accepted address to the answer of its chunk loop. -/
theorem runUpload_run {s : State} (hv : s.cfg.valid = true) (hw : WorkOk s) (hp : s.pins.path ≠ .burst)
    (hb : s.regs.addr.toNat ≤ Config.flashBytes) :
    let u := startUpload s.regs.addr.toNat s
    let r := chunkLoop (chunkRounds u.cfg) u
    ∃ evs, UploadRun s r.2 evs r.1 := by
  have hbounds := Params.valid_bounds hv
  have hspec := runUpload_spec _ s hv hw hb
  have htrace := runUpload_trace _ s hv hw hb
  obtain ⟨_, hstart, -, -, -, hstats, hsource, hregs, -⟩ := startUpload_spec s.regs.addr.toNat s
  obtain ⟨hpath, -⟩ := startUpload_steady s.regs.addr.toNat s hp (by omega)
  have htap := startUpload_tapAt s.regs.addr.toNat s (by omega)
  have hcfg := hstart.cfg
  have hfaddr := congrArg Work.faddr hregs
  generalize startUpload s.regs.addr.toNat s = u at *
  obtain ⟨evs, hacts, hres, hbuf, hmode, hwork, hsteady, helapsed, htStart, hanswer⟩ := hspec
  obtain ⟨opening, chunks, timedOut, x, hnew, htrace⟩ := htrace
  exact ⟨evs, hacts, hres, hbuf, hmode, ⟨hsteady.path hpath, chunkLoop_tapAt _ htap⟩, hwork, helapsed, htStart,
    hanswer.congr hsource hstats hcfg hfaddr,
    opening, chunks, timedOut, x, newEvents_unique hacts.trace hnew, htrace⟩

/-- UPLOAD, its address accepted, comes to an answer of the chunk loop. -/
theorem execUpload_run {s : State} (hb : BetweenCommands s) (h : firstRefusal (entryChecks .upload s) = none) :
    ∃ v evs failure, exec .upload s = .next (endUpload failure v) ∧
      UploadRun (beginCommand .upload s) v evs failure := by
  have hbase : s.regs.addr.toNat ≤ Config.flashBytes := Nat.le_of_lt (requireEraseAddress_none h).1
  have hwork : WorkOk (beginCommand .upload s) := hb.workOk.congr (by simp) (by simp)
  obtain ⟨evs, hrun⟩ := runUpload_run (s := beginCommand .upload s) (by simpa using hb.cfgValid) hwork
    (by simpa using hb.noBurst) (by simpa using hbase)
  rw [beginCommand_regs] at hrun
  exact ⟨_, evs, _, execUpload_runs h, hrun⟩

/-! ### Its end -/

/-- The end of UPLOAD writes the control registers and the trace; without a failure it also stamps ST_ELAPSED. -/
theorem endUpload_eq (failure : Option ErrorKind) {v : State} (hu : v.undisturbed) :
    endUpload failure v = { v with
      ctl := (endUpload failure v).ctl, trace := (endUpload failure v).trace, port := (endUpload failure v).port
      stats := (endUpload failure v).stats, env.clock := (endUpload failure v).env.clock } ∧
    v.env.clock.time ≤ (endUpload failure v).env.clock.time := by
  cases failure with
  | none =>
    obtain ⟨heq, -⟩ := endCommand_eq .ok 0 (stampElapsed v) ((stampElapsed_moves v).undisturbed hu)
    simp only [endUpload]
    generalize endCommand .ok 0 (stampElapsed v) = t at *
    refine ⟨by rw [heq]; rfl, ?_⟩
    rw [heq]
    exact Nat.le_trans (Nat.le_add_right _ _) (stampElapsed_moves v).time
  | some e =>
    obtain ⟨heq, -⟩ := endCommand_eq e v.work.faddr v hu
    simp only [endUpload]
    generalize endCommand e v.work.faddr v = t at *
    exact ⟨by rw [heq], by rw [heq]⟩

theorem endUpload_stats_some (e : ErrorKind) {v : State} (hu : v.undisturbed) :
    (endUpload (some e) v).stats = v.stats := by
  obtain ⟨heq, -⟩ := endCommand_eq e v.work.faddr v hu
  rw [endUpload, heq]

/-- ST_ELAPSED is at the end the time since the start (spec 44 R255). -/
theorem endUpload_stats_none {v : State} (hu : v.undisturbed) :
    (endUpload none v).stats =
      { v.stats with elapsed := elapsedWord (endUpload none v).env.clock.time v.work.tStart } := by
  obtain ⟨heq, -⟩ := endCommand_eq .ok 0 (stampElapsed v) ((stampElapsed_moves v).undisturbed hu)
  simp only [endUpload]
  rw [heq]
  simp only [← stampElapsed_elapsed]
  rfl

namespace UploadRun
variable {s v : State} {evs : List Event} {failure : Option ErrorKind}

theorem undisturbed (h : UploadRun (beginCommand .upload s) v evs failure) (hu : s.undisturbed) : v.undisturbed :=
  h.acts.undisturbed (beginCommand_undisturbed _ s hu)

/-- What was not stamped yet is no later than the stamp. -/
theorem elapsed_le (h : UploadRun (beginCommand .upload s) v evs none) (hu : s.undisturbed) :
    v.stats.elapsed ≤ (endUpload none v).stats.elapsed := by
  rw [endUpload_stats_none (h.undisturbed hu)]
  exact BitVec.le_trans h.elapsed (elapsedWord_mono _ (endUpload_eq none (h.undisturbed hu)).2)

/-- Any end after the loop, with the events of the loop before it. -/
theorem endsWith {u : State} (h : UploadRun (beginCommand .upload s) v evs failure) (hu : s.undisturbed)
    (hm : Moves v u []) (e : ErrorKind) (info : Nat) : EndsWith s (endCommand e info u) e info evs := by
  have hacts : Acts (beginCommand .upload s) u (evs ++ []) := h.acts.trans hm.acts
  rw [List.append_nil] at hacts
  exact hacts.endsWith hu e info

theorem endsWith_none (h : UploadRun (beginCommand .upload s) v evs none) (hu : s.undisturbed) :
    EndsWith s (endUpload none v) .ok 0 evs :=
  h.endsWith hu (stampElapsed_moves v) _ _

theorem endsWith_some {e : ErrorKind} (h : UploadRun (beginCommand .upload s) v evs (some e)) (hu : s.undisturbed) :
    EndsWith s (endUpload (some e) v) e v.work.faddr evs :=
  h.endsWith hu (Moves.refl v) _ _

/-- The answer of the loop, in terms of the state before the command. -/
theorem loopAnswer (h : UploadRun (beginCommand .upload s) v evs failure) :
    LoopAnswer { s with stats := Stats.zero, work.faddr := s.regs.addr.toNat } v evs failure :=
  h.answer.congr (by simp) rfl (by simp) (by simp)

/-- The whole stream has been taken, or the loop stopped at a chunk. -/
theorem uploadEnds (h : UploadRun (beginCommand .upload s) v evs failure) (hu : s.undisturbed) :
    UploadEnds s (endUpload failure v) evs := by
  obtain ⟨heq, -⟩ := endUpload_eq failure (h.undisturbed hu)
  have hsource : (endUpload failure v).env.source = v.env.source := by rw [heq]
  have htStart : (endUpload failure v).work.tStart = v.work.tStart := by rw [heq]
  have hanswer := h.loopAnswer
  cases failure with
  | none =>
    obtain ⟨hfin, hstream, hbytes, hblocks, hfit, hcounted⟩ := hanswer
    have hstats := endUpload_stats_none (h.undisturbed hu)
    refine .inl ⟨h.endsWith_none hu, hfin, by rw [hsource]; exact hstream, hfit, ?_, ?_, v.stats, hcounted,
      h.elapsed_le hu, ?_⟩
    · rw [hstats]; exact hbytes.trans (BitVec.zero_add _)
    · rw [hstats]; exact hblocks.trans (BitVec.zero_add _)
    · rw [htStart]; exact hstats
  | some e =>
    obtain ⟨k, hwhere, haddr, hstream, hbytes, hblocks, hcounted, hcause⟩ := hanswer
    have hstats := endUpload_stats_some e (h.undisturbed hu)
    have hends := h.endsWith_some hu
    have hinside := h.work.faddr
    rw [haddr] at hends hinside hcause
    refine .inr ⟨e, k, hends, hwhere, hinside, by rw [hsource]; exact hstream, ?_, ?_, by rw [hstats]; exact hcounted,
      hcause⟩
    · rw [hstats]; exact hbytes.trans (BitVec.zero_add _)
    · rw [hstats]; exact hblocks.trans (BitVec.zero_add _)

/-- The events of the upload and what they leave, in terms of the state before the command. -/
theorem uploadTrace (h : UploadRun (beginCommand .upload s) v evs failure) (hu : s.undisturbed) :
    let t := endUpload failure v
    ∃ opening chunks answer timedOut last x,
      evs = acquireEvents s.pins.path ++ opening ++ chunks ∧
      OpenFlashTrace s.cfg s.pins.tdi opening x ∧
      ChunksTrace s.cfg (2 ^ 24 / s.cfg.eraseBlock + 1) s.env.source.stream s.regs.addr.toNat x s.fsr Stats.zero chunks
        answer t.fsr timedOut last ∧
      t.flags.timeout = (s.flags.timeout || timedOut) ∧
      s.env.clock.time + 2 * s.cfg.cfgWait.ticks + waited chunks ≤ t.env.clock.time ∧
      match answer with
      | none => EndsWith s t .ok 0 evs ∧ t.stats = { last with elapsed := t.stats.elapsed }
      | some (e, a) => EndsWith s t e a evs ∧ t.stats = last := by
  intro t
  obtain ⟨heq, htime⟩ := endUpload_eq failure (h.undisturbed hu)
  have hfsr : t.fsr = v.fsr := by simp only [t]; rw [heq]
  have hflags : t.flags = v.flags := by simp only [t]; rw [heq]
  obtain ⟨opening, chunks, timedOut, x, hevs, hopen, hchunks, htimeout, hwaited⟩ := h.trace
  simp only [beginCommand_cfg, beginCommand_pins, beginCommand_env, beginCommand_fsr, beginCommand_flags,
    beginCommand_regs] at hevs hopen hchunks htimeout hwaited
  refine ⟨opening, chunks, _, timedOut, v.stats, x, hevs, hopen, by rw [hfsr]; exact hchunks,
    by rw [hflags]; exact htimeout, Nat.le_trans hwaited htime, ?_⟩
  cases failure with
  | none => exact ⟨h.endsWith_none hu, by simp only [t]; rw [endUpload_stats_none (h.undisturbed hu)]⟩
  | some e => exact ⟨h.endsWith_some hu, endUpload_stats_some e (h.undisturbed hu)⟩

end UploadRun

theorem upload_hasOp : HasOp .upload 0x44#8 := ⟨by decide, decode_encode .upload⟩

/-- UPLOAD refuses a base address beyond the flash, then one that is misaligned (spec 44 R255). -/
theorem upload_refusesInOrder {s : State} (hu : s.undisturbed) : RefusesInOrder .upload s
    [(2 ^ 24 ≤ s.regs.addr.toNat, .addressRangeError, s.regs.addr.toNat),
     (s.regs.addr.toNat % s.cfg.eraseBlock ≠ 0, .alignmentError, s.regs.addr.toNat)] :=
  refusesInOrder_of_tests (checks := entryChecks .upload s)
    (.cons ⟨beyondFlash_iff _, rfl⟩ (.cons ⟨misaligned_iff _ _, rfl⟩ .nil)) fun _ _ h => refuses_of_firstRefusal hu h

/-- Settles O45: the refusals, then the end of the run: its events, its counts, and what it leaves alone. -/
theorem uploadCommand : Obligations.UploadCommand := by
  intro s hb hu base
  refine ⟨upload_hasOp, upload_refusesInOrder hu, fun hrange halign => ?_⟩
  have hpass : firstRefusal (entryChecks .upload s) = none := firstRefusal_eq_none (by
    simp only [entryChecks, requireEraseAddress, List.forall_mem_cons, ← Bool.not_eq_true, beyondFlash_iff,
      misaligned_iff]
    exact ⟨Nat.not_le.2 hrange, not_not_intro halign, nofun⟩)
  obtain ⟨v, evs, failure, hexec, h⟩ := execUpload_run hb hpass
  have htrace := h.uploadTrace hu
  obtain ⟨heq, -⟩ := endUpload_eq failure (h.undisturbed hu)
  refine ⟨endUpload failure v, evs, hexec, h.uploadEnds hu, ?_, ?_, ?_, ?_, htrace, ?_⟩
  · rw [heq]; simpa using h.tStart
  · rw [heq]; exact h.devmode
  · rw [heq]; exact h.inTap
  · rw [heq]; simpa using h.acts.mismatch
  · have hcfg : v.cfg = s.cfg := h.acts.cfg.trans (by simp)
    have hregs : v.regs = s.regs := h.acts.regs.trans (by simp)
    have hres : v.res = s.res := h.res.trans (by simp)
    have hbuf : v.buf = s.buf := h.buf.trans (by simp)
    generalize endUpload failure v = t at *
    rw [heq, ← hcfg, ← hregs, ← hres, ← hbuf]

end Sys2Proof.Machine
end

section
/-! PROOFS. The chunks of UPLOAD: filled from the stream alone (spec 20_memory R78, R79), finished or failed one by one
(spec 44 R256, R257, R262), and no more of them than the flash has erase blocks (spec 70 R337). -/

namespace Sys2Proof.Machine

/-! ### Filling a chunk -/

/-- What the answers of a fill hold is what fills the chunk, and each request is for what a chunk not yet full lacks. -/
theorem FillTrace.answers {size got : Nat} {evs : List Event} {bytes : List Byte} {eos : Bool}
    (h : FillTrace size got evs bytes eos) :
    bytesTaken evs = bytes ∧ ∀ e ∈ evs, ∃ n answer, e = .src n answer ∧ 1 ≤ n ∧ n ≤ size := by
  induction evs generalizing got bytes with
  | nil =>
    obtain ⟨-, rfl, -⟩ := h
    exact ⟨rfl, nofun⟩
  | cons e evs ih =>
    cases e with
    | src n answer =>
      cases answer with
      | none =>
        obtain ⟨hlt, rfl, rfl, rfl, -⟩ := h
        exact ⟨rfl, List.forall_mem_cons.2 ⟨⟨_, _, rfl, by omega, by omega⟩, nofun⟩⟩
      | some answer =>
        obtain ⟨hlt, rfl, -, -, rest, rfl, hrest⟩ := h
        obtain ⟨htaken, hsrc⟩ := ih hrest
        exact ⟨congrArg (answer ++ ·) htaken, List.forall_mem_cons.2 ⟨⟨_, _, rfl, by omega, by omega⟩, hsrc⟩⟩
    | _ => exact h.elim

/-- Settles O47: the chunk is what the stream gives next, the rest is the stream after it. -/
theorem chunkAssembly : Obligations.ChunkAssembly := by
  intro s hempty r stream rest
  have hf : Filled s r.2 r.1 := fillChunk_spec _ s (by omega) (by omega) (by omega)
  obtain ⟨evs, hnew, htrace⟩ := fillChunk_trace s.cfg.eraseBlock s (by omega) (by omega)
  rw [hempty, Nat.sub_zero] at htrace
  have hbytes : r.2.chunkBytes = stream.peek s.cfg.eraseBlock := by
    simpa [hempty, State.chunkBytes] using hf.bytes
  have hrest : rest = stream.skip s.cfg.eraseBlock := by simpa [hempty] using hf.stream
  have hlen : r.2.work.chunklen = (stream.peek s.cfg.eraseBlock).length := by simpa [hempty] using hf.chunklen
  have heos := hf.eos
  rw [hlen, ByteStream.peek_length] at heos
  obtain ⟨htaken, hsrc⟩ := htrace.answers
  rw [hbytes]
  refine ⟨hlen, by rw [hrest, ByteStream.skip_endless], fun hfin => ⟨?_, ?_, ?_⟩, fun hend => ⟨?_, ?_⟩, fun n => ?_,
    evs, hnew, htaken, hsrc⟩
  · exact ByteStream.peek_finite _ hfin
  · rw [hrest, ByteStream.skip_content]
  · rw [heos, hfin, if_neg Bool.false_ne_true, decide_eq_decide]
    omega
  · rw [ByteStream.peek_length, if_pos hend]
  · rw [heos, if_pos hend]
    exact decide_eq_false (Nat.lt_irrefl _)
  · rw [ByteStream.peek_add, ByteStream.peek_peek_length, ByteStream.skip_peek_length, hrest]

/-! ### One round over a chunk -/

theorem runsPastFlash_iff (a len : Nat) : runsPastFlash a len = true ↔ 2 ^ 24 < a + len := decide_eq_true_iff

/-- A chunk that runs past the flash is out of range before anything is done (spec 20_memory R84). -/
theorem runChunk_past {s : State} (h : 2 ^ 24 < s.work.faddr + s.work.chunklen) :
    runChunk s = (some .addressRangeError, s) := by
  rw [runChunk, if_pos ((runsPastFlash_iff _ _).2 h)]

/-- Where a round begins its attempts: none made, nothing begun. -/
def State.freshAttempts (s : State) : State :=
  { s with work.retry := 0, work.didErase := false, work.didWrite := false }

section Inside
variable {s v : State} (h : ¬2 ^ 24 < s.work.faddr + s.work.chunklen)
include h

theorem runChunk_failed {e : ErrorKind} (hloop : retryLoop Config.retryMax s.freshAttempts = (some e, v)) :
    runChunk s = (some e, v) := by
  unfold State.freshAttempts at hloop
  rw [runChunk, if_neg (mt (runsPastFlash_iff _ _).1 h), hloop]

theorem runChunk_finished (hloop : retryLoop Config.retryMax s.freshAttempts = (none, v)) :
    runChunk s = (none, finishChunk v) := by
  unfold State.freshAttempts at hloop
  rw [runChunk, if_neg (mt (runsPastFlash_iff _ _).1 h), hloop]

end Inside

/-- Settles O58: out of range, or the events and flags of the retry loop, and the count where it ends well. -/
theorem chunkRound : Obligations.ChunkRound := by
  intro s hv hpos hle r
  split
  case isTrue hpast => exact runChunk_past hpast
  case isFalse hin =>
    have hp := Params.uploadParams hv
    have hbytes : s.freshAttempts.chunkBytes.length = s.freshAttempts.work.chunklen :=
      List.length_take_of_le hle
    obtain ⟨evs, timedOut, erased, wrote, ⟨hnew, -, htimeout⟩, htrace, herased, hwrote⟩ :=
      retryLoop_trace Config.retryMax s.freshAttempts hbytes hpos
        ⟨hp.writeBlock, hp.erase, hp.write⟩ ⟨hp.eraseWidth, hp.writeWidth⟩
    obtain ⟨_, hon, -⟩ := retryLoop_spec Config.retryMax s.freshAttempts hp.eraseWidth hp.writeWidth
    have htdi := retryLoop_tdi Config.retryMax s.freshAttempts
    refine ⟨evs, timedOut, erased, wrote, ?_⟩
    rcases hloop : retryLoop Config.retryMax s.freshAttempts with ⟨failed, v⟩
    rw [hloop] at hnew htimeout htrace herased hwrote hon htdi
    cases failed with
    | some e =>
      have hr : r = (some e, v) := runChunk_failed hin hloop
      rw [hr]
      exact ⟨htrace, htimeout, htdi, herased, hwrote, hnew, hon.stats⟩
    | none =>
      have hr : r = (none, finishChunk v) := runChunk_finished hin hloop
      rw [hr]
      obtain ⟨_, hmoves, rfl, -, hwork, -, -, hcounts⟩ := finishChunk_spec v
      rw [hon.chunklen, hon.tStart, hon.stats, herased, hwrote] at hcounts
      refine ⟨by rw [finishChunk_fsr]; exact htrace, by rw [finishChunk_flags]; exact htimeout,
        by rw [finishChunk_pins]; exact htdi, by rw [hwork]; exact herased, by rw [hwork]; exact hwrote,
        newEvents.trans (t := v) hnew hmoves.trace, hcounts.trans (afterChunk_finished ..)⟩

/-! ### UPLOAD ends -/

/-- One report for each chunk counted. -/
theorem countedChunks_length {st last : Stats} {sizes : List Nat} {reports : List Stats}
    (h : countedChunks st sizes reports last) : reports.length = sizes.length := by
  induction sizes generalizing st reports with
  | nil => rw [h.1, List.length_nil, List.length_nil]
  | cons n sizes ih =>
    obtain ⟨_, rest, rfl, -, hrest⟩ := h
    rw [List.length_cons, ih hrest, List.length_cons]

/-- The blocks that hold the chunks of n bytes exceed them by less than a block. -/
theorem chunkSizes_length_mul_lt {size : Nat} (n : Nat) (h : 0 < size) :
    (chunkSizes size n).length * size < n + size := by
  have hn := Nat.div_add_mod' n size
  rw [chunkSizes, List.length_append, List.length_replicate, Nat.add_mul]
  by_cases hz : n % size = 0
  · rw [if_pos hz, List.length_nil, Nat.zero_mul]
    omega
  · rw [if_neg hz, List.length_singleton, Nat.one_mul]
    omega

section Flash
variable {s t : State} {evs : List Event} (h : UploadEnds s t evs) (hflash : s.cfg.eraseBlock ∣ 2 ^ 24)
  (hbase : s.cfg.eraseBlock ∣ s.regs.addr.toNat)
include h hflash hbase

/-- The chunks an upload has finished stand in the flash. -/
theorem UploadEnds.reports_inside (hsize : 0 < s.cfg.eraseBlock) (hrange : s.regs.addr.toNat ≤ 2 ^ 24) :
    s.regs.addr.toNat + (reportsOf evs).length * s.cfg.eraseBlock ≤ 2 ^ 24 := by
  rcases h with ⟨-, -, -, hfit, -, -, last, hcounted, -⟩ | ⟨e, k, -, -, hin, -, -, -, hcounted, -⟩
  · rw [countedChunks_length hcounted]
    have hlt := chunkSizes_length_mul_lt s.env.source.stream.content.length hsize
    refine Nat.le_of_lt_add_of_dvd ?_ (hbase.add (Dvd.intro_left _ rfl)) hflash
    by_cases hnone : s.env.source.stream.content.length = 0 <;> omega
  · rw [countedChunks_length hcounted, List.length_replicate]
    exact hin

/-- A source that never ends stops the upload at a chunk that fails, or at the end of the flash. -/
theorem UploadEnds.of_endless (hend : s.env.source.stream.endless = true) :
    let stop := s.regs.addr.toNat + (reportsOf evs).length * s.cfg.eraseBlock
    ∃ e, EndsWith s t e stop evs ∧ t.env.source.stream.endless = true ∧
      (e = .unerasableImage ∨ e = .programFailure ∨ (e = .addressRangeError ∧ stop = 2 ^ 24)) := by
  rcases h with ⟨-, hfin, -⟩ | ⟨e, k, hends, -, hin, hstream, -, -, hcounted, hcause⟩
  · rw [hend] at hfin
    cases hfin
  · rw [countedChunks_length hcounted, List.length_replicate]
    refine ⟨e, hends, by rw [hstream]; exact hend, hcause.imp_right (Or.imp_right fun ⟨he, hpast⟩ => ⟨he, ?_⟩)⟩
    rw [ByteStream.peek_length, ByteStream.skip_endless, if_pos hend] at hpast
    exact Nat.le_antisymm hin (Nat.le_of_lt_add_of_dvd hpast hflash (hbase.add (Dvd.intro_left _ rfl)))

end Flash

/-- An aligned address in the flash is accepted (spec 44 R255). -/
theorem upload_passes {s : State} (hrange : s.regs.addr.toNat < 2 ^ 24)
    (halign : s.regs.addr.toNat % s.cfg.eraseBlock = 0) : firstRefusal (entryChecks .upload s) = none :=
  firstRefusal_eq_none (by
    simp only [entryChecks, requireEraseAddress, List.forall_mem_cons, ← Bool.not_eq_true, beyondFlash_iff,
      misaligned_iff]
    exact ⟨Nat.not_le.2 hrange, not_not_intro halign, nofun⟩)

/-- Settles O60: how an upload ends, on a flash that is a whole number of erase blocks. -/
theorem uploadTerminates : Obligations.UploadTerminates := by
  intro s hb hu base size hrange halign
  obtain ⟨hsize, hflash, -⟩ := Params.valid_bounds hb.cfgValid
  obtain ⟨v, evs, failure, hexec, hrun⟩ := execUpload_run hb (upload_passes hrange halign)
  have hends := hrun.uploadEnds hu
  have hflash := Nat.dvd_of_mod_eq_zero hflash
  have hbase := Nat.dvd_of_mod_eq_zero halign
  exact ⟨endUpload failure v, evs, hexec, hends, hends.reports_inside hflash hbase hsize (Nat.le_of_lt hrange),
    hends.of_endless hflash hbase⟩

end Sys2Proof.Machine
end

section
/-! PROOFS. Bytes of BUF that nothing has written since reset: which commands stop at one, and that nothing else faults
(spec 20_memory R73, 70 R325, 93 U1; log entry 9). -/

namespace Sys2Proof.Machine

/-- A range reads as nothing exactly where one of its bytes does. -/
theorem Memory.readRange_eq_none (m : Memory) (base n : Nat) :
    Memory.readRange m base n = none ↔ ∃ a, base ≤ a ∧ a < base + n ∧ Memory.read m a = none := by
  induction n generalizing base with
  | zero => exact ⟨nofun, fun ⟨a, hlo, hhi, _⟩ => by omega⟩
  | succ n ih =>
    have hcons : Memory.readRange m base (n + 1) = none ↔
        Memory.read m base = none ∨ Memory.readRange m (base + 1) n = none := by
      rw [Memory.readRange]
      cases Memory.read m base <;> cases Memory.readRange m (base + 1) n <;> simp
    rw [hcons, ih]
    constructor
    · rintro (h | ⟨a, hlo, hhi, h⟩)
      · exact ⟨base, Nat.le_refl _, by omega, h⟩
      · exact ⟨a, by omega, by omega, h⟩
    · rintro ⟨a, hlo, hhi, h⟩
      rcases Nat.eq_or_lt_of_le hlo with rfl | hlt
      · exact .inl h
      · exact .inr ⟨a, hlt, by omega, h⟩

/-! ### What faults -/

/-- A range with a byte missing stops the run, where no reset came first. -/
theorem withBuf_none {base n : Nat} {s : State} {run : List Byte → Host.Outcome State Fault Refusal}
    (hc : s.port.cut = none) (h : Memory.readRange s.buf base n = none) :
    withBuf base n s run = .fault .bufNeverWritten := by
  simp [withBuf, h, hc]

/-- No end of a command is a fault. -/
theorem complete_ne_fault (s : State) (f : Fault) : complete s ≠ .fault f := nofun

theorem endPolled_ne_fault (timedOut : Bool) (info : Nat) (s : State) (f : Fault) :
    endPolled timedOut info s ≠ .fault f := nofun

/-- A range read for a command that goes on to an end faults only where one of its bytes is missing. -/
theorem withBuf_fault {base n : Nat} {s : State} {f : Fault} {run : List Byte → Host.Outcome State Fault Refusal}
    (hrun : ∀ bytes, run bytes ≠ .fault f) (h : withBuf base n s run = .fault f) :
    Memory.readRange s.buf base n = none := by
  unfold withBuf at h
  split at h
  next bytes _ => exact absurd h (hrun bytes)
  next hnone => exact hnone

/-! ### The four commands that read BUF -/

/-- How many bytes of BUF a command reads before its first event, if it reads any (spec 30_encoding R116). -/
def bufRead (i : Instr) (s : State) : Option Nat :=
  match i with
  | .rev8 | .burstwr | .write => some s.regs.len.toNat
  | .sdr _ _ _ => some (bytesForBits s.regs.len.toNat)
  | _ => none

theorem bufRead_eq_some {i : Instr} {s : State} {n : Nat} :
    bufRead i s = some n ↔ (i = .rev8 ∨ i = .burstwr ∨ i = .write) ∧ n = s.regs.len.toNat ∨
      (∃ c d p, i = .sdr c d p) ∧ n = (s.regs.len.toNat + 7) / 8 := by
  cases i <;> simp [bufRead, bytesForBits, eq_comm]

theorem bufRead_beginCommand (i j : Instr) (s : State) : bufRead i (beginCommand j s) = bufRead i s := by
  simp only [bufRead, beginCommand_regs]

section Passed
variable {i : Instr} {s : State} (hpass : firstRefusal (entryChecks i s) = none)
include hpass

/-- A command that reads BUF does so first, and what follows does not fault. -/
theorem exec_reads {n : Nat} (h : bufRead i s = some n) :
    ∃ run, (∀ bytes f, run bytes ≠ .fault f) ∧
      exec i s = withBuf s.regs.buf.toNat n (beginCommand i s) run := by
  rw [← bufRead_beginCommand i i] at h
  rw [← beginCommand_regs i s]
  cases i with
  | rev8 | burstwr | sdr c d p =>
    cases h
    simp only [exec, execRev8, execBurstwr, execSdr]
    rw [command_passed (by rfl) hpass]
    exact ⟨_, fun _ f => complete_ne_fault _ f, rfl⟩
  | write =>
    cases h
    simp only [exec, execWrite]
    rw [command_passed (by rfl) hpass]
    exact ⟨_, fun _ f => endPolled_ne_fault _ _ _ f, rfl⟩
  | _ => cases h

/-- Every other command comes to an end. -/
theorem exec_ne_fault (h : bufRead i s = none) (f : Fault) : exec i s ≠ .fault f := by
  cases i with
  | rev8 | burstwr | sdr c d p | write => cases h
  | acquire => rw [execAcquire_runs hpass]; exact complete_ne_fault _ f
  | release => rw [execRelease_runs hpass]; exact complete_ne_fault _ f
  | shiftbit tdi tms => rw [execShiftbit_runs tdi tms hpass]; exact complete_ne_fault _ f
  | settms tms => rw [execSettms_runs tms hpass]; exact complete_ne_fault _ f
  | reset => rw [execReset_runs hpass]; exact complete_ne_fault _ f
  | idle => rw [execIdle_runs hpass]; exact complete_ne_fault _ f
  | sir idleTail => rw [execSir_runs idleTail hpass]; exact complete_ne_fault _ f
  | check => rw [execCheck_runs]; exact complete_ne_fault _ f
  | burstrd => rw [execBurstrd_runs hpass]; exact complete_ne_fault _ f
  | identify => rw [execIdentify_runs]; exact complete_ne_fault _ f
  | opencfg => rw [execOpencfg_runs]; exact complete_ne_fault _ f
  | openflash => rw [execOpenflash_runs]; exact complete_ne_fault _ f
  | close => rw [execClose_runs hpass]; exact complete_ne_fault _ f
  | poll => rw [execPoll_runs hpass]; exact endPolled_ne_fault _ _ _ f
  | erase => rw [execErase_runs hpass]; exact endPolled_ne_fault _ _ _ f
  | read => rw [execRead_runs hpass]; exact complete_ne_fault _ f
  | upload => rw [execUpload_runs hpass]; exact nofun

end Passed

/-- What faults has passed its checks and reads a range that has a byte missing. -/
theorem exec_fault {i : Instr} {s : State} {f : Fault} (h : exec i s = .fault f) :
    ∃ n, bufRead i s = some n ∧ Memory.readRange s.buf s.regs.buf.toNat n = none := by
  cases hpass : firstRefusal (entryChecks i s) with
  | some refusal =>
    rw [exec_refused i s refusal.1 refusal.2 hpass] at h
    cases h
  | none =>
    cases hread : bufRead i s with
    | none => exact absurd h (exec_ne_fault hpass hread f)
    | some n =>
      obtain ⟨run, hrun, he⟩ := exec_reads hpass hread
      rw [he] at h
      have hnone := withBuf_fault (fun bytes => hrun bytes f) h
      rw [beginCommand_buf] at hnone
      exact ⟨n, rfl, hnone⟩

/-- Settles O55: the range reads as nothing exactly where one of its bytes does. -/
theorem unwrittenBufFaults : Obligations.UnwrittenBufFaults := by
  refine ⟨fun i s n a hu hpass hreads hlo hhi hnone => ?_, fun i s f h => ?_⟩
  · obtain ⟨run, -, he⟩ := exec_reads hpass (bufRead_eq_some.2 hreads)
    rw [he]
    refine withBuf_none (beginCommand_undisturbed i s hu).1 ?_
    rw [beginCommand_buf, Memory.readRange_eq_none]
    exact ⟨a, hlo, hhi, hnone⟩
  · obtain ⟨n, hread, hrange⟩ := exec_fault h
    obtain ⟨a, hlo, hhi, hnone⟩ := (Memory.readRange_eq_none ..).1 hrange
    exact ⟨n, a, bufRead_eq_some.1 hread, hlo, hhi, hnone⟩

end Sys2Proof.Machine
end

section
/-! PROOFS. ERASE (spec 44 R245): its refusals in order, its frames, and what it leaves. -/

namespace Sys2Proof.Machine

/-! ### Refusals in order -/

/-- Checks that test conditions none of which holds pass. -/
theorem firstRefusal_none_of_tests {checks : List EntryCheck} {conds : List (Prop × ErrorKind × Nat)}
    (ht : List.Forall₂ EntryCheck.Tests checks conds) (h : ∀ c ∈ conds, ¬c.1) : firstRefusal checks = none := by
  induction ht with
  | nil => rfl
  | @cons check cond _ _ htest _ ih =>
    obtain ⟨hcond, hconds⟩ := List.forall_mem_cons.1 h
    obtain ⟨bad, e, info⟩ := check
    rw [firstRefusal, if_neg (mt htest.1.1 hcond)]
    exact ih hconds

/-- The tracker's check of spec 41 R170. -/
theorem notIn_iff (entry : List TapState) (s : State) :
    (!s.tap.known || !entry.contains s.tap.state) = true ↔ s.notIn entry := by
  simp [State.notIn]

theorem State.inTap.not_notIn {s : State} {st : TapState} (h : s.inTap st) : ¬s.notIn [st] := by
  obtain ⟨-, hknown, hstate, -⟩ := h
  simp [State.notIn, hknown, hstate]

/-- The checks of `requireFlash()` (spec 44 R240, 41 R170). -/
theorem requireFlash_tests (s : State) : List.Forall₂ EntryCheck.Tests (requireFlash s)
    [(s.devmode ≠ .configuredForFlash, .sessionError, 0), (s.pins.path ≠ .bitBang, .sessionError, 0),
     (s.notIn [.selectDRScan], .tapSequenceError, 0)] :=
  .cons ⟨bne_iff_ne, rfl⟩ (.cons ⟨bne_iff_ne, rfl⟩ (.cons ⟨notIn_iff _ s, rfl⟩ .nil))

/-- The checks of ERASE, the range of the block before its alignment (log entry 24). -/
theorem eraseChecks_tests (s : State) : List.Forall₂ EntryCheck.Tests (entryChecks .erase s)
    [(2 ^ 24 ≤ s.regs.addr.toNat ∨ 2 ^ 24 < s.regs.addr.toNat + s.cfg.eraseBlock, .addressRangeError,
       s.regs.addr.toNat),
     (s.regs.addr.toNat % s.cfg.eraseBlock ≠ 0, .alignmentError, s.regs.addr.toNat),
     (s.devmode ≠ .configuredForFlash, .sessionError, 0), (s.pins.path ≠ .bitBang, .sessionError, 0),
     (s.notIn [.selectDRScan], .tapSequenceError, 0)] := by
  refine .cons ⟨?_, rfl⟩ (.cons ⟨misaligned_iff _ _, rfl⟩ (requireFlash_tests s))
  rw [Bool.or_eq_true, beyondFlash_iff, runsPastFlash_iff]
  rfl

/-! ### The path stays with the lines -/

theorem frameBB_path (frame : List Byte) (s : State) : (frameBB frame s).2.pins.path = s.pins.path :=
  sdr_path _ _ _ _

theorem readFlashStatus_path (s : State) : (readFlashStatus s).2.pins.path = s.pins.path := frameBB_path _ _

theorem pollLoop_path (delay n : Nat) (before : Byte) (s : State) :
    (pollLoop delay n before s).2.pins.path = s.pins.path := by
  induction n generalizing before s with
  | zero => rfl
  | succ n ih =>
    have hread := readFlashStatus_path s
    rw [pollLoop]
    simp only
    split
    · exact hread
    · rw [ih, pauseFor_pins]
      exact hread

theorem eraseBlock_path (a : Nat) (s : State) : (eraseBlock a s).2.pins.path = s.pins.path := by
  simp only [eraseBlock, pollStatus]
  rw [pollLoop_path]
  simp only
  rw [frameBB_path, check_pins, readFlashStatus_path, frameBB_path]

/-- A block erased from SelectDRScan leaves the TAP there. -/
theorem eraseBlock_inTap {s : State} (a : Nat) (h : s.inTap .selectDRScan) : (eraseBlock a s).2.inTap .selectDRScan :=
  ⟨(eraseBlock_path a s).trans h.1, eraseBlock_tapAt a h.2⟩

/-! ### A flash command and its end -/

theorem State.inTap.beginCommand {s : State} {st : TapState} (h : s.inTap st) (i : Instr) :
    (beginCommand i s).inTap st :=
  ⟨by rw [beginCommand_pins]; exact h.1, h.2.of_eq (beginCommand_tap i s)⟩

/-- A flash operation of a command, then the end of the command: a timeout ends it with StatusTimeout (spec 60 R289);
beside the lines it has written FSR and FLAGS. -/
theorem FlashOp.endPolled {i : Instr} {s u : State} {evs : List Event} (h : FlashOp (beginCommand i s) u evs)
    (hu : s.undisturbed) (timedOut : Bool) (info : Nat) :
    ∃ t, endPolled timedOut info u = .next t ∧ EndsPolled s t timedOut info evs ∧
      t = { u with ctl := t.ctl, trace := t.trace, port := t.port } ∧
      onlyLines { s with fsr := u.fsr, flags := u.flags } t := by
  have hends (e : ErrorKind) (n : Nat) := h.toMoves.endsWith hu e n
  refine ⟨_, rfl, ?_, ?_⟩
  · cases timedOut
    · exact hends .ok 0
    · exact hends .statusTimeout info
  · obtain ⟨e, n, heq⟩ := endPolled_next (b := timedOut) (info := info) (s := u) rfl
    rw [heq]
    obtain ⟨heq, -⟩ := endCommand_eq e n u (h.undisturbed (beginCommand_undisturbed i s hu))
    generalize endCommand e n u = t at *
    have hcfg := h.cfg.trans (beginCommand_cfg i s)
    have hmode := h.devmode.trans (beginCommand_devmode i s)
    have hregs := h.regs.trans (beginCommand_regs i s)
    have hres := h.res.trans (beginCommand_res i s)
    have hstats := h.stats.trans (beginCommand_stats i s)
    have hwork := h.work.trans (beginCommand_work i s)
    have hbuf := h.buf.trans (beginCommand_buf i s)
    have hsource : u.env.source = s.env.source := h.source.trans (by simp)
    constructor
    · rw [heq]
    · rw [onlyLines, heq]
      simp only [← hcfg, ← hmode, ← hregs, ← hres, ← hstats, ← hwork, ← hbuf, ← hsource]

/-! ### The command -/

/-- Settles O42: the checks in their order, then the events and the end of `eraseBlock`. -/
theorem eraseCommand : Obligations.EraseCommand := by
  intro s hu a
  refine ⟨⟨by decide, decode_encode .erase⟩,
    refusesInOrder_of_tests (eraseChecks_tests s) fun _ _ h => refuses_of_firstRefusal hu h,
    fun hrange hfit halign hmode htap => ?_⟩
  have hpass : firstRefusal (entryChecks .erase s) = none := by
    refine firstRefusal_none_of_tests (eraseChecks_tests s) ?_
    simp only [List.forall_mem_cons]
    exact ⟨not_or.2 ⟨Nat.not_le.2 hrange, Nat.not_lt.2 hfit⟩, not_not_intro halign, not_not_intro hmode,
      not_not_intro htap.1, htap.not_notIn, nofun⟩
  rw [execErase_runs hpass]
  have hbegin := htap.beginCommand .erase
  have htapAfter := eraseBlock_inTap a hbegin
  have hirsr := eraseBlock_irsr a hbegin.2
  have hcyccnt := eraseBlock_cyccnt a (beginCommand .erase s)
  obtain ⟨evs, sr, hop, htrace, hfsr, htimeout⟩ := eraseBlock_spec a (beginCommand .erase s)
  show ∃ t evs sr timedOut, endPolled (eraseBlock a (beginCommand .erase s)).1 a _ = .next t ∧ _
  generalize eraseBlock a (beginCommand .erase s) = r at *
  obtain ⟨timedOut, u⟩ := r
  obtain ⟨t, hend, hends, heq, honly⟩ := hop.endPolled hu timedOut a
  have hflags : u.flags = { mismatch := s.flags.mismatch || evs.any Event.isMismatch
                            timeout := s.flags.timeout || timedOut } := by
    rw [← beginCommand_flags .erase s, ← hop.mismatch, ← htimeout]
  simp only [beginCommand_cfg, beginCommand_pins, beginCommand_banks, beginCommand_counters] at htrace hirsr hcyccnt
  have htime := hop.time
  rw [beginCommand_env] at htime
  rw [hflags, hfsr] at honly
  refine ⟨t, evs, sr, timedOut, hend, hends, htrace, ?_, honly, ?_⟩
  · rw [heq]
    exact htime
  · rw [heq]
    exact ⟨htapAfter, hirsr, hcyccnt⟩

end Sys2Proof.Machine
end

section
/-! PROOFS. The command word (spec 30_encoding R110 to R114): its fields, the rows of the opcode table, and the words
that spell no command. -/

namespace Sys2Proof

/-! ### The checks of a word, bit by bit -/

theorem decode_eq_ok_iff (w : Word) (i : Instr) :
    decode w = .ok i ↔
      commandOf w = some i ∧ CommandWord.reservedClear w = true ∧ CommandWord.unusedFlagsClear w = true := by
  unfold decode
  cases commandOf w with
  | none => simp
  | some j =>
    cases CommandWord.reservedClear w <;> cases CommandWord.unusedFlagsClear w <;> simp

theorem getLsbD_of_reservedClear {w : Word} (h : CommandWord.reservedClear w = true) {n : Nat} (hn : 13 ≤ n) :
    w.getLsbD n = false := by
  have hbit := congrArg (·.getLsbD (n - 13)) (beq_iff_eq.1 h)
  by_cases hw : n < 32
  · simpa [show n - 13 < 19 by omega, show 13 + (n - 13) = n by omega] using hbit
  · exact BitVec.getLsbD_of_ge w n (by omega)

/-- A flag that is set in a word that passes check 3 is one its command uses. -/
theorem usedFlags_of_getLsbD {w : Word} (h : CommandWord.unusedFlagsClear w = true) {n : Nat} (hn : n < 5)
    (hset : w.getLsbD (8 + n) = true) : (CommandWord.usedFlags (CommandWord.op w)).getLsbD n = true := by
  have hbit := congrArg (·.getLsbD n) (beq_iff_eq.1 h)
  simpa [hn, hset] using hbit

theorem op_eq_toNat_and (w : Word) : CommandWord.op w = (w &&& 0xFF#32).toNat := by
  rw [CommandWord.op, BitVec.extractLsb'_toNat, BitVec.toNat_and]
  exact (Nat.and_two_pow_sub_one_eq_mod _ 8).symm

/-! ### The rows of the opcode table -/

/-- The mask of a command's row: every bit but those of the flags it uses (spec 30_encoding R113). -/
def rowMask : Instr → Word
  | .shiftbit _ _ => 0xFFFFE7FF#32
  | .settms _ => 0xFFFFF7FF#32
  | .sir _ => 0xFFFFFDFF#32
  | .sdr _ _ _ => 0xFFFFF8FF#32
  | .acquire | .release | .rev8 | .reset | .idle | .check | .burstwr | .burstrd | .identify | .opencfg
  | .openflash | .close | .poll | .erase | .write | .read | .upload => 0xFFFFFFFF#32

/-- A bit of a word is the flag that stands in its place. -/
theorem and_flagBit (w : Word) (n : Nat) : w &&& flagBit true n = flagBit (w.getLsbD n) n := by
  simp only [flagBit, if_true, ← BitVec.twoPow_eq, BitVec.and_twoPow]

theorem and_shiftbit_flags_iff (w : Word) (tdi tms : Bool) :
    w &&& ~~~rowMask (.shiftbit tdi tms) = flagsOf (.shiftbit tdi tms) ↔
      w.getLsbD 12 = tdi ∧ w.getLsbD 11 = tms := by
  have hmask : ~~~rowMask (.shiftbit tdi tms) = flagBit true 11 ||| flagBit true 12 := by rw [rowMask]; decide
  rw [hmask, flagsOf, BitVec.and_or_distrib_left, and_flagBit, and_flagBit]
  generalize w.getLsbD 11 = tms', w.getLsbD 12 = tdi'
  decide +revert

theorem and_settms_flags_iff (w : Word) (tms : Bool) :
    w &&& ~~~rowMask (.settms tms) = flagsOf (.settms tms) ↔ w.getLsbD 11 = tms := by
  have hmask : ~~~rowMask (.settms tms) = flagBit true 11 := by rw [rowMask]; decide
  rw [hmask, flagsOf, and_flagBit]
  generalize w.getLsbD 11 = tms'
  decide +revert

theorem and_sir_flags_iff (w : Word) (idleTail : Bool) :
    w &&& ~~~rowMask (.sir idleTail) = flagsOf (.sir idleTail) ↔ w.getLsbD 9 = idleTail := by
  have hmask : ~~~rowMask (.sir idleTail) = flagBit true 9 := by rw [rowMask]; decide
  rw [hmask, flagsOf, and_flagBit]
  generalize w.getLsbD 9 = idleTail'
  decide +revert

theorem and_sdr_flags_iff (w : Word) (capture idleTail pause : Bool) :
    w &&& ~~~rowMask (.sdr capture idleTail pause) = flagsOf (.sdr capture idleTail pause) ↔
      w.getLsbD 8 = capture ∧ w.getLsbD 9 = idleTail ∧ w.getLsbD 10 = pause := by
  have hmask : ~~~rowMask (.sdr capture idleTail pause) = flagBit true 8 ||| flagBit true 9 ||| flagBit true 10 := by
    rw [rowMask]; decide
  rw [hmask, flagsOf, BitVec.and_or_distrib_left, BitVec.and_or_distrib_left, and_flagBit, and_flagBit, and_flagBit]
  generalize w.getLsbD 8 = capture', w.getLsbD 9 = idleTail', w.getLsbD 10 = pause'
  decide +revert

theorem and_not_allOnes (w : Word) : w &&& ~~~0xFFFFFFFF#32 = 0#32 := by
  rw [show ~~~0xFFFFFFFF#32 = 0#32 by decide, BitVec.and_zero]

/-- A word is read by the row of its field OP, the operands being the word's flags. -/
theorem fields_of_commandOf {w : Word} {i : Instr} (h : commandOf w = some i) :
    CommandWord.op w = (opOf i).toNat ∧ w &&& ~~~rowMask i = flagsOf i := by
  unfold commandOf at h
  split at h <;> cases h
  case h_3 => exact ⟨by assumption, (and_shiftbit_flags_iff w _ _).2 ⟨rfl, rfl⟩⟩
  case h_4 => exact ⟨by assumption, (and_settms_flags_iff w _).2 rfl⟩
  case h_8 => exact ⟨by assumption, (and_sir_flags_iff w _).2 rfl⟩
  case h_9 => exact ⟨by assumption, (and_sdr_flags_iff w _ _ _).2 ⟨rfl, rfl, rfl⟩⟩
  all_goals exact ⟨by assumption, and_not_allOnes w⟩

/-- The flags a row uses are the same in check 3 and in the row's mask. -/
theorem usedFlags_opOf (i : Instr) :
    ∀ n < 5, (CommandWord.usedFlags (opOf i).toNat).getLsbD n = (~~~rowMask i).getLsbD (8 + n) := by
  cases i <;> simp only [opOf, rowMask] <;> decide

/-- A word that passes the checks has no bit beside its code and the flags of its row. -/
theorem and_rowBits {w : Word} {i : Instr} (hop : CommandWord.op w = (opOf i).toNat)
    (hres : CommandWord.reservedClear w = true) (hflags : CommandWord.unusedFlagsClear w = true) :
    w &&& (0xFF#32 ||| ~~~rowMask i) = w := by
  refine BitVec.eq_of_getLsbD_eq fun n _ => ?_
  rw [BitVec.getLsbD_and, BitVec.getLsbD_or, Bool.and_eq_left_iff_imp, Bool.or_eq_true]
  intro hset
  have hn : n < 13 := by
    by_contra hge
    rw [getLsbD_of_reservedClear hres (Nat.not_lt.1 hge)] at hset
    cases hset
  by_cases hcode : n < 8
  · left
    interval_cases n <;> rfl
  · right
    obtain ⟨m, rfl⟩ := Nat.exists_eq_add_of_le (Nat.not_lt.1 hcode)
    have hm : m < 5 := by omega
    rw [← usedFlags_opOf i m hm, ← hop]
    exact usedFlags_of_getLsbD hflags hm hset

theorem rowBits_and_rowMask (i : Instr) : (0xFF#32 ||| ~~~rowMask i) &&& rowMask i = 0xFF#32 := by
  cases i <;> simp only [rowMask] <;> decide

/-- A decoded word, split by the mask of its row: the code under it, the operands beside it. -/
theorem row_of_decode {w : Word} {i : Instr} (h : decode w = .ok i) :
    w &&& rowMask i = opOf i ∧ w &&& ~~~rowMask i = flagsOf i := by
  obtain ⟨hcommand, hres, hunused⟩ := (decode_eq_ok_iff w i).1 h
  obtain ⟨hop, hflags⟩ := fields_of_commandOf hcommand
  refine ⟨?_, hflags⟩
  calc w &&& rowMask i = w &&& (0xFF#32 ||| ~~~rowMask i) &&& rowMask i := by rw [and_rowBits hop hres hunused]
    _ = w &&& 0xFF#32 := by rw [BitVec.and_assoc, rowBits_and_rowMask]
    _ = opOf i := BitVec.eq_of_toNat_eq ((op_eq_toNat_and w).symm.trans hop)

theorem encode_of_row {w : Word} {i : Instr} (hop : w &&& rowMask i = opOf i)
    (hflags : w &&& ~~~rowMask i = flagsOf i) : w = encode i := by
  calc w = w &&& (rowMask i ||| ~~~rowMask i) := by rw [BitVec.or_not_self, BitVec.and_allOnes]
    _ = encode i := by rw [BitVec.and_or_distrib_left, hop, hflags, encode]

/-- Settles O2: `decode_encode` one way; the other way the two parts of a decoded word make up the encoder's word. -/
theorem decodeInvertsEncode : Obligations.DecodeInvertsEncode := by
  refine fun i w => ⟨fun h => ?_, fun h => h ▸ Machine.decode_encode i⟩
  obtain ⟨hop, hflags⟩ := row_of_decode h
  exact encode_of_row hop hflags

/-- Under its row's mask a word reads the row's code, and the rest of it are the operands. -/
theorem decode_iff_row (w : Word) (i : Instr) :
    decode w = .ok i ↔ w &&& rowMask i = opOf i ∧ w &&& ~~~rowMask i = flagsOf i := by
  refine ⟨row_of_decode, fun ⟨hop, hflags⟩ => ?_⟩
  rw [encode_of_row hop hflags]
  exact Machine.decode_encode i

/-- The row of a command without flags fixes every bit of the word. -/
theorem decode_iff_of_no_flags {i : Instr} (hmask : rowMask i = 0xFFFFFFFF#32) (hflags : flagsOf i = 0#32) (w : Word) :
    decode w = .ok i ↔ w &&& 0xFFFFFFFF#32 = opOf i := by
  rw [decode_iff_row, hmask, hflags, and_not_allOnes]
  exact and_iff_left rfl

/-- The row of a command with flags: the bits beside its mask are the operands. -/
theorem decode_iff_of_flags {w : Word} {i : Instr} {operands : Prop}
    (h : w &&& ~~~rowMask i = flagsOf i ↔ operands) : decode w = .ok i ↔ w &&& rowMask i = opOf i ∧ operands := by
  rw [decode_iff_row, h]

/-- Settles O3, row by row. -/
theorem opcodeTable : Obligations.OpcodeTable := by
  intro w
  have plain {i : Instr} := @decode_iff_of_no_flags i
  exact ⟨plain rfl rfl w, plain rfl rfl w,
    fun tdi tms => decode_iff_of_flags (and_shiftbit_flags_iff w tdi tms),
    fun tms => decode_iff_of_flags (and_settms_flags_iff w tms),
    plain rfl rfl w, plain rfl rfl w, plain rfl rfl w,
    fun idleTail => decode_iff_of_flags (and_sir_flags_iff w idleTail),
    fun capture idleTail pause => decode_iff_of_flags (and_sdr_flags_iff w capture idleTail pause),
    plain rfl rfl w, plain rfl rfl w, plain rfl rfl w, plain rfl rfl w, plain rfl rfl w, plain rfl rfl w,
    plain rfl rfl w, plain rfl rfl w, plain rfl rfl w, plain rfl rfl w, plain rfl rfl w, plain rfl rfl w⟩

/-! ### The words that spell a command, and those that spell none -/

theorem exists_commandOf_iff (w : Word) :
    (∃ i, commandOf w = some i) ↔ CommandWord.op w ∈ CommandWord.listedOps := by
  constructor
  · rintro ⟨i, h⟩
    rw [(fields_of_commandOf h).1]
    cases i <;> simp only [opOf] <;> decide
  · intro h
    unfold commandOf
    split
    case h_22 => simp_all [CommandWord.listedOps]
    all_goals exact ⟨_, rfl⟩

/-- A word spells a command just where it is well formed (spec 30_encoding R113, R114). -/
theorem exists_decode_iff (w : Word) : (∃ i, decode w = .ok i) ↔ CommandWord.wellFormed w = true := by
  simp only [decode_eq_ok_iff, exists_and_right, exists_commandOf_iff, CommandWord.wellFormed, CommandWord.opListed,
    Bool.and_eq_true, List.contains_iff_mem, and_assoc]

theorem spells_none_iff (w : Word) : (∀ i, decode w ≠ .ok i) ↔
    (w.extractLsb' 0 8).toNat ∉ CommandWord.listedOps ∨ w.extractLsb' 13 19 ≠ 0#19 ∨
      CommandWord.unusedFlagsClear w = false := by
  rw [← not_exists, exists_decode_iff]
  simp only [CommandWord.wellFormed, CommandWord.opListed, CommandWord.op, CommandWord.reservedClear,
    Bool.and_eq_true, List.contains_iff_mem, beq_iff_eq, not_and_or, Bool.not_eq_true, or_assoc, ne_eq]

end Sys2Proof

namespace Sys2Proof.Machine

/-- A word that spells no command ends at once with IllegalCommand. -/
theorem illegalCommand_ends {s : State} (hu : s.undisturbed) :
    EndsWith s (illegalCommand s) .illegalCommand 0 [] ∧ onlyEnd s (illegalCommand s) := by
  have hserved := dueAccesses_undisturbed s.port.during { s with ctl.busy := true } hu.1 hu.2
  refine ⟨endsWith _ _ hserved (by simp [newEvents]) (by simp) (by simp) (by simp) (by simp), ?_⟩
  obtain ⟨heq, -⟩ := endCommand_eq .illegalCommand 0 _ hserved
  unfold onlyEnd illegalCommand
  generalize endCommand .illegalCommand 0 _ = t at *
  rw [heq, dueAccesses_eq]

/-- Settles O4: such a word decodes to one of the three reasons, and `step` ends it. -/
theorem illegalWordRefused : Obligations.IllegalWordRefused := by
  refine ⟨spells_none_iff, fun s w rest hu hb hi hnone => ?_⟩
  cases hd : decode w with
  | ok i => exact absurd hd (hnone i)
  | error e => exact ⟨_, step_illegal hb hi hd, illegalCommand_ends hu⟩

/-- Settles O1: each word is the encoder's. -/
theorem decodesWrittenWords : Obligations.DecodesWrittenWords :=
  ⟨decode_encode .acquire, decode_encode .release, decode_encode (.shiftbit true false),
    decode_encode (.shiftbit false true), decode_encode (.settms true), decode_encode .reset,
    decode_encode (.sir true), decode_encode (.sdr true false false), decode_encode (.sdr false true true),
    decode_encode .burstwr, decode_encode .identify, decode_encode .upload⟩

end Sys2Proof.Machine
end

section
/-! PROOFS. WRITE (spec 44 R248): its refusals in order, its frames, and what it leaves. -/

namespace Sys2Proof.Machine

/-- The length check of WRITE and READ (spec 44 R248, R250). -/
theorem requireLength_tests (s : State) (most : Nat) : List.Forall₂ EntryCheck.Tests (requireLength s most)
    [(s.regs.len.toNat = 0 ∨ most < s.regs.len.toNat ∨ ¬s.inBuf s.regs.len.toNat, .operandError, 0)] := by
  refine .cons ⟨?_, rfl⟩ .nil
  rw [Bool.or_eq_true, Bool.or_eq_true, beq_iff_eq, decide_eq_true_iff, State.leavesBuf, decide_eq_true_iff, or_assoc,
    State.inBuf, Nat.not_le]
  rfl

/-- The range check of WRITE and READ (spec 44 R248, R250). -/
theorem requireRange_tests (s : State) : List.Forall₂ EntryCheck.Tests (requireRange s)
    [(2 ^ 24 ≤ s.regs.addr.toNat ∨ 2 ^ 24 < s.regs.addr.toNat + s.regs.len.toNat, .addressRangeError,
      s.regs.addr.toNat)] := by
  refine .cons ⟨?_, rfl⟩ .nil
  rw [Bool.or_eq_true, beyondFlash_iff, runsPastFlash_iff]
  rfl

/-- The checks of WRITE in the order of spec 44 R248. -/
theorem writeChecks_tests (s : State) : List.Forall₂ EntryCheck.Tests (entryChecks .write s)
    [(2 ^ 24 ≤ s.regs.addr.toNat ∨ 2 ^ 24 < s.regs.addr.toNat + s.regs.len.toNat, .addressRangeError,
       s.regs.addr.toNat),
     (s.regs.addr.toNat % s.cfg.writeBlock ≠ 0, .alignmentError, s.regs.addr.toNat),
     (s.regs.len.toNat = 0 ∨ s.cfg.writeBlock < s.regs.len.toNat ∨ ¬s.inBuf s.regs.len.toNat, .operandError, 0),
     (s.devmode ≠ .configuredForFlash, .sessionError, 0), (s.pins.path ≠ .bitBang, .sessionError, 0),
     (s.notIn [.selectDRScan], .tapSequenceError, 0)] :=
  List.rel_append (List.rel_append (List.rel_append (requireRange_tests s) (.cons ⟨misaligned_iff _ _, rfl⟩ .nil))
    (requireLength_tests s _)) (requireFlash_tests s)

/-- A block written with the lines acquired leaves them so: the burst gives the path back (spec 42 R205). -/
theorem writeBlock_path {s : State} (data : List Byte) (a : Nat) (h : s.pins.path = .bitBang) :
    (writeBlock data a s).2.pins.path = .bitBang := by
  simp only [writeBlock, pollStatus, pollLoop_path, walk_path]
  refine (burstWrite_steady _ _ _ _).path ?_
  rw [walk_path, frameBB_path]
  exact h

/-- A block written from SelectDRScan leaves the TAP there. -/
theorem writeBlock_inTap {s : State} (data : List Byte) (a : Nat) (h : s.inTap .selectDRScan) :
    (writeBlock data a s).2.inTap .selectDRScan :=
  ⟨writeBlock_path data a h.1, writeBlock_tapAt data a h.2⟩

/-- Settles O43: the checks in their order, then the events and the end of `writeBlock` over the bytes of BUF. -/
theorem writeCommand : Obligations.WriteCommand := by
  intro s hu a n
  refine ⟨⟨by decide, decode_encode .write⟩,
    refusesInOrder_of_tests (writeChecks_tests s) fun _ _ h => refuses_of_firstRefusal hu h,
    fun data hrange hfit halign hpos hmost hin hmode htap hlen hbuf => ?_⟩
  have hpass : firstRefusal (entryChecks .write s) = none := by
    refine firstRefusal_none_of_tests (writeChecks_tests s) ?_
    simp only [List.forall_mem_cons]
    exact ⟨not_or.2 ⟨Nat.not_le.2 hrange, Nat.not_lt.2 hfit⟩, not_not_intro halign,
      not_or.2 ⟨hpos, not_or.2 ⟨Nat.not_lt.2 hmost, not_not_intro hin⟩⟩, not_not_intro hmode,
      not_not_intro htap.1, htap.not_notIn, nofun⟩
  rw [execWrite_runs hpass hlen hbuf]
  have hbegin := htap.beginCommand .write
  have htapAfter := writeBlock_inTap data a hbegin
  have hirsr := writeBlock_irsr data a hbegin.2
  have hcyccnt := writeBlock_cyccnt data a (beginCommand .write s)
  obtain ⟨evs, sr, hop, htrace, hfsr, htimeout, hmismatch⟩ := writeBlock_spec data a (beginCommand .write s)
  show ∃ t evs sr timedOut, endPolled (writeBlock data a (beginCommand .write s)).1 a _ = .next t ∧ _
  generalize writeBlock data a (beginCommand .write s) = r at *
  obtain ⟨timedOut, u⟩ := r
  obtain ⟨t, hend, hends, heq, honly⟩ := hop.endPolled hu timedOut a
  have hflags : u.flags = { mismatch := s.flags.mismatch, timeout := s.flags.timeout || timedOut } := by
    rw [← beginCommand_flags .write s, ← hmismatch, ← htimeout]
  have hsame : t.buf = s.buf := by
    rw [heq]
    exact hop.buf.trans (beginCommand_buf .write s)
  simp only [beginCommand_cfg, beginCommand_pins, beginCommand_banks, beginCommand_counters, beginCommand_fsr]
    at htrace hirsr hcyccnt
  have htime := hop.time
  rw [beginCommand_env] at htime
  rw [hflags, hfsr] at honly
  refine ⟨t, evs, sr, timedOut, hend, hends, htrace, ?_, honly, sameBuf_of_eq hsame, ?_⟩
  · rw [heq]
    exact htime
  · rw [heq]
    exact ⟨htapAfter, hirsr, hcyccnt⟩

end Sys2Proof.Machine
end

section
/-! PROOFS. BitTransport's commands: SHIFTBIT, SETTMS (spec 40 R152, R153), each one bit-banged pulse, and REV8
(R161). -/

namespace Sys2Proof.Machine

/-! ### One pulse: SHIFTBIT and SETTMS -/

/-- The checks of SHIFTBIT and SETTMS in the order of spec 40 R152, R153. -/
theorem requireKnown_tests (s : State) : List.Forall₂ EntryCheck.Tests (requireKnown s)
    [(s.pins.path ≠ .bitBang, .sessionError, 0), (s.tap.known = false, .tapSequenceError, 0)] :=
  .cons ⟨bne_iff_ne, rfl⟩ (.cons ⟨by simp, rfl⟩ .nil)

theorem requireKnown_passes {s : State} (hpath : s.pins.path = .bitBang) (hknown : s.tap.known = true) :
    firstRefusal (requireKnown s) = none := by
  refine firstRefusal_none_of_tests (requireKnown_tests s) ?_
  simp [hpath, hknown]

/-- The frame of a command that works the lines and then writes R_RES. -/
theorem Lines.onlyLines_setRes {s u : State} {evs : List Event} {i : Instr} (h : Lines (beginCommand i s) u evs)
    (hu : s.undisturbed) (e : ErrorKind) (info : Nat) (r : Word) :
    Machine.onlyLines { s with res := r } (endCommand e info { u with res := r }) := by
  have hquiet : u.undisturbed := h.undisturbed (beginCommand_undisturbed i s hu)
  have hframe := h.onlyLines hu e info
  obtain ⟨hend, -⟩ := endCommand_eq e info u hquiet
  obtain ⟨hend', -⟩ := endCommand_eq e info { u with res := r } hquiet
  unfold Machine.onlyLines at *
  rw [hend] at hframe
  generalize endCommand e info { u with res := r } = t at *
  rw [hend']
  exact congrArg (fun x : State => { x with res := r, port := t.port }) hframe

/-- A command that is one pulse and a value for R_RES: its events, its frame, and where it leaves the lines and the
TAP (spec 40 R151, 10_state R30). -/
theorem onePulse_ends {s : State} (hu : s.undisturbed) (hknown : s.tap.known = true) (i : Instr) (tms tdi : Bool)
    (r : Word) :
    let t := endCommand .ok 0 { (pulse tms tdi (beginCommand i s)).2 with res := r }
    EndsWith s t .ok 0 [.pulse .bb tms tdi (s.env.target.pulse s.cfg tms tdi).1] ∧ onlyLines { s with res := r } t ∧
      t.pins = { s.pins with tck := true, tms := tms, tdi := tdi } ∧ t.tap = s.tap.onPulse tms ∧
      t.banks = s.banks ∧ t.counters = s.counters ∧ (s.tap.consistent → t.tapAt (delta s.tap.state tms)) := by
  have hlines := pulse_lines tms tdi (beginCommand i s)
  rw [pulse_fst, beginCommand_env, beginCommand_cfg] at hlines
  have hacts := hlines.toMoves.acts.setRes r
  obtain ⟨hend, -⟩ := endCommand_eq .ok 0 _ (hacts.undisturbed (beginCommand_undisturbed i s hu))
  intro t
  have htap : t.tap = s.tap.onPulse tms := (congrArg State.tap hend).trans (by simp)
  refine ⟨hacts.endsWith hu .ok 0, hlines.onlyLines_setRes hu .ok 0 r,
    (congrArg State.pins hend).trans (by simp), htap, (congrArg State.banks hend).trans (by simp),
    (congrArg State.counters hend).trans (by simp), fun hcons => ?_⟩
  rw [State.tapAt, htap]
  exact s.tap.onPulse_consistent tms hknown hcons

/-- SETTMS is the pulse with TDI kept, and R_RES written with what it held. -/
theorem setTms_beginCommand (i : Instr) (tms : Bool) (s : State) :
    setTms tms (beginCommand i s) = { (pulse tms s.pins.tdi (beginCommand i s)).2 with res := s.res } := by
  have hres := (pulse_lines tms s.pins.tdi (beginCommand i s)).res
  rw [beginCommand_res] at hres
  rw [setTms, beginCommand_pins, ← hres]

/-- Settles O23: the checks in their order, then one pulse with its sample in R_RES. -/
theorem shiftbitCommand : Obligations.ShiftbitCommand := by
  intro s tdi tms hu
  refine ⟨⟨by cases tdi <;> cases tms <;> decide, decode_encode (.shiftbit tdi tms)⟩,
    refusesInOrder_of_tests (requireKnown_tests s) fun _ _ h => refuses_of_firstRefusal hu h,
    fun hpath hknown => ?_⟩
  obtain ⟨hends, hframe⟩ := onePulse_ends hu hknown (.shiftbit tdi tms) tms tdi
    (boolWord (s.env.target.pulse s.cfg tms tdi).1)
  exact ⟨_, ⟨execShiftbit_runs tdi tms (requireKnown_passes hpath hknown), hends⟩, hframe⟩

/-- Settles O24: the checks in their order, then one pulse with the level of TDI before it. -/
theorem settmsCommand : Obligations.SettmsCommand := by
  intro s tms hu
  refine ⟨⟨by cases tms <;> decide, decode_encode (.settms tms)⟩,
    refusesInOrder_of_tests (requireKnown_tests s) fun _ _ h => refuses_of_firstRefusal hu h,
    fun hpath hknown => ?_⟩
  have hrun := execSettms_runs tms (requireKnown_passes hpath hknown)
  rw [setTms_beginCommand] at hrun
  obtain ⟨hends, hframe⟩ := onePulse_ends hu hknown (.settms tms) tms s.pins.tdi s.res
  exact ⟨_, _, ⟨hrun, hends⟩, hframe⟩

/-! ### REV8 -/

/-- The check of a byte range of BUF (spec 20_memory R72). -/
theorem requireBuf_tests (s : State) (n : Nat) : List.Forall₂ EntryCheck.Tests (requireBuf s n)
    [(s.regs.len = 0#32 ∨ ¬s.inBuf n, .operandError, 0)] := by
  refine .cons ⟨?_, rfl⟩ .nil
  rw [Bool.or_eq_true, beq_iff_eq, State.leavesBuf, decide_eq_true_iff, State.inBuf, Nat.not_le, State.lenOperand,
    BitVec.toNat_eq]
  rfl

/-- REV8 over a range of written bytes that passes the check: the range is written with the bytes reversed, and
nothing else changes but the control registers, the trace and the host port. -/
theorem rev8_reverses {s : State} {bytes : List Byte} (hu : s.undisturbed) (hpos : s.regs.len ≠ 0#32)
    (hin : s.inBuf s.regs.len.toNat) (hlen : bytes.length = s.regs.len.toNat)
    (hbuf : bufHolds s s.regs.buf.toNat bytes) :
    ∃ t, Runs .rev8 s t .ok 0 [] ∧ t.undisturbed ∧
      t = { s with buf := s.buf.writeRange s.regs.buf.toNat (bytes.map rev8)
                   ctl := t.ctl, trace := t.trace, port := t.port } := by
  have hpass : firstRefusal (entryChecks .rev8 s) = none :=
    firstRefusal_none_of_tests (requireBuf_tests s _)
      (List.forall_mem_singleton.2 (not_or.2 ⟨hpos, not_not_intro hin⟩))
  have hacts := (Moves.refl (beginCommand .rev8 s)).acts.setBuf (s.buf.writeRange s.regs.buf.toNat (bytes.map rev8))
  have hrun := execRev8_runs hpass hlen hbuf
  have hends := hacts.endsWith hu .ok 0
  obtain ⟨hend, -, -, hquiet⟩ := endCommand_eq .ok 0 _ (hacts.undisturbed (beginCommand_undisturbed .rev8 s hu))
  refine ⟨_, ⟨hrun, hends⟩, hquiet, ?_⟩
  clear hrun hends hquiet hacts
  generalize endCommand .ok 0 _ = t at *
  rw [hend, beginCommand_eq]

/-- Settles O25: one run writes the reversed bytes, and the same lemma for the state it leaves writes them back. -/
theorem rev8Command : Obligations.Rev8Command := by
  intro s hu
  refine ⟨⟨by decide, decode_encode .rev8⟩,
    refusesInOrder_of_tests (requireBuf_tests s _) fun _ _ h => refuses_of_firstRefusal hu h,
    fun bytes hpos hin hlen hbuf => ?_⟩
  obtain ⟨t, hruns, hquiet, heq⟩ := rev8_reverses hu hpos hin hlen hbuf
  have hregs : t.regs = s.regs := hruns.2.regs
  have hcfg : t.cfg = s.cfg := hruns.2.cfg
  have hwritten : t.buf = s.buf.writeRange s.regs.buf.toNat (bytes.map rev8) := by rw [heq]
  have hreversed : bufHolds t s.regs.buf.toNat (bytes.map rev8) := fun j hj => by
    rw [hwritten]
    exact Memory.read_writeRange_inside _ _ _ _ hj
  have houtside : sameBufOutside s t s.regs.buf.toNat bytes.length := fun a ha => by
    rw [hwritten]
    exact Memory.read_writeRange_outside _ _ _ _ (by rwa [List.length_map])
  have hback : (bytes.map rev8).map rev8 = bytes := by simp [Function.comp_def]
  obtain ⟨u, hruns', -, heq'⟩ := rev8_reverses (bytes := bytes.map rev8) hquiet (by rwa [hregs])
    (by rwa [State.inBuf, hregs, hcfg]) (by rwa [List.length_map, hregs]) (by rwa [hregs])
  rw [hback, hregs] at heq'
  refine ⟨t, hruns, ?_, hreversed, houtside, u, hruns'.1, fun j hj => ?_⟩
  · rwa [hwritten]
  · rw [heq']
    exact Memory.read_writeRange_inside _ _ _ _ hj

end Sys2Proof.Machine
end

section
/-! PROOFS. TapController's commands: RESET (spec 41 R172), IDLE and every idle wait (R174 to R176), SIR (R178), SDR
(R180, R181) and CHECK (R184). -/

namespace Sys2Proof.Machine

/-! ### The end of a command that works the lines -/

/-- The frame of a command that works the lines and then writes BUF. -/
theorem Lines.onlyLines_setBuf {s u : State} {evs : List Event} {i : Instr} (h : Lines (beginCommand i s) u evs)
    (hu : s.undisturbed) (e : ErrorKind) (info : Nat) (b : Memory) :
    Machine.onlyLines { s with buf := b } (endCommand e info { u with buf := b }) := by
  have hquiet : u.undisturbed := h.undisturbed (beginCommand_undisturbed i s hu)
  have hframe := h.onlyLines hu e info
  obtain ⟨hend, -⟩ := endCommand_eq e info u hquiet
  obtain ⟨hend', -⟩ := endCommand_eq e info { u with buf := b } hquiet
  unfold Machine.onlyLines at *
  rw [hend] at hframe
  generalize endCommand e info { u with buf := b } = t at *
  rw [hend']
  exact congrArg (fun x : State => { x with buf := b, port := t.port }) hframe

/-- An operation on the lines, BUF written after it, and the end without error: the events and the wave are the
operation's, and beside BUF only the control registers, the trace and the host port change after it. -/
theorem Lines.completes_setBuf {s u : State} {evs : List Event} {i : Instr} {f : Wave → Wave}
    (h : Lines (beginCommand i s) u evs) (hplays : Plays (beginCommand i s) u evs f) (hu : s.undisturbed)
    (b : Memory) :
    ∃ t, complete { u with buf := b } = .next t ∧ EndsWith s t .ok 0 evs ∧ plays s t evs f ∧
      Machine.onlyLines { s with buf := b } t ∧
      t = { u with buf := b, ctl := t.ctl, trace := t.trace, port := t.port } := by
  have hacts := h.toMoves.acts.setBuf b
  have hends := hacts.endsWith hu .ok 0
  have hframe := h.onlyLines_setBuf hu .ok 0 b
  obtain ⟨hend, -⟩ := endCommand_eq .ok 0 _ (hacts.undisturbed (beginCommand_undisturbed i s hu))
  refine ⟨_, rfl, hends, ?_, hframe, ?_⟩
  · refine (hplays.congr ?_ ?_).plays
    · rw [beginCommand_pins]
    · rw [hend]
  · clear hends hframe
    generalize endCommand .ok 0 _ = t at *
    rw [hend]

/-- The same for a command that leaves BUF alone. -/
theorem Lines.completes {s u : State} {evs : List Event} {i : Instr} {f : Wave → Wave}
    (h : Lines (beginCommand i s) u evs) (hplays : Plays (beginCommand i s) u evs f) (hu : s.undisturbed) :
    ∃ t, complete u = .next t ∧ EndsWith s t .ok 0 evs ∧ plays s t evs f ∧ Machine.onlyLines s t ∧
      t = { u with ctl := t.ctl, trace := t.trace, port := t.port } := by
  have hbuf : u.buf = s.buf := h.buf.trans (beginCommand_buf i s)
  obtain ⟨t, hrun, hends, hwave, hframe, heq⟩ := h.completes_setBuf hplays hu u.buf
  rw [hbuf] at hframe
  exact ⟨t, hrun, hends, hwave, hframe, heq⟩

/-! ### RESET -/

theorem requireLines_tests (s : State) : List.Forall₂ EntryCheck.Tests (requireLines s)
    [(s.pins.path ≠ .bitBang, .sessionError, 0)] :=
  .cons ⟨bne_iff_ne, rfl⟩ .nil

/-- Settles O26: the session check, then the six pulses of `tapReset`, which reach Reset from every tracker. -/
theorem resetCommand : Obligations.ResetCommand := by
  intro s hu
  refine ⟨⟨by decide, decode_encode .reset⟩,
    refusesInOrder_of_tests (requireLines_tests s) fun _ _ h => refuses_of_firstRefusal hu h, fun hpath => ?_⟩
  have hpass : firstRefusal (entryChecks .reset s) = none :=
    firstRefusal_none_of_tests (requireLines_tests s) (List.forall_mem_singleton.2 (not_not_intro hpath))
  obtain ⟨evs, hlines, hplays, -⟩ := tapReset_spec (beginCommand .reset s)
  obtain ⟨t, hend, hends, hwave, hframe, heq⟩ := hlines.completes hplays hu
  refine ⟨t, evs, ⟨(execReset_runs hpass).trans hend, hends⟩, hwave, ?_, ?_, hframe, ?_, ?_⟩
  · rw [heq]
    exact tapReset_tap _
  · rw [heq]
    exact (tapReset_steady _).path ((beginCommand_pins .reset s).symm ▸ hpath)
  · rw [heq]
    exact (tapReset_banks _).trans (beginCommand_banks .reset s)
  · rw [heq]
    exact (tapReset_counters _).trans (beginCommand_counters .reset s)

/-! ### The idle wait -/

/-- The clock alone fixes how many of its answers lie before a deadline, and how it stands after the first that does
not (spec 41 R176). -/
theorem Clock.idledTo_unique {deadline k k' : Nat} {c after after' : Clock} (h : Clock.idledTo deadline k c after)
    (h' : Clock.idledTo deadline k' c after') : k' = k ∧ after' = after := by
  induction k generalizing c k' with
  | zero =>
    obtain ⟨hpast, rfl⟩ := h
    cases k' with
    | zero => exact ⟨rfl, h'.2⟩
    | succ k' => exact absurd h'.1 (Nat.not_lt.2 hpast)
  | succ k ih =>
    obtain ⟨hbefore, hrest⟩ := h
    cases k' with
    | zero => exact absurd hbefore (Nat.not_lt.2 h'.1)
    | succ k' =>
      obtain ⟨hk, hafter⟩ := ih hrest h'.2
      exact ⟨congrArg (· + 1) hk, hafter⟩

/-- The second phase of an idle wait is not over before the deadline (spec 41 R176). -/
theorem Clock.deadline_le_of_idledTo {deadline k : Nat} {c after : Clock} (h : Clock.idledTo deadline k c after) :
    deadline ≤ after.time := by
  induction k generalizing c with
  | zero =>
    obtain ⟨hpast, rfl⟩ := h
    rwa [Clock.now_snd_time]
  | succ k ih => exact ih h.2

theorem idleTakes.unique {w : IdleWait} {k k' : Nat} {c after after' : Clock} (h : idleTakes w k c after)
    (h' : idleTakes w k' c after') : k' = k ∧ after' = after := by
  obtain ⟨last, hidled, rfl⟩ := h
  obtain ⟨last', hidled', rfl⟩ := h'
  obtain ⟨hk, hlast⟩ := Clock.idledTo_unique hidled hidled'
  exact ⟨hk, congrArg Clock.onPulse hlast⟩

/-- The deadline of an idle wait is its duration after the first answer, and the wait reaches it. -/
theorem idleTakes.deadline_le {w : IdleWait} {k : Nat} {c after : Clock} (h : idleTakes w k c after) :
    c.now.1 + w.ticks ≤ after.time := by
  obtain ⟨last, hidled, rfl⟩ := h
  exact (Clock.deadline_le_of_idledTo hidled).trans (Clock.time_le_onPulse last)

/-- Settles O59: the events of `idle` with the answers of the clock that make its pulses, of which there is one
count only. -/
theorem idleWaits : Obligations.IdleWaits := by
  intro w s
  obtain ⟨evs, k, hlines, hplays, -, -, htakes⟩ := idle_exact w s
  exact ⟨evs, k, hlines.trace, hplays.plays, htakes, fun _ _ h => htakes.unique h, htakes.deadline_le,
    idle_counters w s⟩

/-! ### IDLE -/

/-- The checks of a command on the lines that needs the TAP in a state of its entry set (spec 41 R170). -/
theorem requireTap_tests (entry : List TapState) (s : State) : List.Forall₂ EntryCheck.Tests (requireTap entry s)
    [(s.pins.path ≠ .bitBang, .sessionError, 0), (s.notIn entry, .tapSequenceError, 0)] :=
  .cons ⟨bne_iff_ne, rfl⟩ (.cons ⟨notIn_iff entry s, rfl⟩ .nil)

/-- The checks of IDLE in the order of spec 41 R174. -/
theorem idleChecks_tests (s : State) : List.Forall₂ EntryCheck.Tests (entryChecks .idle s)
    [(s.pins.path ≠ .bitBang, .sessionError, 0),
     (s.notIn [.reset, .idle, .updateDR, .updateIR], .tapSequenceError, 0),
     (s.tap.state = .reset ∧ s.regs.cyc = 0#32, .tapSequenceError, 0)] := by
  refine List.rel_append (requireTap_tests idleEntry s) (.cons ⟨?_, rfl⟩ .nil)
  rw [Bool.and_eq_true, beq_iff_eq, beq_iff_eq, BitVec.toNat_eq]
  rfl

theorem State.inTap.not_notIn_of_mem {s : State} {st : TapState} {entry : List TapState} (h : s.inTap st)
    (hst : st ∈ entry) : ¬s.notIn entry := by
  obtain ⟨-, hknown, rfl, -⟩ := h
  simp [State.notIn, hknown, hst]

/-- A pulse with TMS=0 takes every entry state of IDLE to Idle, and one with TMS=1 takes each but Reset to SelectDRScan
(spec 10_state R29, 41 R174). -/
theorem idleEntry_delta {st : TapState} (h : st ∈ idleEntry) :
    delta st false = .idle ∧ (st = .reset ∨ delta st true = .selectDRScan) := by
  revert st
  decide

/-- Settles O27: the checks in their order, then the pulses and the end of `idle`. -/
theorem idleCommand : Obligations.IdleCommand := by
  intro s hu
  refine ⟨⟨by decide, decode_encode .idle⟩,
    refusesInOrder_of_tests (idleChecks_tests s) fun _ _ h => refuses_of_firstRefusal hu h,
    fun st hst htap hcycles => ?_⟩
  have hpass : firstRefusal (entryChecks .idle s) = none := by
    refine firstRefusal_none_of_tests (idleChecks_tests s) ?_
    simp only [List.forall_mem_cons]
    exact ⟨not_not_intro htap.1, htap.not_notIn_of_mem hst, htap.2.2.1.symm ▸ hcycles, nofun⟩
  obtain ⟨hidle, hselect⟩ := idleEntry_delta hst
  have hcyc : delta st true = .selectDRScan ∨ 0 < s.idleOperand.cycles := by
    refine hselect.symm.imp_right fun hreset => Nat.pos_of_ne_zero fun h0 => hcycles ⟨hreset, ?_⟩
    exact BitVec.eq_of_toNat_eq h0
  have hbegin := htap.beginCommand .idle
  have htapAfter := idle_tapAt s.idleOperand hbegin.2 hidle hcyc
  have hcounters := idle_counters s.idleOperand (beginCommand .idle s)
  obtain ⟨evs, k, hlines, hplays, hnone, htime, htakes⟩ := idle_exact s.idleOperand (beginCommand .idle s)
  obtain ⟨t, hend, hends, hwave, hframe, heq⟩ := hlines.completes hplays hu
  rw [beginCommand_env] at htime htakes
  rw [now_fst, beginCommand_env, beginCommand_counters] at hcounters
  refine ⟨t, evs, k, ⟨(execIdle_runs hpass).trans hend, hends⟩, hwave, ?_, fun h0 => hnone ?_, ?_, ?_, hframe,
    ?_, ?_⟩
  · rw [heq]
    exact htakes
  · exact congrArg BitVec.toNat h0
  · rw [heq]
    exact htime
  · rw [heq]
    exact ⟨(idle_path _ _).trans hbegin.1, htapAfter⟩
  · rw [heq]
    exact (idle_banks _ _).trans (beginCommand_banks .idle s)
  · rw [heq]
    exact hcounters

/-! ### SIR -/

/-- The checks of SIR in the order of spec 41 R178. -/
theorem sirChecks_tests (s : State) (idleTail : Bool) : List.Forall₂ EntryCheck.Tests (entryChecks (.sir idleTail) s)
    [(s.pins.path ≠ .bitBang, .sessionError, 0), (s.notIn [.selectDRScan], .tapSequenceError, 0),
     (s.regs.len = 0#32 ∨ 32 < s.regs.len.toNat, .operandError, 0)] := by
  refine List.rel_append (requireTap_tests _ s) (.cons ⟨?_, rfl⟩ .nil)
  rw [Bool.or_eq_true, beq_iff_eq, decide_eq_true_iff, BitVec.toNat_eq]
  rfl

/-- The instruction bits of SIR, bit 0 first (spec 41 R178). -/
theorem instructionBits_eq (s : State) :
    s.instructionBits = (List.range s.regs.len.toNat).map s.regs.val.getLsbD := rfl

theorem instructionBits_length (s : State) : s.instructionBits.length = s.regs.len.toNat := numberBits_length _ _

/-- The counters after a scan whose idle tail is there iff the flag is set. -/
theorem TailCounters.counters_eq {s u t : State} {flag : Bool} (h : TailCounters (s.idleTail flag) u t) :
    t.counters =
      if flag then { u.counters with deadline := t.counters.deadline, cyccnt := 0 } else u.counters := by
  cases flag with
  | false => exact h.none rfl
  | true =>
    have hcyccnt := h.some nofun
    have hattempt := h.attempt
    rw [if_pos rfl]
    dsimp only
    rw [← hattempt, ← hcyccnt]

/-- What an instruction scan leaves in the shift banks: IRSR shifted out, the data bank as it was (spec 10_state R33,
R36, R37). -/
theorem sir_banks_eq {s : State} (bits : List Bool) (idleAfter : Option IdleWait) (h : s.tapAt .selectDRScan) :
    (sir bits idleAfter s).banks = { s.banks with irsr := 0#32, bitcnt := bits.length } := by
  obtain ⟨hdrbits, hdrcap, hdrlen, hbitcnt⟩ := sir_banks bits idleAfter s
  dsimp only
  rw [← sir_irsr bits idleAfter h, ← hdrbits, ← hdrcap, ← hdrlen, ← hbitcnt]

/-- Settles O28: the checks in their order, then the walk, the tail and the end of `sir`. -/
theorem sirCommand : Obligations.SirCommand := by
  intro s idleTail hu
  refine ⟨⟨by cases idleTail <;> decide, decode_encode (.sir idleTail)⟩,
    refusesInOrder_of_tests (sirChecks_tests s idleTail) fun _ _ h => refuses_of_firstRefusal hu h,
    fun htap hpos hmost => ?_⟩
  have hpass : firstRefusal (entryChecks (.sir idleTail) s) = none := by
    refine firstRefusal_none_of_tests (sirChecks_tests s idleTail) ?_
    simp only [List.forall_mem_cons]
    exact ⟨not_not_intro htap.1, htap.not_notIn, not_or.2 ⟨hpos, Nat.not_lt.2 hmost⟩, nofun⟩
  have hlen := instructionBits_length s
  have hbits : s.instructionBits ≠ [] := by
    refine List.ne_nil_of_length_pos (hlen.symm ▸ Nat.pos_of_ne_zero fun h0 => hpos ?_)
    exact BitVec.eq_of_toNat_eq h0
  have hbegin := htap.beginCommand (.sir idleTail)
  have htapAfter := sir_tapAt s.instructionBits (s.idleTail idleTail) hbegin.2 hbits
  have hbanks := sir_banks_eq s.instructionBits (s.idleTail idleTail) hbegin.2
  have hcounters := (sir_counters s.instructionBits (s.idleTail idleTail) (beginCommand (.sir idleTail) s)).counters_eq
  have htime := sir_time s.instructionBits (s.idleTail idleTail) (beginCommand (.sir idleTail) s)
  obtain ⟨evs, k, hlines, hplays, hpulses, htakes⟩ :=
    sir_exact s.instructionBits (s.idleTail idleTail) (beginCommand (.sir idleTail) s)
  obtain ⟨t, hend, hends, hwave, hframe, heq⟩ := hlines.completes hplays hu
  rw [instructionBits_eq] at hwave
  rw [hlen, beginCommand_env] at htakes
  rw [beginCommand_env] at htime
  rw [beginCommand_banks, hlen] at hbanks
  rw [beginCommand_counters] at hcounters
  refine ⟨t, evs, k, ⟨(execSir_runs idleTail hpass).trans hend, hends⟩, hwave, hpulses, ?_, fun htail => ?_, ?_,
    hframe, ?_, ?_⟩
  · rw [heq]
    exact htakes
  · subst htail
    rw [heq]
    exact htime
  · rw [heq]
    exact ⟨(sir_path _ _ _).trans hbegin.1, htapAfter⟩
  · rw [heq]
    exact hbanks
  · rw [heq]
    exact hcounters

/-! ### SDR -/

/-- The checks of SDR in the order of spec 41 R180. -/
theorem sdrChecks_tests (s : State) (capture idleTail pause : Bool) :
    List.Forall₂ EntryCheck.Tests (entryChecks (.sdr capture idleTail pause) s)
    [(s.pins.path ≠ .bitBang, .sessionError, 0), (s.notIn [.selectDRScan], .tapSequenceError, 0),
     (s.regs.len.toNat = 0 ∨ ¬s.inBuf ((s.regs.len.toNat + 7) / 8), .operandError, 0)] := by
  have hlen : s.regs.len.toNat = 0 ↔ s.regs.len = 0#32 := (BitVec.toNat_eq (y := 0#32)).symm
  rw [hlen]
  exact List.rel_append (requireTap_tests _ s) (requireBuf_tests s _)

/-- A capture written into BUF: its samples take their places in the old bytes, and no other byte changes
(spec 10_state R35). -/
theorem capturedInto_of_buf {s t : State} {base : Nat} {old : List Byte} {cap : List Bool}
    (hcap : cap.length ≤ 8 * old.length) (hbuf : t.buf = s.buf.writeRange base (captureBytes old cap)) :
    capturedInto t base old cap ∧ sameBufOutside s t base old.length := by
  have hlen := captureBytes_length old cap
  refine ⟨fun j hj => ?_, fun a ha => ?_⟩
  · have hj' : j < (captureBytes old cap).length := hlen.symm ▸ hj
    refine ⟨_, by rw [hbuf, Memory.read_writeRange_inside _ _ _ _ hj'], fun k hk => ?_⟩
    rw [← captureBytes_getLsbD old cap hcap j hj k hk, List.getD_eq_getElem _ _ hj']
  · rw [hbuf]
    exact Memory.read_writeRange_outside _ _ _ _ (by rwa [hlen])

/-- What a data scan leaves in the shift banks: the data bank with the sent and the captured bits, IRSR as it was
(spec 10_state R33, R34, R37). -/
theorem sdr_banks_eq {s : State} (bits : List Bool) (pause : Option Nat) (idleAfter : Option IdleWait)
    (h : s.tapAt .selectDRScan) :
    (sdr bits pause idleAfter s).2.banks =
      { s.banks with drbits := bits, drcap := (sdr bits pause idleAfter s).1, drlen := bits.length,
                     bitcnt := bits.length } := by
  obtain ⟨hdrbits, hdrcap, hdrlen, hbitcnt⟩ := sdr_banks bits pause idleAfter s
  have hirsr := sdr_irsr bits pause idleAfter h
  generalize sdr bits pause idleAfter s = r at *
  calc r.2.banks
      = .mk r.2.banks.irsr r.2.banks.drbits r.2.banks.drcap r.2.banks.drlen r.2.banks.bitcnt := rfl
    _ = _ := by rw [hirsr, hdrbits, hdrcap, hdrlen, hbitcnt]

/-- The counters after a data scan whose pause and idle tail are there iff their flags are set. -/
theorem sdr_counters_eq (s b : State) (bits : List Bool) (idleTail pause : Bool) :
    let u := (sdr bits (s.pauseOperand pause) (s.idleTail idleTail) b).2
    u.counters = { b.counters with
      deadline := if pause || idleTail then u.counters.deadline else b.counters.deadline
      cyccnt := if idleTail then 0 else b.counters.cyccnt } := by
  intro u
  obtain ⟨hattempt, htail, hcyccnt⟩ := sdr_counters bits (s.pauseOperand pause) (s.idleTail idleTail) b
  have hdeadline : u.counters.deadline =
      if pause || idleTail then u.counters.deadline else b.counters.deadline := by
    split
    next => rfl
    next hnone =>
      obtain ⟨rfl, rfl⟩ := Bool.or_eq_false_iff.1 (Bool.not_eq_true _ ▸ hnone)
      rw [(htail rfl).none rfl]
  have hcyc : u.counters.cyccnt = if idleTail then 0 else b.counters.cyccnt := by
    cases idleTail <;> exact hcyccnt
  dsimp only
  rw [← hdeadline, ← hcyc, ← hattempt]

/-- The time a pause of SDR asks for. -/
theorem pauseOperand_getD (s : State) (pause : Bool) :
    (s.pauseOperand pause).getD 0 = if pause then s.regs.pause.toNat else 0 := by cases pause <;> rfl

/-- The time an idle tail of SIR or SDR asks for. -/
theorem tailTicks_idleTail (s : State) (flag : Bool) :
    tailTicks (s.idleTail flag) = if flag then s.regs.dur.toNat else 0 := by cases flag <;> rfl

/-- What the data scan of SDR leaves: the TAP where it began, the shift banks, the counters, and the clock after the
pause and the tail that were asked (spec 41 R180, R183). -/
theorem sdr_leaves {b : State} {bits : List Bool} (s : State) (idleTail pause : Bool) (h : b.inTap .selectDRScan)
    (hbits : bits ≠ []) :
    let r := sdr bits (s.pauseOperand pause) (s.idleTail idleTail) b
    r.2.inTap .selectDRScan ∧
      r.2.banks = { b.banks with drbits := bits, drcap := r.1, drlen := bits.length, bitcnt := bits.length } ∧
      r.2.counters = { b.counters with
        deadline := if pause || idleTail then r.2.counters.deadline else b.counters.deadline
        cyccnt := if idleTail then 0 else b.counters.cyccnt } ∧
      b.env.clock.time + (if pause then s.regs.pause.toNat else 0) + (if idleTail then s.regs.dur.toNat else 0) ≤
        r.2.env.clock.time := by
  have htime := sdr_time bits (s.pauseOperand pause) (s.idleTail idleTail) b
  rw [pauseOperand_getD, tailTicks_idleTail] at htime
  exact ⟨⟨(sdr_path _ _ _ _).trans h.1, sdr_tapAt _ _ _ h.2 hbits⟩, sdr_banks_eq _ _ _ h.2,
    sdr_counters_eq s b bits idleTail pause, htime⟩

/-- SDR is its data scan over the old bits, then one write of BUF (spec 41 R180). -/
theorem execSdr_writes {s : State} (capture idleTail pause : Bool) {bytes : List Byte}
    (hpass : firstRefusal (entryChecks (.sdr capture idleTail pause) s) = none)
    (hlen : bytes.length = (s.regs.len.toNat + 7) / 8) (hbuf : bufHolds s s.regs.buf.toNat bytes) :
    let r := sdr (bitsOf bytes s.regs.len.toNat) (s.pauseOperand pause) (s.idleTail idleTail)
      (beginCommand (.sdr capture idleTail pause) s)
    exec (.sdr capture idleTail pause) s = complete { r.2 with
      buf := if capture then s.buf.writeRange s.regs.buf.toNat (captureBytes bytes r.1) else s.buf } := by
  intro r
  obtain ⟨_, _, hlines, -⟩ := sdr_exact (bitsOf bytes s.regs.len.toNat) (s.pauseOperand pause) (s.idleTail idleTail)
    (beginCommand (.sdr capture idleTail pause) s)
  have hold : r.2.buf = s.buf := hlines.buf.trans (beginCommand_buf _ s)
  rw [execSdr_runs capture idleTail pause hpass hlen hbuf, ← hold]
  cases capture <;> rfl

/-- Settles O29: the checks in their order, then the walk, the pause, the tail and the end of `sdr` over the old bits
of BUF, and the capture written over them where it is asked. -/
theorem sdrCommand : Obligations.SdrCommand := by
  intro s capture idleTail pause hu n base
  refine ⟨⟨by cases capture <;> cases idleTail <;> cases pause <;> decide,
      decode_encode (.sdr capture idleTail pause)⟩,
    refusesInOrder_of_tests (sdrChecks_tests s capture idleTail pause) fun _ _ h => refuses_of_firstRefusal hu h,
    fun bytes htap hpos hin hbytes hbuf => ?_⟩
  have hpass : firstRefusal (entryChecks (.sdr capture idleTail pause) s) = none := by
    refine firstRefusal_none_of_tests (sdrChecks_tests s capture idleTail pause) ?_
    simp only [List.forall_mem_cons]
    exact ⟨not_not_intro htap.1, htap.not_notIn, not_or.2 ⟨hpos, not_not_intro hin⟩, nofun⟩
  have hfit : n ≤ 8 * bytes.length := by omega
  have hlen : (bitsOf bytes n).length = n := by rw [bitsOf_length, Nat.min_eq_left hfit]
  have hbits : bitsOf bytes n ≠ [] := List.ne_nil_of_length_pos (hlen.symm ▸ Nat.pos_of_ne_zero hpos)
  have hrun : _ = complete { (sdr (bitsOf bytes n) _ _ _).2 with buf := _ } :=
    execSdr_writes capture idleTail pause hpass hbytes hbuf
  obtain ⟨htapAfter, hbanks, hcounters, htime⟩ :=
    sdr_leaves s idleTail pause (htap.beginCommand (.sdr capture idleTail pause)) hbits
  obtain ⟨evs, k, hlines, hplays, hpulses, hcap, hcapLen, htakes⟩ := sdr_exact (bitsOf bytes n)
    (s.pauseOperand pause) (s.idleTail idleTail) (beginCommand (.sdr capture idleTail pause) s)
  generalize sdr (bitsOf bytes n) _ _ _ = r at *
  rw [hlen] at hbanks hcap htakes hcapLen
  rw [beginCommand_banks] at hbanks
  rw [beginCommand_counters] at hcounters
  rw [beginCommand_env] at htime htakes
  obtain ⟨t, hend, hends, hwave, hframe, heq⟩ := hlines.completes_setBuf hplays hu _
  have hnew : t.buf = if capture then s.buf.writeRange base (captureBytes bytes r.1) else s.buf := by rw [heq]
  rw [← hnew] at hframe
  refine ⟨t, evs, k, ⟨hrun.trans hend, hends⟩, hwave, hpulses, ?_, ?_, ?_, hframe, ?_, ?_, ?_⟩
  · rw [heq]
    exact htakes
  · rw [heq]
    exact htime
  · rw [heq]
    exact htapAfter
  · rw [← hcap]
    cases capture with
    | true => exact capturedInto_of_buf (hcapLen.trans_le hfit) hnew
    | false => exact sameBuf_of_eq hnew
  · rw [heq, ← hcap]
    exact hbanks
  · rw [heq]
    exact hcounters

/-! ### CHECK -/

/-- An emitted event goes to the trace; beside that only the host port changes. -/
theorem emit_eq (e : Event) (s : State) :
    emit e s = { s with trace := e :: s.trace, port := (emit e s).port } := dueAccesses_eq _ _

/-- The masked comparison writes FLAGS; beside that it changes only the trace and the host port (spec 41 R184). -/
theorem check_eq (r e m : Word) (s : State) : (check r e m s).2 = { s with
    flags := s.flags.afterCheck (maskedMismatch r e m)
    trace := (check r e m s).2.trace
    port := (check r e m s).2.port } := by
  simp only [check]
  split
  · rw [emit_eq]
  · rfl

theorem maskedMismatch_iff (r e m : Word) : maskedMismatch r e m = true ↔ (r ^^^ e) &&& m ≠ 0#32 := bne_iff_ne

/-- CHECK, whatever its outcome: the comparison's events, its result in R_RES, and FLAGS after it (spec 41 R184). -/
theorem check_completes {s : State} (hu : s.undisturbed) :
    let bad := maskedMismatch s.regs.val s.regs.exp s.regs.mask
    ∃ t, Runs .check s t .ok 0 (checkEvents s.regs.val s.regs.exp s.regs.mask) ∧
      t = { s with res := boolWord bad, flags := s.flags.afterCheck bad, ctl := t.ctl, trace := t.trace
                   port := t.port } := by
  intro bad
  have hacts := (check_moves s.regs.val s.regs.exp s.regs.mask (beginCommand .check s)).acts.setRes (boolWord bad)
  have hrun := execCheck_runs s
  have hends := hacts.endsWith hu .ok 0
  obtain ⟨hend, -⟩ := endCommand_eq .ok 0 _ (hacts.undisturbed (beginCommand_undisturbed .check s hu))
  refine ⟨_, ⟨hrun, hends⟩, ?_⟩
  clear hrun hends hacts
  generalize endCommand .ok 0 _ = t at *
  rw [hend, check_eq, beginCommand_eq]

/-- Settles O30: both outcomes of the comparison are the one lemma for CHECK, read with its result. -/
theorem checkCommand : Obligations.CheckCommand := by
  intro s hu mismatch
  have hiff := maskedMismatch_iff s.regs.val s.regs.exp s.regs.mask
  obtain ⟨t, hruns, heq⟩ := check_completes hu
  refine ⟨⟨by decide, decode_encode .check⟩, fun hbad => ?_, fun hgood => ?_⟩
  · have hcheck := hiff.2 hbad
    rw [checkEvents, if_pos hcheck] at hruns
    rw [hcheck, Flags.afterCheck, Bool.or_true] at heq
    exact ⟨t, hruns, heq⟩
  · have hcheck := Bool.eq_false_of_not_eq_true (mt hiff.1 hgood)
    rw [checkEvents, if_neg (Bool.eq_false_iff.1 hcheck)] at hruns
    rw [hcheck, Flags.afterCheck, Bool.or_false] at heq
    exact ⟨t, hruns, heq⟩

end Sys2Proof.Machine
end

section
/-! PROOFS. The burst transport: BURSTWR (spec 42 R207), BURSTRD (R209), the equivalence of a burst and the bit-banged
shift of its frame (R208), and that of the two backends (R206, 44 R251). -/

namespace Sys2Proof.Machine

/-! ### The levels of a burst -/

theorem wires_append (e1 e2 : List Event) : wires (e1 ++ e2) = wires e1 ++ wires e2 := List.filterMap_append

/-- The levels do not depend on the samples. -/
theorem wires_blind (evs : List Event) : wires (evs.map Event.blind) = wires evs := by
  rw [wires, List.filterMap_map]
  exact List.filterMap_congr fun e _ => by cases e <;> rfl

/-- Which driver makes the pulses does not show. -/
theorem wires_pulses (d : Driver) (bits : List Bool) :
    wires (bits.map fun x => .pulse d false x false) = bits.map (false, ·) := by
  induction bits with
  | nil => rfl
  | cons b bs ih => exact congrArg ((false, b) :: ·) ih

theorem wires_shiftEvents_false (bits : List Bool) : wires (shiftEvents false bits) = bits.map (false, ·) := by
  induction bits with
  | nil => rfl
  | cons b bs ih => exact congrArg ((false, b) :: ·) ih

/-- Only the last bit of a shift carries the exit level. -/
theorem shiftEvents_append (last : Bool) (xs : List Bool) {ys : List Bool} (h : ys ≠ []) :
    shiftEvents last (xs ++ ys) = shiftEvents false xs ++ shiftEvents last ys := by
  induction xs with
  | nil => rfl
  | cons x xs ih => simp [shiftEvents, ih, h]

theorem byteBits_ne_nil (b : Byte) : byteBits b ≠ [] := List.ne_nil_of_length_pos (byteBits_length b ▸ by decide)

/-- What a target sees of a wave: the levels of TMS and TDI at its pulses, and the level at which TDI rests. The drivers
and the path switches are left out. -/
def Wave.levels (w : Wave) : List (Bool × Bool) × Bool := (wires w.events, w.tdi)

theorem Wave.tms_levels {w w' : Wave} (l : List Bool) (h : w.levels = w'.levels) :
    (w.tms l).levels = (w'.tms l).levels := by
  obtain ⟨hwires, htdi⟩ := Prod.mk.inj h
  simp only [Wave.levels, Wave.tms, wires_append, hwires, htdi]

/-- A bulk byte goes out most significant bit first with TMS=0, whichever driver makes the pulses (spec 42 R204,
R206). -/
theorem Wave.bulkByte_wires (useBurst : Bool) (b : Byte) (w : Wave) :
    wires (w.bulkByte useBurst b).events = wires w.events ++ (byteBits (rev8 b)).map (false, ·) := by
  cases useBurst with
  | true => rw [Wave.bulkByte, if_pos rfl, wires_append, wires_pulses, byteBits_rev8]
  | false => rw [Wave.bulkByte, if_neg Bool.false_ne_true, Wave.shift, wires_append, wires_shiftEvents_false]

theorem Wave.bulk_wires (useBurst : Bool) (bytes : List Byte) (w : Wave) :
    wires (Wave.bulk useBurst bytes w).events =
      wires w.events ++ ((bytes.map rev8).flatMap byteBits).map (false, ·) := by
  induction bytes generalizing w with
  | nil => exact (List.append_nil _).symm
  | cons b bs ih =>
    rw [Wave.bulk, ih, Wave.bulkByte_wires, List.map_cons, List.flatMap_cons, List.map_append, List.append_assoc]

theorem switchWave_wires (useBurst : Bool) (p : Path) (w : Wave) :
    wires (switchWave useBurst p w).events = wires w.events := by
  cases useBurst with
  | true => exact (wires_append w.events [.path p]).trans (List.append_nil _)
  | false => rfl

theorem Wave.burst_eq (useBurst : Bool) (bytes : List Byte) (finalByte : Byte) (w : Wave) :
    Wave.burst useBurst bytes finalByte w =
      (switchWave useBurst .bitBang (Wave.bulk useBurst bytes (switchWave useBurst .burst w))).shift true
        (byteBits finalByte) := rfl

/-- The equivalence law of spec 42 R208 for waves: a burst makes the levels of the bit-banged shift of its frame, in
which the bulk bytes stand bit-reversed. -/
theorem Wave.burst_levels (useBurst : Bool) (bytes : List Byte) (finalByte : Byte) (w : Wave) :
    (Wave.burst useBurst bytes finalByte w).levels =
      (w.shift true ((bytes.map rev8 ++ [finalByte]).flatMap byteBits)).levels := by
  have hlast := byteBits_ne_nil finalByte
  rw [List.flatMap_append, List.flatMap_singleton, Wave.burst_eq]
  refine Prod.ext ?_ ?_
  · simp only [Wave.levels, Wave.shift, wires_append, switchWave_wires, Wave.bulk_wires,
      shiftEvents_append _ _ hlast, wires_shiftEvents_false, List.append_assoc]
  · simp [Wave.levels, Wave.shift, List.getLastD_eq_getLast?, List.getLast?_eq_getLast_of_ne_nil, hlast]

/-- The levels of events that play a wave. -/
theorem Plays.wires_eq {s t : State} {evs : List Event} {f : Wave → Wave} (h : Plays s t evs f) :
    wires evs = wires (f (Wave.start s.pins.tdi)).events := by
  have hwave : f (Wave.start s.pins.tdi) = _ := h.plays
  rw [hwave, wires_blind]

/-! ### The path events of a burst -/

theorem nonPulses_append (e1 e2 : List Event) : nonPulses (e1 ++ e2) = nonPulses e1 ++ nonPulses e2 :=
  List.filter_append ..

/-- An event without a sample is not changed by dropping it. -/
theorem nonPulses_blind (evs : List Event) : nonPulses (evs.map Event.blind) = nonPulses evs := by
  induction evs with
  | nil => rfl
  | cons e evs ih =>
    cases e with
    | pulse => exact ih
    | _ => exact congrArg (_ :: ·) ih

theorem nonPulses_pulses (d : Driver) (bits : List Bool) :
    nonPulses (bits.map fun x => .pulse d false x false) = [] := by
  induction bits with
  | nil => rfl
  | cons b bs ih => exact ih

theorem nonPulses_shiftEvents (last : Bool) (bits : List Bool) : nonPulses (shiftEvents last bits) = [] := by
  induction bits with
  | nil => rfl
  | cons b bs ih => exact ih

theorem Wave.shift_nonPulses (last : Bool) (bits : List Bool) (w : Wave) :
    nonPulses (w.shift last bits).events = nonPulses w.events := by
  rw [Wave.shift, nonPulses_append, nonPulses_shiftEvents, List.append_nil]

theorem Wave.bulk_nonPulses (useBurst : Bool) (bytes : List Byte) (w : Wave) :
    nonPulses (Wave.bulk useBurst bytes w).events = nonPulses w.events := by
  induction bytes generalizing w with
  | nil => rfl
  | cons b bs ih =>
    rw [Wave.bulk, ih]
    cases useBurst with
    | true => rw [Wave.bulkByte, if_pos rfl, nonPulses_append, nonPulses_pulses, List.append_nil]
    | false => exact Wave.shift_nonPulses _ _ _

/-- A burst switches the path twice, and only where there is a peripheral (spec 42 R200, R206). -/
theorem Wave.burst_nonPulses (useBurst : Bool) (bytes : List Byte) (finalByte : Byte) (w : Wave) :
    nonPulses (Wave.burst useBurst bytes finalByte w).events =
      nonPulses w.events ++ if useBurst then [.path .burst, .path .bitBang] else [] := by
  rw [Wave.burst_eq, Wave.shift_nonPulses]
  cases useBurst with
  | true =>
    simp only [switchWave, if_true, Wave.mark, nonPulses_append, Wave.bulk_nonPulses, List.append_assoc]
    rfl
  | false => exact (Wave.bulk_nonPulses _ _ _).trans (List.append_nil _).symm

theorem Plays.nonPulses_eq {s t : State} {evs : List Event} {f : Wave → Wave} (h : Plays s t evs f) :
    nonPulses evs = nonPulses (f (Wave.start s.pins.tdi)).events := by
  have hwave : f (Wave.start s.pins.tdi) = _ := h.plays
  rw [hwave, nonPulses_blind]

/-- The bits of a whole frame. -/
theorem bitsOf_all {bytes : List Byte} {n : Nat} (h : n = 8 * bytes.length) :
    bitsOf bytes n = bytes.flatMap byteBits :=
  List.take_of_length_le (by rw [flatMap_byteBits_length, h])

/-- Settles O33: both waves from the same level of TDI, by the law for waves. -/
theorem burstEqualsShift : Obligations.BurstEqualsShift := by
  intro s lead bulk d e1 e2 h1 h2
  obtain ⟨evs1, hlines1, hplays1, -⟩ := burstWrite_spec lead bulk (rev8 d) s
  obtain ⟨evs2, hlines2, hplays2, -⟩ :=
    shiftBits_spec (bitsOf ((lead ++ bulk ++ [d]).map rev8) (8 * (lead.length + bulk.length + 1))) s
  obtain rfl := newEvents_unique hlines1.trace h1
  obtain rfl := newEvents_unique hlines2.trace h2
  rw [bitsOf_all (by simp; omega), List.map_append] at hplays2
  refine ⟨?_, ?_, ?_⟩
  · rw [hplays1.wires_eq, hplays2.wires_eq]
    exact congrArg Prod.fst (Wave.burst_levels _ _ _ _)
  · rw [hplays1.nonPulses_eq, Wave.burst_nonPulses]
    rfl
  · rw [hplays2.nonPulses_eq, Wave.shift_nonPulses]
    rfl

/-! ### The target behind both backends -/

/-- What a target answers to pulses with these levels, and what it is after them (spec 40 R155). -/
def Target.answers (p : Params) : Target → List (Bool × Bool) → List Bool × Target
  | x, [] => ([], x)
  | x, (tms, tdi) :: rest =>
    let r := x.pulse p tms tdi
    (r.1 :: (Target.answers p r.2 rest).1, (Target.answers p r.2 rest).2)

/-- Samples and target are determined by the levels on the lines. -/
theorem answers_of_answeredBy {p : Params} {x y : Target} {evs : List Event} (h : answeredBy p x evs y) :
    x.answers p (wires evs) = (samplesOf evs, y) := by
  induction evs generalizing x with
  | nil => cases h; rfl
  | cons e evs ih =>
    cases e with
    | pulse d tms tdi tdo =>
      obtain ⟨rfl, hrest⟩ := h
      exact congrArg (fun r : List Bool × Target => (_ :: r.1, r.2)) (ih hrest)
    | _ => exact ih h

/-- USE_BURST is the block's: no target depends on it. -/
theorem Target.pulse_useBurst (p : Params) (b : Bool) (x : Target) (tms tdi : Bool) :
    x.pulse { p with useBurst := b } tms tdi = x.pulse p tms tdi := by
  cases x with
  | samples coming n => cases coming <;> rfl
  | reference t => rfl

theorem Target.answers_useBurst (p : Params) (b : Bool) (x : Target) (levels : List (Bool × Bool)) :
    x.answers { p with useBurst := b } levels = x.answers p levels := by
  induction levels generalizing x with
  | nil => rfl
  | cons l rest ih => simp only [Target.answers, Target.pulse_useBurst, ih]

/-- A block read makes the same levels with the peripheral and without it (spec 42 R206, 44 R251). -/
theorem Wave.readBlock_levels (p : Params) (b : Bool) (a n : Nat) (w : Wave) :
    (w.readBlock { p with useBurst := b } a n).levels = (w.readBlock p a n).levels :=
  Wave.tms_levels _ ((Wave.burst_levels _ _ _ _).trans (Wave.burst_levels _ _ _ _).symm)

/-- Settles O34: the same levels, so the same answers of the target, so the same bytes. -/
theorem backendsAgree : Obligations.BackendsAgree := by
  intro s a n e1 e2 bb h1 h2
  obtain ⟨evs1, hlines1, hplays1, hbytes1, -⟩ := readBlock_spec a n s
  obtain ⟨evs2, hlines2, hplays2, hbytes2, -⟩ := readBlock_spec a n bb
  obtain rfl := newEvents_unique hlines1.trace h1
  obtain rfl := newEvents_unique hlines2.trace h2
  have hwires : wires evs1 = wires evs2 := by
    rw [hplays1.wires_eq, hplays2.wires_eq]
    exact (congrArg Prod.fst (Wave.readBlock_levels s.cfg false a n _)).symm
  have hanswers : (samplesOf evs1, _) = (samplesOf evs2, _) :=
    calc (samplesOf evs1, _)
        = s.env.target.answers s.cfg (wires evs1) := (answers_of_answeredBy hlines1.target).symm
      _ = s.env.target.answers bb.cfg (wires evs2) := by
        rw [hwires]
        exact (Target.answers_useBurst s.cfg false s.env.target (wires evs2)).symm
      _ = (samplesOf evs2, _) := answers_of_answeredBy hlines2.target
  obtain ⟨hsamples, htarget⟩ := Prod.mk.inj hanswers
  refine ⟨hwires, ?_, htarget⟩
  rw [hbytes1, hbytes2, blockRead, blockRead, hsamples]

/-! ### BURSTWR and BURSTRD -/

/-- The checks of BURSTWR and BURSTRD in the order of spec 42 R207, R209. -/
theorem burstChecks_tests (s : State) : List.Forall₂ EntryCheck.Tests (burstChecks s)
    [(s.pins.path ≠ .bitBang, .sessionError, 0), (s.notIn [.shiftDR], .tapSequenceError, 0),
     (s.regs.len = 0#32 ∨ ¬s.inBuf s.regs.len.toNat, .operandError, 0)] :=
  List.rel_append (requireTap_tests _ s) (requireBuf_tests s _)

theorem burstChecks_pass {s : State} (htap : s.inTap .shiftDR) (hpos : s.regs.len ≠ 0#32)
    (hin : s.inBuf s.regs.len.toNat) : firstRefusal (burstChecks s) = none := by
  refine firstRefusal_none_of_tests (burstChecks_tests s) ?_
  simp only [List.forall_mem_cons]
  exact ⟨not_not_intro htap.1, htap.not_notIn, not_or.2 ⟨hpos, not_not_intro hin⟩, nofun⟩

theorem prefixBytes_length (w : Word) : (prefixBytes w).length = 4 := rfl

/-- A burst from ShiftDR leaves the lines acquired and the TAP in Exit1DR (spec 10_state R31, 42 R205). -/
theorem burstWrite_inTap {s : State} (lead bulk : List Byte) (finalByte : Byte) (h : s.inTap .shiftDR) :
    (burstWrite lead bulk finalByte s).inTap .exit1DR :=
  ⟨(burstWrite_steady lead bulk finalByte s).path h.1, burstWrite_tapAt lead bulk finalByte h.2⟩

theorem burstRead_inTap {s : State} (lead : List Byte) (n : Nat) (h : s.inTap .shiftDR) :
    (burstRead lead n s).2.inTap .exit1DR :=
  ⟨(burstRead_steady lead n s).path h.1, burstRead_tapAt lead n h.2⟩

/-- Settles O31: the checks in their order, then the wave and the end of `burstWrite` over the bytes of BUF. -/
theorem burstwrCommand : Obligations.BurstwrCommand := by
  intro s hu
  refine ⟨⟨by decide, decode_encode .burstwr⟩,
    refusesInOrder_of_tests (burstChecks_tests s) fun _ _ h => refuses_of_firstRefusal hu h,
    fun bulk finalByte htap hin hlen hbuf => ?_⟩
  have hpos : s.regs.len ≠ 0#32 := fun h0 => by
    rw [h0] at hlen
    exact Nat.succ_ne_zero _ hlen
  have hrun := execBurstwr_runs (burstChecks_pass htap hpos hin) ((List.length_append ..).trans hlen) hbuf
  rw [List.dropLast_concat, List.getLastD_concat] at hrun
  have hbegin := htap.beginCommand .burstwr
  have htapAfter := burstWrite_inTap (prefixBytes s.regs.val) bulk finalByte hbegin
  have hbanks := burstWrite_banks (prefixBytes s.regs.val) bulk finalByte hbegin.2
  obtain ⟨evs, hlines, hplays, hdr⟩ :=
    burstWrite_spec (prefixBytes s.regs.val) bulk finalByte (beginCommand .burstwr s)
  rw [beginCommand_cfg] at hplays
  rw [beginCommand_banks] at hbanks
  generalize burstWrite (prefixBytes s.regs.val) bulk finalByte (beginCommand .burstwr s) = u at *
  obtain ⟨t, hend, hends, hwave, hframe, heq⟩ := hlines.completes hplays hu
  refine ⟨t, evs, ⟨hrun.trans hend, hends⟩, hwave, ?_, ?_, hframe, ?_, ?_, ?_⟩
  · rw [plays_pulses hwave, Wave.burst_pulses, Wave.start_pulses, List.length_append, prefixBytes_length, ← hlen]
    omega
  · rw [heq]
    exact htapAfter
  · refine sameBuf_of_eq ?_
    rw [heq]
    exact hlines.buf.trans (beginCommand_buf .burstwr s)
  · rw [heq]
    exact hbanks
  · rw [heq]
    exact hdr.counters.trans (beginCommand_counters .burstwr s)

/-- BURSTRD is its bulk read, then one write of BUF (spec 42 R209). -/
theorem execBurstrd_writes {s : State} (hpass : firstRefusal (entryChecks .burstrd s) = none) :
    let r := burstRead (prefixBytes s.regs.val) s.regs.len.toNat (beginCommand .burstrd s)
    exec .burstrd s = complete { r.2 with buf := s.buf.writeRange s.regs.buf.toNat r.1 } := by
  intro r
  obtain ⟨_, hlines, -⟩ := burstRead_spec (prefixBytes s.regs.val) s.regs.len.toNat (beginCommand .burstrd s)
  have hold : r.2.buf = s.buf := hlines.buf.trans (beginCommand_buf _ s)
  rw [execBurstrd_runs hpass, ← hold]

/-- Settles O32: the checks in their order, then the wave and the end of `burstRead`, whose bytes are written to BUF. -/
theorem burstrdCommand : Obligations.BurstrdCommand := by
  intro s hu n
  have hzero : n = 0 ↔ s.regs.len = 0#32 := (BitVec.toNat_eq (y := 0#32)).symm
  refine ⟨⟨by decide, decode_encode .burstrd⟩, ?_, fun htap hpos hin => ?_⟩
  · rw [hzero]
    exact refusesInOrder_of_tests (burstChecks_tests s) fun _ _ h => refuses_of_firstRefusal hu h
  have hrun := execBurstrd_writes (burstChecks_pass htap (mt hzero.2 hpos) hin)
  have hbegin := htap.beginCommand .burstrd
  have htapAfter := burstRead_inTap (prefixBytes s.regs.val) n hbegin
  have hbanks := burstRead_banks (prefixBytes s.regs.val) n hbegin.2
  obtain ⟨evs, hlines, hplays, hbytes, -, hcount, hdr⟩ :=
    burstRead_spec (prefixBytes s.regs.val) n (beginCommand .burstrd s)
  replace hbytes := hbytes []
  rw [List.append_nil, prefixBytes_length] at hbytes
  rw [beginCommand_cfg] at hplays hbytes
  rw [beginCommand_banks] at hbanks
  generalize burstRead (prefixBytes s.regs.val) n (beginCommand .burstrd s) = r at *
  obtain ⟨t, hend, hends, hwave, hframe, heq⟩  :=
    hlines.completes_setBuf hplays hu (s.buf.writeRange s.regs.buf.toNat r.1)
  have hnew : t.buf = s.buf.writeRange s.regs.buf.toNat r.1 := by rw [heq]
  rw [← hnew] at hframe
  refine ⟨t, evs, ⟨hrun.trans hend, hends⟩, hwave, ?_, ?_, hframe, ?_, fun a ha => ?_, ?_, ?_⟩
  · rw [plays_pulses hwave, Wave.burst_pulses, Wave.start_pulses]
    simp only [List.length_append, prefixBytes_length, List.length_replicate]
    omega
  · rw [heq]
    exact htapAfter
  · rw [hbytes]
    intro j hj
    rw [hnew]
    exact Memory.read_writeRange_inside _ _ _ _ hj
  · rw [hnew]
    exact Memory.read_writeRange_outside _ _ _ _ (by rwa [hcount])
  · rw [heq]
    exact hbanks
  · rw [heq]
    exact hdr.counters.trans (beginCommand_counters .burstrd s)

end Sys2Proof.Machine
end

section
/-! PROOFS. The ECP5 scripts: IDENTIFY (spec 43 R222, R223), OPENCFG (R224, R225), OPENFLASH (R226), CLOSE (R228). -/

namespace Sys2Proof.Machine

/-! ### The end of a command that writes neither BUF nor FSR -/

/-- Working the lines after a write is no further write. -/
theorem Wrote.thenLines {i : Instr} {s t u : State} {evs : List Event} (h : Wrote i s t) (l : Lines t u evs) :
    Wrote i s u := by
  obtain ⟨base, bytes, hbuf, hrange⟩ := h.range
  refine ⟨fun hi => l.res.trans (h.res hi), fun hi => l.buf.trans (h.buf hi), ⟨base, bytes, l.buf.trans hbuf, hrange⟩,
    l.devmode ▸ h.devmode, fun hi => l.fsr.trans (h.fsr hi), fun hi => ?_, ?_, ?_⟩
  · rw [l.stats, l.work, l.source]
    exact h.upload hi
  · rw [l.flags]
    exact h.mismatch
  · rw [l.flags]
    exact h.timeout

theorem Wrote.setMode {i : Instr} {s u : State} {m : DevMode} (h : Wrote i s u) (hm : setsMode i = some m) :
    Wrote i s { u with devmode := m } :=
  ⟨h.res, h.buf, h.range, fun _ => hm, h.fsr, h.upload, h.mismatch, h.timeout⟩

/-- The end without error of a command that writes neither BUF nor FSR: beside the lines it has written R_RES, the mode
and MISMATCH at most, this one by its events. -/
theorem Acts.completes {i : Instr} {s u : State} {evs : List Event} (h : Acts (beginCommand i s) u evs)
    (hw : Wrote i (beginCommand i s) u) (hu : s.undisturbed) (hbuf : writesBuf i = false) (hfsr : writesFsr i = false) :
    ∃ t, complete u = .next t ∧ EndsWith s t .ok 0 evs ∧
      onlyLines { s with res := u.res, devmode := u.devmode
                         flags.mismatch := s.flags.mismatch || evs.any Event.isMismatch } t ∧
      t = { u with ctl := t.ctl, trace := t.trace, port := t.port } := by
  have hnotUpload : i ≠ .upload := by rintro rfl; cases hfsr
  have hends := h.endsWith hu .ok 0
  obtain ⟨heq, -⟩ := endCommand_eq .ok 0 u (h.undisturbed (beginCommand_undisturbed i s hu))
  refine ⟨_, rfl, hends, ?_, ?_⟩ <;> clear hends <;> generalize endCommand .ok 0 u = t at *
  · have hcfg := h.cfg.trans (beginCommand_cfg i s)
    have hregs := h.regs.trans (beginCommand_regs i s)
    have hmem := (hw.buf hbuf).trans (beginCommand_buf i s)
    have hstatus := (hw.fsr hfsr).trans (beginCommand_fsr i s)
    obtain ⟨hstats, hwork, hsource⟩ := hw.upload hnotUpload
    rw [beginCommand_stats] at hstats
    rw [beginCommand_work] at hwork
    rw [beginCommand_env] at hsource
    have hmismatch := h.mismatch
    have htimeout := hw.timeout hfsr
    rw [beginCommand_flags] at hmismatch htimeout
    rw [onlyLines, heq]
    simp only [← hcfg, ← hregs, ← hmem, ← hstatus, ← hstats, ← hwork, ← hsource, ← hmismatch, ← htimeout]
  · rw [heq]

/-! ### The waves of the scripts -/

theorem bitsOf_singleton (b : Byte) : bitsOf [b] 8 = byteBits b :=
  (bitsOf_all (bytes := [b]) (n := 8) rfl).trans (List.flatMap_singleton ..)

/-- The instruction scan of a script sends the eight bits of its instruction (spec 30_encoding R122). -/
theorem Wave.sirOp_eq (op : Byte) (k : Option Nat) (w : Wave) : w.sirOp op k = w.sir (byteBits op) k :=
  congrArg (fun bits => w.sir bits k) (bitsOf_singleton op)

theorem Wave.scriptStart_eq (w : Wave) : w.scriptStart = w.reset.idle 1 := rfl

theorem Wave.tms_nonPulses (l : List Bool) (w : Wave) : nonPulses (w.tms l).events = nonPulses w.events := by
  have hpulses : nonPulses (l.map fun b => .pulse .bb b w.tdi false) = [] := by
    induction l with
    | nil => rfl
    | cons b bs ih => exact ih
  rw [Wave.tms, nonPulses_append, hpulses, List.append_nil]

theorem Wave.tail_nonPulses (k : Option Nat) (w : Wave) : nonPulses (w.tail k).events = nonPulses w.events := by
  cases k <;> exact Wave.tms_nonPulses _ w

theorem Wave.sir_nonPulses (bits : List Bool) (k : Option Nat) (w : Wave) :
    nonPulses (w.sir bits k).events = nonPulses w.events := by
  simp only [Wave.sir, Wave.tail_nonPulses, Wave.tms_nonPulses, Wave.shift_nonPulses]

theorem Wave.sdr_nonPulses (bits : List Bool) (k : Option Nat) (w : Wave) :
    nonPulses (w.sdr bits none k).events = nonPulses w.events := by
  simp only [Wave.sdr, Wave.tail_nonPulses, Wave.tms_nonPulses, Wave.shift_nonPulses]

theorem Wave.scriptStart_nonPulses (w : Wave) : nonPulses w.scriptStart.events = nonPulses w.events :=
  (Wave.tms_nonPulses _ _).trans (Wave.tms_nonPulses _ w)

theorem segment_nonPulses {before after : Bool} {evs : List Event} {f : Wave → Wave} (h : segment before evs f after) :
    nonPulses evs = nonPulses (f (Wave.start before)).events := by
  have hwave : f (Wave.start before) = _ := h
  rw [hwave, nonPulses_blind]

theorem any_isMismatch_of_nonPulses {evs : List Event} (h : nonPulses evs = []) : evs.any Event.isMismatch = false := by
  rw [nonPulses, List.filter_eq_nil_iff] at h
  rw [List.any_eq_false]
  intro e he
  have hpulse := h e he
  cases e <;> simp_all [Event.isPulse, Event.isMismatch]

theorem checkEvents_any_isMismatch (r e m : Word) : (checkEvents r e m).any Event.isMismatch = maskedMismatch r e m := by
  unfold checkEvents
  cases maskedMismatch r e m <;> rfl

theorem acquireEvents_any_isMismatch (p : Path) : (acquireEvents p).any Event.isMismatch = false := by
  cases p <;> rfl

/-! ### The start of a script -/

/-- What a script finds once its command has begun and the lines are acquired where they were released (spec 43
R221). -/
structure Acquired (i : Instr) (s a : State) : Prop where
  lines : Lines (beginCommand i s) a (acquireEvents s.pins.path)
  cfg : a.cfg = s.cfg
  tdi : a.pins.tdi = s.pins.tdi
  counters : a.counters = s.counters
  target : a.env.target = s.env.target
  time : s.env.clock.time ≤ a.env.clock.time
  path : s.pins.path ≠ .burst → a.pins.path = .bitBang
  pathKept : s.pins.path ≠ .released → a.pins.path = s.pins.path

theorem acquireIfReleased_target (s : State) : (acquireIfReleased s).env.target = s.env.target := by
  unfold acquireIfReleased acquire
  split
  · rw [emit_env]
  · rfl

theorem acquireIfReleased_beginCommand (i : Instr) (s : State) :
    Acquired i s (acquireIfReleased (beginCommand i s)) := by
  obtain ⟨hlines, htdi, -, hcounters⟩ := acquireIfReleased_spec (beginCommand i s)
  have htime := hlines.time
  rw [beginCommand_pins] at hlines htdi
  rw [beginCommand_env] at htime
  refine ⟨hlines, hlines.cfg.trans (beginCommand_cfg i s), htdi, hcounters.trans (beginCommand_counters i s), ?_,
    (Nat.le_add_right _ _).trans htime, fun hp => acquireIfReleased_path _ (by rwa [beginCommand_pins]), fun hp => ?_⟩
  · rw [acquireIfReleased_target, beginCommand_env]
  · rw [hlines.path, beginCommand_pins, acquireEvents, if_neg hp]
    rfl

/-! ### IDENTIFY -/

/-- The end of a command that may have acquired the lines, `p` being PATH before it: those it releases, and no others
(spec 43 R222). -/
def releaseAcquired (p : Path) (s : State) : State := if p = .released then release s else s

theorem releaseAcquired_lines (p : Path) (s : State) :
    Lines s (releaseAcquired p s) (if p = .released then [.path .released] else []) := by
  unfold releaseAcquired
  split
  · exact (release_spec s).1
  · exact Lines.refl s

theorem releaseAcquired_tdi (p : Path) (s : State) : (releaseAcquired p s).pins.tdi = s.pins.tdi := by
  unfold releaseAcquired
  split
  · rw [release_pins]
  · rfl

theorem releaseAcquired_counters (p : Path) (s : State) : (releaseAcquired p s).counters = s.counters := by
  unfold releaseAcquired
  split
  · exact release_counters s
  · rfl

theorem execIdentify_eq (s : State) :
    exec .identify s =
      (let r := identifyScan (acquireIfReleased (beginCommand .identify s))
       complete (releaseAcquired s.pins.path { r.2 with res := r.1 })) := execIdentify_runs s

theorem sirOp_path (op : Byte) (idleAfter : Option IdleWait) (s : State) :
    (sirOp op idleAfter s).pins.path = s.pins.path := sir_path _ _ _

theorem scriptStart_path (s : State) : (scriptStart s).pins.path = s.pins.path :=
  (idle_path _ _).trans (walk_path _ _)

theorem identifyScan_path (s : State) : (identifyScan s).2.pins.path = s.pins.path := by
  simp only [identifyScan, sdr_path, sirOp_path, scriptStart_path]

/-- IDENTIFY from its start to its end, the events of its scans given: R_RES is the word they return. -/
theorem identify_completes {s : State} {r : Word × State} {evs : List Event} (hu : s.undisturbed)
    (hr : identifyScan (acquireIfReleased (beginCommand .identify s)) = r)
    (hscan : Lines (acquireIfReleased (beginCommand .identify s)) r.2 evs) :
    ∃ t, Runs .identify s t .ok 0
        (acquireEvents s.pins.path ++ evs ++ (if s.pins.path = .released then [.path .released] else [])) ∧
      t.res = r.1 ∧ onlyLines { s with res := t.res } t ∧
      t = { releaseAcquired s.pins.path { r.2 with res := r.1 } with ctl := t.ctl, trace := t.trace, port := t.port } := by
  have hrun := execIdentify_eq s
  simp only [hr] at hrun
  have hlines := (acquireIfReleased_beginCommand .identify s).lines.trans hscan
  have hrelease := releaseAcquired_lines s.pins.path { r.2 with res := r.1 }
  have hacts := (hlines.toMoves.acts.setRes r.1).trans hrelease.toMoves.acts
  have hwrote := ((hlines.wrote .identify).setRes rfl r.1).thenLines hrelease
  generalize releaseAcquired s.pins.path { r.2 with res := r.1 } = u at *
  obtain ⟨t, hend, hends, hframe, heq⟩ := hacts.completes hwrote hu rfl rfl
  have hmode := (hrelease.devmode.trans hlines.devmode).trans (beginCommand_devmode .identify s)
  have hflags := (hrelease.flags.trans hlines.flags).trans (beginCommand_flags .identify s)
  have hmismatch := hacts.mismatch
  rw [hflags, beginCommand_flags] at hmismatch
  have hres : t.res = u.res := by rw [heq]
  rw [← hmismatch, hmode, ← hres] at hframe
  exact ⟨t, ⟨hrun.trans hend, hends⟩, hres.trans hrelease.res, hframe, heq⟩

/-- Settles O35: the scans of `identifyScan`, between the acquisition and the release of the lines. -/
theorem identifyCommand : Obligations.IdentifyCommand := by
  intro s hu
  refine ⟨⟨by decide, decode_encode .identify⟩, ?_⟩
  have hacquired := acquireIfReleased_beginCommand .identify s
  obtain ⟨e1, scan, x, hlines, hopen, hscan, hword⟩ := identifyScan_spec (acquireIfReleased (beginCommand .identify s))
  obtain ⟨t, hruns, hres, hframe, heq⟩ := identify_completes hu rfl hlines
  generalize acquireIfReleased (beginCommand .identify s) = a at *
  have htap := identifyScan_tapAt a
  have hattempt := identifyScan_attempt a
  have hpath := identifyScan_path a
  generalize identifyScan a = r at *
  have hcount : pulseCount (e1 ++ scan) = 61 := by
    rw [pulseCount_append, segment_pulses hopen, segment_pulses hscan]
    simp [tailPulses, Config.idcodeBits]
  simp only [hacquired.cfg, hacquired.tdi, Wave.sirOp_eq, Wave.scriptStart_eq] at hopen
  rw [hacquired.counters] at hattempt
  rw [← List.append_assoc] at hruns
  rw [hword] at hres
  refine ⟨t, e1, scan, x, hruns, hopen, ?_, hcount, hres, hframe, ?_, ?_, ?_⟩ <;> rw [heq]
  · rw [releaseAcquired_tdi]
    exact hscan
  · by_cases hp : s.pins.path = .released
    · simp [releaseAcquired, hp]
    · rw [releaseAcquired, if_neg hp]
      exact hpath.trans (hacquired.pathKept hp)
  · rw [releaseAcquired_counters]
    exact hattempt
  · by_cases hp : s.pins.path = .released
    · simp [releaseAcquired, hp]
    · rw [releaseAcquired, if_neg hp, if_neg hp]
      exact htap

/-! ### OPENCFG and OPENFLASH -/

/-- What the configuration script puts on the wires, `before` and `after` being the levels at which TDI rests: the two
status scans, what stands before each, and the idle pulses of its two waits (spec 43 R224, R225). -/
structure ConfigScans (p : Params) (before : Bool) (e1 scan1 e2 scan2 : List Event) (k1 k2 : Nat) (x1 x2 after : Bool) :
    Prop where
  enable : segment before e1 (fun w => ((((w.reset.idle 1).sir (byteBits p.op.preload) none).sdr
    (List.replicate 64 true) none none).sir (byteBits p.op.iscEnable) (some k1)).sir
    (byteBits p.op.lscReadStatus) none) x1
  status1 : segment x1 scan1 (Wave.sdr (List.replicate 32 false) none none) false
  erase : segment false e2 (fun w => (w.sir (byteBits p.op.iscErase) (some k2)).sir
    (byteBits p.op.lscReadStatus) none) x2
  status2 : segment x2 scan2 (Wave.sdr (List.replicate 32 false) none none) after
  wait1 : idlePulsesOf p.cfgWait k1
  wait2 : idlePulsesOf p.cfgWait k2

/-- The events of the configuration script: each status word is compared with 0 under its mask (spec 43 R224). -/
def configEvents (e1 scan1 e2 scan2 : List Event) : List Event :=
  e1 ++ scan1 ++ checkEvents (scannedWord 32 scan1) 0#32 0x24040#32 ++ e2 ++ scan2 ++
    checkEvents (scannedWord 32 scan2) 0#32 0xB000#32

/-- `openForConfiguration()` in these terms. -/
theorem openForConfiguration_scans (s : State) :
    ∃ e1 scan1 e2 scan2 k1 k2 x1 x2,
      Script s (openForConfiguration s).2 (configEvents e1 scan1 e2 scan2) ∧
      ConfigScans s.cfg s.pins.tdi e1 scan1 e2 scan2 k1 k2 x1 x2 (openForConfiguration s).2.pins.tdi ∧
      (openForConfiguration s).1 = (!maskedMismatch (scannedWord 32 scan1) 0#32 0x24040#32 &&
        !maskedMismatch (scannedWord 32 scan2) 0#32 0xB000#32) ∧
      (openForConfiguration s).2.devmode = .configuredForSRAM := by
  obtain ⟨e1, scan1, e2, scan2, k1, k2, x1, x2, hscript, henable, hstatus1, herase, hstatus2, hwait1, hwait2, hok,
    hmode⟩ := openForConfiguration_spec s
  simp only [Wave.sirOp_eq, Wave.scriptStart_eq] at henable herase
  exact ⟨e1, scan1, e2, scan2, k1, k2, x1, x2, hscript,
    ⟨henable, hstatus1, herase, hstatus2, hwait1, hwait2⟩, hok, hmode⟩

/-- The mismatches of the script are those of its two comparisons: its scans log none. -/
theorem ConfigScans.any_isMismatch {p : Params} {before after x1 x2 : Bool} {e1 scan1 e2 scan2 : List Event}
    {k1 k2 : Nat} (h : ConfigScans p before e1 scan1 e2 scan2 k1 k2 x1 x2 after) :
    (configEvents e1 scan1 e2 scan2).any Event.isMismatch =
      (maskedMismatch (scannedWord 32 scan1) 0#32 0x24040#32 ||
        maskedMismatch (scannedWord 32 scan2) 0#32 0xB000#32) := by
  have henable : nonPulses e1 = [] := by
    rw [segment_nonPulses h.enable]
    simp only [Wave.sir_nonPulses, Wave.sdr_nonPulses, ← Wave.scriptStart_eq, Wave.scriptStart_nonPulses]
    rfl
  have hstatus1 : nonPulses scan1 = [] := (segment_nonPulses h.status1).trans (Wave.sdr_nonPulses _ _ _)
  have herase : nonPulses e2 = [] :=
    (segment_nonPulses h.erase).trans ((Wave.sir_nonPulses _ _ _).trans (Wave.sir_nonPulses _ _ _))
  have hstatus2 : nonPulses scan2 = [] := (segment_nonPulses h.status2).trans (Wave.sdr_nonPulses _ _ _)
  simp only [configEvents, List.any_append, checkEvents_any_isMismatch, any_isMismatch_of_nonPulses henable,
    any_isMismatch_of_nonPulses hstatus1, any_isMismatch_of_nonPulses herase, any_isMismatch_of_nonPulses hstatus2,
    Bool.false_or, Bool.or_false]

theorem checkStatus_path (mask : Word) (s : State) : (checkStatus mask s).2.pins.path = s.pins.path := by
  simp only [checkStatus, readStatus, check_pins, sdr_path, sirOp_path]

theorem openForConfiguration_path (s : State) : (openForConfiguration s).2.pins.path = s.pins.path := by
  simp only [openForConfiguration, checkStatus_path, sdr_path, sirOp_path, scriptStart_path]

theorem openForFlash_path (s : State) : (openForFlash s).2.pins.path = s.pins.path := by
  simp only [openForFlash, sdr_path, sirOp_path, scriptStart_path, openForConfiguration_path]

/-- A script of a command, the acquisition before it, its result in R_RES, and the end without error: the frame, the
path and the clock. -/
theorem Script.completes {i : Instr} {s u : State} {evs : List Event}
    (h : Script (acquireIfReleased (beginCommand i s)) u evs) (hu : s.undisturbed) (r : Word)
    (hres : writesRes i = true) (hmode : setsMode i = some u.devmode) (hcheck : mayMismatch i = true)
    (hbuf : writesBuf i = false) (hfsr : writesFsr i = false) :
    ∃ t, complete { u with res := r } = .next t ∧ EndsWith s t .ok 0 (acquireEvents s.pins.path ++ evs) ∧
      onlyLines { s with res := r, devmode := u.devmode
                         flags.mismatch := s.flags.mismatch || evs.any Event.isMismatch } t ∧
      t = { u with res := r, ctl := t.ctl, trace := t.trace, port := t.port } := by
  have hscript := (acquireIfReleased_beginCommand i s).lines.script.trans h
  obtain ⟨t, hend, hends, hframe, heq⟩ := (hscript.toMoves.acts.setRes r).completes
    (hscript.wrote r hres (fun _ => hmode) hcheck) hu hbuf hfsr
  rw [List.any_append, acquireEvents_any_isMismatch, Bool.false_or] at hframe
  exact ⟨t, hend, hends, hframe, heq⟩

/-- Settles O37: the scans of `openForConfiguration` after the acquisition of the lines. -/
theorem opencfgCommand : Obligations.OpencfgCommand := by
  intro s hu
  refine ⟨⟨by decide, decode_encode .opencfg⟩, ?_⟩
  have hrun := execOpencfg_runs s
  have hacquired := acquireIfReleased_beginCommand .opencfg s
  obtain ⟨e1, scan1, e2, scan2, k1, k2, x1, x2, hscript, hscans, hok, hmode⟩ :=
    openForConfiguration_scans (acquireIfReleased (beginCommand .opencfg s))
  obtain ⟨t, hend, hends, hframe, heq⟩ :=
    hscript.completes hu (boolWord (openForConfiguration (acquireIfReleased (beginCommand .opencfg s))).1) rfl
      (by rw [hmode]; rfl) rfl rfl rfl
  generalize acquireIfReleased (beginCommand .opencfg s) = a at *
  have htime := openForConfiguration_time a
  have htap := openForConfiguration_tapAt a
  have hpath := openForConfiguration_path a
  have hattempt := openForConfiguration_attempt a
  generalize openForConfiguration a = r at *
  rw [hacquired.cfg, hacquired.tdi] at hscans
  rw [hscans.any_isMismatch, ← Bool.or_assoc, hok, hmode] at hframe
  rw [hacquired.cfg] at htime
  rw [hacquired.counters] at hattempt
  simp only [configEvents, ← List.append_assoc] at hends
  obtain ⟨henable, hstatus1, herase, hstatus2, hwait1, hwait2⟩ := hscans
  refine ⟨t, e1, scan1, e2, scan2, k1, k2, x1, x2, ⟨hrun.trans hend, hends⟩, henable, hstatus1, herase, ?_, hwait1,
    hwait2, hframe, ?_⟩ <;> rw [heq]
  · exact hstatus2
  · exact ⟨(Nat.add_le_add_right hacquired.time _).trans htime, htap, fun hp => hpath.trans (hacquired.path hp),
      hattempt⟩

/-- What OPENFLASH sends after the configuration script (spec 43 R226). -/
theorem Wave.flashEntry_eq (p : Params) :
    Wave.flashEntry p Config.longIdleCycles Config.longIdleCycles = fun w =>
      (((w.reset.idle 1).sir (byteBits p.op.bypass) (some 32)).sir (byteBits p.op.lscProgSpi) none).sdr
        (numberBits p.progSpiBits p.progSpiWord) none (some 32) := by
  funext w
  simp only [Wave.flashEntry, Wave.sirOp_eq, Wave.scriptStart_eq, Config.longIdleCycles]

theorem Wave.flashEntry_nonPulses (p : Params) (k1 k2 : Nat) (w : Wave) :
    nonPulses (w.flashEntry p k1 k2).events = nonPulses w.events := by
  simp only [Wave.flashEntry, Wave.sdr_nonPulses, Wave.sirOp, Wave.sir_nonPulses, Wave.scriptStart_nonPulses]

/-- Settles O38: the scans of `openForConfiguration` after the acquisition of the lines, then those of the flash
entry, which log no mismatch. -/
theorem openflashCommand : Obligations.OpenflashCommand := by
  intro s hu
  refine ⟨⟨by decide, decode_encode .openflash⟩, ?_⟩
  have hrun := execOpenflash_runs s
  have hacquired := acquireIfReleased_beginCommand .openflash s
  obtain ⟨e1, scan1, e2, scan2, k1, k2, x1, x2, hscript, hscans, hok, -⟩ :=
    openForConfiguration_scans (acquireIfReleased (beginCommand .openflash s))
  obtain ⟨e3, _, _, hentry, hwave, rfl, rfl, hsame, hmode⟩ :=
    openForFlash_spec (acquireIfReleased (beginCommand .openflash s))
  obtain ⟨t, hend, hends, hframe, heq⟩ :=
    (hscript.trans hentry).completes hu (boolWord (openForFlash (acquireIfReleased (beginCommand .openflash s))).1) rfl
      (by rw [hmode]; rfl) rfl rfl rfl
  generalize acquireIfReleased (beginCommand .openflash s) = a at *
  have htime := openForFlash_time a
  have htap := openForFlash_tapAt a
  have hpath := openForFlash_path a
  have hattempt := openForFlash_attempt a
  generalize openForConfiguration a = c, openForFlash a = r at *
  have hquiet := any_isMismatch_of_nonPulses ((segment_nonPulses hwave).trans (Wave.flashEntry_nonPulses _ _ _ _))
  rw [hacquired.cfg, hacquired.tdi] at hscans
  rw [hacquired.cfg, Wave.flashEntry_eq] at hwave
  rw [hacquired.cfg] at htime htap
  rw [hacquired.counters] at hattempt
  rw [List.any_append, hquiet, Bool.or_false, hscans.any_isMismatch, ← Bool.or_assoc, hsame, hok, hmode] at hframe
  simp only [configEvents, ← List.append_assoc] at hends
  obtain ⟨henable, hstatus1, herase, hstatus2, hwait1, hwait2⟩ := hscans
  refine ⟨t, e1, scan1, e2, scan2, e3, k1, k2, x1, x2, _, ⟨hrun.trans hend, hends⟩, henable, hstatus1, herase,
    hstatus2, ?_, hwait1, hwait2, hframe, ?_⟩ <;> rw [heq]
  · exact hwave
  · exact ⟨(Nat.add_le_add_right hacquired.time _).trans htime, htap, fun hp => hpath.trans (hacquired.path hp),
      hattempt⟩

/-! ### CLOSE -/

/-- The checks of CLOSE in the order of spec 43 R228. -/
theorem closeChecks_tests (s : State) : List.Forall₂ EntryCheck.Tests (entryChecks .close s)
    [(s.devmode = .idle, .sessionError, 0), (s.pins.path ≠ .bitBang, .sessionError, 0),
     (s.notIn [.selectDRScan], .tapSequenceError, 0)] :=
  .cons ⟨beq_iff_eq, rfl⟩ (requireTap_tests _ s)

/-- The wave of CLOSE: the write-disable byte goes out most significant bit first (spec 43 R228, 20_memory R81). -/
theorem Wave.close_eq (p : Params) (k : Nat) :
    Wave.close p k = fun w => (((((w.sdr (byteBits p.fc.wrdi).reverse none none).sir (byteBits p.op.bypass)
      (some 32)).sir (byteBits p.op.iscDisable) (some 32)).sir (byteBits p.op.bypass) none).sir
      (byteBits p.op.lscRefresh) (some k)).reset := by
  funext w
  simp only [Wave.close, Wave.sirOp_eq, bitsOf_singleton, byteBits_rev8, Config.longIdleCycles]

/-- Settles O39: the checks in their order, then the scans of `closeScans`, the mode, and the release of the lines. -/
theorem closeCommand : Obligations.CloseCommand := by
  intro s hu
  refine ⟨⟨by decide, decode_encode .close⟩,
    refusesInOrder_of_tests (closeChecks_tests s) fun _ _ h => refuses_of_firstRefusal hu h, fun hopen htap => ?_⟩
  have hpass : firstRefusal (entryChecks .close s) = none := by
    refine firstRefusal_none_of_tests (closeChecks_tests s) ?_
    simp only [List.forall_mem_cons]
    exact ⟨hopen, not_not_intro htap.1, htap.not_notIn, nofun⟩
  have hrun := execClose_runs hpass
  have htime := closeScans_time (beginCommand .close s)
  have hattempt := closeScans_attempt (beginCommand .close s)
  obtain ⟨evs, k, hlines, hplays, hwait⟩ := closeScans_spec (beginCommand .close s)
  have hwave := hplays.segment
  generalize closeScans (beginCommand .close s) = c at *
  have hrelease := (release_spec { c with devmode := .idle }).1
  have hacts := (hlines.toMoves.acts.setMode .idle).trans hrelease.toMoves.acts
  have hwrote := ((hlines.wrote .close).setMode rfl).thenLines hrelease
  obtain ⟨t, hend, hends, hframe, heq⟩ := hacts.completes hwrote hu rfl rfl
  have hres := (hrelease.res.trans hlines.res).trans (beginCommand_res .close s)
  have hflags := (hrelease.flags.trans hlines.flags).trans (beginCommand_flags .close s)
  have hmismatch := hacts.mismatch
  rw [hflags, beginCommand_flags] at hmismatch
  rw [← hmismatch, hres, hrelease.devmode] at hframe
  rw [beginCommand_cfg] at hwait htime hwave
  rw [beginCommand_pins, Wave.close_eq] at hwave
  rw [beginCommand_env] at htime
  rw [beginCommand_counters] at hattempt
  refine ⟨t, evs, k, ⟨hrun.trans hend, hends⟩, ?_, hwait, ?_, hframe, ?_⟩ <;> rw [heq]
  · simpa using hwave
  · exact htime.trans hrelease.time
  · simpa using hattempt

end Sys2Proof.Machine
end

section
/-! PROOFS. IDENTIFY against the reference target (spec 43 R223, 20_memory R90 to R92, R96): the script brings its id
register into the data path from every state, and the 32 samples are that register. -/

namespace Sys2Proof.Machine

/-! ### Words and their bits -/

theorem numberBits_succ (n v : Nat) : numberBits (n + 1) v = v.testBit 0 :: numberBits n (v / 2) := by
  simp only [numberBits, List.range_succ_eq_map, List.map_cons, List.map_map, Function.comp_def, Nat.succ_eq_add_one,
    Nat.testBit_add_one]

/-- The first n bits of a number are the number below 2^n (spec 00_scope R14, 20_memory R80). -/
theorem wordOf_numberBits (n v : Nat) : wordOf (numberBits n v) = v % 2 ^ n := by
  induction n generalizing v with
  | zero => rw [Nat.pow_zero, Nat.mod_one]; rfl
  | succ n ih =>
    rw [numberBits_succ, wordOf, ih, Nat.pow_succ', Nat.mod_mul, Nat.testBit_zero]
    rcases Nat.mod_two_eq_zero_or_one v with h | h <;> simp [h]

/-- A word sent bit 0 first and captured again is the word. -/
theorem capturedWord_numberBits (w : Word) : capturedWord (numberBits 32 w.toNat) = w := by
  rw [capturedWord, wordOf_numberBits, Nat.mod_eq_of_lt w.isLt, BitVec.ofNat_toNat, BitVec.setWidth_eq]

/-! ### The reference target along the levels of its pulses -/

/-- The reference target after pulses with these levels (spec 20_memory R91). -/
def RefTarget.run (p : Params) (t : RefTarget) (levels : List (Bool × Bool)) : RefTarget :=
  levels.foldl (fun u l => (u.pulse p l.1 l.2).2) t

theorem RefTarget.run_append (p : Params) (t : RefTarget) (l1 l2 : List (Bool × Bool)) :
    t.run p (l1 ++ l2) = (t.run p l1).run p l2 := List.foldl_append

/-- The target as the block meets it ends where the reference target does. -/
theorem RefTarget.answers_snd (p : Params) (t : RefTarget) (levels : List (Bool × Bool)) :
    ((Target.reference t).answers p levels).2 = .reference (t.run p levels) := by
  induction levels generalizing t with
  | nil => rfl
  | cons l rest ih => exact ih (t.pulse p l.1 l.2).2

theorem Target.answers_append (p : Params) (x : Target) (l1 l2 : List (Bool × Bool)) :
    (x.answers p (l1 ++ l2)).1 = (x.answers p l1).1 ++ ((x.answers p l1).2.answers p l2).1 := by
  induction l1 generalizing x with
  | nil => rfl
  | cons l rest ih => exact congrArg (_ :: ·) (ih _)

theorem Target.answers_length (p : Params) (x : Target) (levels : List (Bool × Bool)) :
    (x.answers p levels).1.length = levels.length := by
  induction levels generalizing x with
  | nil => rfl
  | cons l rest ih => exact congrArg (· + 1) (ih _)

/-- Between two lists of events the target is in some state. -/
theorem answeredBy_append_inv {p : Params} {x z : Target} {e1 e2 : List Event} (h : answeredBy p x (e1 ++ e2) z) :
    ∃ y, answeredBy p x e1 y ∧ answeredBy p y e2 z := by
  induction e1 generalizing x with
  | nil => exact ⟨x, rfl, h⟩
  | cons e evs ih =>
    cases e with
    | pulse d tms tdi tdo =>
      obtain ⟨y, h1, h2⟩ := ih h.2
      exact ⟨y, ⟨h.1, h1⟩, h2⟩
    | _ => exact ih (x := x) h

/-! ### The reset (spec 20_memory R91) -/

theorem RefTarget.act_ts (p : Params) (t : RefTarget) (tdi : Bool) : (t.act p tdi).ts = t.ts := by
  unfold RefTarget.act
  repeat' split
  all_goals rfl

theorem RefTarget.act_refId (p : Params) (t : RefTarget) (tdi : Bool) : (t.act p tdi).refId = t.refId := by
  unfold RefTarget.act
  repeat' split
  all_goals rfl

theorem RefTarget.pulse_ts (p : Params) (t : RefTarget) (tms tdi : Bool) :
    (t.pulse p tms tdi).2.ts = delta t.ts tms := by
  rw [RefTarget.pulse, RefTarget.move, RefTarget.act_ts]
  split
  next h => exact h.symm
  next => rfl

theorem RefTarget.pulse_refId (p : Params) (t : RefTarget) (tms tdi : Bool) :
    (t.pulse p tms tdi).2.refId = t.refId := by
  rw [RefTarget.pulse, RefTarget.move]
  split <;> exact RefTarget.act_refId p t tdi

/-- A pulse that ends in Reset selects the id register and ends the passthrough. -/
theorem RefTarget.pulse_reset (p : Params) (t : RefTarget) (tms tdi : Bool) (h : delta t.ts tms = .reset) :
    (t.pulse p tms tdi).2.ir = p.op.readIdcode ∧ (t.pulse p tms tdi).2.through = false := by
  rw [RefTarget.pulse, RefTarget.move, RefTarget.act_ts, if_pos h]
  exact ⟨rfl, rfl⟩

theorem RefTarget.run_ts (p : Params) (t : RefTarget) (levels : List (Bool × Bool)) :
    (t.run p levels).ts = (levels.map Prod.fst).foldl delta t.ts := by
  induction levels generalizing t with
  | nil => rfl
  | cons l rest ih =>
    rw [List.map_cons, List.foldl_cons, ← t.pulse_ts p l.1 l.2]
    exact ih _

theorem RefTarget.run_refId (p : Params) (t : RefTarget) (levels : List (Bool × Bool)) :
    (t.run p levels).refId = t.refId := by
  induction levels generalizing t with
  | nil => rfl
  | cons l rest ih => exact (ih _).trans (t.pulse_refId p l.1 l.2)

/-- The reset of a script reaches Reset from every state of the target: five pulses bring it there, the sixth keeps it. -/
theorem RefTarget.run_reset (p : Params) (t : RefTarget) (tdi : Bool) :
    let u := t.run p ((List.replicate 6 true).map (·, tdi))
    u.ts = .reset ∧ u.ir = p.op.readIdcode ∧ u.through = false ∧ u.refId = t.refId := by
  intro u
  have hfive : delta (t.run p ((List.replicate 5 true).map (·, tdi))).ts true = .reset := by
    rw [RefTarget.run_ts]
    exact congrArg (delta · true) (afterOnes_five t.ts)
  have hu : u = ((t.run p ((List.replicate 5 true).map (·, tdi))).pulse p true tdi).2 := rfl
  obtain ⟨hir, hthrough⟩ := RefTarget.pulse_reset p _ true tdi hfive
  rw [← hu] at hir hthrough
  exact ⟨by rw [hu, RefTarget.pulse_ts, hfive], hir, hthrough, RefTarget.run_refId p t _⟩

/-! ### The instruction scan (spec 20_memory R91) -/

theorem RefTarget.run_toShiftIR (p : Params) {t : RefTarget} (tdi : Bool) (h : t.ts = .reset) :
    t.run p ([false, true, true, false, false].map (·, tdi)) = { t with ts := .shiftIR, isr := 0x01#8 } := by
  cases t
  cases h
  rfl

/-- The instruction register shifts down, the new bit at its top. -/
def shiftIn (isr : Byte) (bit : Bool) : Byte := (isr >>> 1) ||| (if bit then 0x80#8 else 0#8)

theorem shiftIn_getLsbD (isr : Byte) (bit : Bool) (i : Nat) (hi : i < 8) :
    (shiftIn isr bit).getLsbD i = if i = 7 then bit else isr.getLsbD (i + 1) := by
  have htop : (if bit then 0x80#8 else 0#8).getLsbD i = (decide (i = 7) && bit) := by
    cases bit <;> interval_cases i <;> rfl
  rw [shiftIn, BitVec.getLsbD_or, BitVec.getLsbD_ushiftRight, htop, Nat.add_comm 1 i]
  split
  next h => simp [h]
  next h => simp [h]

/-- Eight bits shifted in, bit 0 first, are the byte, whatever stood in the register. -/
theorem foldl_shiftIn_byteBits (op isr : Byte) : (byteBits op).foldl shiftIn isr = op := by
  have hbits : byteBits op = [op.getLsbD 0, op.getLsbD 1, op.getLsbD 2, op.getLsbD 3, op.getLsbD 4, op.getLsbD 5,
    op.getLsbD 6, op.getLsbD 7] := rfl
  refine BitVec.eq_of_getLsbD_eq fun i hi => ?_
  rw [hbits]
  interval_cases i <;> simp only [List.foldl_cons, List.foldl_nil, shiftIn_getLsbD, Nat.reduceAdd, Nat.reduceLT,
    Nat.reduceEqDiff, if_true, if_false]

/-- A whole instruction scan goes to Exit1IR and leaves its bits in the instruction register. -/
theorem RefTarget.run_shiftIR (p : Params) {t : RefTarget} (bits : List Bool) (h : t.ts = .shiftIR) (hb : bits ≠ []) :
    t.run p (wires (shiftEvents true bits)) = { t with ts := .exit1IR, isr := bits.foldl shiftIn t.isr } := by
  induction bits generalizing t with
  | nil => exact absurd rfl hb
  | cons b bs ih =>
    have hstep (tms : Bool) : (t.pulse p tms b).2 = { t with ts := delta .shiftIR tms, isr := shiftIn t.isr b } := by
      cases t
      cases h
      cases tms <;> rfl
    cases bs with
    | nil => exact hstep true
    | cons c cs =>
      have hrest := ih (t := (t.pulse p false b).2) (by rw [hstep]; rfl) (List.cons_ne_nil c cs)
      rw [hstep] at hrest
      exact (congrArg (RefTarget.run p · _) (hstep false)).trans hrest

/-- From Exit1IR the instruction takes effect; a new one ends the passthrough (spec 20_memory R93). -/
theorem RefTarget.run_updateIR (p : Params) {t : RefTarget} (tdi : Bool) (h : t.ts = .exit1IR) :
    t.run p ([false, true, true, true].map (·, tdi)) =
      { t with ts := .selectDRScan, ir := t.isr, through := t.through && (t.isr == t.ir) } := by
  cases t
  cases h
  rfl

/-! ### The data scan (spec 20_memory R92, R96) -/

theorem RefTarget.run_toShiftDR (p : Params) {t : RefTarget} (tdi : Bool) (h : t.ts = .selectDRScan) :
    t.run p ([false, false].map (·, tdi)) = { t with ts := .shiftDR, frame := [], dsr := t.capture p } := by
  cases t
  cases h
  rfl

/-- Without passthrough a data scan answers the captured bits in their order (spec 20_memory R92, R96). -/
theorem RefTarget.answers_shiftDR (p : Params) {t : RefTarget} (bits : List Bool) (h : t.ts = .shiftDR)
    (hthrough : t.through = false) (hlen : bits.length ≤ t.dsr.length) :
    ((Target.reference t).answers p (wires (shiftEvents true bits))).1 = t.dsr.take bits.length := by
  induction bits generalizing t with
  | nil => rfl
  | cons b bs ih =>
    have hstep (tms : Bool) : t.pulse p tms b =
        (t.dsr.headD false, { t with ts := delta .shiftDR tms, dsr := t.dsr.tail ++ [b] }) := by
      cases t
      cases h
      cases hthrough
      cases tms <;> rfl
    obtain ⟨d, ds, hds⟩ : ∃ d ds, t.dsr = d :: ds := List.exists_cons_of_length_pos (by simp at hlen; omega)
    have hshort : bs.length ≤ ds.length := by simpa [hds] using hlen
    have hrest : ((Target.reference (t.pulse p (true && bs.isEmpty) b).2).answers p
        (wires (shiftEvents true bs))).1 = ds.take bs.length := by
      cases bs with
      | nil => rfl
      | cons c cs =>
        have hdsr : (t.pulse p false b).2.dsr = ds ++ [b] := by rw [hstep, hds]; rfl
        have hlast := ih (t := (t.pulse p false b).2) (by rw [hstep]; rfl) (by rw [hstep]; exact hthrough)
          (by rw [hdsr, List.length_append]; exact Nat.le_add_right_of_le hshort)
        rw [hdsr, List.take_append_of_le_length hshort] at hlast
        exact hlast
    have hfirst : (t.pulse p (true && bs.isEmpty) b).1 = d := by rw [hstep, hds]; rfl
    rw [hds, List.length_cons, List.take_succ_cons]
    exact congrArg₂ (· :: ·) hfirst hrest

/-! ### The levels of the script -/

theorem Wave.tms_wires (l : List Bool) (w : Wave) : wires (w.tms l).events = wires w.events ++ l.map (·, w.tdi) := by
  have hlevels : wires (l.map fun b => .pulse .bb b w.tdi false) = l.map (·, w.tdi) := by
    induction l with
    | nil => rfl
    | cons b bs ih => exact congrArg ((b, w.tdi) :: ·) ih
  rw [Wave.tms, wires_append, hlevels]

theorem Wave.shift_wires (last : Bool) (bits : List Bool) (w : Wave) :
    wires (w.shift last bits).events = wires w.events ++ wires (shiftEvents last bits) := wires_append _ _

/-- The levels of a script's start and its first instruction scan (spec 30_encoding R121). -/
theorem Wave.startSir_wires (bits : List Bool) (tdi : Bool) :
    ∃ last, wires (((Wave.start tdi).reset.idle 1).sir bits none).events =
      (List.replicate 6 true).map (·, tdi) ++ [false, true, true, false, false].map (·, tdi) ++
        wires (shiftEvents true bits) ++ [false, true, true, true].map (·, last) := by
  refine ⟨bits.getLastD tdi, ?_⟩
  simp only [Wave.sir, Wave.tail, Wave.idle, Wave.reset, Wave.tms_wires, Wave.shift_wires, List.append_assoc]
  rfl

/-- The levels of a data scan without a tail. -/
theorem Wave.sdr_wires (bits : List Bool) (tdi : Bool) :
    ∃ rest, wires ((Wave.start tdi).sdr bits none none).events =
      [false, false].map (·, tdi) ++ wires (shiftEvents true bits) ++ rest := by
  refine ⟨[false, true, true, true].map (·, bits.getLastD tdi), ?_⟩
  simp only [Wave.sdr, Wave.tail, Wave.tms_wires, Wave.shift_wires, List.append_assoc]
  rfl

theorem segment_wires {before after : Bool} {evs : List Event} {f : Wave → Wave} (h : segment before evs f after) :
    wires evs = wires (f (Wave.start before)).events := by
  have hwave : f (Wave.start before) = _ := h
  rw [hwave, wires_blind]

/-! ### IDENTIFY -/

/-- The script's start and the scan of the id instruction leave the target in SelectDRScan with the id register selected
and no passthrough, from every state (spec 20_memory R91, R92). -/
theorem RefTarget.run_selectsId (p : Params) (t : RefTarget) (tdi : Bool) :
    let u := t.run p (wires (((Wave.start tdi).reset.idle 1).sir (byteBits p.op.readIdcode) none).events)
    u.ts = .selectDRScan ∧ u.ir = p.op.readIdcode ∧ u.through = false ∧ u.refId = t.refId := by
  intro u
  obtain ⟨last, hlevels⟩ := Wave.startSir_wires (byteBits p.op.readIdcode) tdi
  obtain ⟨hts, -, hthrough, hid⟩ := t.run_reset p tdi
  have hu : u = _ := congrArg (t.run p) hlevels
  simp only [RefTarget.run_append] at hu
  generalize t.run p ((List.replicate 6 true).map (·, tdi)) = r at *
  rw [RefTarget.run_toShiftIR p tdi hts, RefTarget.run_shiftIR p _ rfl (byteBits_ne_nil _),
    RefTarget.run_updateIR p last rfl, foldl_shiftIn_byteBits] at hu
  rw [hu]
  exact ⟨rfl, rfl, by simp [hthrough], hid⟩

/-- A data scan of 32 bits from there answers the id (spec 20_memory R92, R96). -/
theorem RefTarget.answers_id (p : Params) {t : RefTarget} (tdi : Bool) (hts : t.ts = .selectDRScan)
    (hir : t.ir = p.op.readIdcode) (hthrough : t.through = false) :
    ((((Target.reference t).answers p
      (wires ((Wave.start tdi).sdr (List.replicate 32 false) none none).events)).1).drop 2).take 32 =
      numberBits 32 t.refId.toNat := by
  obtain ⟨rest, hlevels⟩ := Wave.sdr_wires (List.replicate 32 false) tdi
  have hcapture : t.capture p = numberBits 32 t.refId.toNat := by rw [RefTarget.capture, if_pos hir]
  have hentry : ((Target.reference t).answers p ([false, false].map (·, tdi))).1.length = 2 :=
    Target.answers_length p _ _
  have hdata := RefTarget.answers_shiftDR p (t := { t with ts := .shiftDR, frame := [], dsr := t.capture p })
    (List.replicate 32 false) rfl hthrough (by rw [hcapture, numberBits_length, List.length_replicate])
  rw [hlevels, List.append_assoc, Target.answers_append, Target.answers_append, RefTarget.answers_snd,
    RefTarget.run_toShiftDR p tdi hts, hdata, hcapture, List.length_replicate,
    List.take_of_length_le (numberBits_length ..).le, List.drop_left' hentry, List.take_left' (numberBits_length ..)]

/-- The word the scans of IDENTIFY return from a reference target is the target's id. -/
theorem identifyScan_reference {s : State} {r : RefTarget} (h : s.env.target = .reference r) :
    (identifyScan s).1 = r.refId := by
  obtain ⟨e1, scan, x, hlines, hopen, hscan, hword⟩ := identifyScan_spec s
  simp only [Wave.sirOp_eq, Wave.scriptStart_eq] at hopen
  obtain ⟨y, hfirst, hsecond⟩ := answeredBy_append_inv hlines.target
  obtain ⟨hts, hir, hthrough, hid⟩ := r.run_selectsId s.cfg s.pins.tdi
  rw [← segment_wires hopen] at hts hir hthrough hid
  have hy : Target.reference (r.run s.cfg (wires e1)) = y := by
    rw [← RefTarget.answers_snd, ← h, answers_of_answeredBy hfirst]
  have hsamples : samplesOf scan = _ := (congrArg Prod.fst (answers_of_answeredBy hsecond)).symm
  rw [← hy, segment_wires hscan] at hsamples
  have hbits := RefTarget.answers_id s.cfg x hts hir hthrough
  rw [hword, scannedWord, hsamples, ← capturedWord_numberBits r.refId, ← hid]
  exact congrArg capturedWord hbits

/-- Settles O36: the word of the scans, which the acquisition before them and the end of the command leave alone. -/
theorem identifyReturnsReferenceId : Obligations.IdentifyReturnsReferenceId := by
  intro s r hu htarget
  obtain ⟨e1, scan, x, hlines, -⟩ := identifyScan_spec (acquireIfReleased (beginCommand .identify s))
  obtain ⟨t, hruns, hres, -⟩ := identify_completes hu rfl hlines
  have hkept := (acquireIfReleased_beginCommand .identify s).target.trans htarget
  exact ⟨t, hruns.1, hruns.2.err, hres.trans (identifyScan_reference hkept)⟩

end Sys2Proof.Machine
end

section
/-! PROOFS. POLL (spec 44 R240 to R244) and READ (R250): their refusals in order, their frames, what they leave, and
that a poll ends. -/

namespace Sys2Proof.Machine

/-! ### POLL: its run -/

theorem pollStatus_path (attempts delay : Nat) (s : State) :
    (pollStatus attempts delay s).2.pins.path = s.pins.path := pollLoop_path _ _ _ _

/-- The end of a flash command that has also written R_RES. -/
theorem FlashOp.endPolled_setRes {i : Instr} {s u : State} {evs : List Event} (h : FlashOp (beginCommand i s) u evs)
    (hu : s.undisturbed) (timedOut : Bool) (info : Nat) (r : Word) :
    ∃ t, Machine.endPolled timedOut info { u with res := r } = .next t ∧ EndsPolled s t timedOut info evs ∧
      t = { u with res := r, ctl := t.ctl, trace := t.trace, port := t.port } ∧
      onlyLines { s with fsr := u.fsr, flags := u.flags, res := r } t := by
  have hacts := h.toMoves.acts.setRes r
  have hends (e : ErrorKind) (n : Nat) := hacts.endsWith hu e n
  obtain ⟨t0, -, -, heq0, hframe⟩ := h.endPolled hu timedOut info
  refine ⟨_, rfl, ?_, ?_⟩
  · cases timedOut
    · exact hends .ok 0
    · exact hends .statusTimeout info
  · obtain ⟨e, n, heq⟩ := endPolled_next (b := timedOut) (info := info) (s := { u with res := r }) rfl
    rw [heq]
    obtain ⟨heq, -⟩ := endCommand_eq e n _ (hacts.undisturbed (beginCommand_undisturbed i s hu))
    generalize endCommand e n { u with res := r } = t at *
    have hfields : t = { u with res := r, ctl := t.ctl, trace := t.trace, port := t.port } := by rw [heq]
    refine ⟨hfields, ?_⟩
    unfold onlyLines at *
    rw [heq0] at hframe
    rw [hfields]
    exact congrArg (fun x : State => { x with res := r, ctl := t.ctl, trace := t.trace, port := t.port }) hframe

/-- A POLL that is not refused, from s to t: what it emits, how it ends, what it leaves, and the target's answers. -/
structure PollRun (s t : State) (evs : List Event) (sr : Byte) (timedOut : Bool) : Prop where
  runs : exec .poll s = .next t
  ends : EndsPolled s t timedOut 0 evs
  trace : PollTrace s.cfg s.regs.dly.toNat s.regs.att.toNat s.pins.tdi s.fsr evs sr timedOut
  time : s.env.clock.time + waited evs ≤ t.env.clock.time
  frame : onlyLines { s with fsr := sr, flags.timeout := s.flags.timeout || timedOut
                             res := if s.regs.att = 0#32 then s.res else sr.setWidth 32 } t
  attempt : t.counters.attempt = s.regs.att.toNat - waitCount evs
  tap : t.inTap .selectDRScan
  irsr : t.banks.irsr = s.banks.irsr
  cyccnt : t.counters.cyccnt = s.counters.cyccnt
  target : answeredBy s.cfg s.env.target evs t.env.target

theorem poll_passes {s : State} (hmode : s.devmode = .configuredForFlash) (htap : s.inTap .selectDRScan) :
    firstRefusal (entryChecks .poll s) = none := by
  refine firstRefusal_none_of_tests (requireFlash_tests s) ?_
  simp only [List.forall_mem_cons]
  exact ⟨not_not_intro hmode, not_not_intro htap.1, htap.not_notIn, nofun⟩

/-- POLL is its poll, then one write of R_RES, which with no attempts writes what it held (spec 44 R243). -/
theorem execPoll_writes {s : State} (hpass : firstRefusal (entryChecks .poll s) = none) :
    let p := pollStatus s.regs.att.toNat s.regs.dly.toNat (beginCommand .poll s)
    exec .poll s = endPolled p.1.2 0
      { p.2 with res := if s.regs.att = 0#32 then s.res else p.1.1.setWidth 32 } := by
  intro p
  obtain ⟨_, hop, -⟩ := pollStatus_spec s.regs.att.toNat s.regs.dly.toNat (beginCommand .poll s)
  have hold : p.2.res = s.res := hop.res.trans (beginCommand_res .poll s)
  rw [execPoll_runs hpass]
  by_cases h : s.regs.att = 0#32
  · simp only [if_pos h, ← hold]
    rfl
  · simp only [if_neg h]
    rfl

theorem poll_run {s : State} (hu : s.undisturbed) (hmode : s.devmode = .configuredForFlash)
    (htap : s.inTap .selectDRScan) : ∃ t evs sr timedOut, PollRun s t evs sr timedOut := by
  have hrun := execPoll_writes (poll_passes hmode htap)
  have hbegin := htap.beginCommand .poll
  have hpath := pollStatus_path s.regs.att.toNat s.regs.dly.toNat (beginCommand .poll s)
  have htapAfter := pollStatus_tapAt s.regs.att.toNat s.regs.dly.toNat hbegin.2
  have hirsr := pollStatus_irsr s.regs.att.toNat s.regs.dly.toNat hbegin.2
  have hcyccnt := pollStatus_cyccnt s.regs.att.toNat s.regs.dly.toNat (beginCommand .poll s)
  obtain ⟨evs, hop, htrace, hfsr, htimeout, hmismatch⟩ :=
    pollStatus_spec s.regs.att.toNat s.regs.dly.toNat (beginCommand .poll s)
  have hattempt := pollStatus_attempt s.regs.att.toNat s.regs.dly.toNat (beginCommand .poll s) hop.trace
  generalize pollStatus s.regs.att.toNat s.regs.dly.toNat (beginCommand .poll s) = p at *
  obtain ⟨⟨sr, timedOut⟩, u⟩ := p
  obtain ⟨t, hend, hends, heq, hframe⟩ :=
    hop.endPolled_setRes hu timedOut 0 (if s.regs.att = 0#32 then s.res else sr.setWidth 32)
  have hflags : u.flags = { mismatch := s.flags.mismatch, timeout := s.flags.timeout || timedOut } := by
    rw [← beginCommand_flags .poll s, ← hmismatch, ← htimeout]
  simp only [beginCommand_cfg, beginCommand_pins, beginCommand_banks, beginCommand_counters, beginCommand_fsr]
    at htrace hpath hirsr hcyccnt
  have htime := hop.time
  have htarget := hop.target
  rw [beginCommand_env] at htime htarget
  rw [beginCommand_cfg] at htarget
  rw [hflags, hfsr] at hframe
  refine ⟨t, evs, sr, timedOut, hrun.trans hend, hends, htrace, ?_, hframe, ?_, ?_, ?_, ?_, ?_⟩ <;> rw [heq]
  · exact htime
  · exact hattempt
  · exact ⟨hpath.trans htap.1, htapAfter⟩
  · exact hirsr
  · exact hcyccnt
  · exact htarget

/-- Settles O40: the checks in their order, then the run of the poll. -/
theorem pollCommand : Obligations.PollCommand := by
  intro s hu
  refine ⟨⟨by decide, decode_encode .poll⟩,
    refusesInOrder_of_tests (requireFlash_tests s) fun _ _ h => refuses_of_firstRefusal hu h, fun hmode htap => ?_⟩
  obtain ⟨t, evs, sr, timedOut, h⟩ := poll_run hu hmode htap
  exact ⟨t, evs, sr, timedOut, h.runs, h.ends, h.trace, h.time, h.frame, h.attempt, h.tap, h.irsr, h.cyccnt⟩

/-! ### POLL: its end -/

theorem pulseCount_pulse (d : Driver) (tms tdi tdo : Bool) (evs : List Event) :
    pulseCount (.pulse d tms tdi tdo :: evs) = pulseCount evs + 1 := List.countP_cons_of_pos rfl

/-- As many pulses as listed samples take exactly these. -/
theorem answeredBy_listed {p : Params} {listed more : List Bool} {drawn : Nat} {evs : List Event} {after : Target}
    (h : answeredBy p (.samples (listed ++ more) drawn) evs after) (hl : listed.length = pulseCount evs) :
    samplesOf evs = listed ∧ after = .samples more drawn := by
  induction evs generalizing listed with
  | nil =>
    obtain rfl := List.length_eq_zero_iff.1 hl
    exact ⟨rfl, h⟩
  | cons e evs ih =>
    cases e with
    | pulse d tms tdi tdo =>
      cases listed with
      | nil => cases hl.trans (pulseCount_pulse ..)
      | cons b listed =>
        obtain ⟨rfl, hrest⟩ := h
        obtain ⟨hsamples, hafter⟩ := ih hrest (Nat.succ.inj (hl.trans (pulseCount_pulse ..)))
        exact ⟨congrArg (_ :: ·) hsamples, hafter⟩
    | _ => exact ih h hl

/-- A status of eight ones shows whatever a mask asks for. -/
theorem allOnes_and_ne_zero {wip : Byte} (wel : Byte) (h : wip ≠ 0#8) : 0xFF#8 &&& (wip ||| wel) ≠ 0#8 := by
  have hones : 0xFF#8 = BitVec.allOnes 8 := rfl
  rw [hones, BitVec.allOnes_and]
  exact fun h0 => h (BitVec.or_eq_zero_iff.1 h0).1

/-- A status frame answered by ones alone reads eight ones, so the poll goes on to its last attempt. -/
theorem PollTrace.timedOut_of_ones {p : Params} {delay n : Nat} {tdi : Bool} {before sr : Byte} {evs : List Event}
    {timedOut : Bool} {drawn : Nat} {after : Target} (h : PollTrace p delay n tdi before evs sr timedOut)
    (hwip : p.srWip ≠ 0#8) (ht : answeredBy p (.samples (List.replicate (22 * n) true) drawn) evs after) :
    timedOut = true := by
  induction n generalizing tdi before evs with
  | zero => exact h.2.2
  | succ n ih =>
    obtain ⟨scan, hframe, hnext⟩ := h
    have hpulses : (List.replicate 22 true).length = pulseCount scan := (frame_counts hframe).1.symm
    rw [Nat.mul_succ, Nat.add_comm, List.replicate_add] at ht
    have hstatus (hs : samplesOf scan = List.replicate 22 true) : statusOf scan = 0xFF#8 := by
      rw [statusOf, hs]
      decide
    split at hnext
    case isTrue hdone =>
      obtain ⟨rfl, -⟩ := hnext
      rw [hstatus (answeredBy_listed ht hpulses).1] at hdone
      exact absurd hdone (allOnes_and_ne_zero _ hwip)
    case isFalse =>
      obtain ⟨rest, rfl, hrest⟩ := hnext
      obtain ⟨mid, hscan, hafter⟩ := answeredBy_append_inv ht
      obtain ⟨-, rfl⟩ := answeredBy_listed hscan hpulses
      exact ih hrest hafter

theorem EndsPolled.events {s t : State} {timedOut : Bool} {info : Nat} {evs : List Event}
    (h : EndsPolled s t timedOut info evs) : ∃ code i, newEvents s t (evs ++ [.done code i]) := by
  cases timedOut
  · exact ⟨_, _, EndsWith.events h⟩
  · exact ⟨_, _, EndsWith.events h⟩

theorem EndsPolled.err {s t : State} {timedOut : Bool} {info : Nat} {evs : List Event}
    (h : EndsPolled s t timedOut info evs) : t.ctl.err = if timedOut then .statusTimeout else .ok := by
  cases timedOut
  · exact EndsWith.err h
  · exact EndsWith.err h

/-- Settles O41: the counts of the poll's events, and its answers where the target answers ones. -/
theorem pollNeverHangs : Obligations.PollNeverHangs := by
  intro s hu hmode htap
  obtain ⟨t, evs, sr, timedOut, h⟩ := poll_run hu hmode htap
  obtain ⟨code, info, hnew⟩ := h.ends.events
  have herr := h.ends.err
  have hflags : t.flags = { s.flags with timeout := s.flags.timeout || timedOut } := congrArg State.flags h.frame
  obtain ⟨m, hm, hpulses, hout, hin⟩ := pollTrace_counts h.trace
  have hdoneWaits : waitCount (evs ++ [.done code info]) = waitCount evs := waitCount_append evs [.done code info]
  refine ⟨t, _, m, h.runs, hnew, hm, (pulseCount_append evs [.done code info]).trans hpulses, ?_,
    fun drawn hwip htarget => ?_⟩
  · rw [hdoneWaits, hflags, herr]
    cases timedOut with
    | false =>
      obtain ⟨hpos, hwaits⟩ := hin rfl
      exact .inl ⟨rfl, hpos, hwaits, by rw [Bool.or_false]⟩
    | true =>
      obtain ⟨rfl, hwaits⟩ := hout rfl
      exact .inr ⟨rfl, rfl, hwaits, Bool.or_true _⟩
  · have hones := h.target
    rw [htarget] at hones
    rw [herr, h.trace.timedOut_of_ones hwip hones]
    rfl

/-! ### READ -/

/-- The checks of READ in the order of spec 44 R250. -/
theorem readChecks_tests (s : State) : List.Forall₂ EntryCheck.Tests (entryChecks .read s)
    [(2 ^ 24 ≤ s.regs.addr.toNat ∨ 2 ^ 24 < s.regs.addr.toNat + s.regs.len.toNat, .addressRangeError,
       s.regs.addr.toNat),
     (s.regs.len.toNat = 0 ∨ s.cfg.eraseBlock < s.regs.len.toNat ∨ ¬s.inBuf s.regs.len.toNat, .operandError, 0),
     (s.devmode ≠ .configuredForFlash, .sessionError, 0), (s.pins.path ≠ .bitBang, .sessionError, 0),
     (s.notIn [.selectDRScan], .tapSequenceError, 0)] :=
  List.rel_append (List.rel_append (requireRange_tests s) (requireLength_tests s _)) (requireFlash_tests s)

/-- A block read from SelectDRScan leaves the lines acquired and the TAP there. -/
theorem readBlock_inTap {s : State} (a n : Nat) (h : s.inTap .selectDRScan) :
    (readBlock a n s).2.inTap .selectDRScan :=
  ⟨(readBlock_steady a n s).path h.1, readBlock_tapAt a n h.2⟩

/-- READ is its block read, then one write of BUF (spec 44 R250). -/
theorem execRead_writes {s : State} (hpass : firstRefusal (entryChecks .read s) = none) :
    let r := readBlock s.regs.addr.toNat s.regs.len.toNat (beginCommand .read s)
    exec .read s = complete { r.2 with buf := s.buf.writeRange s.regs.buf.toNat r.1 } := by
  intro r
  obtain ⟨_, hlines, -⟩ := readBlock_spec s.regs.addr.toNat s.regs.len.toNat (beginCommand .read s)
  have hold : r.2.buf = s.buf := hlines.buf.trans (beginCommand_buf _ s)
  rw [execRead_runs hpass, ← hold]

/-- Settles O44: the checks in their order, then the wave and the end of `readBlock`, whose bytes are written to BUF. -/
theorem readCommand : Obligations.ReadCommand := by
  intro s hu a n
  refine ⟨⟨by decide, decode_encode .read⟩,
    refusesInOrder_of_tests (readChecks_tests s) fun _ _ h => refuses_of_firstRefusal hu h,
    fun hrange hfit hpos hmost hin hmode htap => ?_⟩
  have hpass : firstRefusal (entryChecks .read s) = none := by
    refine firstRefusal_none_of_tests (readChecks_tests s) ?_
    simp only [List.forall_mem_cons]
    exact ⟨not_or.2 ⟨Nat.not_le.2 hrange, Nat.not_lt.2 hfit⟩,
      not_or.2 ⟨hpos, not_or.2 ⟨Nat.not_lt.2 hmost, not_not_intro hin⟩⟩, not_not_intro hmode,
      not_not_intro htap.1, htap.not_notIn, nofun⟩
  have hrun := execRead_writes hpass
  have hbegin := htap.beginCommand .read
  have htapAfter := readBlock_inTap a n hbegin
  have hbanks := readBlock_banks a n hbegin.2
  have hcounters := readBlock_counters a n (beginCommand .read s)
  obtain ⟨evs, hlines, hplays, hbytes, hcount⟩ := readBlock_spec a n (beginCommand .read s)
  simp only [beginCommand_cfg, beginCommand_banks, beginCommand_counters] at hplays hbytes hbanks hcounters
  generalize readBlock a n (beginCommand .read s) = r at *
  obtain ⟨t, hend, hends, hwave, hframe, heq⟩ :=
    hlines.completes_setBuf hplays hu (s.buf.writeRange s.regs.buf.toNat r.1)
  have hnew : t.buf = s.buf.writeRange s.regs.buf.toNat r.1 := by rw [heq]
  rw [← hnew] at hframe
  rw [hbytes] at hnew hcount
  refine ⟨t, evs, ⟨hrun.trans hend, hends⟩, hwave, fun j hj => ?_, hcount, fun b hb => ?_, hframe, ?_, ?_, ?_⟩
  · rw [hnew]
    exact Memory.read_writeRange_inside _ _ _ _ hj
  · rw [hnew]
    exact Memory.read_writeRange_outside _ _ _ _ (by rwa [hcount])
  · rw [heq]
    exact htapAfter
  · rw [heq]
    exact hbanks
  · rw [heq]
    exact hcounters

end Sys2Proof.Machine
end

section
/-! PROOFS. A chunk of UPLOAD against what the flash holds: the classification (spec 44 R253, R254), the retry loop
(R257, R264) and one program attempt (R258). -/

namespace Sys2Proof.Machine

/-! ### Classification -/

/-- Some pair of two lists of one length passes a test iff some index does. -/
theorem any_zip_iff {flash image : List Byte} (hl : flash.length = image.length) (test : Byte × Byte → Bool) :
    (flash.zip image).any test = true ↔
      ∃ j < image.length, test (flash.getD j 0#8, image.getD j 0#8) = true := by
  induction flash generalizing image with
  | nil =>
    obtain rfl := List.length_eq_zero_iff.1 hl.symm
    simp
  | cons f flash ih =>
    cases image with
    | nil => simp at hl
    | cons i image =>
      rw [List.zip_cons_cons, List.any_cons, Bool.or_eq_true, ih (Nat.succ.inj hl)]
      constructor
      · rintro (h | ⟨j, hj, h⟩)
        · exact ⟨0, Nat.succ_pos _, h⟩
        · exact ⟨j + 1, Nat.succ_lt_succ hj, h⟩
      · rintro ⟨_ | j, hj, h⟩
        · exact .inl h
        · exact .inr ⟨j, Nat.lt_of_succ_lt_succ hj, h⟩

theorem mustErase_iff {flash image : List Byte} (hl : flash.length = image.length) :
    mustErase flash image = true ↔
      ∃ j < image.length, (flash.getD j 0#8 &&& image.getD j 0#8) ≠ image.getD j 0#8 := by
  simp only [mustErase, any_zip_iff hl, bne_iff_ne]

theorem differs_iff {flash image : List Byte} (hl : flash.length = image.length) :
    differs flash image = true ↔ ∃ j < image.length, flash.getD j 0#8 ≠ image.getD j 0#8 := by
  simp only [differs, any_zip_iff hl, bne_iff_ne]

/-- An image byte the flash byte does not cover has a bit that is 1 where the flash bit is 0. -/
theorem and_ne_right_iff (f i : Byte) :
    (f &&& i) ≠ i ↔ ∃ k < 8, i.getLsbD k = true ∧ f.getLsbD k = false := by
  rw [ne_eq, BitVec.eq_of_getLsbD_eq_iff]
  simp only [BitVec.getLsbD_and, Bool.and_eq_right_iff_imp, not_forall, Bool.not_eq_true, exists_prop]

section Classify
variable {flash image : List Byte} (e : EraseSafe)

theorem classify_mustErase (h : mustErase flash image = true) :
    classify e flash image = if EraseSafe.holds e flash image then .eraseThenWrite else .unerasable := if_pos h

theorem classify_writeOnly (h : ¬mustErase flash image = true) (hd : differs flash image = true) :
    classify e flash image = .writeOnly := (if_neg h).trans (if_pos hd)

theorem classify_noOp (h : ¬mustErase flash image = true) (hd : ¬differs flash image = true) :
    classify e flash image = .noOp := (if_neg h).trans (if_neg hd)

/-- NoOp says that the flash holds the image (spec 44 R253). -/
theorem classify_eq_noOp_iff (hl : flash.length = image.length) : classify e flash image = .noOp ↔ flash = image := by
  constructor
  · intro h
    have hm : ¬mustErase flash image = true := fun hm => by
      rw [classify_mustErase e hm] at h
      split at h <;> cases h
    have hd : ¬differs flash image = true := fun hd => by
      rw [classify_writeOnly e hm hd] at h
      cases h
    rw [differs_iff hl] at hd
    refine List.ext_getElem hl fun j hf hi => ?_
    by_contra hne
    exact hd ⟨j, hi, by rwa [List.getD_eq_getElem _ _ hf, List.getD_eq_getElem _ _ hi]⟩
  · rintro rfl
    refine classify_noOp e ?_ ?_
    · simp [mustErase_iff]
    · simp [differs_iff]

end Classify

/-- Settles O46: the three branches of `classify`, and what its first test says of the bits. -/
theorem classifyOutcomes : Obligations.ClassifyOutcomes := by
  intro e flash image hl must differ
  have hmust : mustErase flash image = true ↔ must := mustErase_iff hl
  have hdiffer : differs flash image = true ↔ differ := differs_iff hl
  refine ⟨fun h => classify_mustErase e (hmust.2 h),
    fun h hd => classify_writeOnly e (mt hmust.1 h) (hdiffer.2 hd),
    fun h hd => classify_noOp e (mt hmust.1 h) (mt hdiffer.1 hd), ?_⟩
  simp only [must, and_ne_right_iff]

/-! ### The retry loop -/

theorem chunkBytes_length {s : State} (h : s.work.chunklen ≤ s.work.chunk.length) :
    s.chunkBytes.length = s.work.chunklen := List.length_take_of_le h

theorem OnChunk.chunkBytes {s t : State} {evs : List Event} (h : OnChunk s t evs) : t.chunkBytes = s.chunkBytes := by
  rw [State.chunkBytes, h.chunk, h.chunklen]
  rfl

/-- Settles O48: the answer of the loop, and that NoOp says the chunk was read back. -/
theorem retryLoopAnswers : Obligations.RetryLoopAnswers := by
  intro s hv hle hzero r
  have hp := Params.uploadParams hv
  obtain ⟨evs, hon, -, hanswer, -, hretry, hread⟩ := retryLoop_spec 3 s hp.eraseWidth hp.writeWidth
  rw [hzero, Nat.zero_add] at hretry
  refine ⟨hretry, hon.chunkBytes, hon.faddr, fun hnone => ?_, fun e hsome => ?_⟩
  · obtain ⟨read, hscratch, hlen, hcls⟩ := hread hnone
    rw [classify_eq_noOp_iff _ (hlen.trans (chunkBytes_length hle).symm)] at hcls
    exact hscratch.trans hcls
  · rw [show (retryLoop 3 s).1 = some e from hsome, RetryAnswer, hzero, Nat.zero_add] at hanswer
    exact hanswer.imp_right fun ⟨hfailure, hcls, hthree⟩ => ⟨hfailure, hthree, hcls⟩

/-- A comparison that finds no difference ends the loop, whatever attempts are left (spec 44 R257). -/
theorem retryLoop_noOp (left : Nat) {s : State} (h : (compareChunk s).work.cls = .noOp) :
    retryLoop left s = (none, compareChunk s) := by
  unfold retryLoop
  simp only [h]

/-- A comparison makes no event but those of its read. -/
theorem compareChunk_trace (s : State) :
    (compareChunk s).trace = (readBlock s.work.faddr s.work.chunklen s).2.trace := by rw [compareChunk]

theorem compareChunk_env (s : State) :
    (compareChunk s).env = (readBlock s.work.faddr s.work.chunklen s).2.env := by rw [compareChunk]

/-- Settles O49: the loop ends at its first comparison, which is the read and two registers of its own. -/
theorem matchingChunkUntouched : Obligations.MatchingChunkUntouched := by
  intro s left hle hmatch r
  have hcls : (compareChunk s).work.cls = .noOp := by
    rw [compareChunk, hmatch]
    exact (classify_eq_noOp_iff _ rfl).2 rfl
  obtain ⟨_, _, -, -, -, -, -, hwork, -⟩ := compareChunk_spec s
  have hr : r = (none, compareChunk s) := retryLoop_noOp left hcls
  rw [hr, hwork]
  exact ⟨rfl, rfl, rfl, rfl, compareChunk_trace s, compareChunk_env s⟩

/-! ### One program attempt -/

/-- Work on a chunk leaves all but the lines, FSR, the flags and UPLOAD's registers. -/
theorem OnChunk.onlyLines {s t : State} {evs : List Event} (h : OnChunk s t evs) :
    Machine.onlyLines { s with fsr := t.fsr, flags := t.flags, work := t.work } t := by
  rw [Machine.onlyLines]
  simp only [← h.cfg, ← h.devmode, ← h.regs, ← h.res, ← h.stats, ← h.buf, ← h.source]

end Sys2Proof.Machine

namespace Sys2Proof
open Machine

/-- Settles O57: the events and records of the attempt, and what it keeps as any work on a chunk does. -/
theorem programAttempt : Obligations.ProgramAttempt := by
  intro s hv hpos hle t erase
  have hp := Params.uploadParams hv
  obtain ⟨evs, sr, timedOut, wrote, ⟨hnew, hfsr, htimeout⟩, htrace, htdi, hwork⟩ :=
    programAttempt_trace s (chunkBytes_length hle) hpos ⟨hp.writeBlock, hp.erase, hp.write⟩
      ⟨hp.eraseWidth, hp.writeWidth⟩
  obtain ⟨evs', _, _, hon, hsteady, -⟩ := programAttempt_spec s hp.eraseWidth hp.writeWidth
  obtain rfl : evs' = evs := newEvents_unique hon.trace hnew
  have hflags : t.flags = { mismatch := s.flags.mismatch || evs'.any Event.isMismatch
                            timeout := s.flags.timeout || timedOut } := by
    rw [← hon.mismatch, ← htimeout]
  have hframe : onlyLines { s with fsr := t.fsr, flags := t.flags, work := t.work } t := hon.onlyLines
  rw [hfsr, hflags, hwork] at hframe
  exact ⟨evs', sr, timedOut, wrote, hnew, htrace, hframe, htdi,
    fun htap => ⟨hsteady.path htap.1, programAttempt_tapAt htap.2⟩, hon.time⟩

end Sys2Proof
end

section
/-! PROOFS. The rules over all commands of spec 60: the session (R291, R292), refusals (R283), what each command needs
(R294), and where a raise can happen and the state it leaves (R286). -/

namespace Sys2Proof.Machine

/-! ### The session: ACQUIRE and RELEASE -/

/-- Settles O21: the one check, then `acquire()` and its event. -/
theorem acquireCommand : Obligations.AcquireCommand := by
  intro s hu
  have htests : List.Forall₂ EntryCheck.Tests (entryChecks .acquire s) [(s.pins.path ≠ .released, .sessionError, 0)] :=
    .cons ⟨bne_iff_ne, rfl⟩ .nil
  refine ⟨⟨by decide, decode_encode .acquire⟩,
    refusesInOrder_of_tests htests fun _ _ h => refuses_of_firstRefusal hu h, fun hpath => ?_⟩
  have hpass : firstRefusal (entryChecks .acquire s) = none :=
    firstRefusal_none_of_tests htests (List.forall_mem_singleton.2 (not_not_intro hpath))
  obtain ⟨hlines, hplays⟩ := acquire_spec (beginCommand .acquire s)
  obtain ⟨t, hend, hends, -, -, heq⟩ := hlines.completes hplays hu
  have hframe : t = { s with pins := { s.pins with path := .bitBang, tck := true }
                             ctl := t.ctl, trace := t.trace, port := t.port } := by
    rw [heq, acquire, emit_eq, beginCommand_eq]
  refine ⟨t, ⟨(execAcquire_runs hpass).trans hend, hends⟩, hframe, ?_⟩
  have hpins : t.pins = { s.pins with path := .bitBang, tck := true } := by rw [hframe]
  rw [callsOf, hpath, if_neg nofun, hpins]

/-- Settles O22: the two checks, then `release()` and its event. -/
theorem releaseCommand : Obligations.ReleaseCommand := by
  intro s hu
  have htests : List.Forall₂ EntryCheck.Tests (entryChecks .release s)
      [(s.pins.path ≠ .bitBang, .sessionError, 0), (s.devmode ≠ .idle, .sessionError, 0)] :=
    .cons ⟨bne_iff_ne, rfl⟩ (.cons ⟨bne_iff_ne, rfl⟩ .nil)
  refine ⟨⟨by decide, decode_encode .release⟩,
    refusesInOrder_of_tests htests fun _ _ h => refuses_of_firstRefusal hu h, fun hpath hmode => ?_⟩
  have hpass : firstRefusal (entryChecks .release s) = none := by
    refine firstRefusal_none_of_tests htests ?_
    simp only [List.forall_mem_cons]
    exact ⟨not_not_intro hpath, not_not_intro hmode, nofun⟩
  obtain ⟨hlines, hplays⟩ := release_spec (beginCommand .release s)
  obtain ⟨t, hend, hends, -, -, heq⟩ := hlines.completes hplays hu
  have hframe : t = { s with pins.path := .released, tap := { s.tap with known := false, ones := 0#3 }
                             ctl := t.ctl, trace := t.trace, port := t.port } := by
    rw [heq, release, emit_eq, beginCommand_eq]
  have hreleased : t.pins.path = .released := by rw [hframe]
  exact ⟨t, ⟨(execRelease_runs hpass).trans hend, hends⟩, hframe, fun x => by rw [hreleased]; rfl⟩

/-! ### Refusals -/

/-- Settles O50: after the start of a refused command only its end follows. -/
theorem refusalChangesNothing : Obligations.RefusalChangesNothing :=
  fun _ _ _ _ hu h => refuses_of_firstRefusal hu h

/-- What is reported is the code of one of the checks. -/
theorem firstRefusal_mem {l : List EntryCheck} {e : ErrorKind} {info : Nat} (h : firstRefusal l = some (e, info)) :
    ∃ bad, (bad, e, info) ∈ l := by
  induction l with
  | nil => cases h
  | cons c l ih =>
    obtain ⟨bad, e', info'⟩ := c
    rw [firstRefusal] at h
    split at h
    · cases h
      exact ⟨bad, List.mem_cons_self⟩
    · obtain ⟨bad', hmem⟩ := ih h
      exact ⟨bad', List.mem_cons_of_mem _ hmem⟩

/-- No entry check reports success. -/
theorem entryChecks_ne_ok (i : Instr) (s : State) : (entryChecks i s).all (fun c => c.2.1 != .ok) = true := by
  cases i <;> rfl

theorem firstRefusal_ne_ok {i : Instr} {s : State} {e : ErrorKind} {info : Nat}
    (h : firstRefusal (entryChecks i s) = some (e, info)) : e ≠ .ok := by
  obtain ⟨bad, hmem⟩ := firstRefusal_mem h
  exact bne_iff_ne.1 (List.all_eq_true.1 (entryChecks_ne_ok i s) _ hmem)

/-! ### What the shared entry checks grant -/

section Granted
variable {s : State} {l : List EntryCheck} (h : firstRefusal l = none)
include h

theorem requireLines_grants (hl : requireLines s ⊆ l) : s.pins.path = .bitBang :=
  lines_of_checks h (hl (List.mem_singleton_self _))

theorem requireKnown_grants (hl : requireKnown s ⊆ l) : s.pins.path = .bitBang ∧ s.tap.known = true := by
  obtain ⟨hlines, hknown⟩ := List.append_subset.1 hl
  have hpassed := firstRefusal_none h _ (hknown (List.mem_singleton_self _))
  exact ⟨requireLines_grants h hlines, by simpa using hpassed⟩

theorem requireTap_grants {entry : List TapState} (hl : requireTap entry s ⊆ l) :
    s.pins.path = .bitBang ∧ s.tap.known = true ∧ s.tap.state ∈ entry := by
  obtain ⟨hlines, htap⟩ := List.append_subset.1 hl
  have hpassed := firstRefusal_none h _ (htap (List.mem_singleton_self _))
  exact ⟨requireLines_grants h hlines, by simpa using hpassed⟩

theorem requireTap_grants_state {st : TapState} (hl : requireTap [st] s ⊆ l) :
    s.pins.path = .bitBang ∧ s.tap.known = true ∧ s.tap.state = st := by
  obtain ⟨hpath, hknown, hstate⟩ := requireTap_grants h hl
  exact ⟨hpath, hknown, List.mem_singleton.1 hstate⟩

theorem requireFlash_grants (hl : requireFlash s ⊆ l) :
    s.devmode = .configuredForFlash ∧ s.pins.path = .bitBang ∧ s.tap.known = true ∧ s.tap.state = .selectDRScan := by
  obtain ⟨hmode, htap⟩ := List.cons_subset.1 hl
  exact ⟨by simpa using firstRefusal_none h _ hmode, requireTap_grants_state h htap⟩

end Granted

theorem DevMode.mem_all (m : DevMode) : m ∈ [DevMode.idle, .configuredForSRAM, .configuredForFlash] := by
  cases m <;> decide

/-- PATH is as the one value a command needs, if it is that value. -/
theorem eq_of_need {path need : Path} (h : path = need) : ∀ p, some need = some p → path = p :=
  fun _ hp => h.trans (Option.some.inj hp)

/-- A command whose checks pass has what it needs of PATH, DEVMODE and the TAP state (spec 60 R294). -/
theorem needs_of_passes {i : Instr} {s : State} (h : firstRefusal (entryChecks i s) = none) :
    (∀ p, pathNeed i = some p → s.pins.path = p) ∧ s.devmode ∈ modeNeed i ∧ tapNeed i s.tap := by
  cases i with
  | rev8 | check | identify | opencfg | openflash | upload => exact ⟨nofun, s.devmode.mem_all, trivial⟩
  | acquire =>
    have hpath := firstRefusal_none h _ (List.mem_singleton_self _)
    exact ⟨eq_of_need (by simpa using hpath), s.devmode.mem_all, trivial⟩
  | release =>
    have hpath := requireLines_grants h (List.subset_append_left _ _)
    have hmode := firstRefusal_none h _ (List.mem_append_right _ (List.mem_singleton_self _))
    exact ⟨eq_of_need hpath, List.mem_singleton.2 (by simpa using hmode), trivial⟩
  | reset =>
    have hpath := requireLines_grants h (List.Subset.refl _)
    exact ⟨eq_of_need hpath, s.devmode.mem_all, trivial⟩
  | shiftbit tdi tms | settms tms =>
    obtain ⟨hpath, hknown⟩ := requireKnown_grants h (List.Subset.refl _)
    exact ⟨eq_of_need hpath, s.devmode.mem_all, hknown⟩
  | idle =>
    obtain ⟨hpath, htap⟩ := requireTap_grants h (List.subset_append_left _ _)
    exact ⟨eq_of_need hpath, s.devmode.mem_all, htap⟩
  | sir idleTail | sdr capture idleTail pause | burstwr | burstrd =>
    obtain ⟨hpath, htap⟩ := requireTap_grants_state h (List.subset_append_left _ _)
    exact ⟨eq_of_need hpath, s.devmode.mem_all, htap⟩
  | close =>
    have hmode := firstRefusal_none h _ List.mem_cons_self
    obtain ⟨hpath, htap⟩ := requireTap_grants_state h (List.subset_cons_self _ _)
    have hopen : s.devmode ∈ [DevMode.configuredForSRAM, .configuredForFlash] :=
      (List.mem_cons.1 s.devmode.mem_all).resolve_left (by simpa using hmode)
    exact ⟨eq_of_need hpath, hopen, htap⟩
  | poll =>
    obtain ⟨hmode, hpath, htap⟩ := requireFlash_grants h (List.Subset.refl _)
    exact ⟨eq_of_need hpath, List.mem_singleton.2 hmode, htap⟩
  | erase | write | read =>
    obtain ⟨hmode, hpath, htap⟩ := requireFlash_grants h (List.subset_append_right _ _)
    exact ⟨eq_of_need hpath, List.mem_singleton.2 hmode, htap⟩

/-- Settles O51: a command that is not refused has what it needs, and no refusal reports success. -/
theorem commandNeeds : Obligations.CommandNeeds := by
  intro i s hu hlacks
  cases h : firstRefusal (entryChecks i s) with
  | some refusal => exact ⟨refusal.1, refusal.2, firstRefusal_ne_ok h, refuses_of_firstRefusal hu h⟩
  | none =>
    obtain ⟨hpath, hmode, htap⟩ := needs_of_passes h
    rcases hlacks with ⟨p, hp, hne⟩ | hlacksMode | hlacksTap
    · exact absurd (hpath p hp) hne
    · exact absurd hmode hlacksMode
    · exact absurd htap hlacksTap

/-! ### Raises -/

/-- An end without error leaves no error, also where a reset came meanwhile. -/
theorem endCommand_ok_err (s : State) : (endCommand .ok 0 s).ctl.err = .ok := by
  rcases endCommand_cases .ok 0 s with ⟨_, heq, -⟩ | ⟨_, _, heq, -⟩
  · rw [heq]
  · rw [heq]
    rfl

theorem complete_err {s t : State} (h : complete s = .next t) : t.ctl.err = .ok :=
  complete_next h ▸ endCommand_ok_err s

theorem endCommand_inTap {s : State} {st : TapState} (e : ErrorKind) (info : Nat) (hu : s.undisturbed)
    (h : s.inTap st) : (endCommand e info s).inTap st := by
  obtain ⟨heq, -⟩ := endCommand_eq e info s hu
  rw [heq]
  exact h

section Passed
variable {i : Instr} {s t : State} (hpass : firstRefusal (entryChecks i s) = none)
include hpass

/-- A command that neither polls nor uploads has no other end than the one without error. -/
theorem exec_completes (hpoll : i ≠ .poll) (herase : i ≠ .erase) (hwrite : i ≠ .write) (hupload : i ≠ .upload)
    (h : exec i s = .next t) : ∃ u, complete u = .next t := by
  cases i with
  | poll | erase | write | upload => contradiction
  | rev8 | burstwr | sdr capture idleTail pause =>
    simp only [exec, execRev8, execBurstwr, execSdr] at h
    rw [command_passed (by rfl) hpass] at h
    obtain ⟨_, -, h⟩ | h := withBuf_next h <;> exact ⟨_, h⟩
  | acquire => exact ⟨_, (execAcquire_runs hpass).symm.trans h⟩
  | release => exact ⟨_, (execRelease_runs hpass).symm.trans h⟩
  | shiftbit tdi tms => exact ⟨_, (execShiftbit_runs tdi tms hpass).symm.trans h⟩
  | settms tms => exact ⟨_, (execSettms_runs tms hpass).symm.trans h⟩
  | reset => exact ⟨_, (execReset_runs hpass).symm.trans h⟩
  | idle => exact ⟨_, (execIdle_runs hpass).symm.trans h⟩
  | sir idleTail => exact ⟨_, (execSir_runs idleTail hpass).symm.trans h⟩
  | check => exact ⟨_, (execCheck_runs s).symm.trans h⟩
  | burstrd => exact ⟨_, (execBurstrd_runs hpass).symm.trans h⟩
  | identify => exact ⟨_, (execIdentify_runs s).symm.trans h⟩
  | opencfg => exact ⟨_, (execOpencfg_runs s).symm.trans h⟩
  | openflash => exact ⟨_, (execOpenflash_runs s).symm.trans h⟩
  | close => exact ⟨_, (execClose_runs hpass).symm.trans h⟩
  | read => exact ⟨_, (execRead_runs hpass).symm.trans h⟩

/-- Only POLL, ERASE, WRITE and UPLOAD raise. -/
theorem raises_of_err (h : exec i s = .next t) (herr : t.ctl.err ≠ .ok) :
    i = .poll ∨ i = .erase ∨ i = .write ∨ i = .upload := by
  by_contra hi
  simp only [not_or] at hi
  obtain ⟨hpoll, herase, hwrite, hupload⟩ := hi
  obtain ⟨u, hu⟩ := exec_completes hpass hpoll herase hwrite hupload h
  exact herr (complete_err hu)

end Passed

/-- An operation of the flash engine from SelectDRScan back to it, and the end of its command. -/
theorem FlashOp.endPolled_inTap {i : Instr} {s u t : State} {evs : List Event} {timedOut : Bool} {info : Nat}
    (h : FlashOp (beginCommand i s) u evs) (hu : s.undisturbed) (htap : u.inTap .selectDRScan)
    (hend : Machine.endPolled timedOut info u = .next t) : t.inTap .selectDRScan := by
  obtain ⟨e, n, rfl⟩ := endPolled_next hend
  exact endCommand_inTap e n (h.undisturbed (beginCommand_undisturbed i s hu)) htap

section FlashCommands
variable {s t : State} (hu : s.undisturbed) (htap : s.inTap .selectDRScan)
include hu htap

theorem poll_inTap (hmode : s.devmode = .configuredForFlash) (h : exec .poll s = .next t) :
    t.inTap .selectDRScan := by
  obtain ⟨t', _, _, _, hrun⟩ := poll_run hu hmode htap
  obtain rfl : t' = t := Host.Outcome.next.inj (hrun.runs.symm.trans h)
  exact hrun.tap

theorem erase_inTap (hpass : firstRefusal (entryChecks .erase s) = none) (h : exec .erase s = .next t) :
    t.inTap .selectDRScan := by
  rw [execErase_runs hpass] at h
  obtain ⟨_, _, hop, -⟩ := eraseBlock_spec s.regs.addr.toNat (beginCommand .erase s)
  exact hop.endPolled_inTap hu (eraseBlock_inTap _ (htap.beginCommand .erase)) h

/-- WRITE, where it raises, has read its bytes. -/
theorem write_inTap (hpass : firstRefusal (entryChecks .write s) = none) (h : exec .write s = .next t)
    (herr : t.ctl.err ≠ .ok) : t.inTap .selectDRScan := by
  simp only [exec, execWrite] at h
  rw [command_passed (by rfl) hpass] at h
  obtain ⟨data, -, h⟩ | h := withBuf_next h
  case inr => exact absurd (complete_err h) herr
  obtain ⟨_, _, hop, -⟩ := writeBlock_spec data (beginCommand .write s).addrOperand (beginCommand .write s)
  exact hop.endPolled_inTap hu (writeBlock_inTap data _ (htap.beginCommand .write)) h

end FlashCommands

/-- UPLOAD opens the flash mode and stays in it (spec 44 R255). -/
theorem upload_flashReady {s t : State} (hb : BetweenCommands s) (hu : s.undisturbed)
    (hpass : firstRefusal (entryChecks .upload s) = none) (h : exec .upload s = .next t) :
    t.inTap .selectDRScan ∧ t.devmode = .configuredForFlash := by
  obtain ⟨v, evs, failure, hexec, hrun⟩ := execUpload_run hb hpass
  obtain rfl : endUpload failure v = t := Host.Outcome.next.inj (hexec.symm.trans h)
  obtain ⟨heq, -⟩ := endUpload_eq failure (hrun.undisturbed hu)
  rw [heq]
  exact ⟨hrun.inTap, hrun.devmode⟩

/-- A command that sets no mode keeps the one it found. -/
theorem exec_devmode {i : Instr} {s t : State} (hb : BetweenCommands s) (hu : s.undisturbed)
    (hi : setsMode i = none) (h : exec i s = .next t) : t.devmode = s.devmode := by
  obtain ⟨-, -, -, -, -, hmode, -⟩ := onlyTheseWrite i s t hb hu h
  by_contra hne
  exact absurd (hi.symm.trans (hmode hne)) nofun

/-- Where a command with the checks of `requireFlash()` begins: the flash mode is open and the TAP is in SelectDRScan. -/
theorem flashReady_of_passes {s : State} {l : List EntryCheck} (hb : BetweenCommands s) (h : firstRefusal l = none)
    (hl : requireFlash s ⊆ l) : s.inTap .selectDRScan ∧ s.devmode = .configuredForFlash := by
  obtain ⟨hmode, hpath, hknown, hstate⟩ := requireFlash_grants h hl
  exact ⟨⟨hpath, hknown, hstate, hb.tapConsistent⟩, hmode⟩

/-- What a command that raises leaves: the flash mode open and the TAP in SelectDRScan. -/
theorem raise_flashReady {i : Instr} {s t : State} (hb : BetweenCommands s) (hu : s.undisturbed)
    (hpass : firstRefusal (entryChecks i s) = none) (h : exec i s = .next t) (herr : t.ctl.err ≠ .ok) :
    t.inTap .selectDRScan ∧ t.devmode = .configuredForFlash := by
  rcases raises_of_err hpass h herr with rfl | rfl | rfl | rfl
  · obtain ⟨htap, hmode⟩ := flashReady_of_passes hb hpass (List.Subset.refl _)
    exact ⟨poll_inTap hu htap hmode h, (exec_devmode hb hu rfl h).trans hmode⟩
  · obtain ⟨htap, hmode⟩ := flashReady_of_passes hb hpass (List.subset_append_right _ _)
    exact ⟨erase_inTap hu htap hpass h, (exec_devmode hb hu rfl h).trans hmode⟩
  · obtain ⟨htap, hmode⟩ := flashReady_of_passes hb hpass (List.subset_append_right _ _)
    exact ⟨write_inTap hu htap hpass h herr, (exec_devmode hb hu rfl h).trans hmode⟩
  · exact upload_flashReady hb hu hpass h

/-- Settles O53: the invariant holds after every command, and a raise leaves the flash mode open. -/
theorem raisedErrorState : Obligations.RaisedErrorState := by
  intro i s t hb hu hpass h herr
  obtain ⟨htap, hmode⟩ := raise_flashReady hb hu hpass h herr
  have hafter : BetweenCommands t := hb.exec h
  exact ⟨raises_of_err hpass h herr, htap, hafter.tckHigh, hmode, hafter⟩

end Sys2Proof.Machine
end

section
/-! PROOFS. With nothing from outside the block waits (spec 70 R322, R351), and how many pulses each command but UPLOAD
makes (R350). -/

namespace Sys2Proof.Machine

/-! ### Waiting for CMD -/

theorem fetch_nothing {s : State} (hi : s.port.inputs = []) : fetch s = .served s := by
  simp only [fetch, hi]

/-- Settles O6: nothing is fetched, so the state is served as it is. -/
theorem stepWaitsWithoutInput : Obligations.StepWaitsWithoutInput :=
  fun _ hi => step_of_served (fetch_nothing hi)

/-! ### The pulses of idle tails, of the scripts and of the flash frames -/

theorem pulseCount_checkEvents (r e m : Word) : pulseCount (checkEvents r e m) = 0 := by
  unfold checkEvents
  split <;> rfl

theorem pulseCount_acquireEvents (p : Path) : pulseCount (acquireEvents p) = 0 := by
  unfold acquireEvents
  split <;> rfl

theorem State.idleTail_false_pulses {s : State} {n : Option Nat} (h : tailPulsesOf (s.idleTail false) n) :
    tailPulses n = 1 := by
  cases n with
  | none => rfl
  | some n => exact h.elim

theorem State.idleTail_true_pulses {s : State} {n : Option Nat} (h : tailPulsesOf (s.idleTail true) n) :
    ∃ k, tailPulses n = s.regs.cyc.toNat + k + 1 := by
  cases n with
  | none => exact h.elim
  | some n =>
    obtain ⟨k, rfl⟩ := Nat.exists_eq_add_of_le h.1
    exact ⟨k, rfl⟩

/-- The configuration script, `k1` and `k2` idle pulses in its two waits (spec 43 R224). -/
theorem ConfigScans.pulses {p : Params} {before after x1 x2 : Bool} {e1 scan1 e2 scan2 : List Event} {k1 k2 : Nat}
    (h : ConfigScans p before e1 scan1 e2 scan2 k1 k2 x1 x2 after) :
    pulseCount (configEvents e1 scan1 e2 scan2) = 229 + k1 + k2 := by
  have henable := segment_pulses h.enable
  have hstatus1 := segment_pulses h.status1
  have herase := segment_pulses h.erase
  have hstatus2 := segment_pulses h.status2
  simp only [Wave.sdr_pulses, Wave.sir_pulses, Wave.reset_pulses, Wave.idle_pulses, Wave.start_pulses, tailPulses,
    byteBits_length, List.length_replicate] at henable hstatus1 herase hstatus2
  simp only [configEvents, pulseCount_append, pulseCount_checkEvents]
  omega

/-- `openForConfiguration()` with the idle pulses its two waits owe and those the clock adds. -/
theorem openForConfiguration_pulses (s : State) :
    ∃ evs k1 k2, Script s (openForConfiguration s).2 evs ∧
      pulseCount evs = 229 + 2 * s.cfg.cfgWait.cycles + k1 + k2 := by
  obtain ⟨e1, scan1, e2, scan2, n1, n2, x1, x2, hscript, hscans, -⟩ := openForConfiguration_scans s
  obtain ⟨k1, rfl⟩ := Nat.exists_eq_add_of_le hscans.wait1.1
  obtain ⟨k2, rfl⟩ := Nat.exists_eq_add_of_le hscans.wait2.1
  exact ⟨_, k1, k2, hscript, by rw [hscans.pulses]; omega⟩

/-- What `openForFlash()` adds to it (spec 43 R226). -/
theorem openForFlash_pulses (s : State) :
    ∃ evs k1 k2, Script s (openForFlash s).2 evs ∧
      pulseCount evs = 229 + 2 * s.cfg.cfgWait.cycles + k1 + k2 + s.cfg.progSpiBits + 108 := by
  obtain ⟨e1, k1, k2, hconfig, hcount⟩ := openForConfiguration_pulses s
  obtain ⟨e2, _, _, hflash, hwave, rfl, rfl, -⟩ := openForFlash_spec s
  have hentry := segment_pulses hwave
  simp only [Wave.flashEntry, Wave.sdr_pulses, Wave.sirOp_pulses, Wave.scriptStart_pulses, Wave.start_pulses,
    tailPulses, numberBits_length, Config.longIdleCycles] at hentry
  exact ⟨_, k1, k2, hconfig.trans hflash, by rw [pulseCount_append]; omega⟩

theorem Wave.close_pulses (p : Params) (k : Nat) (w : Wave) : (w.close p k).pulses = w.pulses + 144 + k := by
  simp only [Wave.close, Wave.reset_pulses, Wave.sirOp_pulses, Wave.sdr_pulses, bitsOf_length, List.length_singleton,
    tailPulses, Config.longIdleCycles]
  omega

theorem Wave.burstFrame_pulses (useBurst : Bool) (bytes : List Byte) (finalByte : Byte) (w : Wave) :
    (w.burstFrame useBurst bytes finalByte).pulses = w.pulses + 8 * (bytes.length + 1) + 6 := by
  simp only [Wave.burstFrame, Wave.tms_pulses, Wave.burst_pulses, List.length_cons, List.length_nil]
  omega

theorem addressBytes_length (a : Nat) : (addressBytes a).length = 3 := rfl

theorem Wave.readBlock_pulses (p : Params) (a n : Nat) (w : Wave) :
    (w.readBlock p a n).pulses = w.pulses + 8 * (4 + p.dummyBytes + n + 1) + 6 := by
  simp only [Wave.readBlock, Wave.burstFrame_pulses, List.length_append, List.length_cons, List.length_replicate,
    addressBytes_length]

/-- `eraseBlock(a)`: the three frames, and 22 pulses for each status read of its poll (spec 44 R245). -/
theorem EraseTrace.pulses {p : Params} {a : Nat} {tdi : Bool} {evs : List Event} {sr : Byte} {timedOut : Bool}
    (h : EraseTrace p a tdi evs sr timedOut) : ∃ m ≤ p.erasePoll.attempts, pulseCount evs = 74 + 22 * m := by
  obtain ⟨e1, scan, e2, e3, x1, x2, rfl, henable, hstatus, herase, hpoll⟩ := h
  obtain ⟨m, hm, hcount, -⟩ := pollTrace_counts hpoll
  have henable := (frame_counts henable).1
  have hstatus := (frame_counts hstatus).1
  have herase := (frame_counts herase).1
  simp only [List.length_cons, List.length_nil, addressBytes_length] at henable hstatus herase
  refine ⟨m, hm, ?_⟩
  simp only [pulseCount_append, pulseCount_checkEvents]
  omega

/-- `writeBlock(data, a)`: the write-enable frame, the program frame, and its poll (spec 44 R248). -/
theorem WriteTrace.pulses {p : Params} {data : List Byte} {a : Nat} {tdi : Bool} {before : Byte} {evs : List Event}
    {sr : Byte} {timedOut : Bool} (h : WriteTrace p data a tdi before evs sr timedOut) (hdata : data.length ≠ 0) :
    ∃ m ≤ p.writePoll.attempts, pulseCount evs = 14 + 8 * (4 + data.length) + 6 + 22 * m := by
  obtain ⟨e1, e2, x, rfl, hprogram, hpoll⟩ := h
  obtain ⟨m, hm, hcount, -⟩ := pollTrace_counts hpoll
  have hprogram := segment_pulses hprogram
  simp only [Wave.burstFrame_pulses, Wave.frame, Wave.sdr_pulses, Wave.start_pulses, tailPulses, bitsOf_length,
    List.map_cons, List.map_nil, List.length_cons, List.length_nil, List.length_append, List.length_dropLast,
    addressBytes_length] at hprogram
  refine ⟨m, hm, ?_⟩
  rw [pulseCount_append]
  omega

/-! ### A command that has passed its checks -/

/-- An undisturbed command, its checks passed, has come from s to t with the events `evs`. -/
structure PassedRun (i : Instr) (s t : State) (evs : List Event) : Prop where
  undisturbed : s.undisturbed
  passes : firstRefusal (entryChecks i s) = none
  runs : exec i s = .next t
  events : newEvents s t evs

namespace PassedRun
variable {i : Instr} {s t u : State} {evs acted : List Event}

/-- The end of a command makes no pulse. -/
theorem pulses_of_endsWith (r : PassedRun i s t evs) {e : ErrorKind} {info : Nat} (h : EndsWith s t e info acted) :
    pulseCount evs = pulseCount acted := by
  rw [newEvents_unique r.events h.events, pulseCount_append]
  rfl

theorem pulses_of_end (r : PassedRun i s t evs) {e : ErrorKind} {info : Nat} (hend : t = endCommand e info u)
    (h : Acts (beginCommand i s) u acted) : pulseCount evs = pulseCount acted :=
  r.pulses_of_endsWith (hend ▸ h.endsWith r.undisturbed e info)

theorem pulses_of_complete (r : PassedRun i s t evs) (hrun : exec i s = complete u)
    (h : Acts (beginCommand i s) u acted) : pulseCount evs = pulseCount acted :=
  r.pulses_of_end (complete_next (hrun.symm.trans r.runs)) h

theorem pulses_of_endPolled (r : PassedRun i s t evs) {timedOut : Bool} {info : Nat}
    (hrun : exec i s = endPolled timedOut info u) (h : Acts (beginCommand i s) u acted) :
    pulseCount evs = pulseCount acted := by
  obtain ⟨_, _, hend⟩ := endPolled_next (hrun.symm.trans r.runs)
  exact r.pulses_of_end hend h

/-- A command that reads BUF and has come to its end has found every byte of its range. -/
theorem bytesRead (r : PassedRun i s t evs) {n : Nat} (hread : bufRead i s = some n) :
    ∃ bytes : List Byte, bytes.length = n ∧ bufHolds s s.regs.buf.toNat bytes := by
  obtain ⟨_, -, hexec⟩ := exec_reads r.passes hread
  cases hrange : Memory.readRange s.buf s.regs.buf.toNat n with
  | some bytes => exact ⟨bytes, Memory.readRange_some _ _ _ _ hrange⟩
  | none =>
    have hfault : exec i s = .fault .bufNeverWritten := by
      rw [hexec]
      exact withBuf_none (beginCommand_undisturbed i s r.undisturbed).1 (by rw [beginCommand_buf, hrange])
    exact nomatch hfault.symm.trans r.runs

/-! ### The commands, one by one (spec 70 R350) -/

theorem acquire_pulses (r : PassedRun .acquire s t evs) : pulseCount evs = 0 :=
  r.pulses_of_complete (execAcquire_runs r.passes) (acquire_spec _).1.toMoves.acts

theorem release_pulses (r : PassedRun .release s t evs) : pulseCount evs = 0 :=
  r.pulses_of_complete (execRelease_runs r.passes) (release_spec _).1.toMoves.acts

theorem shiftbit_pulses {tdi tms : Bool} (r : PassedRun (.shiftbit tdi tms) s t evs) : pulseCount evs = 1 :=
  r.pulses_of_complete (execShiftbit_runs tdi tms r.passes) ((pulse_lines _ _ _).toMoves.acts.setRes _)

theorem settms_pulses {tms : Bool} (r : PassedRun (.settms tms) s t evs) : pulseCount evs = 1 :=
  r.pulses_of_complete (execSettms_runs tms r.passes) (setTms_lines _ _).toMoves.acts

theorem rev8_pulses (r : PassedRun .rev8 s t evs) : pulseCount evs = 0 := by
  obtain ⟨bytes, hlen, hbytes⟩ := r.bytesRead rfl
  exact r.pulses_of_complete (execRev8_runs r.passes hlen hbytes) ((Moves.refl _).acts.setBuf _)

theorem reset_pulses (r : PassedRun .reset s t evs) : pulseCount evs = 6 := by
  obtain ⟨_, hlines, -, hcount⟩ := tapReset_spec (beginCommand .reset s)
  exact (r.pulses_of_complete (execReset_runs r.passes) hlines.toMoves.acts).trans hcount

theorem idle_pulses (r : PassedRun .idle s t evs) : ∃ k, pulseCount evs = s.regs.cyc.toNat + k + 1 := by
  obtain ⟨_, n, hlines, hplays, hidle, -⟩ := idle_spec s.idleOperand (beginCommand .idle s)
  obtain ⟨k, rfl⟩ := Nat.exists_eq_add_of_le hidle.1
  refine ⟨k, ?_⟩
  rw [r.pulses_of_complete (execIdle_runs r.passes) hlines.toMoves.acts, plays_pulses hplays.plays, Wave.idle_pulses,
    Wave.start_pulses, Nat.zero_add]
  rfl

/-- SIR with the pulses of whatever tail it has. -/
theorem sir_pulses {f : Bool} (r : PassedRun (.sir f) s t evs) :
    ∃ n, tailPulsesOf (s.idleTail f) n ∧ pulseCount evs = s.regs.len.toNat + 6 + tailPulses n := by
  obtain ⟨_, n, hlines, hplays, htail⟩ := sir_spec s.instructionBits (s.idleTail f) (beginCommand (.sir f) s)
  refine ⟨n, htail, ?_⟩
  rw [r.pulses_of_complete (execSir_runs f r.passes) hlines.toMoves.acts, plays_pulses hplays.plays, Wave.sir_pulses,
    Wave.start_pulses, State.instructionBits, numberBits_length, Nat.zero_add]
  rfl

/-- SDR with the pulses of whatever tail it has; neither the capture nor the pause makes one. -/
theorem sdr_pulses {c f p : Bool} (r : PassedRun (.sdr c f p) s t evs) :
    ∃ n, tailPulsesOf (s.idleTail f) n ∧ pulseCount evs = s.regs.len.toNat + 5 + tailPulses n := by
  obtain ⟨bytes, hlen, hbytes⟩ := r.bytesRead (n := (s.regs.len.toNat + 7) / 8) rfl
  obtain ⟨acted, n, hlines, hplays, htail, -⟩ := sdr_spec (bitsOf bytes s.regs.len.toNat) (s.pauseOperand p)
    (s.idleTail f) (beginCommand (.sdr c f p) s)
  have hrun := execSdr_runs c f p r.passes hlen hbytes
  have hcount : pulseCount evs = pulseCount acted := by
    cases c with
    | true => exact r.pulses_of_complete hrun (hlines.toMoves.acts.setBuf _)
    | false => exact r.pulses_of_complete hrun hlines.toMoves.acts
  have hbits : (bitsOf bytes s.regs.len.toNat).length = s.regs.len.toNat := by
    rw [bitsOf_length]
    omega
  refine ⟨n, htail, ?_⟩
  rw [hcount, plays_pulses hplays.plays, Wave.sdr_pulses, Wave.start_pulses, hbits, Nat.zero_add]

theorem check_pulses (r : PassedRun .check s t evs) : pulseCount evs = 0 :=
  (r.pulses_of_complete (execCheck_runs s) ((check_moves _ _ _ _).acts.setRes _)).trans (pulseCount_checkEvents _ _ _)

theorem burstwr_pulses (r : PassedRun .burstwr s t evs) : pulseCount evs = 8 * (4 + s.regs.len.toNat) := by
  obtain ⟨bytes, hlen, hbytes⟩ := r.bytesRead rfl
  obtain ⟨_, hlines, hplays, -⟩ := burstWrite_spec (prefixBytes s.regs.val) bytes.dropLast (bytes.getLastD 0#8)
    (beginCommand .burstwr s)
  have hnonempty : s.regs.len.toNat ≠ 0 := (requireBuf_range r.passes).2
  rw [r.pulses_of_complete (execBurstwr_runs r.passes hlen hbytes) hlines.toMoves.acts, plays_pulses hplays.plays,
    Wave.burst_pulses, Wave.start_pulses, List.length_append, List.length_dropLast, prefixBytes_length, hlen]
  omega

theorem burstrd_pulses (r : PassedRun .burstrd s t evs) :
    pulseCount evs = 8 * (4 + s.cfg.dummyBytes + s.regs.len.toNat + 1) := by
  obtain ⟨_, hlines, hplays, -⟩ := burstRead_spec (prefixBytes s.regs.val) s.regs.len.toNat
    (beginCommand .burstrd s)
  rw [r.pulses_of_complete (execBurstrd_runs r.passes) (hlines.toMoves.acts.setBuf _), plays_pulses hplays.plays,
    Wave.burst_pulses, Wave.start_pulses, List.length_append, List.length_append, List.length_replicate,
    List.length_replicate, prefixBytes_length, beginCommand_cfg, Nat.zero_add]

/-- IDENTIFY's pulses are among what its own statement says of its events. -/
theorem identify_pulses (r : PassedRun .identify s t evs) : pulseCount evs = 61 := by
  obtain ⟨-, t', e1, scan, _, ⟨hrun, hends⟩, -, -, hcount, -⟩ := identifyCommand s r.undisturbed
  obtain rfl : t' = t := Host.Outcome.next.inj (hrun.symm.trans r.runs)
  have hrelease : pulseCount (if s.pins.path = .released then [.path .released] else []) = 0 := by
    split <;> rfl
  rw [r.pulses_of_endsWith hends]
  simp only [pulseCount_append, pulseCount_acquireEvents, hrelease] at hcount ⊢
  omega

theorem opencfg_pulses (r : PassedRun .opencfg s t evs) :
    ∃ k1 k2, pulseCount evs = 229 + 2 * s.cfg.cfgWait.cycles + k1 + k2 := by
  have hacquire := (acquireIfReleased_spec (beginCommand .opencfg s)).1
  obtain ⟨_, k1, k2, hscript, hcount⟩ := openForConfiguration_pulses (acquireIfReleased (beginCommand .opencfg s))
  rw [hacquire.cfg, beginCommand_cfg] at hcount
  refine ⟨k1, k2, ?_⟩
  rw [r.pulses_of_complete (execOpencfg_runs s) ((hacquire.toMoves.trans hscript.toMoves).acts.setRes _),
    pulseCount_append, pulseCount_acquireEvents, hcount, Nat.zero_add]

theorem openflash_pulses (r : PassedRun .openflash s t evs) :
    ∃ k1 k2, pulseCount evs = 229 + 2 * s.cfg.cfgWait.cycles + k1 + k2 + s.cfg.progSpiBits + 108 := by
  have hacquire := (acquireIfReleased_spec (beginCommand .openflash s)).1
  obtain ⟨_, k1, k2, hscript, hcount⟩ := openForFlash_pulses (acquireIfReleased (beginCommand .openflash s))
  rw [hacquire.cfg, beginCommand_cfg] at hcount
  refine ⟨k1, k2, ?_⟩
  rw [r.pulses_of_complete (execOpenflash_runs s) ((hacquire.toMoves.trans hscript.toMoves).acts.setRes _),
    pulseCount_append, pulseCount_acquireEvents, hcount, Nat.zero_add]

theorem close_pulses (r : PassedRun .close s t evs) :
    ∃ k, pulseCount evs = 144 + s.cfg.refreshWait.cycles + k := by
  obtain ⟨scans, n, hlines, hplays, hidle⟩ := closeScans_spec (beginCommand .close s)
  rw [beginCommand_cfg] at hplays hidle
  obtain ⟨k, rfl⟩ := Nat.exists_eq_add_of_le hidle.1
  have hrelease := (release_spec { closeScans (beginCommand .close s) with devmode := .idle }).1.toMoves.acts
  have hcount : pulseCount evs = pulseCount scans :=
    (r.pulses_of_complete (execClose_runs r.passes) ((hlines.toMoves.acts.setMode .idle).trans hrelease)).trans
      (pulseCount_append _ _)
  refine ⟨k, ?_⟩
  rw [hcount, plays_pulses hplays.plays, Wave.close_pulses, Wave.start_pulses]
  omega

theorem poll_pulses (r : PassedRun .poll s t evs) : ∃ m ≤ s.regs.att.toNat, pulseCount evs = 22 * m := by
  obtain ⟨acted, hop, htrace, -⟩ := pollStatus_spec s.regs.att.toNat s.regs.dly.toNat (beginCommand .poll s)
  obtain ⟨m, hm, hcount, -⟩ := pollTrace_counts htrace
  refine ⟨m, hm, (r.pulses_of_endPolled (execPoll_runs r.passes) ?_).trans hcount⟩
  split
  · exact hop.toMoves.acts
  · exact hop.toMoves.acts.setRes _

theorem erase_pulses (r : PassedRun .erase s t evs) :
    ∃ m ≤ s.cfg.erasePoll.attempts, pulseCount evs = 74 + 22 * m := by
  obtain ⟨_, _, hop, htrace, -⟩ := eraseBlock_spec s.regs.addr.toNat (beginCommand .erase s)
  rw [beginCommand_cfg] at htrace
  rw [r.pulses_of_endPolled (execErase_runs r.passes) hop.toMoves.acts]
  exact htrace.pulses

theorem write_pulses (r : PassedRun .write s t evs) :
    ∃ m ≤ s.cfg.writePoll.attempts, pulseCount evs = 14 + 8 * (4 + s.regs.len.toNat) + 6 + 22 * m := by
  obtain ⟨data, hlen, hbytes⟩ := r.bytesRead rfl
  obtain ⟨_, _, hop, htrace, -⟩ := writeBlock_spec data s.regs.addr.toNat (beginCommand .write s)
  have hnonempty : s.regs.len.toNat ≠ 0 := (requireLength_range r.passes).2.1
  rw [beginCommand_cfg] at htrace
  rw [r.pulses_of_endPolled (execWrite_runs r.passes hlen hbytes) hop.toMoves.acts, ← hlen]
  exact htrace.pulses (hlen ▸ hnonempty)

theorem read_pulses (r : PassedRun .read s t evs) :
    pulseCount evs = 8 * (4 + s.cfg.dummyBytes + s.regs.len.toNat + 1) + 6 := by
  obtain ⟨_, hlines, hplays, -⟩ := readBlock_spec s.regs.addr.toNat s.regs.len.toNat (beginCommand .read s)
  rw [r.pulses_of_complete (execRead_runs r.passes) (hlines.toMoves.acts.setBuf _), plays_pulses hplays.plays,
    Wave.readBlock_pulses, Wave.start_pulses, beginCommand_cfg, Nat.zero_add]

/-- SIR's count with its tail told apart. -/
theorem sir_owed {f : Bool} (r : PassedRun (.sir f) s t evs) : pulsesOwed (.sir f) s (pulseCount evs) := by
  obtain ⟨n, htail, hcount⟩ := r.sir_pulses
  cases f with
  | false => exact hcount.trans (by rw [State.idleTail_false_pulses htail])
  | true =>
    obtain ⟨k, htail⟩ := State.idleTail_true_pulses htail
    exact ⟨k, by omega⟩

/-- SDR's count with its tail told apart. -/
theorem sdr_owed {c f p : Bool} (r : PassedRun (.sdr c f p) s t evs) :
    pulsesOwed (.sdr c f p) s (pulseCount evs) := by
  obtain ⟨n, htail, hcount⟩ := r.sdr_pulses
  cases f with
  | false => exact hcount.trans (by rw [State.idleTail_false_pulses htail])
  | true =>
    obtain ⟨k, htail⟩ := State.idleTail_true_pulses htail
    exact ⟨k, by omega⟩

end PassedRun

/-- Settles O54, command by command. -/
theorem pulseCounts : Obligations.PulseCounts := by
  intro i s t evs hu hpass h hnew
  have r : PassedRun i s t evs := ⟨hu, hpass, h, hnew⟩
  cases i with
  | acquire => exact r.acquire_pulses
  | release => exact r.release_pulses
  | shiftbit tdi tms => exact r.shiftbit_pulses
  | settms tms => exact r.settms_pulses
  | rev8 => exact r.rev8_pulses
  | reset => exact r.reset_pulses
  | idle => exact r.idle_pulses
  | sir idleTail => exact r.sir_owed
  | sdr capture idleTail pause => exact r.sdr_owed
  | check => exact r.check_pulses
  | burstwr => exact r.burstwr_pulses
  | burstrd => exact r.burstrd_pulses
  | identify => exact r.identify_pulses
  | opencfg => exact r.opencfg_pulses
  | openflash => exact r.openflash_pulses
  | close => exact r.close_pulses
  | poll => exact r.poll_pulses
  | erase => exact r.erase_pulses
  | write => exact r.write_pulses
  | read => exact r.read_pulses
  | upload => trivial

end Sys2Proof.Machine
end
